-- ==== Sys2Proof/Word.lean ====
section
/-! DEFINITION. The word types of the block: registers (R21), 8-bit and 32-bit elements (R30, R31). -/

namespace Sys2Proof

/-- A register as the host sees it: `XLEN = 64` bits (R6, R21). -/
abbrev Reg64 := BitVec 64

/-- An element of `DATA`, `XF`, `SYM`, `TEXT` or `MTFL` (R30, R31). -/
abbrev Byte := BitVec 8

/-- An element of `SUF`, `RANK`, `GROUP`, `NEXT`, `FREQ` or `CUM` (R30, R31). -/
abbrev Elem32 := BitVec 32

/-- A command word (R80). -/
abbrev CommandWord := BitVec 32

end Sys2Proof
end

