-- ==== Sys2Proof/Config.lean ====
section
/-! DEFINITION. The parameters of rule R6, and the one free value of the model. -/

namespace Sys2Proof.Config

/-- `RC_BITS` (R6, R7). -/
def rcBits : Nat := 32

/-- `NORM = 2^RC_BITS` (R6). -/
def norm : Nat := 4294967296

/-- `HALF = NORM / 2` (R6). -/
def half : Nat := 2147483648

/-- `QCAP`, the slots of the pending-bit ring (R6, R151). -/
def qcap : Nat := 128

/-- `QMASK = QCAP - 1` (R6, R151). -/
def qmask : Nat := 127

/-- `SORT_INSERTION_THRESHOLD` (R6, R104). -/
def insertionThreshold : Nat := 72

/-- `RADIX_DIGIT_BITS` (R6, R106). -/
def radixDigitBits : Nat := 8

/-- `NSYM`, the alphabet size of bytes, codes and the frequency table (R6). -/
def nsym : Nat := 256

/-- `LINE_WIDTH` (R6, R166). -/
def lineWidth : Nat := 80

/-- `LEN_DENOM = 2^31 - 1` (R6, R203). -/
def lenDenom : Nat := 2147483647

/-- The largest value the OPEN parameter `NMAX` may take, `2^31 - 2` (R6, R8). -/
def nmaxBound : Nat := 2147483646

/-- The value of the OPEN parameter `NMAX` in `State.reset`. DESIGN CHOICE (assumption 1): the start state
of the spec's own vectors. The step itself reads `NMAX` from the register `CFG_NMAX` of the state. -/
def nmax : Nat := 1048576

/-- The value of the OPEN parameter `TMAX` in `State.reset`. DESIGN CHOICE (assumption 1), as `nmax`. -/
def tmax : Nat := 2097152

/-- FREE VALUE (assumption 2): what the element `index` of space `space`, `w` bits wide, answers to a read
when nothing has written it since the power-up number `powerUp` (R32, R280: the element holds no value, and
no value is ever picked for it). It has no body, so nothing can be proved of it. -/
opaque unwritten (w powerUp space index : Nat) : BitVec w

end Sys2Proof.Config
end

