-- ==== Sys2Proof/Syntax.lean ====
section
/-! DEFINITION. The commands of `CORE-CMD v1`: one constructor per row of the opcode map (R81). -/

namespace Sys2Proof

/-- The twenty commands (R81). No command carries an immediate or a register field (R83), so no constructor has
an argument: operands are the registers and buffers the command's rule names. -/
inductive Instr where
  /-- `NOP`, R230. -/
  | nop
  /-- `RESET`, R231. -/
  | reset
  /-- `SORT`, R100. -/
  | sort
  /-- `BWTF`, R120. -/
  | bwtf
  /-- `BWTI`, R122. -/
  | bwti
  /-- `MTFE`, R136. -/
  | mtfe
  /-- `MTFD`, R137. -/
  | mtfd
  /-- `RCEI`, R155. -/
  | rcei
  /-- `RCDI`, R168. -/
  | rcdi
  /-- `RCENC`, R157. -/
  | rcenc
  /-- `RCDEC`, R171. -/
  | rcdec
  /-- `RCSCL`, R172. -/
  | rcscl
  /-- `RCFIN`, R165. -/
  | rcfin
  /-- `FREQ`, R201. -/
  | freq
  /-- `HDRE`, R202. -/
  | hdre
  /-- `SYME`, R205. -/
  | syme
  /-- `HDRD`, R206. -/
  | hdrd
  /-- `SYMD`, R207. -/
  | symd
  /-- `COMP`, R209. -/
  | comp
  /-- `DECOMP`, R210. -/
  | decomp
deriving DecidableEq, Repr

end Sys2Proof
end

