-- ==== Sys2Proof/Actions.lean ====
section
/-! DEFINITION. What the host can name and do: the registers of R21, the twelve spaces of R60, the actions of R236. -/

namespace Sys2Proof

/-- The registers of the map R21. -/
inductive Reg where
  | cmd | status | fault | finfo | n | bidx | arg0 | arg1 | arg2 | res | tlen | tpos | step | cmdcnt
  | low | range | qpos | qlen | oacc | ocnt | ochars | iacc | icnt
  | cfgNmax | cfgTmax | cfgBits | cfgQcap | cfgThresh | cfgLine | cfgLenden
deriving DecidableEq, Repr

/-- The twelve host-visible address spaces, in the order of their numbers 0 to 11 (R60). -/
inductive Space where
  | data | xf | sym | text | suf | rank | group | next | freq | cum | mtfl | qcount
deriving DecidableEq, Repr

/-- One action of a host program (R236, syntax R85). A command `<MNEMONIC>` is the `wr` of its word to register
0x00 (`CMD`). Registers and spaces are named by number, so that reserved numbers can be written down. -/
inductive HostAction where
  /-- `WR reg, v`. -/
  | wr (reg : Nat) (v : Reg64)
  /-- `RD reg`. -/
  | rd (reg : Nat)
  /-- `WRB space, i, v0, v1, ...`. -/
  | wrb (space i : Nat) (vs : List Reg64)
  /-- `RDB space, i, count`. -/
  | rdb (space i count : Nat)
deriving DecidableEq, Repr

end Sys2Proof
end

