-- ==== Sys2Proof/Machine/HostMap.lean ====
section
/-! DEFINITION. The host's map: register numbers and rights (R21), space numbers, element counts, widths and
rights (R30, R31, R60). `HOST_MAP`, the bus addresses, is OPEN and nothing here depends on it (R65). -/

namespace Sys2Proof.Machine

/-- The register numbers (R21). -/
def regNumbers : List (Nat × Reg) :=
  [(0x00, .cmd), (0x01, .status), (0x02, .fault), (0x03, .finfo), (0x04, .n), (0x05, .bidx), (0x06, .arg0),
   (0x07, .arg1), (0x08, .arg2), (0x09, .res), (0x0A, .tlen), (0x0B, .tpos), (0x0C, .step), (0x0D, .cmdcnt)] ++
  [(0x10, .low), (0x11, .range), (0x12, .qpos), (0x13, .qlen), (0x14, .oacc), (0x15, .ocnt), (0x16, .ochars),
   (0x17, .iacc), (0x18, .icnt)] ++
  [(0x20, .cfgNmax), (0x21, .cfgTmax), (0x22, .cfgBits), (0x23, .cfgQcap), (0x24, .cfgThresh), (0x25, .cfgLine),
   (0x26, .cfgLenden)]

/-- The register with a number; `none` for a reserved number (R21). -/
def regOfNumber (k : Nat) : Option Reg :=
  (regNumbers.find? (fun row => row.1 == k)).map Prod.snd

/-- The host's right to write a register: the rows marked RW in R21. -/
def regHostWrites : Reg → Bool
  | .cmd | .n | .bidx | .arg0 | .arg1 | .arg2 | .tlen => true
  | .status | .fault | .finfo | .res | .tpos | .step | .cmdcnt => false
  | .low | .range | .qpos | .qlen | .oacc | .ocnt | .ochars | .iacc | .icnt => false
  | .cfgNmax | .cfgTmax | .cfgBits | .cfgQcap | .cfgThresh | .cfgLine | .cfgLenden => false

/-- The number of a space (R60). -/
def spaceNumber : Space → Nat
  | .data => 0 | .xf => 1 | .sym => 2 | .text => 3 | .suf => 4 | .rank => 5 | .group => 6 | .next => 7
  | .freq => 8 | .cum => 9 | .mtfl => 10 | .qcount => 11

/-- The space with a number; `none` above 11 (R60). -/
def spaceOfNumber (k : Nat) : Option Space :=
  [Space.data, .xf, .sym, .text, .suf, .rank, .group, .next, .freq, .cum, .mtfl, .qcount][k]?

/-- The element width of a space in bits (R30, R31, R64). -/
def spaceWidth : Space → Nat
  | .data | .xf | .sym | .text | .mtfl => 8
  | .suf | .rank | .group | .next | .freq | .cum => 32
  | .qcount => 64

/-- The number of elements of a space, from `NMAX` and `TMAX` (R30, R31). -/
def spaceCount (nmax tmax : Nat) : Space → Nat
  | .data | .xf | .sym | .suf | .rank | .next => nmax
  | .group => nmax + 1
  | .text => tmax
  | .freq | .mtfl => Config.nsym
  | .cum => Config.nsym + 1
  | .qcount => Config.qcap

/-- The host's right to write a space: the rows marked RW in R30 and R31. -/
def spaceHostWrites : Space → Bool
  | .data | .xf | .sym | .text | .freq | .cum => true
  | .suf | .rank | .group | .next | .mtfl | .qcount => false

end Sys2Proof.Machine
end

