-- ==== Sys2Proof/WellFormed.lean ====
section
/-! DEFINITION. Well-formedness of what is given to the block: commands, command words (R80, R84), host actions
(R60, R63, U8, U9). -/

namespace Sys2Proof

/-- A command is always well formed: it has no operand field to be out of range (R83). -/
def Instr.wellFormed (_ : Instr) : Bool := true

/-- The reserved field of a command word is 0 (R80). -/
def CommandWord.reservedClear (w : CommandWord) : Bool := w.toNat / 256 == 0

/-- The opcode field is outside the unassigned ranges R84 lists. -/
def CommandWord.opcodeAssigned (w : CommandWord) : Bool :=
  let opc := w.toNat % 256
  !((0x02 ≤ opc && opc ≤ 0x0F) || (0x15 ≤ opc && opc ≤ 0x1F) || (0x26 ≤ opc && opc ≤ 0x2F) ||
    (0x35 ≤ opc && opc ≤ 0x3F) || 0x42 ≤ opc)

/-- A command word that is one of the twenty commands and not illegal (R84). -/
def CommandWord.wellFormed (w : CommandWord) : Bool := w.reservedClear && w.opcodeAssigned

/-- A host access to `count` elements from `i` stays inside the space (R60, R63). -/
def Space.inRange (nmax tmax : Nat) (sp : Space) (i count : Nat) : Bool :=
  count == 0 || i + count ≤ Machine.spaceCount nmax tmax sp

/-- Every value fits the element width (R60: `v < 2^w`). -/
def Space.fits (sp : Space) (vs : List Reg64) : Bool :=
  vs.all (fun v => v.toNat < 2 ^ Machine.spaceWidth sp)

/-- A host action the interface admits (R21, R60, R63; U8, U9): assigned numbers, indices below the element count and, for a
write, write access and values that fit (a register takes any 64-bit value). -/
def HostAction.wellFormed (nmax tmax : Nat) : HostAction → Bool
  | .wr reg _ => (Machine.regOfNumber reg).any Machine.regHostWrites
  | .rd reg => (Machine.regOfNumber reg).isSome
  | .wrb space i vs =>
    match Machine.spaceOfNumber space with
    | none => false
    | some sp => Machine.spaceHostWrites sp && sp.inRange nmax tmax i vs.length && sp.fits vs
  | .rdb space i count =>
    match Machine.spaceOfNumber space with
    | none => false
    | some sp => sp.inRange nmax tmax i count

end Sys2Proof
end

