-- ==== Sys2Proof/Decode.lean ====
section
/-! DEFINITION. Decoding and encoding of command words (R80, R81, R84). -/

namespace Sys2Proof

/-- Why a word is no command (R84). Both reasons raise `ILLEGAL_CMD` (R82 step 4). -/
inductive DecodeError where
  /-- `w[31:8] != 0`. -/
  | reservedBits
  /-- `w[7:0]` is not an opcode of R81. -/
  | unassignedOpcode
deriving DecidableEq, Repr

/-- The opcode map as the table of R81 lists it. -/
def opcodeMap : List (Nat × Instr) :=
  [(0x00, .nop), (0x01, .reset)] ++
  [(0x10, .sort), (0x11, .bwtf), (0x12, .bwti), (0x13, .mtfe), (0x14, .mtfd)] ++
  [(0x20, .rcei), (0x21, .rcdi), (0x22, .rcenc), (0x23, .rcdec), (0x24, .rcscl), (0x25, .rcfin)] ++
  [(0x30, .freq), (0x31, .hdre), (0x32, .syme), (0x33, .hdrd), (0x34, .symd)] ++
  [(0x40, .comp), (0x41, .decomp)]

/-- Field `rsv`, bits 31:8 of a word (R80). -/
def rsvField (w : CommandWord) : Nat := w.toNat / 256

/-- Field `opc`, bits 7:0 of a word (R80). -/
def opcField (w : CommandWord) : Nat := w.toNat % 256

/-- The command a word stands for, or why there is none: total on all 2^32 words (R84). -/
def decode (w : CommandWord) : Except DecodeError Instr :=
  if rsvField w = 0 then
    match opcodeMap.find? (fun row => row.1 == opcField w) with
    | some row => .ok row.2
    | none => .error .unassignedOpcode
  else .error .reservedBits

/-- The opcode of a command (R81). -/
def Instr.opcode : Instr → Nat
  | .nop => 0x00
  | .reset => 0x01
  | .sort => 0x10
  | .bwtf => 0x11
  | .bwti => 0x12
  | .mtfe => 0x13
  | .mtfd => 0x14
  | .rcei => 0x20
  | .rcdi => 0x21
  | .rcenc => 0x22
  | .rcdec => 0x23
  | .rcscl => 0x24
  | .rcfin => 0x25
  | .freq => 0x30
  | .hdre => 0x31
  | .syme => 0x32
  | .hdrd => 0x33
  | .symd => 0x34
  | .comp => 0x40
  | .decomp => 0x41

/-- The word of a command: `rsv = 0` above its opcode (R80, R81). -/
def encode (i : Instr) : CommandWord := BitVec.ofNat 32 i.opcode

/-- The command the decoder reads from an opcode-table word. A command word is one 32-bit quantity written to
`CMD` whole (R80), so no byte order takes part; bits above `nbits` are 0. -/
def decodeTableWord (nbits w : Nat) : Option Instr :=
  match decode (BitVec.ofNat 32 (w % 2 ^ nbits)) with
  | .ok i => some i
  | .error _ => none

end Sys2Proof
end

