-- ==== Sys2Proof/Machine/State.lean ====
section
/-! DEFINITION. The state of the block (R20 to R35, R280) and of the host that drives it (R236), as plain data. -/

namespace Sys2Proof.Machine

/-- The elements of one space that hold a value: `(index, value)` pairs with strictly rising indices and no pair
equal to what an unlisted index holds (see `Memory.wf`, `unlisted`). For an 8-bit space it is a list of `Host.Cell`. -/
abbrev Memory (w : Nat) := List (Nat × BitVec w)

/-- `STATUS.RCMODE` (R22, R25). -/
inductive RcMode where
  | idle | encoding | decoding | finished
deriving DecidableEq, Repr

/-- The fault codes register `FAULT` holds (R250). -/
inductive FaultCode where
  | none | illegalCmd | badLength | badIndex | rcMode | rcInterval | rcQueue | rcDesync | textOverflow | corruptStream
deriving DecidableEq, Repr

/-- The fields of `STATUS` (R22). The host only reads it, as the word `statusWord`. -/
structure Status where
  busy : Bool
  done : Bool
  faulted : Bool
  rcmode : RcMode
deriving DecidableEq, Repr

/-- The range coder with its queue, serialiser and parser, and the text they write and read (R26, R27, R30, R31). -/
structure Coder where
  low : Reg64
  range : Reg64
  qpos : Reg64
  qlen : Reg64
  oacc : Reg64
  ocnt : Reg64
  ochars : Reg64
  tlen : Reg64
  tpos : Reg64
  iacc : Reg64
  icnt : Reg64
  /-- Space 11, `QCOUNT`: an unlisted slot holds 0 (R280). -/
  qcount : Memory 64
  /-- Space 3, `TEXT`: an unlisted element holds no value (R32). -/
  text : Memory 8
deriving DecidableEq, Repr

/-- The other ten spaces (R30, R31): an unlisted element holds no value (R32). -/
structure Buffers where
  data : Memory 8
  xf : Memory 8
  sym : Memory 8
  suf : Memory 32
  rank : Memory 32
  group : Memory 32
  next : Memory 32
  freq : Memory 32
  cum : Memory 32
  mtfl : Memory 8
deriving DecidableEq, Repr

/-- The whole state. The hidden temporaries `KEY`, `MEM`, `KEYB`, `MEMB`, `CNT`, `OFS` are locals of the rules, as R33
allows. The registers `CFG_BITS`, `CFG_QCAP`, `CFG_THRESH`, `CFG_LINE`, `CFG_LENDEN` are hard-wired (R6) and live in
`readReg`. -/
structure State where
  /-- `CMD`, the last word written (R21). -/
  cmd : Reg64
  status : Status
  /-- `FAULT` (R21, R250). -/
  fault : FaultCode
  /-- `FINFO` (R21, R250). -/
  finfo : Reg64
  n : Reg64
  bidx : Reg64
  arg0 : Reg64
  arg1 : Reg64
  arg2 : Reg64
  res : Reg64
  /-- `STEP`, the sorter's comparison depth (R28). -/
  sortStep : Reg64
  cmdcnt : Reg64
  /-- `CFG_NMAX`: the parameter `NMAX` (R6). Every rule reads it from here; nothing writes it. -/
  cfgNmax : Reg64
  /-- `CFG_TMAX`: the parameter `TMAX` (R6). Every rule reads it from here; nothing writes it. -/
  cfgTmax : Reg64
  coder : Coder
  bufs : Buffers
  /-- The MODEL's own field: which power-up the machine is in. The free value of an unwritten element is
  `Config.unwritten` applied to it (assumption 2). Nothing writes it. -/
  powerUp : Nat
  /-- The host's remaining actions, next first (R236, assumption 3). -/
  queue : List HostAction
  /-- The values the host's reads have returned so far, oldest first (R236, assumption 3). -/
  seen : List Reg64
deriving DecidableEq, Repr

/-- Where the model's step stops with a fault. A fault of R250 is NOT one of these: it has an entry the spec
describes (R252) and is a next state. -/
inductive Fault where
  /-- Raised by `encNorm`, `decNorm` and the padding of `RCFIN` where the rule's loop would never end: `RANGE = 0` at a
  normalisation (R154, R170), `OCNT > 6` at the padding (R165). No run from reset reaches such a state (R26, R35).
  Safe: the machine stops where the hardware would hang (assumption 7). -/
  | endlessLoop
deriving DecidableEq, Repr

/-- Where the model has no meaning for what is asked: the arms the spec's file 93 treats as `refuse`. -/
inductive Refusal where
  /-- An instruction with no meaning in the model: an arm of `exec` only. Safe. -/
  | notModelled (mnemonic : String)
  /-- The parser would read `TEXT[TPOS]` with `TPOS >= TMAX` because the host set `TLEN > TMAX` while a decoder was
  live (R285, U6: no defined result). Raised by `fetchChar`. Safe. -/
  | textIndexOutside
  /-- A host access other than a `STATUS` read while `BUSY = 1` (R233, U5). Raised by `hostStep`. Safe. -/
  | hostAccessWhileBusy
  /-- A host access to a reserved register number (R21, U9). Raised by `hostStep`. Safe. -/
  | reservedRegister (number : Nat)
  /-- A host write to a register marked R, which has no effect on the hardware (R21, R60, U9). Raised by `hostStep`. Safe. -/
  | readOnlyRegister (reg : Reg)
  /-- A host access to a space number above 11 (R60, U9). Raised by `hostStep`. Safe. -/
  | reservedSpace (number : Nat)
  /-- A host access at or beyond the space's element count (R63, U9). Raised by `hostStep`. Safe. -/
  | indexOutside (space : Space)
  /-- A host write to a space marked R (R60: a write requires write access). Raised by `hostStep`. Safe. -/
  | readOnlySpace (space : Space)
  /-- A host write of `v >= 2^w` to a `w`-bit element (R60, U8). Raised by `hostStep`. Safe. -/
  | valueTooWide (space : Space)
deriving DecidableEq, Repr

/-- The coder registers after reset (R280), with `QCOUNT` all zero and a given text buffer. -/
def Coder.atReset (text : Memory 8) : Coder :=
  { low := 0, range := 0, qpos := 0, qlen := 0, oacc := 0, ocnt := 0, ochars := 0, tlen := 0, tpos := 0, iacc := 0,
    icnt := 0, qcount := [], text := text }

/-- The ten buffers and tables with no element written (R280). -/
def Buffers.unwritten : Buffers :=
  { data := [], xf := [], sym := [], suf := [], rank := [], group := [], next := [], freq := [], cum := [], mtfl := [] }

/-- The state after a hardware reset, for any parameters, any power-up and any host program (R280). -/
def State.resetWith (nmax tmax powerUp : Nat) (program : List HostAction) : State :=
  { cmd := 0, status := { busy := false, done := false, faulted := false, rcmode := .idle }, fault := .none,
    finfo := 0, n := 0, bidx := 0, arg0 := 0, arg1 := 0, arg2 := 0, res := 0, sortStep := 1, cmdcnt := 0,
    cfgNmax := BitVec.ofNat 64 nmax, cfgTmax := BitVec.ofNat 64 tmax, coder := Coder.atReset [],
    bufs := Buffers.unwritten, powerUp := powerUp, queue := program, seen := [] }

/-- The machine right after reset (R280): the parameters of assumption 1, power-up number 0 (DESIGN CHOICE, assumption
2), and no host action waiting (assumption 3). -/
def State.reset : State := State.resetWith Config.nmax Config.tmax 0 []

end Sys2Proof.Machine
end

