-- ==== Sys2Proof/Machine/Memory.lean ====
section
/-! DEFINITION. Reading and writing elements of a space (R10, R60, R64), in canonical form. -/

namespace Sys2Proof.Machine

/-- What an unlisted index of a space holds: 0 in `QCOUNT` (R280), no value in every other space (R32, R280). -/
def unlisted (sp : Space) (w : Nat) : Option (BitVec w) :=
  match sp with
  | .qcount => some 0
  | .data | .xf | .sym | .text | .suf | .rank | .group | .next | .freq | .cum | .mtfl => none

/-- What index `i` holds; `blank` is what an unlisted index holds. -/
def Memory.peek {w : Nat} (blank : Option (BitVec w)) (i : Nat) : Memory w → Option (BitVec w)
  | [] => blank
  | (k, v) :: rest => if k = i then some v else Memory.peek blank i rest

/-- Put `v` at index `i`, keeping the canonical form: a value that an unlisted index holds is not listed. -/
def Memory.put {w : Nat} (blank : Option (BitVec w)) (i : Nat) (v : BitVec w) : Memory w → Memory w
  | [] => if blank = some v then [] else [(i, v)]
  | (k, u) :: rest =>
    if i < k then (if blank = some v then (k, u) :: rest else (i, v) :: (k, u) :: rest)
    else if i = k then (if blank = some v then rest else (i, v) :: rest)
    else (k, u) :: Memory.put blank i v rest

/-- The canonical form: indices strictly rising, no entry equal to what an unlisted index holds. -/
def Memory.wf {w : Nat} (blank : Option (BitVec w)) (m : Memory w) : Bool :=
  decide (m.Pairwise (fun a b => a.1 < b.1)) && m.all (fun cell => decide (blank ≠ some cell.2))

/-- Every listed index is below the element count. -/
def Memory.within {w : Nat} (count : Nat) (m : Memory w) : Bool := m.all (fun cell => decide (cell.1 < count))

/-- `BUF[i]` (R10): the value the element holds, or its free value when it holds none (R32, assumption 2). -/
def fetch {w : Nat} (sp : Space) (powerUp : Nat) (m : Memory w) (i : Nat) : BitVec w :=
  (m.peek (unlisted sp w) i).getD (Config.unwritten w powerUp (spaceNumber sp) i)

/-- `BUF[i] <- v` (R10). -/
def store {w : Nat} (sp : Space) (i : Nat) (v : BitVec w) (m : Memory w) : Memory w := m.put (unlisted sp w) i v

/-- `BUF[0..n)` as numbers, in ascending index order. -/
def fetchPrefix {w : Nat} (sp : Space) (powerUp : Nat) (m : Memory w) (n : Nat) : List Nat :=
  (List.range n).map (fun i => (fetch sp powerUp m i).toNat)

/-- `BUF[i + t] <- vs[t]` for every `t`, each value `w` bits wide. -/
def storeFrom {w : Nat} (sp : Space) (i : Nat) (vs : List Nat) (m : Memory w) : Memory w :=
  match vs with
  | [] => m
  | v :: rest => store sp i (BitVec.ofNat w v) (storeFrom sp (i + 1) rest m)

end Sys2Proof.Machine
end

