-- ==== Sys2Proof/Machine/Flags.lean ====
section
/-! DEFINITION. `STATUS`, its fields and the fault code as numbers (R22, R250). The block has no other flag (R29). -/

namespace Sys2Proof.Machine

/-- The number of a range-coder mode (R22). -/
def modeNumber : RcMode → Nat
  | .idle => 0
  | .encoding => 1
  | .decoding => 2
  | .finished => 3

/-- The number of a fault code (R250). -/
def faultNumber : FaultCode → Nat
  | .none => 0
  | .illegalCmd => 1
  | .badLength => 2
  | .badIndex => 3
  | .rcMode => 4
  | .rcInterval => 5
  | .rcQueue => 6
  | .rcDesync => 7
  | .textOverflow => 8
  | .corruptStream => 9

/-- `STATUS` as the host reads it: `BUSY` bit 0, `DONE` bit 1, `FAULTED` bit 2, `RCMODE` bits 4:3, the rest 0 (R22). -/
def statusWord (st : Status) : Reg64 :=
  BitVec.ofNat 64 (st.busy.toNat + 2 * st.done.toNat + 4 * st.faulted.toNat + 8 * modeNumber st.rcmode)

end Sys2Proof.Machine
end

