-- ==== Sys2Proof/Machine/Operands.lean ====
section
/-! DEFINITION. The operand forms: register reads and writes (R21), the index expressions of R72, the interval
precondition (R156) and the scaling (R160). -/

namespace Sys2Proof.Machine

/-- A number as a 64-bit register value (R21, R252: "as a 64-bit unsigned value"). -/
def reg64 (v : Nat) : Reg64 := BitVec.ofNat 64 v

/-- The value a register reads as (R21). The last five are hard-wired parameters (R6). -/
def readReg (s : State) : Reg → Reg64
  | .cmd => s.cmd
  | .status => statusWord s.status
  | .fault => reg64 (faultNumber s.fault)
  | .finfo => s.finfo
  | .n => s.n
  | .bidx => s.bidx
  | .arg0 => s.arg0
  | .arg1 => s.arg1
  | .arg2 => s.arg2
  | .res => s.res
  | .tlen => s.coder.tlen
  | .tpos => s.coder.tpos
  | .step => s.sortStep
  | .cmdcnt => s.cmdcnt
  | .low => s.coder.low
  | .range => s.coder.range
  | .qpos => s.coder.qpos
  | .qlen => s.coder.qlen
  | .oacc => s.coder.oacc
  | .ocnt => s.coder.ocnt
  | .ochars => s.coder.ochars
  | .iacc => s.coder.iacc
  | .icnt => s.coder.icnt
  | .cfgNmax => s.cfgNmax
  | .cfgTmax => s.cfgTmax
  | .cfgBits => reg64 Config.rcBits
  | .cfgQcap => reg64 Config.qcap
  | .cfgThresh => reg64 Config.insertionThreshold
  | .cfgLine => reg64 Config.lineWidth
  | .cfgLenden => reg64 Config.lenDenom

/-- A host write to a register other than `CMD`: nothing changes a read-only register (R21, R259), and the port refuses such a write
(U9, assumption 5). A write to `CMD` also
issues the command and is `acceptCommand` (R80); here it only stores bits 31:0. -/
def writeReg (s : State) (v : Reg64) : Reg → State
  | .cmd => { s with cmd := reg64 (v.toNat % 2 ^ 32) }
  | .n => { s with n := v }
  | .bidx => { s with bidx := v }
  | .arg0 => { s with arg0 := v }
  | .arg1 => { s with arg1 := v }
  | .arg2 => { s with arg2 := v }
  | .tlen => { s with coder := { s.coder with tlen := v } }
  | .status | .fault | .finfo | .res | .tpos | .step | .cmdcnt => s
  | .low | .range | .qpos | .qlen | .oacc | .ocnt | .ochars | .iacc | .icnt => s
  | .cfgNmax | .cfgTmax | .cfgBits | .cfgQcap | .cfgThresh | .cfgLine | .cfgLenden => s

/-- Cyclic forward index `(p + step) mod n` (R72). -/
def cyclicForward (n p step : Nat) : Nat := (p + step) % n

/-- Cyclic predecessor index `(p + n - 1) mod n` (R72, R121). -/
def cyclicPred (n p : Nat) : Nat := (p + n - 1) % n

/-- Ring slot `x & QMASK` (R72, R151); `QMASK + 1 = QCAP` is a power of two, so it is `x mod QCAP`. -/
def ringSlot (x : Nat) : Nat := x % Config.qcap

/-- The interval precondition `0 <= lo < hi <= den <= HALF + 1` (R156). -/
def legalInterval (lo hi den : Nat) : Bool := decide (lo < hi ∧ hi ≤ den ∧ den ≤ Config.half + 1)

/-- The denominator check of `RCDEC`, `1 <= den <= HALF + 1` (R156). -/
def legalDenom (den : Nat) : Bool := decide (1 ≤ den ∧ den ≤ Config.half + 1)

/-- `(RANGE * x) div den`: multiplication first, floor division (R160). -/
def scaled (range x den : Nat) : Nat := range * x / den

/-- `ceil_log2(n)` for `n >= 1` (R9): the smallest `b` with `2^b >= n`, sought from `b` upwards. -/
def ceilLog2From (n : Nat) : (fuel b : Nat) → Nat
  | 0, b => b
  | fuel + 1, b => if n ≤ 2 ^ b then b else ceilLog2From n fuel (b + 1)

/-- `ceil_log2(n)` (R9). -/
def ceilLog2 (n : Nat) : Nat := ceilLog2From n n 0

end Sys2Proof.Machine
end

