-- ==== Sys2Proof/Machine/Ops.lean ====
section
/-! DEFINITION. The operations every command shares: how a rule's pseudocode can end, taking a fault (R252), clearing it
(R231, R256), and running a command under the acceptance sequence (R82). -/

namespace Sys2Proof.Machine

/-- How a rule's pseudocode ends other than by running to its last line. -/
inductive Ended (σ : Type) where
  /-- `raise Fault(CODE, info)` (R252), with the state every assignment before it has left. -/
  | raised (code : FaultCode) (info : Reg64) (s : σ)
  /-- A loop of the rule never ends. -/
  | stuck (f : Fault)
  /-- The rule asks for something that has no defined result. -/
  | refused (r : Refusal)
deriving DecidableEq, Repr

/-- A stretch of pseudocode over a state `σ` that yields an `α`. -/
abbrev Run (σ α : Type) := Except (Ended σ) α

/-- `raise Fault(CODE, info)` inside a rule (R10, R252). -/
def raise {σ α : Type} (code : FaultCode) (info : Nat) (s : σ) : Run σ α := .error (.raised code (reg64 info) s)

/-- The state of an ended run, carried into a larger one. -/
def Ended.map {σ τ : Type} (f : σ → τ) : Ended σ → Ended τ
  | .raised code info s => .raised code info (f s)
  | .stuck e => .stuck e
  | .refused r => .refused r

/-- The machine with another coder. -/
def State.withCoder (s : State) (c : Coder) : State := { s with coder := c }

/-- The machine with other buffers. -/
def State.withBufs (s : State) (b : Buffers) : State := { s with bufs := b }

/-- `STATUS.RCMODE <- m` (R25). -/
def State.withMode (s : State) (m : RcMode) : State := { s with status := { s.status with rcmode := m } }

/-- A stretch of range-coder pseudocode run inside the machine: nothing outside the coder changes. -/
def onCoder (s : State) : Run Coder Coder → Run State State
  | .ok c => .ok (s.withCoder c)
  | .error e => .error (e.map s.withCoder)

/-- The same for a stretch that also yields a value. -/
def onCoderValue {α : Type} (s : State) : Run Coder (α × Coder) → Run State (α × State)
  | .ok (a, c) => .ok (a, s.withCoder c)
  | .error e => .error (e.map s.withCoder)

/-- R82 step 3: `DONE <- 0`, `BUSY <- 1`. -/
def State.startCommand (s : State) : State := { s with status := { s.status with busy := true, done := false } }

/-- R82 step 6: `BUSY <- 0`, `DONE <- 1`, `CMDCNT <- CMDCNT + 1` modulo 2^64 (R24). -/
def State.complete (s : State) : State :=
  { s with status := { s.status with busy := false, done := true }, cmdcnt := s.cmdcnt + 1 }

/-- Taking a fault (R252): `FAULT`, `FINFO`, `FAULTED <- 1`, `BUSY <- 0`, `DONE <- 0`. Nothing is saved elsewhere and
`CMDCNT` does not change. -/
def State.takeFault (s : State) (code : FaultCode) (info : Reg64) : State :=
  { s with fault := code, finfo := info, status := { s.status with faulted := true, busy := false, done := false } }

/-- The only way back from a fault (R256): the registers and `QCOUNT` at their reset values, `CMD` included, buffers and
tables as they were (R231). -/
def State.softReset (s : State) : State :=
  { s with
    cmd := 0, status := { busy := false, done := false, faulted := false, rcmode := .idle }, fault := .none, finfo := 0,
    n := 0, bidx := 0, arg0 := 0, arg1 := 0, arg2 := 0, res := 0, sortStep := 1, cmdcnt := 0,
    coder := Coder.atReset s.coder.text }

/-- The outcome of a run of pseudocode in the machine: completion (R82 step 6), a fault taken (R252), or a stop. -/
def settle : Run State State → Host.Outcome State Fault Refusal
  | .ok t => .next t.complete
  | .error (.raised code info t) => .next (t.takeFault code info)
  | .error (.stuck f) => .fault f
  | .error (.refused r) => .refused r

/-- A command other than `RESET`, from R82 step 2 on: ignored while `FAULTED = 1`, else started, run and settled. -/
def runCommand (body : State → Run State State) (s : State) : Host.Outcome State Fault Refusal :=
  if s.status.faulted then .next s else settle (body s.startCommand)

/-- `if n > NMAX: raise Fault(BAD_LENGTH, n)` (R250 code 2), before anything else is read. -/
def checkLength (s : State) (n : Nat) : Run State Unit :=
  if s.cfgNmax.toNat < n then raise .badLength n s else .ok ()

/-- `if STATUS.RCMODE != m: raise Fault(RC_MODE, STATUS.RCMODE)` (R150). -/
def checkMode (s : State) (m : RcMode) : Run State Unit :=
  if s.status.rcmode = m then .ok () else raise .rcMode (modeNumber s.status.rcmode) s

end Sys2Proof.Machine
end

