-- ==== Sys2Proof/Machine/Sorter.lean ====
section
/-! DEFINITION. The suffix_array_sorter (R100 to R111). -/

namespace Sys2Proof.Machine

/-- A stable 256-bucket counting pass: the items in ascending order of their bucket, items of one bucket in their
previous order (R102, R106, R123). -/
def countingPass {α : Type} (bucket : α → Nat) (items : List α) : List α :=
  (List.range Config.nsym).flatMap (fun d => items.filter (fun x => bucket x == d))

/-- The arrays `SUF`, `RANK`, `GROUP` while `SORT` runs (R101). -/
structure SortArrays where
  suf : List Nat
  rank : List Nat
  group : List Nat
deriving DecidableEq, Repr

/-- `BKT[c]`: the first slot of the block of byte value `c`, which is the number of smaller bytes (R102). -/
def bucketStart (d : List Nat) (c : Nat) : Nat := (d.filter (fun x => decide (x < c))).length

/-- `initial_order()` on the bytes `d` (R102). -/
def initialOrder (d : List Nat) : SortArrays :=
  let suf := countingPass (fun p => d.getD p 0) (List.range d.length)
  { suf := suf
    rank := d.map (bucketStart d)
    group := suf.map (fun p => bucketStart d (d.getD p 0)) ++ [d.length] }

/-- One insertion of R105: the pair goes before the first pair whose key is strictly greater. -/
def insertPair (x : Nat × Nat) : List (Nat × Nat) → List (Nat × Nat)
  | [] => [x]
  | y :: rest => if x.1 < y.1 then x :: y :: rest else y :: insertPair x rest

/-- `insertion_sort` of `(KEY, MEM)` pairs (R105). -/
def insertionSort (pairs : List (Nat × Nat)) : List (Nat × Nat) := pairs.foldl (fun acc x => insertPair x acc) []

/-- The passes `t, t + 1, ...` of `radix_sort` (R106). -/
def radixPasses : (passes t : Nat) → List (Nat × Nat) → List (Nat × Nat)
  | 0, _, pairs => pairs
  | passes + 1, t, pairs =>
    radixPasses passes (t + 1)
      (countingPass (fun x => x.1 / 2 ^ (Config.radixDigitBits * t) % Config.nsym) pairs)

/-- `radix_sort` for an input of length `n`: `kb div 8` passes (R106). -/
def radixSort (n : Nat) (pairs : List (Nat × Nat)) : List (Nat × Nat) :=
  radixPasses ((ceilLog2 n + 7) / Config.radixDigitBits) 0 pairs

/-- The first slot of the sub-block of each sorted pair: a new one starts where the key changes (R104). -/
def subBlocks : (slot sub : Nat) → (prevKey : Option Nat) → List (Nat × Nat) → List Nat
  | _, _, _, [] => []
  | slot, sub, prevKey, x :: rest =>
    let sub' := match prevKey with
      | none => sub
      | some k => if x.1 = k then sub else slot
    sub' :: subBlocks (slot + 1) sub' (some x.1) rest

/-- The list with `vs` in place of its elements from `start` on. -/
def replaceFrom (l : List Nat) (start : Nat) (vs : List Nat) : List Nat :=
  l.take start ++ vs ++ l.drop (start + vs.length)

/-- `RANK[MEM[j]] <- sub` for each member (R104). -/
def setRanks (rank : List Nat) (members subs : List Nat) : List Nat :=
  (members.zip subs).foldl (fun r ms => r.set ms.1 ms.2) rank

/-- `refine(start, stop, h)` (R104). All keys are read before any rank of the block is written. -/
def refine (n start stop h : Nat) (a : SortArrays) : SortArrays :=
  let members := (a.suf.drop start).take (stop - start)
  let pairs := members.map (fun p => (a.rank.getD (cyclicForward n p h) 0, p))
  let sorted := if stop - start < Config.insertionThreshold then insertionSort pairs else radixSort n pairs
  let subs := subBlocks start start none sorted
  { suf := replaceFrom a.suf start (sorted.map Prod.snd)
    rank := setRanks a.rank (sorted.map Prod.snd) subs
    group := replaceFrom a.group start subs }

/-- `while GROUP[stop] == start: stop = stop + 1` (R103); the sentinel ends it. -/
def blockEnd (group : List Nat) (start : Nat) : (fuel stop : Nat) → Nat
  | 0, stop => stop
  | fuel + 1, stop => if group.getD stop group.length = start then blockEnd group start fuel (stop + 1) else stop

/-- One round with depth `h`, from slot `k` on: blocks in ascending order, each found when the scan reaches it (R103). -/
def sortRound (n h : Nat) : (fuel k : Nat) → SortArrays → SortArrays
  | 0, _, a => a
  | fuel + 1, k, a =>
    if k < n then
      let stop := blockEnd a.group k n (k + 1)
      sortRound n h fuel stop (if 1 < stop - k then refine n k stop h a else a)
    else a

/-- `unresolved()`: some block has more than one slot, `GROUP[k] != k` for some `k < n` (R108). -/
def unresolved (n : Nat) (group : List Nat) : Bool := (List.range n).any (fun k => group.getD k k != k)

/-- The doubling loop (R100, R108): the final depth and arrays. -/
def sortLoop (n : Nat) : (fuel step : Nat) → SortArrays → Nat × SortArrays
  | 0, step, a => (step, a)
  | fuel + 1, step, a =>
    if step < n && unresolved n a.group then sortLoop n fuel (2 * step) (sortRound n step n 0 a) else (step, a)

/-- The whole sort of the bytes `d` (R100): at most `ceil_log2(n)` rounds (R108). -/
def sortBytes (d : List Nat) : Nat × SortArrays :=
  sortLoop d.length (ceilLog2 d.length) 1 (initialOrder d)

/-- The pseudocode of `SORT` (R100). -/
def sortBody (s : State) : Run State State := do
  let n := s.n.toNat
  checkLength s n
  if n = 0 then .ok { s with sortStep := 1 }
  else
    let (step, a) := sortBytes (fetchPrefix .data s.powerUp s.bufs.data n)
    .ok { s with
      sortStep := reg64 step
      bufs := { s.bufs with
        suf := storeFrom .suf 0 a.suf s.bufs.suf
        rank := storeFrom .rank 0 a.rank s.bufs.rank
        group := storeFrom .group 0 a.group s.bufs.group } }

/-- `SORT` (R100). -/
def execSort (s : State) : Host.Outcome State Fault Refusal := runCommand sortBody s

end Sys2Proof.Machine
end

