-- ==== Sys2Proof/Machine/Bwt.lean ====
section
/-! DEFINITION. The bwt_forward_transform and bwt_inverse_transform (R120 to R127). -/

namespace Sys2Proof.Machine

/-- `XF[i] <- DATA[(SUF[i] + n - 1) mod n]` for every slot (R120, R121). -/
def bwtForward (d suf : List Nat) : List Nat := suf.map (fun p => d.getD (cyclicPred d.length p) 0)

/-- The slot `i` with `SUF[i] == 0` (R120, R121): the last one the loop finds, 0 when there is none. -/
def bwtIndex (suf : List Nat) : Nat :=
  (suf.zipIdx.foldl (fun b pi => if pi.1 = 0 then pi.2 else b) 0)

/-- The pseudocode of `BWTF` (R120). `SUF` is read back from its space, as the rule does. -/
def bwtfBody (s : State) : Run State State := do
  let n := s.n.toNat
  checkLength s n
  let t ← sortBody s
  let suf := fetchPrefix .suf t.powerUp t.bufs.suf n
  let d := fetchPrefix .data t.powerUp t.bufs.data n
  .ok { t with
    bidx := reg64 (bwtIndex suf)
    bufs := { t.bufs with xf := storeFrom .xf 0 (bwtForward d suf) t.bufs.xf } }

/-- `BWTF` (R120). -/
def execBwtf (s : State) : Host.Outcome State Fault Refusal := runCommand bwtfBody s

/-- `build_next()` (R123): the slots in a stable counting sort by their byte; `NEXT[r]` is the slot of the byte at place
`r` of the sorted bytes. -/
def buildNext (xf : List Nat) : List Nat := countingPass (fun j => xf.getD j 0) (List.range xf.length)

/-- The walk (R122, R124): `n` times `p = NEXT[p]`, emit `XF[p]`. -/
def bwtWalk (xf next : List Nat) : (steps p : Nat) → List Nat
  | 0, _ => []
  | steps + 1, p => xf.getD (next.getD p 0) 0 :: bwtWalk xf next steps (next.getD p 0)

/-- The pseudocode of `BWTI` (R122). -/
def bwtiBody (s : State) : Run State State := do
  let n := s.n.toNat
  checkLength s n
  if n = 0 then .ok s
  else if n ≤ s.bidx.toNat then raise .badIndex s.bidx.toNat s
  else
    let xf := fetchPrefix .xf s.powerUp s.bufs.xf n
    let next := buildNext xf
    .ok (s.withBufs { s.bufs with
      next := storeFrom .next 0 next s.bufs.next
      data := storeFrom .data 0 (bwtWalk xf next n s.bidx.toNat) s.bufs.data })

/-- `BWTI` (R122). -/
def execBwti (s : State) : Host.Outcome State Fault Refusal := runCommand bwtiBody s

end Sys2Proof.Machine
end

