-- ==== Sys2Proof/Machine/Mtf.lean ====
section
/-! DEFINITION. The mtf_encoder and mtf_decoder (R135 to R138). -/

namespace Sys2Proof.Machine

/-- The MTF list both commands start from: the identity (R135). -/
def mtfIdentity : List Nat := List.range Config.nsym

/-- `move_to_front(p)` (R135): the value at `p` goes to the front, those before it shift back by one. -/
def moveToFront (l : List Nat) (p : Nat) : List Nat := l.getD p 0 :: l.eraseIdx p

/-- The encoder's loop (R136): the codes of the bytes and the final list. -/
def mtfEncode : List Nat → List Nat → List Nat × List Nat
  | l, [] => ([], l)
  | l, b :: rest =>
    let p := l.idxOf b
    let (codes, final) := mtfEncode (moveToFront l p) rest
    (p :: codes, final)

/-- The decoder's loop (R137): the bytes of the codes and the final list. -/
def mtfDecode : List Nat → List Nat → List Nat × List Nat
  | l, [] => ([], l)
  | l, p :: rest =>
    let (bytes, final) := mtfDecode (moveToFront l p) rest
    (l.getD p 0 :: bytes, final)

/-- The pseudocode of `MTFE` (R136). -/
def mtfeBody (s : State) : Run State State := do
  let n := s.n.toNat
  checkLength s n
  let (codes, final) := mtfEncode mtfIdentity (fetchPrefix .xf s.powerUp s.bufs.xf n)
  .ok (s.withBufs { s.bufs with
    sym := storeFrom .sym 0 codes s.bufs.sym
    mtfl := storeFrom .mtfl 0 final s.bufs.mtfl })

/-- `MTFE` (R136). -/
def execMtfe (s : State) : Host.Outcome State Fault Refusal := runCommand mtfeBody s

/-- The pseudocode of `MTFD` (R137). -/
def mtfdBody (s : State) : Run State State := do
  let n := s.n.toNat
  checkLength s n
  let (bytes, final) := mtfDecode mtfIdentity (fetchPrefix .sym s.powerUp s.bufs.sym n)
  .ok (s.withBufs { s.bufs with
    xf := storeFrom .xf 0 bytes s.bufs.xf
    mtfl := storeFrom .mtfl 0 final s.bufs.mtfl })

/-- `MTFD` (R137). -/
def execMtfd (s : State) : Host.Outcome State Fault Refusal := runCommand mtfdBody s

end Sys2Proof.Machine
end

