-- ==== Sys2Proof/Machine/Queue.lean ====
section
/-! DEFINITION. The pending-bit queue (R151 to R153, R163). -/

namespace Sys2Proof.Machine

/-- `QCOUNT[slot]` (R30, R151). -/
def Coder.count (c : Coder) (slot : Nat) : Nat := (fetch .qcount 0 c.qcount slot).toNat

/-- `QCOUNT[slot] <- v` (R30, R151). -/
def Coder.setCount (c : Coder) (slot v : Nat) : Coder := { c with qcount := store .qcount slot (reg64 v) c.qcount }

/-- `tail = (QPOS + QLEN - 1) & QMASK`, the slot of the newest run (R151). -/
def Coder.tail (c : Coder) : Nat := ringSlot (c.qpos.toNat + c.qlen.toNat - 1)

/-- The slot before the tail, `(tail - 1) & QMASK` (R163). -/
def Coder.prev (c : Coder) : Nat := ringSlot (c.tail + Config.qmask)

/-- The slot after the tail, `(tail + 1) & QMASK` (R153, R163). -/
def Coder.fresh (c : Coder) : Nat := ringSlot (c.tail + 1)

/-- `push_bit(b)` (R153): one bit appended to `PEND`; a run's bit value is its slot's parity. -/
def pushBit (b : Bool) (c : Coder) : Run Coder Coder :=
  if c.qlen = 0 then
    let slot := if c.qpos.toNat % 2 = b.toNat then c.qpos.toNat else ringSlot (c.qpos.toNat + 1)
    .ok ({ c with qpos := reg64 slot, qlen := 1 }.setCount slot 1)
  else if c.tail % 2 = b.toNat then .ok (c.setCount c.tail (c.count c.tail + 1))
  else if Config.qcap ≤ c.qlen.toNat then raise .rcQueue c.qlen.toNat c
  else .ok ({ c with qlen := c.qlen + 1 }.setCount c.fresh 1)

/-- `carry()` (R163): one added to `PEND` read as a binary number, in constant time. -/
def carry (c : Coder) : Run Coder Coder :=
  if c.qlen = 0 then raise .rcQueue 0 c
  else if c.tail % 2 = 1 then
    if c.qlen.toNat < 2 ∨ c.count c.prev = 0 then raise .rcQueue c.qlen.toNat c
    else
      let ones := c.count c.tail
      .ok ((({ c with qlen := c.qlen + 1 }.setCount c.prev (c.count c.prev - 1)).setCount c.tail 1).setCount c.fresh ones)
  else if c.count c.tail = 0 then raise .rcQueue c.qlen.toNat c
  else .ok (({ c with qlen := c.qlen + 1 }.setCount c.tail (c.count c.tail - 1)).setCount c.fresh 1)

/-- The bits of the runs of `len` slots from `slot` on, oldest first (R151). -/
def runBits (c : Coder) : (len slot : Nat) → List Bool
  | 0, _ => []
  | len + 1, slot => List.replicate (c.count (ringSlot slot)) (ringSlot slot % 2 == 1) ++ runBits c len (slot + 1)

/-- `PEND`, the queue's content as a bit string (R151). For statements; no operation computes it. -/
def Coder.pend (c : Coder) : List Bool := runBits c c.qlen.toNat c.qpos.toNat

end Sys2Proof.Machine
end

