-- ==== Sys2Proof/Machine/Serialiser.lean ====
section
/-! DEFINITION. The serialiser, bits to text (R164, R166, R167), and the alphabet it shares with the parser. -/

namespace Sys2Proof.Machine

/-- The alphabet byte of a 6-bit value (R167). -/
def alphabetByte (v : BitVec 6) : Byte :=
  let k := v.toNat
  if k ≤ 9 then BitVec.ofNat 8 (0x30 + k)
  else if k ≤ 35 then BitVec.ofNat 8 (0x41 + (k - 10))
  else if k ≤ 61 then BitVec.ofNat 8 (0x61 + (k - 36))
  else if k = 62 then 0x2E
  else 0x5F

/-- The 6-bit value of an alphabet byte; `none` for a non-alphabet byte (R167). -/
def alphabetValue (b : Byte) : Option (BitVec 6) :=
  let k := b.toNat
  if 0x30 ≤ k ∧ k ≤ 0x39 then some (BitVec.ofNat 6 (k - 0x30))
  else if 0x41 ≤ k ∧ k ≤ 0x5A then some (BitVec.ofNat 6 (k - 0x41 + 10))
  else if 0x61 ≤ k ∧ k ≤ 0x7A then some (BitVec.ofNat 6 (k - 0x61 + 36))
  else if k = 0x2E then some 62
  else if k = 0x5F then some 63
  else none

/-- The byte a newline is (R166). -/
def newline : Byte := 0x0A

/-- `put_byte(v)` (R166), with `TMAX` as an argument. -/
def putByte (tmax : Nat) (v : Byte) (c : Coder) : Run Coder Coder :=
  if tmax ≤ c.tlen.toNat then raise .textOverflow c.tlen.toNat c
  else .ok { c with text := store .text c.tlen.toNat v c.text, tlen := c.tlen + 1 }

/-- The sixth bit of a character is in (R166): the character is written, and a newline after every 80th. -/
def putChar (tmax : Nat) (c : Coder) : Run Coder Coder := do
  let c ← putByte tmax (alphabetByte (BitVec.ofNat 6 c.oacc.toNat)) c
  let c := { c with ochars := c.ochars + 1, oacc := 0, ocnt := 0 }
  if c.ochars.toNat % Config.lineWidth = 0 then putByte tmax newline c else .ok c

/-- `out_bit(b)` (R166): six bits to a character, first bit most significant. -/
def outBit (tmax : Nat) (b : Bool) (c : Coder) : Run Coder Coder :=
  let c := { c with oacc := reg64 (2 * c.oacc.toNat + b.toNat), ocnt := c.ocnt + 1 }
  if c.ocnt = 6 then putChar tmax c else .ok c

/-- `k` times `out_bit(b)` (R164). -/
def outBits (tmax : Nat) (b : Bool) : (k : Nat) → Coder → Run Coder Coder
  | 0, c => .ok c
  | k + 1, c => do
    let c ← outBit tmax b c
    outBits tmax b k c

/-- The oldest run goes to the serialiser and its slot is freed (R164). -/
def drainRun (tmax : Nat) (c : Coder) : Run Coder Coder := do
  let slot := c.qpos.toNat
  let c ← outBits tmax (slot % 2 == 1) (c.count slot) c
  .ok ({ c with qpos := reg64 (ringSlot (slot + 1)), qlen := c.qlen - 1 }.setCount slot 0)

/-- `k` oldest runs drained. -/
def drainRuns (tmax : Nat) : (k : Nat) → Coder → Run Coder Coder
  | 0, c => .ok c
  | k + 1, c => do
    let c ← drainRun tmax c
    drainRuns tmax k c

/-- `drain(keep)` (R164): each turn removes one slot, so it takes `QLEN - keep` turns. -/
def drain (tmax keep : Nat) (c : Coder) : Run Coder Coder := drainRuns tmax (c.qlen.toNat - keep) c

/-- `while OCNT != 0: out_bit(1)` (R165), at most six turns; from `OCNT > 6` it would never end. -/
def padTurns (tmax : Nat) : (fuel : Nat) → Coder → Run Coder Coder
  | 0, c => if c.ocnt = 0 then .ok c else .error (.stuck .endlessLoop)
  | fuel + 1, c =>
    if c.ocnt = 0 then .ok c
    else do
      let c ← outBit tmax true c
      padTurns tmax fuel c

/-- The padding of `RCFIN` with 1-bits to a character boundary (R165). -/
def pad (tmax : Nat) (c : Coder) : Run Coder Coder := padTurns tmax 5 c

end Sys2Proof.Machine
end

