-- ==== Sys2Proof/Machine/Parser.lean ====
section
/-! DEFINITION. The parser, text to bits (R169). -/

namespace Sys2Proof.Machine

/-- What the parser reads beside the coder: the capacity `TMAX` and the power-up the free values belong to. -/
structure TextPort where
  tmax : Nat
  powerUp : Nat
deriving DecidableEq, Repr

/-- The skipping loop of `next_bit` (R169): the value of the next alphabet byte before `TLEN`, `none` when the text is
exhausted; at most `fuel = TLEN - TPOS` turns. A read at or beyond `TMAX` has no defined result (R285, U6). -/
def fetchChar (port : TextPort) : (fuel : Nat) → Coder → Run Coder (Option (BitVec 6) × Coder)
  | 0, c => .ok (none, c)
  | fuel + 1, c =>
    if c.tpos.toNat < c.tlen.toNat then
      if port.tmax ≤ c.tpos.toNat then .error (.refused .textIndexOutside)
      else
        let byte := fetch .text port.powerUp c.text c.tpos.toNat
        let c := { c with tpos := c.tpos + 1 }
        match alphabetValue byte with
        | some v => .ok (some v, c)
        | none => fetchChar port fuel c
    else .ok (none, c)

/-- The refill of `next_bit` (R169): the next character's six bits, or six 1-bits when the text is exhausted. -/
def refill (port : TextPort) (c : Coder) : Run Coder Coder := do
  let (v, c) ← fetchChar port (c.tlen.toNat - c.tpos.toNat) c
  .ok { c with iacc := reg64 (v.getD 63).toNat, icnt := 6 }

/-- `next_bit()` (R169): most significant bit first. -/
def nextBit (port : TextPort) (c : Coder) : Run Coder (Bool × Coder) := do
  let c ← if c.icnt = 0 then refill port c else .ok c
  .ok (c.iacc.getLsbD (c.icnt.toNat - 1), { c with icnt := c.icnt - 1 })

end Sys2Proof.Machine
end

