-- ==== Sys2Proof/Machine/RangeCoder.lean ====
section
/-! DEFINITION. The range_coder_arithmetic_engine and its six commands (R150 to R175). -/

namespace Sys2Proof.Machine

/-- The capacity and power-up of this machine, for the parser. -/
def State.port (s : State) : TextPort := { tmax := s.cfgTmax.toNat, powerUp := s.powerUp }

/-- The turns of `enc_norm` (R154). -/
def encNormTurns : (fuel : Nat) → Coder → Run Coder Coder
  | 0, c => .ok c
  | fuel + 1, c =>
    if c.range.toNat ≤ Config.half then do
      let c ← pushBit (c.low.getLsbD 31) c
      encNormTurns fuel
        { c with low := reg64 (2 * c.low.toNat % Config.norm), range := reg64 (2 * c.range.toNat) }
    else .ok c

/-- `enc_norm()` (R154): at most 32 turns from any `RANGE >= 1`; from `RANGE = 0` it would never end. -/
def encNorm (c : Coder) : Run Coder Coder :=
  if c.range = 0 then .error (.stuck .endlessLoop) else encNormTurns Config.rcBits c

/-- The sub-interval step of `RCENC` after normalising (R157, R160): `LOW` and `RANGE` by floor scaling, with a carry
when `LOW` reaches `NORM`. -/
def narrow (lo hi den : Nat) (c : Coder) : Run Coder Coder :=
  let off := scaled c.range.toNat lo den
  let top := scaled c.range.toNat hi den
  let low := c.low.toNat + off
  let c := { c with range := reg64 (top - off) }
  if Config.norm ≤ low then carry { c with low := reg64 (low - Config.norm) } else .ok { c with low := reg64 low }

/-- The pseudocode of `RCENC` on the coder, after its mode check (R157). -/
def encode64 (tmax lo hi den : Nat) (c : Coder) : Run Coder Coder :=
  if legalInterval lo hi den then
    if Config.qmask / 2 < c.qlen.toNat then raise .rcQueue c.qlen.toNat c
    else do
      let c ← encNorm c
      let c ← narrow lo hi den c
      drain tmax 2 c
  else raise .rcInterval 0 c

/-- `encode(lo, hi, den)` (R212): the pseudocode of `RCENC` with these three values (R157). -/
def encodeInterval (s : State) (lo hi den : Nat) : Run State State := do
  checkMode s .encoding
  onCoder s (encode64 s.cfgTmax.toNat lo hi den s.coder)

/-- The turns of `dec_norm` (R170). -/
def decNormTurns (port : TextPort) : (fuel : Nat) → Coder → Run Coder Coder
  | 0, c => .ok c
  | fuel + 1, c =>
    if c.range.toNat ≤ Config.half then do
      let (b, c) ← nextBit port c
      decNormTurns port fuel
        { c with low := reg64 (2 * c.low.toNat + b.toNat), range := reg64 (2 * c.range.toNat) }
    else .ok c

/-- `dec_norm()` (R170): at most 32 turns from any `RANGE >= 1`; from `RANGE = 0` it would never end. -/
def decNorm (port : TextPort) (c : Coder) : Run Coder Coder :=
  if c.range = 0 then .error (.stuck .endlessLoop) else decNormTurns port Config.rcBits c

/-- The code value `((LOW + 1) * den - 1) div RANGE` (R171). -/
def codeValue (c : Coder) (den : Nat) : Nat := ((c.low.toNat + 1) * den - 1) / c.range.toNat

/-- The pseudocode of `RCDEC` on the coder, after its mode check; the value is returned (R171, R212). -/
def decode64 (port : TextPort) (den : Nat) (c : Coder) : Run Coder (Nat × Coder) :=
  if legalDenom den then do
    let c ← decNorm port c
    .ok (codeValue c den, c)
  else raise .rcInterval 0 c

/-- `decode(den)` (R212): the pseudocode of `RCDEC`, returning the value instead of writing `RES`. -/
def decodeValueOf (s : State) (den : Nat) : Run State (Nat × State) := do
  checkMode s .decoding
  onCoderValue s (decode64 s.port den s.coder)

/-- The arithmetic of `RCSCL` after normalising (R172). -/
def decScale (lo hi den : Nat) (c : Coder) : Run Coder Coder :=
  let off := scaled c.range.toNat lo den
  let top := scaled c.range.toNat hi den
  if off ≤ c.low.toNat ∧ c.low.toNat < top then
    .ok { c with low := reg64 (c.low.toNat - off), range := reg64 (top - off) }
  else raise .rcDesync c.low.toNat c

/-- The pseudocode of `RCSCL` on the coder, after its mode check (R172). -/
def scale64 (port : TextPort) (lo hi den : Nat) (c : Coder) : Run Coder Coder :=
  if legalInterval lo hi den then do
    let c ← decNorm port c
    decScale lo hi den c
  else raise .rcInterval 0 c

/-- `scale(lo, hi, den)` (R212): the pseudocode of `RCSCL` with these three values (R172). -/
def scaleInterval (s : State) (lo hi den : Nat) : Run State State := do
  checkMode s .decoding
  onCoder s (scale64 s.port lo hi den s.coder)

/-- The pseudocode of `RCEI` (R155). -/
def rceiBody (s : State) : Run State State :=
  .ok ((s.withCoder { Coder.atReset s.coder.text with range := reg64 Config.norm }).withMode .encoding)

/-- `RCEI` (R155). -/
def execRcei (s : State) : Host.Outcome State Fault Refusal := runCommand rceiBody s

/-- The pseudocode of `RCDI` (R168): `TLEN` and `TEXT` stay. -/
def rcdiBody (s : State) : Run State State :=
  if s.cfgTmax.toNat < s.coder.tlen.toNat then raise .badLength s.coder.tlen.toNat s
  else .ok ((s.withCoder { Coder.atReset s.coder.text with range := 1, tlen := s.coder.tlen }).withMode .decoding)

/-- `RCDI` (R168). -/
def execRcdi (s : State) : Host.Outcome State Fault Refusal := runCommand rcdiBody s

/-- The pseudocode of `RCENC` (R157). -/
def rcencBody (s : State) : Run State State := encodeInterval s s.arg0.toNat s.arg1.toNat s.arg2.toNat

/-- `RCENC` (R157). -/
def execRcenc (s : State) : Host.Outcome State Fault Refusal := runCommand rcencBody s

/-- The pseudocode of `RCDEC` (R171). -/
def rcdecBody (s : State) : Run State State := do
  let (v, t) ← decodeValueOf s s.arg2.toNat
  .ok { t with res := reg64 v }

/-- `RCDEC` (R171). -/
def execRcdec (s : State) : Host.Outcome State Fault Refusal := runCommand rcdecBody s

/-- The pseudocode of `RCSCL` (R172). -/
def rcsclBody (s : State) : Run State State := scaleInterval s s.arg0.toNat s.arg1.toNat s.arg2.toNat

/-- `RCSCL` (R172). -/
def execRcscl (s : State) : Host.Outcome State Fault Refusal := runCommand rcsclBody s

/-- The flush of `RCFIN` after normalising (R165): two bits of `p = ceil(LOW / (NORM / 4))`, after a carry when
`p = 4`; then the queue is emptied and the last character padded. -/
def flush (tmax : Nat) (c : Coder) : Run Coder Coder := do
  let q := Config.norm / 4
  let p := (c.low.toNat + q - 1) / q
  let c ← if p = 4 then carry c else .ok c
  let p := if p = 4 then 0 else p
  let c ← pushBit (p.testBit 1) c
  let c ← pushBit (p.testBit 0) c
  let c ← drain tmax 0 c
  pad tmax c

/-- The encoder part of `finish()` (R165). -/
def finish64 (tmax : Nat) (c : Coder) : Run Coder Coder := do
  let c ← encNorm c
  flush tmax c

/-- The pseudocode of `RCFIN` (R165). -/
def rcfinBody (s : State) : Run State State :=
  match s.status.rcmode with
  | .idle => raise .rcMode 0 s
  | .finished => .ok s
  | .decoding => .ok (s.withMode .finished)
  | .encoding => do
    let t ← onCoder s (finish64 s.cfgTmax.toNat s.coder)
    .ok (t.withMode .finished)

/-- `RCFIN` (R165). -/
def execRcfin (s : State) : Host.Outcome State Fault Refusal := runCommand rcfinBody s

end Sys2Proof.Machine
end

