-- ==== Sys2Proof/Machine/Pipeline.lean ====
section
/-! DEFINITION. The pipeline stages and the two composite commands (R200 to R215). -/

namespace Sys2Proof.Machine

/-- How often each of the 256 symbols stands in a list (R201). -/
def countSymbols (syms : List Nat) : List Nat := (List.range Config.nsym).map (fun c => syms.count c)

/-- `build_cum()` (R201): from `total` on, each next entry adds the next count. -/
def cumulate (total : Nat) : List Nat → List Nat
  | [] => [total]
  | f :: rest => total :: cumulate (total + f) rest

/-- `FREQ` in numbers. -/
def State.freqTable (s : State) : List Nat := fetchPrefix .freq s.powerUp s.bufs.freq Config.nsym

/-- `CUM[c]`. -/
def State.cumAt (s : State) (c : Nat) : Nat := (fetch .cum s.powerUp s.bufs.cum c).toNat

/-- `build_cum()` in the machine (R201): `CUM` from the stored `FREQ`. -/
def buildCum (s : State) : State :=
  s.withBufs { s.bufs with cum := storeFrom .cum 0 (cumulate 0 s.freqTable) s.bufs.cum }

/-- The pseudocode of `FREQ` (R201). -/
def freqBody (s : State) : Run State State := do
  let n := s.n.toNat
  checkLength s n
  let counts := countSymbols (fetchPrefix .sym s.powerUp s.bufs.sym n)
  .ok (buildCum (s.withBufs { s.bufs with freq := storeFrom .freq 0 counts s.bufs.freq }))

/-- `FREQ` (R201). -/
def execFreq (s : State) : Host.Outcome State Fault Refusal := runCommand freqBody s

/-- `encode_value(v, den)` (R212). -/
def encodeValue (s : State) (v den : Nat) : Run State State := encodeInterval s v (v + 1) den

/-- `decode_value(den)` (R212). -/
def decodeValue (s : State) (den : Nat) : Run State (Nat × State) := do
  let (v, s) ← decodeValueOf s den
  let s ← scaleInterval s v (v + 1) den
  .ok (v, s)

/-- The shrinking-denominator coding of a list of counts (R202, R204): count coded, then `remaining` decremented. -/
def encodeCounts (s : State) : (remaining : Nat) → List Nat → Run State State
  | _, [] => .ok s
  | remaining, f :: rest => do
    let s ← encodeValue s f remaining
    encodeCounts s (remaining - f) rest

/-- The pseudocode of `HDRE` (R202). For `n = 0` the index is not coded (R211). -/
def hdreBody (s : State) : Run State State := do
  checkMode s .encoding
  let n := s.n.toNat
  checkLength s n
  let t ← encodeValue s n Config.lenDenom
  let t ← if n = 0 then .ok t else encodeValue t s.bidx.toNat n
  encodeCounts t (n + 1) s.freqTable

/-- `HDRE` (R202). -/
def execHdre (s : State) : Host.Outcome State Fault Refusal := runCommand hdreBody s

/-- Each symbol against its interval of `CUM`, denominator `n` (R205). -/
def encodeSymbols (n : Nat) (s : State) : List Nat → Run State State
  | [] => .ok s
  | c :: rest => do
    let s ← encodeInterval s (s.cumAt c) (s.cumAt (c + 1)) n
    encodeSymbols n s rest

/-- The pseudocode of `SYME` (R205). -/
def symeBody (s : State) : Run State State := do
  checkMode s .encoding
  let n := s.n.toNat
  checkLength s n
  encodeSymbols n s (fetchPrefix .sym s.powerUp s.bufs.sym n)

/-- `SYME` (R205). -/
def execSyme (s : State) : Host.Outcome State Fault Refusal := runCommand symeBody s

/-- `FREQ[c] <- f`. -/
def State.setFreq (s : State) (c f : Nat) : State :=
  s.withBufs { s.bufs with freq := store .freq c (BitVec.ofNat 32 f) s.bufs.freq }

/-- The decoding of `todo` counts from symbol `c` on (R206): the final `remaining` and state. -/
def decodeCounts (s : State) : (todo c remaining : Nat) → Run State (Nat × State)
  | 0, _, remaining => .ok (remaining, s)
  | todo + 1, c, remaining => do
    let (f, t) ← decodeValue s remaining
    decodeCounts (t.setFreq c f) todo (c + 1) (remaining - f)

/-- The index field of the header (R206): decoded when `n > 0`, else 0 (R211). -/
def decodeIndex (s : State) (n : Nat) : Run State State := do
  let s := { s with bidx := 0 }
  if n = 0 then .ok s
  else
    let (b, t) ← decodeValue s n
    .ok { t with bidx := reg64 b }

/-- The pseudocode of `HDRD` (R206). -/
def hdrdBody (s : State) : Run State State := do
  checkMode s .decoding
  let (n, s) ← decodeValue s Config.lenDenom
  checkLength s n
  let s ← decodeIndex { s with n := reg64 n } n
  let (remaining, s) ← decodeCounts s Config.nsym 0 (n + 1)
  let s := buildCum s
  if remaining = 1 then .ok s else raise .corruptStream remaining s

/-- `HDRD` (R206). -/
def execHdrd (s : State) : Host.Outcome State Fault Refusal := runCommand hdrdBody s

/-- The search of `lookup(v)` (R208): `turns` halvings of `[lo, hi)`. -/
def lookupTurns (cum : Nat → Nat) (v : Nat) : (turns lo hi : Nat) → Nat
  | 0, lo, _ => lo
  | turns + 1, lo, hi =>
    let mid := (lo + hi) / 2
    if cum mid ≤ v then lookupTurns cum v turns mid hi else lookupTurns cum v turns lo mid

/-- `lookup(v)` (R208): "Eight iterations, always". -/
def State.lookup (s : State) (v : Nat) : Nat := lookupTurns s.cumAt v 8 0 Config.nsym

/-- `SYM[i] <- c`. -/
def State.setSym (s : State) (i c : Nat) : State :=
  s.withBufs { s.bufs with sym := store .sym i (BitVec.ofNat 8 c) s.bufs.sym }

/-- The decoding of `todo` symbols from index `i` on (R207). -/
def decodeSymbols (n : Nat) (s : State) : (todo i : Nat) → Run State State
  | 0, _ => .ok s
  | todo + 1, i => do
    let (v, s) ← decodeValueOf s n
    let c := s.lookup v
    let s ← scaleInterval s (s.cumAt c) (s.cumAt (c + 1)) n
    decodeSymbols n (s.setSym i c) todo (i + 1)

/-- The pseudocode of `SYMD` (R207). -/
def symdBody (s : State) : Run State State := do
  checkMode s .decoding
  let n := s.n.toNat
  checkLength s n
  decodeSymbols n s n 0

/-- `SYMD` (R207). -/
def execSymd (s : State) : Host.Outcome State Fault Refusal := runCommand symdBody s

/-- The pseudocode of `COMP` (R209): seven stages as one command; the first fault ends it. -/
def compBody (s : State) : Run State State := do
  let s ← bwtfBody s
  let s ← mtfeBody s
  let s ← freqBody s
  let s ← rceiBody s
  let s ← hdreBody s
  let s ← symeBody s
  rcfinBody s

/-- `COMP` (R209). -/
def execComp (s : State) : Host.Outcome State Fault Refusal := runCommand compBody s

/-- The pseudocode of `DECOMP` (R210): six stages as one command; the first fault ends it. -/
def decompBody (s : State) : Run State State := do
  let s ← rcdiBody s
  let s ← hdrdBody s
  let s ← symdBody s
  let s ← rcfinBody s
  let s ← mtfdBody s
  bwtiBody s

/-- `DECOMP` (R210). -/
def execDecomp (s : State) : Host.Outcome State Fault Refusal := runCommand decompBody s

end Sys2Proof.Machine
end

