-- ==== Sys2Proof/Machine/System.lean ====
section
/-! DEFINITION. The system commands `NOP` and `RESET` (R230, R231). -/

namespace Sys2Proof.Machine

/-- `NOP` (R230): no state change of its own. -/
def execNop (s : State) : Host.Outcome State Fault Refusal := runCommand .ok s

/-- `RESET` (R231): accepted under a fault too; it neither sets `DONE` nor counts. -/
def execReset (s : State) : Host.Outcome State Fault Refusal := .next s.softReset

end Sys2Proof.Machine
end

