-- ==== Sys2Proof/Machine/Dispatch.lean ====
section
/-! DEFINITION. One arm per command (R81). -/

namespace Sys2Proof.Machine

/-- What a command does from R82 step 2 on, `CMD` having taken its word. -/
def exec (i : Instr) (s : State) : Host.Outcome State Fault Refusal :=
  match i with
  | .nop => Sys2Proof.Machine.execNop s
  | .reset => Sys2Proof.Machine.execReset s
  | .sort => Sys2Proof.Machine.execSort s
  | .bwtf => Sys2Proof.Machine.execBwtf s
  | .bwti => Sys2Proof.Machine.execBwti s
  | .mtfe => Sys2Proof.Machine.execMtfe s
  | .mtfd => Sys2Proof.Machine.execMtfd s
  | .rcei => Sys2Proof.Machine.execRcei s
  | .rcdi => Sys2Proof.Machine.execRcdi s
  | .rcenc => Sys2Proof.Machine.execRcenc s
  | .rcdec => Sys2Proof.Machine.execRcdec s
  | .rcscl => Sys2Proof.Machine.execRcscl s
  | .rcfin => Sys2Proof.Machine.execRcfin s
  | .freq => Sys2Proof.Machine.execFreq s
  | .hdre => Sys2Proof.Machine.execHdre s
  | .syme => Sys2Proof.Machine.execSyme s
  | .hdrd => Sys2Proof.Machine.execHdrd s
  | .symd => Sys2Proof.Machine.execSymd s
  | .comp => Sys2Proof.Machine.execComp s
  | .decomp => Sys2Proof.Machine.execDecomp s

end Sys2Proof.Machine
end

