-- ==== Sys2Proof/Machine/Port.lean ====
section
/-! DEFINITION. The host's side of the interface: issuing a command (R80, R82) and the other host actions
(R60, R85, R233, R236). -/

namespace Sys2Proof.Machine

/-- A host write of `v` to `CMD` (R80): `CMD <- v[31:0]`, then the acceptance sequence R82. A word that is no command is
ignored while `FAULTED = 1` (step 2) and raises `ILLEGAL_CMD` otherwise (step 4); for a command, `exec` does the rest. -/
def acceptCommand (v : Reg64) (s : State) : Host.Outcome State Fault Refusal :=
  let w : CommandWord := BitVec.ofNat 32 v.toNat
  let s := writeReg s v .cmd
  match decode w with
  | .ok i => exec i s
  | .error _ => if s.status.faulted then .next s else .next (s.startCommand.takeFault .illegalCmd (reg64 w.toNat))

/-- The value a host read of element `i` of a space returns, zero-extended to 64 bits (R60). -/
def readElem (s : State) (sp : Space) (i : Nat) : Reg64 :=
  match sp with
  | .data => reg64 (fetch .data s.powerUp s.bufs.data i).toNat
  | .xf => reg64 (fetch .xf s.powerUp s.bufs.xf i).toNat
  | .sym => reg64 (fetch .sym s.powerUp s.bufs.sym i).toNat
  | .text => reg64 (fetch .text s.powerUp s.coder.text i).toNat
  | .suf => reg64 (fetch .suf s.powerUp s.bufs.suf i).toNat
  | .rank => reg64 (fetch .rank s.powerUp s.bufs.rank i).toNat
  | .group => reg64 (fetch .group s.powerUp s.bufs.group i).toNat
  | .next => reg64 (fetch .next s.powerUp s.bufs.next i).toNat
  | .freq => reg64 (fetch .freq s.powerUp s.bufs.freq i).toNat
  | .cum => reg64 (fetch .cum s.powerUp s.bufs.cum i).toNat
  | .mtfl => reg64 (fetch .mtfl s.powerUp s.bufs.mtfl i).toNat
  | .qcount => reg64 (fetch .qcount s.powerUp s.coder.qcount i).toNat

/-- A host write of values from element `i` on, each of the element's width (R60, R85); a read-only space keeps its
contents. -/
def writeElems (s : State) (sp : Space) (i : Nat) (vs : List Nat) : State :=
  match sp with
  | .data => s.withBufs { s.bufs with data := storeFrom .data i vs s.bufs.data }
  | .xf => s.withBufs { s.bufs with xf := storeFrom .xf i vs s.bufs.xf }
  | .sym => s.withBufs { s.bufs with sym := storeFrom .sym i vs s.bufs.sym }
  | .text => s.withCoder { s.coder with text := storeFrom .text i vs s.coder.text }
  | .freq => s.withBufs { s.bufs with freq := storeFrom .freq i vs s.bufs.freq }
  | .cum => s.withBufs { s.bufs with cum := storeFrom .cum i vs s.bufs.cum }
  | .suf | .rank | .group | .next | .mtfl | .qcount => s

/-- The values read go to the host (R236). -/
def State.answer (s : State) (vs : List Reg64) : State := { s with seen := s.seen ++ vs }

/-- A host access while `BUSY = 1`: only a read of `STATUS` is allowed (R233). -/
def allowedWhileBusy : HostAction → Bool
  | .rd reg => regOfNumber reg == some .status
  | .wr _ _ | .wrb _ _ _ | .rdb _ _ _ => false

/-- One host action with `BUSY = 0` or allowed while busy (R236). -/
def performAction (a : HostAction) (s : State) : Host.Outcome State Fault Refusal :=
  match a with
  | .wr reg v =>
    match regOfNumber reg with
    | none => .refused (.reservedRegister reg)
    | some r =>
      if r = .cmd then acceptCommand v s
      else if regHostWrites r then .next (writeReg s v r) else .refused (.readOnlyRegister r)
  | .rd reg =>
    match regOfNumber reg with
    | none => .refused (.reservedRegister reg)
    | some r => .next (s.answer [readReg s r])
  | .wrb space i vs =>
    match spaceOfNumber space with
    | none => .refused (.reservedSpace space)
    | some sp =>
      if spaceHostWrites sp then
        if sp.inRange s.cfgNmax.toNat s.cfgTmax.toNat i vs.length then
          if sp.fits vs then .next (writeElems s sp i (vs.map BitVec.toNat)) else .refused (.valueTooWide sp)
        else .refused (.indexOutside sp)
      else .refused (.readOnlySpace sp)
  | .rdb space i count =>
    match spaceOfNumber space with
    | none => .refused (.reservedSpace space)
    | some sp =>
      if sp.inRange s.cfgNmax.toNat s.cfgTmax.toNat i count then
        .next (s.answer ((List.range count).map (fun t => readElem s sp (i + t))))
      else .refused (.indexOutside sp)

/-- One host action (R233, R236). -/
def hostStep (a : HostAction) (s : State) : Host.Outcome State Fault Refusal :=
  if s.status.busy && !allowedWhileBusy a then .refused .hostAccessWhileBusy else performAction a s

end Sys2Proof.Machine
end

