-- ==== Sys2Proof/Machine/Step.lean ====
section
/-! DEFINITION. One step of the machine: the host's next action (R232, R236). -/

namespace Sys2Proof.Machine

/-- One step. The engine fetches nothing (R11, R70): the step takes the host's next action off the queue and performs
it, a command being one atomic step (R232). With no action waiting the engine is idle and all state survives (R258). -/
def step (s : State) : Host.Outcome State Fault Refusal :=
  match s.queue with
  | [] => .next s
  | a :: rest => hostStep a { s with queue := rest }

/-- `s` with the host's next action a write of the word `w` to `CMD`: what stands here for storing an instruction where
it is fetched (assumption 3). -/
def State.withFetchWord (s : State) (nbits w : Nat) : State :=
  { s with queue := .wr 0x00 (reg64 (w % 2 ^ nbits)) :: s.queue }

end Sys2Proof.Machine
end

