-- ==== Sys2Proof/Safety.lean ====
section
/-! DEFINITION. The terms claims are stated in: good states (R236), the invariants of R21, R26 and R35, what each command may
write (R23, R25, R28, R61), rotations (R13), and the bit strings of the queue (R151) and of the parser (R169). -/

namespace Sys2Proof.Machine

/-- What an element of a space holds, as a number; `none` when nothing has written it (R32). -/
def State.holds (s : State) (sp : Space) (i : Nat) : Option Nat :=
  match sp with
  | .data => (s.bufs.data.peek (unlisted .data 8) i).map BitVec.toNat
  | .xf => (s.bufs.xf.peek (unlisted .xf 8) i).map BitVec.toNat
  | .sym => (s.bufs.sym.peek (unlisted .sym 8) i).map BitVec.toNat
  | .text => (s.coder.text.peek (unlisted .text 8) i).map BitVec.toNat
  | .suf => (s.bufs.suf.peek (unlisted .suf 32) i).map BitVec.toNat
  | .rank => (s.bufs.rank.peek (unlisted .rank 32) i).map BitVec.toNat
  | .group => (s.bufs.group.peek (unlisted .group 32) i).map BitVec.toNat
  | .next => (s.bufs.next.peek (unlisted .next 32) i).map BitVec.toNat
  | .freq => (s.bufs.freq.peek (unlisted .freq 32) i).map BitVec.toNat
  | .cum => (s.bufs.cum.peek (unlisted .cum 32) i).map BitVec.toNat
  | .mtfl => (s.bufs.mtfl.peek (unlisted .mtfl 8) i).map BitVec.toNat
  | .qcount => (s.coder.qcount.peek (unlisted .qcount 64) i).map BitVec.toNat

/-- `BUF[i]` as a number, read as the host reads it (R60). -/
def State.elem (s : State) (sp : Space) (i : Nat) : Nat := (readElem s sp i).toNat

/-- An element is untouched between two states: it reads the same and holds the same. -/
def sameElem (s t : State) (sp : Space) (i : Nat) : Prop := t.elem sp i = s.elem sp i ∧ t.holds sp i = s.holds sp i

/-- A run is good while no fault is recorded (R236). -/
abbrev State.good (s : State) : Prop := s.status.faulted = false

/-- The state a completed command leaves its flags in (R22, R24, R82 step 6), seen from the state `s` it was issued in. -/
abbrev completedFrom (s t : State) : Prop :=
  t.status.busy = false ∧ t.status.done = true ∧ t.status.faulted = false ∧ t.cmdcnt = s.cmdcnt + 1 ∧
    t.fault = s.fault ∧ t.finfo = s.finfo

/-- The state a fault entry leaves the flags in (R252), seen from the state `s` the command was issued in. -/
abbrev faultedFrom (s t : State) (code : FaultCode) (info : Nat) : Prop :=
  t.status.busy = false ∧ t.status.done = false ∧ t.status.faulted = true ∧ t.cmdcnt = s.cmdcnt ∧
    t.fault = code ∧ t.finfo = reg64 info

/-- The parameters are within their bounds (R6, R8). -/
abbrev State.paramsLegal (s : State) : Prop := s.cfgNmax.toNat ≤ Config.nmaxBound ∧ 1 ≤ s.cfgTmax.toNat

/-- Every space is in its canonical form. -/
def State.memWf (s : State) : Bool :=
  s.bufs.data.wf (unlisted .data 8) && s.bufs.xf.wf (unlisted .xf 8) && s.bufs.sym.wf (unlisted .sym 8) &&
  s.coder.text.wf (unlisted .text 8) && s.bufs.suf.wf (unlisted .suf 32) && s.bufs.rank.wf (unlisted .rank 32) &&
  s.bufs.group.wf (unlisted .group 32) && s.bufs.next.wf (unlisted .next 32) && s.bufs.freq.wf (unlisted .freq 32) &&
  s.bufs.cum.wf (unlisted .cum 32) && s.bufs.mtfl.wf (unlisted .mtfl 8) && s.coder.qcount.wf (unlisted .qcount 64)

/-- No space lists an element at or beyond its element count (R30, R31, R63). -/
def State.memWithin (s : State) : Bool :=
  let count := spaceCount s.cfgNmax.toNat s.cfgTmax.toNat
  s.bufs.data.within (count .data) && s.bufs.xf.within (count .xf) && s.bufs.sym.within (count .sym) &&
  s.coder.text.within (count .text) && s.bufs.suf.within (count .suf) && s.bufs.rank.within (count .rank) &&
  s.bufs.group.within (count .group) && s.bufs.next.within (count .next) && s.bufs.freq.within (count .freq) &&
  s.bufs.cum.within (count .cum) && s.bufs.mtfl.within (count .mtfl) && s.coder.qcount.within (count .qcount)

/-- Every `QCOUNT` slot outside the occupied slots is 0 (R35). -/
abbrev Coder.slotsClear (c : Coder) : Prop :=
  ∀ slot < Config.qcap, (∀ j < c.qlen.toNat, ringSlot (c.qpos.toNat + j) ≠ slot) → c.count slot = 0

/-- The legal values of the coder's registers between commands (R21, R26, R35), by mode. `TPOS <= TLEN <= TMAX` is left to
`State.cursorsLegal`, since a host write to `TLEN` can break it. `QLEN = 0` and `OCNT = 0` outside Encoding mode: R35 states the
first for every such mode and the second for Finished mode, and it holds in the other two by the rules of `RCDI` and `RESET`. -/
abbrev Coder.legal (mode : RcMode) (c : Coder) : Prop :=
  (mode = .encoding → c.low.toNat < Config.norm ∧ 1 ≤ c.range.toNat ∧ c.range.toNat ≤ Config.norm ∧ c.qlen.toNat ≤ 2) ∧
  (mode = .decoding → c.low.toNat < c.range.toNat ∧ c.range.toNat ≤ Config.norm) ∧
  (mode ≠ .encoding → c.qlen.toNat = 0 ∧ c.ocnt.toNat = 0) ∧ (mode = .idle → c.range.toNat = 0) ∧
  c.qpos.toNat < Config.qcap ∧ c.slotsClear ∧ c.ocnt.toNat ≤ 5 ∧ c.oacc.toNat < 2 ^ c.ocnt.toNat ∧
  c.iacc.toNat < 64 ∧ c.icnt.toNat ≤ 6

/-- `TPOS <= TLEN <= TMAX` (R35). -/
abbrev State.cursorsLegal (s : State) : Prop :=
  s.coder.tpos.toNat ≤ s.coder.tlen.toNat ∧ s.coder.tlen.toNat ≤ s.cfgTmax.toNat

/-- The register invariant between commands: the flags agree (R22, R252), and while no fault is recorded the coder, `RES` and
`STEP` hold legal values (R21, R26, R35). -/
abbrev State.regsLegal (s : State) : Prop :=
  s.paramsLegal ∧ s.status.busy = false ∧ (s.status.faulted = true ↔ s.fault ≠ .none) ∧
  (s.status.faulted = true → s.status.done = false) ∧ s.coder.qpos.toNat < Config.qcap ∧
  (s.status.faulted = false →
    s.coder.legal s.status.rcmode ∧ s.res.toNat ≤ Config.half ∧ ∃ j < 32, s.sortStep.toNat = 2 ^ j)

/-- A carry finds a 0-bit to carry into (R163, R159). -/
abbrev Coder.canCarry (c : Coder) : Prop :=
  c.qlen.toNat ≠ 0 ∧ (c.tail % 2 = 1 → 2 ≤ c.qlen.toNat ∧ c.count c.prev ≠ 0) ∧ (c.tail % 2 = 0 → c.count c.tail ≠ 0)

/-- The encoder between commands, with what R159 adds: while the window reaches beyond `NORM`, a carry can be absorbed. -/
abbrev Coder.encReady (c : Coder) : Prop :=
  c.legal .encoding ∧ (Config.norm < c.low.toNat + c.range.toNat → c.canCarry)

/-- A bit string as a binary number, first bit most significant (R159, R163). -/
def bitsValue (bits : List Bool) : Nat := bits.foldl (fun a b => 2 * a + b.toNat) 0

/-- The six bits of a character value, most significant first (R62, R166, R169). -/
def charBits (v : BitVec 6) : List Bool := (List.range 6).map (fun k => v.getLsbD (5 - k))

/-- The alphabet characters of `TEXT[i..i+len)`, in order (R169). -/
def textChars (port : TextPort) (c : Coder) (i len : Nat) : List (BitVec 6) :=
  (List.range len).filterMap (fun k => alphabetValue (fetch .text port.powerUp c.text (i + k)))

/-- The bits the parser has still to return from the text: the unread bits of `IACC`, then the characters of
`TEXT[TPOS..TLEN)` (R169). -/
def Coder.unread (port : TextPort) (c : Coder) : List Bool :=
  (List.range c.icnt.toNat).map (fun k => c.iacc.getLsbD (c.icnt.toNat - 1 - k)) ++
    (textChars port c c.tpos.toNat (c.tlen.toNat - c.tpos.toNat)).flatMap charBits

/-- The input bit stream: the unread bits, then 1-bits for ever (R169). -/
def Coder.inputBit (port : TextPort) (c : Coder) (k : Nat) : Bool := (c.unread port).getD k true

/-- `rot(D, n, p)` for a position `p` of `d` (R13). -/
def rotation (d : List Nat) (p : Nat) : List Nat := d.drop p ++ d.take p

/-- The sorter's arrays after `j` rounds, whatever the loop test says (R103, R108). -/
def sortAfter (d : List Nat) : Nat → SortArrays
  | 0 => initialOrder d
  | j + 1 => sortRound d.length (2 ^ j) d.length 0 (sortAfter d j)

/-- The arrays as R101 describes them between refinements: `SUF` is a permutation, a position's rank and its slot's `GROUP` entry are
the first slot of its block, a block is a stretch of slots, and `GROUP[n] = n`. -/
abbrev SortArrays.proper (n : Nat) (a : SortArrays) : Prop :=
  a.suf.Perm (List.range n) ∧ a.rank.length = n ∧ a.group.length = n + 1 ∧ a.group.getD n 0 = n ∧
    ∀ k < n, a.group.getD k 0 = a.rank.getD (a.suf.getD k 0) 0 ∧ a.group.getD k 0 ≤ k ∧
      ∀ j ≤ k, a.group.getD k 0 ≤ j → a.group.getD j 0 = a.group.getD k 0

/-- The secondary key of a position at depth `h`, `RANK[(pos + h) mod n]` (R14, R104). -/
def SortArrays.key (n h : Nat) (a : SortArrays) (pos : Nat) : Nat := a.rank.getD ((pos + h) % n) 0

/-- Commands issued one after another (R236), each from R82 step 2 on; a stop ends the list. -/
def issued : List Instr → State → Host.Outcome State Fault Refusal
  | [], s => .next s
  | i :: rest, s =>
    match exec i s with
    | .next t => issued rest t
    | .fault f => .fault f
    | .refused r => .refused r

/-- The stages of `COMP`, in order (R209). -/
def compStages : List Instr := [.bwtf, .mtfe, .freq, .rcei, .hdre, .syme, .rcfin]

/-- The stages of `DECOMP`, in order (R210). -/
def decompStages : List Instr := [.rcdi, .hdrd, .symd, .rcfin, .mtfd, .bwti]

/-- The spaces a command may write: the `w` entries of R61, and for `COMP` and `DECOMP` the union of their parts. -/
def mayWrite : Instr → Space → Bool
  | .sort, sp => sp == .suf || sp == .rank || sp == .group
  | .bwtf, sp => sp == .suf || sp == .rank || sp == .group || sp == .xf
  | .bwti, sp => sp == .data || sp == .next
  | .mtfe, sp => sp == .sym || sp == .mtfl
  | .mtfd, sp => sp == .xf || sp == .mtfl
  | .freq, sp => sp == .freq || sp == .cum
  | .rcei, sp | .rcdi, sp | .reset, sp => sp == .qcount
  | .rcenc, sp | .rcfin, sp | .hdre, sp | .syme, sp => sp == .text || sp == .qcount
  | .rcdec, _ | .rcscl, _ | .nop, _ => false
  | .hdrd, sp => sp == .freq || sp == .cum
  | .symd, sp => sp == .sym
  | .comp, sp => !(sp == .data || sp == .next)
  | .decomp, sp => !(sp == .text || sp == .suf || sp == .rank || sp == .group)

/-- The registers a command other than `RESET` may write beside `STATUS`, `FAULT`, `FINFO` and `CMDCNT`: the results its rule
names (R23, R28 and the rules of files 40 to 44). -/
def mayWriteReg : Instr → Reg → Bool
  | .nop, _ | .bwti, _ | .mtfe, _ | .mtfd, _ | .freq, _ => false
  | .reset, r => !(r == .cfgNmax || r == .cfgTmax || r == .cfgBits || r == .cfgQcap || r == .cfgThresh || r == .cfgLine ||
      r == .cfgLenden)
  | .sort, r => r == .step
  | .bwtf, r => r == .step || r == .bidx
  | .rcei, r => r == .low || r == .range || r == .qpos || r == .qlen || r == .oacc || r == .ocnt || r == .ochars ||
      r == .tlen || r == .tpos || r == .iacc || r == .icnt
  | .rcdi, r => r == .low || r == .range || r == .qpos || r == .qlen || r == .oacc || r == .ocnt || r == .ochars ||
      r == .tpos || r == .iacc || r == .icnt
  | .rcenc, r | .rcfin, r | .hdre, r | .syme, r => r == .low || r == .range || r == .qpos || r == .qlen || r == .oacc ||
      r == .ocnt || r == .ochars || r == .tlen
  | .rcdec, r => r == .res || r == .low || r == .range || r == .tpos || r == .iacc || r == .icnt
  | .rcscl, r | .symd, r => r == .low || r == .range || r == .tpos || r == .iacc || r == .icnt
  | .hdrd, r => r == .n || r == .bidx || r == .low || r == .range || r == .tpos || r == .iacc || r == .icnt
  | .comp, r => r == .step || r == .bidx || r == .low || r == .range || r == .qpos || r == .qlen || r == .oacc ||
      r == .ocnt || r == .ochars || r == .tlen || r == .tpos || r == .iacc || r == .icnt
  | .decomp, r => r == .n || r == .bidx || r == .low || r == .range || r == .qpos || r == .qlen || r == .oacc ||
      r == .ocnt || r == .ochars || r == .tpos || r == .iacc || r == .icnt

/-- The registers every command but `RESET` writes when it completes or faults (R82, R252). -/
def commandRegs : Reg → Bool
  | .status | .fault | .finfo | .cmdcnt => true
  | _ => false

/-- The commands that may change `STATUS.RCMODE` (R25). -/
def mayChangeMode : Instr → Bool
  | .rcei | .rcdi | .rcfin | .comp | .decomp | .reset => true
  | .nop | .sort | .bwtf | .bwti | .mtfe | .mtfd | .rcenc | .rcdec | .rcscl | .freq | .hdre | .syme | .hdrd | .symd => false

/-- The intervals `HDRE` codes for the counts, from a denominator on (R204). -/
def countIntervals (remaining : Nat) : List Nat → List (Nat × Nat × Nat)
  | [] => []
  | f :: rest => (f, f + 1, remaining) :: countIntervals (remaining - f) rest

/-- The intervals of the header, in the order `HDRE` codes them (R202). -/
def headerIntervals (n bidx : Nat) (freq : List Nat) : List (Nat × Nat × Nat) :=
  (n, n + 1, Config.lenDenom) :: ((if n = 0 then [] else [(bidx, bidx + 1, n)]) ++ countIntervals (n + 1) freq)

/-- The coder after a list of `encode` calls (R212). -/
def encodeAll (tmax : Nat) : List (Nat × Nat × Nat) → Coder → Run Coder Coder
  | [], c => .ok c
  | (lo, hi, den) :: rest, c => do
    let c ← encode64 tmax lo hi den c
    encodeAll tmax rest c

/-- The text of the empty input (R211). -/
def emptyText : List Nat := [0x30, 0x30, 0x30, 0x30, 0x30, 0x37]

/-- The `decode`, `scale` pairs of a decoder that mirrors a list of intervals (R173): the values returned. -/
def decodeAll (port : TextPort) : List (Nat × Nat × Nat) → Coder → Run Coder (List Nat × Coder)
  | [], c => .ok ([], c)
  | (lo, hi, den) :: rest, c => do
    let (v, c) ← decode64 port den c
    let c ← scale64 port lo hi den c
    let (vs, c) ← decodeAll port rest c
    .ok (v :: vs, c)

/-- The bits of the unfinished character, first bit first (R27, R166). -/
def Coder.partialBits (c : Coder) : List Bool :=
  (List.range c.ocnt.toNat).map (fun k => c.oacc.getLsbD (c.ocnt.toNat - 1 - k))

/-- The bits of the alphabet characters in `TEXT[i..j)` (R166, R167). -/
def Coder.textBits (port : TextPort) (c : Coder) (i j : Nat) : List Bool := (textChars port c i (j - i)).flatMap charBits

/-- The value of a register after reset (R21, R280). -/
def resetValue (nmax tmax : Nat) : Reg → Nat
  | .step => 1
  | .cfgNmax => nmax
  | .cfgTmax => tmax
  | .cfgBits => 32
  | .cfgQcap => 128
  | .cfgThresh => 72
  | .cfgLine => 80
  | .cfgLenden => 2147483647
  | .cmd | .status | .fault | .finfo | .n | .bidx | .arg0 | .arg1 | .arg2 | .res | .tlen | .tpos | .cmdcnt => 0
  | .low | .range | .qpos | .qlen | .oacc | .ocnt | .ochars | .iacc | .icnt => 0

/-- How many leading elements of a space other than `TEXT` and `QCOUNT` a command may write, from the states before and
after it: the element ranges its rule names (R12, R31); for `N = 0` not even `GROUP[0]` (R110). -/
def writtenBelow (i : Instr) (s t : State) : Space → Nat
  | .group => if s.n.toNat = 0 then 0 else s.n.toNat + 1
  | .freq | .mtfl => Config.nsym
  | .cum => Config.nsym + 1
  | .data | .xf | .sym | .suf | .rank | .next | .text | .qcount =>
    match i with
    | .decomp => t.n.toNat
    | _ => s.n.toNat

/-- `CUM` is a consistent cumulative table of `n` symbols (R208). -/
abbrev State.cumConsistent (s : State) (n : Nat) : Prop :=
  s.elem .cum 0 = 0 ∧ s.elem .cum 256 = n ∧ ∀ c < 256, s.elem .cum c ≤ s.elem .cum (c + 1)

/-- `CUM` is the cumulative table of `FREQ` (R30, R201). -/
abbrev State.cumOfFreq (s : State) : Prop :=
  s.elem .cum 0 = 0 ∧ ∀ c < 256, s.elem .cum (c + 1) = s.elem .cum c + s.elem .freq c

/-- The intervals `SYME` codes, in order (R205). -/
def symbolIntervals (s : State) (n : Nat) : List (Nat × Nat × Nat) :=
  (List.range n).map (fun i => (s.elem .cum (s.elem .sym i), s.elem .cum (s.elem .sym i + 1), n))

end Sys2Proof.Machine
end

