-- ==== Sys2Proof/Certificates/Slice0/Obligations.lean ====
section
/-! DEFINITION. The statements for the provers. Each docstring names the rule of spec/ it formalises or rests on. -/

open Sys2Proof Sys2Proof.Machine

/-! ## Command words (file 30) -/

/-- R81, R84: decoding is total and `encode` is its inverse: the word of every command decodes to that command; a word is one of
the twenty commands exactly when its reserved field is 0 and its opcode is outside the unassigned ranges R84 lists, and then it
is that command's only word. -/
def Obligations.DecodeAndEncodeAgree : Prop :=
  (∀ i : Instr, i.wellFormed = true → decode (encode i) = .ok i) ∧
  ∀ w : CommandWord,
    (w.wellFormed = true ↔ ∃ i, decode w = .ok i) ∧ (∀ i, decode w = .ok i → w = encode i) ∧
    (decode w = .error .reservedBits ↔ w.reservedClear = false)

/-- R81: the word of every command, written from the table; and three words that are none. -/
def Obligations.DecodeOfTableWords : Prop :=
  decode 0x00000000#32 = .ok .nop ∧ decode 0x00000001#32 = .ok .reset ∧ decode 0x00000010#32 = .ok .sort ∧
  decode 0x00000011#32 = .ok .bwtf ∧ decode 0x00000012#32 = .ok .bwti ∧ decode 0x00000013#32 = .ok .mtfe ∧
  decode 0x00000014#32 = .ok .mtfd ∧ decode 0x00000020#32 = .ok .rcei ∧ decode 0x00000021#32 = .ok .rcdi ∧
  decode 0x00000022#32 = .ok .rcenc ∧ decode 0x00000023#32 = .ok .rcdec ∧ decode 0x00000024#32 = .ok .rcscl ∧
  decode 0x00000025#32 = .ok .rcfin ∧ decode 0x00000030#32 = .ok .freq ∧ decode 0x00000031#32 = .ok .hdre ∧
  decode 0x00000032#32 = .ok .syme ∧ decode 0x00000033#32 = .ok .hdrd ∧ decode 0x00000034#32 = .ok .symd ∧
  decode 0x00000040#32 = .ok .comp ∧ decode 0x00000041#32 = .ok .decomp ∧ decode 0x00000002#32 = .error .unassignedOpcode ∧
  decode 0x00000042#32 = .error .unassignedOpcode ∧ decode 0x80000040#32 = .error .reservedBits

/-! ## Issuing a command (files 30, 45, 60) -/

/-- R80, R82: when the host's next action writes to `CMD` a word that decodes to `i`, the step stores bits 31:0 of it in
`CMD` and runs `i`; `withFetchWord` places such an action. -/
def Obligations.StepRunsTheDecodedCommand : Prop :=
  (∀ (s : State) (v : Reg64) (rest : List HostAction) (i : Instr),
    s.status.busy = false → s.queue = .wr 0x00 v :: rest → decode (BitVec.ofNat 32 v.toNat) = .ok i →
    step s = exec i { s with queue := rest, cmd := reg64 (v.toNat % 2 ^ 32) }) ∧
  (∀ (s : State) (i : Instr), s.status.busy = false →
    step (s.withFetchWord 32 (encode i).toNat) = exec i { s with cmd := reg64 (encode i).toNat })

/-- R82 step 4, R84, R252: in a good state a word that is no command takes the fault `ILLEGAL_CMD` with the word in `FINFO`;
nothing else changes. -/
def Obligations.IllegalWordTakesIllegalCmd : Prop :=
  ∀ (s : State) (v : Reg64) (rest : List HostAction) (e : DecodeError),
    s.status.busy = false → s.good → s.queue = .wr 0x00 v :: rest → decode (BitVec.ofNat 32 v.toNat) = .error e →
    step s = .next { s with
      queue := rest, cmd := reg64 (v.toNat % 2 ^ 32), fault := .illegalCmd, finfo := reg64 (v.toNat % 2 ^ 32),
      status := { busy := false, done := false, faulted := true, rcmode := s.status.rcmode } }

/-- R256, R82 step 2: a fault is sticky. No step but the write of the word `0x00000001` to `CMD` changes `FAULT`, `FINFO`,
`FAULTED` or `CMDCNT`, and every other word written to `CMD` is ignored: `CMD` takes it, nothing else changes. -/
def Obligations.FaultIsStickyUntilReset : Prop :=
  (∀ s t : State, s.status.faulted = true → step s = .next t →
    (t.status.faulted = true ∧ t.fault = s.fault ∧ t.finfo = s.finfo ∧ t.cmdcnt = s.cmdcnt) ∨
    ∃ v rest, s.queue = .wr 0x00 v :: rest ∧ v.toNat % 2 ^ 32 = 1) ∧
  ∀ (s : State) (v : Reg64) (rest : List HostAction),
    s.status.busy = false → s.status.faulted = true → s.queue = .wr 0x00 v :: rest → v.toNat % 2 ^ 32 ≠ 1 →
    step s = .next { s with queue := rest, cmd := reg64 (v.toNat % 2 ^ 32) }

/-- R24, R82, R252: from a good state a command other than `RESET` either completes (`DONE`, `CMDCNT` one more, no fault
recorded) or takes one fault (`FAULTED`, a code other than 0, `CMDCNT` as it was). -/
def Obligations.CommandCompletesOrTakesOneFault : Prop :=
  ∀ (i : Instr) (s t : State), i ≠ .reset → s.good → exec i s = .next t →
    completedFrom s t ∨ ∃ code info, code ≠ .none ∧ faultedFrom s t code info

/-- R230: the word 0, and no other, is `NOP`; it completes and changes nothing but `STATUS` (`DONE`, with `BUSY` 0) and `CMDCNT`,
and is ignored while `FAULTED = 1`. -/
def Obligations.NopOnlyCompletes : Prop :=
  (∀ w : CommandWord, decode w = .ok .nop ↔ w = 0x00000000#32) ∧ ∀ s : State,
    (s.good → exec .nop s = .next { s with
      status := { busy := false, done := true, faulted := false, rcmode := s.status.rcmode }, cmdcnt := s.cmdcnt + 1 }) ∧
    (s.status.faulted = true → exec .nop s = .next s)

/-- R231: `RESET`, in every state: every register at its reset value, `QCOUNT` all 0, buffers and tables as they were. -/
def Obligations.ResetRestoresRegistersAndKeepsBuffers : Prop :=
  ∀ s : State, ∃ t, exec .reset s = .next t ∧
    (∀ r, (readReg t r).toNat = resetValue s.cfgNmax.toNat s.cfgTmax.toNat r) ∧
    t.status.busy = false ∧ t.status.done = false ∧ t.status.faulted = false ∧ t.status.rcmode = .idle ∧
    (∀ slot, t.elem .qcount slot = 0) ∧ (∀ sp k, sp ≠ .qcount → sameElem s t sp k)

/-- R280: the state after a hardware reset, for all parameters: the register table, `QCOUNT` zero, and no other element
holding a value; the engine is idle until the host acts. -/
def Obligations.HardwareResetState : Prop :=
  ∀ (nmax tmax powerUp : Nat) (program : List HostAction), nmax < 2 ^ 64 → tmax < 2 ^ 64 →
    (∀ r, (readReg (State.resetWith nmax tmax powerUp program) r).toNat = resetValue nmax tmax r) ∧
    (∀ sp k, (State.resetWith nmax tmax powerUp program).holds sp k = if sp = .qcount then some 0 else none) ∧
    step (State.resetWith nmax tmax powerUp []) = .next (State.resetWith nmax tmax powerUp [])

/-! ## The host's other actions (files 10, 20, 45) -/

/-- R64, R236, R22: a host read changes no state of the block and returns the current value (to the host's own record, which is
the model's, assumption 3); `STATUS` reads as the fields R22 places in it. -/
def Obligations.HostReadsReturnTheValueAndChangeNothing : Prop :=
  (∀ (s : State) (rest : List HostAction), s.status.busy = false →
    (∀ reg r, s.queue = .rd reg :: rest → regOfNumber reg = some r →
      step s = .next { s with queue := rest, seen := s.seen ++ [readReg s r] }) ∧
    (∀ space sp i count, s.queue = .rdb space i count :: rest → spaceOfNumber space = some sp →
      i + count ≤ spaceCount s.cfgNmax.toNat s.cfgTmax.toNat sp →
      step s = .next { s with queue := rest, seen := s.seen ++ (List.range count).map (fun k => readElem s sp (i + k)) })) ∧
  ∀ s : State,
    (readReg s .status).getLsbD 0 = s.status.busy ∧ (readReg s .status).getLsbD 1 = s.status.done ∧
    (readReg s .status).getLsbD 2 = s.status.faulted ∧
    (readReg s .status).toNat / 8 % 4 = modeNumber s.status.rcmode ∧ (readReg s .status).toNat < 32

/-- R21, R60, R259 (file 93, U9): a host write to a RW register other than `CMD` gives it the value; a write to an R register, which
has no effect, is refused (assumption 5); a host write of values that fit, inside a RW space, gives the elements the values; every
other register and element stays. -/
def Obligations.HostWritesReachOnlyTheirTarget : Prop :=
  (∀ (s : State) (reg : Nat) (r : Reg) (v : Reg64) (rest : List HostAction),
    s.status.busy = false → s.queue = .wr reg v :: rest → regOfNumber reg = some r → r ≠ .cmd →
    (regHostWrites r = true → ∃ t, step s = .next t ∧ t.queue = rest ∧ t.seen = s.seen ∧
      (∀ r', readReg t r' = if r' = r then v else readReg s r') ∧ (∀ sp k, sameElem s t sp k)) ∧
    (regHostWrites r = false → step s = .refused (.readOnlyRegister r))) ∧
  ∀ (s : State) (space i : Nat) (sp : Space) (vs : List Reg64) (rest : List HostAction),
    s.status.busy = false → s.queue = .wrb space i vs :: rest → spaceOfNumber space = some sp →
    spaceHostWrites sp = true → i + vs.length ≤ spaceCount s.cfgNmax.toNat s.cfgTmax.toNat sp →
    (∀ v ∈ vs, v.toNat < 2 ^ spaceWidth sp) →
    ∃ t, step s = .next t ∧ t.queue = rest ∧ t.seen = s.seen ∧
      (∀ k < vs.length, t.holds sp (i + k) = some (vs.getD k 0).toNat) ∧
      (∀ sp' k, sp' ≠ sp ∨ k < i ∨ i + vs.length ≤ k → sameElem s t sp' k) ∧ (∀ r, readReg t r = readReg s r)

/-- R21, R60, R63, R233 (file 93, U5, U8, U9): a host action other than a `CMD` write is performed exactly when it is well formed and refused otherwise; while
`BUSY = 1` every action but a read of `STATUS` is refused. That a list access is refused as a whole, and an empty one performed at
any index of an assigned, for a write writable, space, is the MODEL'S CHOICE (assumption 13); that a write to an R register is
refused and not a step without effect is U9 read over R21 and R259 (assumption 5). -/
def Obligations.HostActionRefusedExactlyWhenIllFormed : Prop :=
  (∀ (s : State) (a : HostAction), s.status.busy = false → (∀ v, a ≠ .wr 0x00 v) →
    (a.wellFormed s.cfgNmax.toNat s.cfgTmax.toNat = true → ∃ t, hostStep a s = .next t) ∧
    (a.wellFormed s.cfgNmax.toNat s.cfgTmax.toNat = false → ∃ r, hostStep a s = .refused r)) ∧
  ∀ (s : State) (a : HostAction), s.status.busy = true →
    (a = .rd 0x01 → ∃ t, hostStep a s = .next t) ∧ (a ≠ .rd 0x01 → hostStep a s = .refused .hostAccessWhileBusy)

/-! ## What commands leave alone (files 10, 20) -/

/-- R12, R23: a command changes no register but the results its rule names and, on its end, the flag registers; the host's queue
and record and the power-up stay. -/
def Obligations.CommandsChangeOnlyTheirResultRegisters : Prop :=
  ∀ (i : Instr) (s t : State), exec i s = .next t →
    (∀ r, mayWriteReg i r = false → commandRegs r = false → readReg t r = readReg s r) ∧
    t.queue = s.queue ∧ t.seen = s.seen ∧ t.powerUp = s.powerUp

/-- R61: a command reaches no space the table does not give it. -/
def Obligations.CommandsWriteOnlyTheirSpaces : Prop :=
  ∀ (i : Instr) (s t : State) (sp : Space) (k : Nat), exec i s = .next t → mayWrite i sp = false → sameElem s t sp k

/-- R12, R31 (file 93, U17): in the spaces a command writes, other than `TEXT` and `QCOUNT`, the elements beyond the range its rule
names stay. -/
def Obligations.CommandsKeepElementsBeyondTheirRange : Prop :=
  ∀ (i : Instr) (s t : State) (sp : Space) (k : Nat), exec i s = .next t → i ≠ .reset → sp ≠ .text → sp ≠ .qcount →
    writtenBelow i s t sp ≤ k → sameElem s t sp k

/-- R72, R166: the encoder's commands store to `TEXT` only at the cursor `TLEN`, upwards: below the old `TLEN` and from the new
one on every element stays. `COMP` starts at 0. -/
def Obligations.EncoderStoresOnlyBetweenOldAndNewTlen : Prop :=
  ∀ (i : Instr) (s t : State), exec i s = .next t →
    (i = .rcenc ∨ i = .rcfin ∨ i = .hdre ∨ i = .syme →
      s.coder.tlen.toNat ≤ t.coder.tlen.toNat ∧
      ∀ k, k < s.coder.tlen.toNat ∨ t.coder.tlen.toNat ≤ k → sameElem s t .text k) ∧
    (i = .comp → ∀ k, t.coder.tlen.toNat ≤ k → sameElem s t .text k)

/-- R25: which commands change `STATUS.RCMODE`, and to what; a hardware reset leaves Idle. -/
def Obligations.ModeChangesOnlyAsR25Lists : Prop :=
  (∀ (i : Instr) (s t : State), exec i s = .next t →
    (mayChangeMode i = false → t.status.rcmode = s.status.rcmode) ∧
    (t.status.faulted = false →
      (i = .rcei → t.status.rcmode = .encoding) ∧ (i = .rcdi → t.status.rcmode = .decoding) ∧
      (i = .rcfin → t.status.rcmode = .finished ∧ s.status.rcmode ≠ .idle) ∧
      (i = .comp ∨ i = .decomp → t.status.rcmode = .finished)) ∧
    (i = .reset → t.status.rcmode = .idle)) ∧
  ∀ nmax tmax powerUp program, (State.resetWith nmax tmax powerUp program).status.rcmode = .idle

/-! ## Faults at a command's entry (file 60) -/

/-- R250 codes 2 and 3, R251 group 3: `N > NMAX` takes `BAD_LENGTH` (for a coder stage, in its mode), so does `TLEN > TMAX` at
`RCDI` and `DECOMP` (R168, R210), and `BWTI` with `BIDX >= N > 0` takes `BAD_INDEX`; all state but the fault registers and flags
is unchanged. -/
def Obligations.LengthOrIndexOutsideFaultsAtEntry : Prop :=
  (∀ (i : Instr) (s : State), s.good → s.cfgNmax.toNat < s.n.toNat →
    (i = .sort ∨ i = .bwtf ∨ i = .bwti ∨ i = .mtfe ∨ i = .mtfd ∨ i = .freq ∨ i = .comp ∨
      ((i = .hdre ∨ i = .syme) ∧ s.status.rcmode = .encoding) ∨ (i = .symd ∧ s.status.rcmode = .decoding)) →
    exec i s = .next { s with
      fault := .badLength, finfo := s.n,
      status := { busy := false, done := false, faulted := true, rcmode := s.status.rcmode } }) ∧
  (∀ (i : Instr) (s : State), s.good → i = .rcdi ∨ i = .decomp → s.cfgTmax.toNat < s.coder.tlen.toNat →
    exec i s = .next { s with
      fault := .badLength, finfo := s.coder.tlen,
      status := { busy := false, done := false, faulted := true, rcmode := s.status.rcmode } }) ∧
  ∀ s : State, s.good → 0 < s.n.toNat → s.n.toNat ≤ s.cfgNmax.toNat → s.n.toNat ≤ s.bidx.toNat →
    exec .bwti s = .next { s with
      fault := .badIndex, finfo := s.bidx,
      status := { busy := false, done := false, faulted := true, rcmode := s.status.rcmode } }

/-- R150, R156, R251: a coder command in a mode that does not allow it takes `RC_MODE` with the mode found, before any other check; in
its mode, an operand triple outside `0 <= lo < hi <= den <= HALF + 1` (for `RCDEC`, `den` outside `[1, HALF + 1]`) takes
`RC_INTERVAL`. All state but the fault registers and flags is unchanged. -/
def Obligations.WrongModeThenIllegalIntervalFaultsAtEntry : Prop :=
  (∀ (i : Instr) (s : State), s.good →
    ((i = .rcenc ∨ i = .hdre ∨ i = .syme) ∧ s.status.rcmode ≠ .encoding ∨
      (i = .rcdec ∨ i = .rcscl ∨ i = .hdrd ∨ i = .symd) ∧ s.status.rcmode ≠ .decoding ∨
      i = .rcfin ∧ s.status.rcmode = .idle) →
    exec i s = .next { s with
      fault := .rcMode, finfo := reg64 (modeNumber s.status.rcmode),
      status := { busy := false, done := false, faulted := true, rcmode := s.status.rcmode } }) ∧
  ∀ (i : Instr) (s : State), s.good →
    ((i = .rcenc ∧ s.status.rcmode = .encoding ∨ i = .rcscl ∧ s.status.rcmode = .decoding) ∧
        ¬ (s.arg0.toNat < s.arg1.toNat ∧ s.arg1.toNat ≤ s.arg2.toNat ∧ s.arg2.toNat ≤ 2 ^ 31 + 1) ∨
      i = .rcdec ∧ s.status.rcmode = .decoding ∧ ¬ (1 ≤ s.arg2.toNat ∧ s.arg2.toNat ≤ 2 ^ 31 + 1)) →
    exec i s = .next { s with
      fault := .rcInterval, finfo := 0,
      status := { busy := false, done := false, faulted := true, rcmode := s.status.rcmode } }

/-! ## Sorting and the transform (files 40, 41) -/

/-- R109: after `SORT` of `n >= 1` bytes, `SUF` is the permutation that orders the rotations, ties by position; `RANK[p]` is the
smallest slot with a rotation equal to that of `p`; `GROUP[k] = RANK[SUF[k]]` and `GROUP[n] = n`. -/
def Obligations.SortOrdersAllRotations : Prop :=
  ∀ s : State, s.good → s.paramsLegal → 1 ≤ s.n.toNat → s.n.toNat ≤ s.cfgNmax.toNat →
    ∃ t, exec .sort s = .next t ∧ completedFrom s t ∧
      ((List.range s.n.toNat).map (t.elem .suf)).Perm (List.range s.n.toNat) ∧
      (∀ k l, k < l → l < s.n.toNat →
        rotation ((List.range s.n.toNat).map (s.elem .data)) (t.elem .suf k) <
            rotation ((List.range s.n.toNat).map (s.elem .data)) (t.elem .suf l) ∨
          rotation ((List.range s.n.toNat).map (s.elem .data)) (t.elem .suf k) =
            rotation ((List.range s.n.toNat).map (s.elem .data)) (t.elem .suf l) ∧
          t.elem .suf k < t.elem .suf l) ∧
      (∀ p < s.n.toNat, t.elem .rank p < s.n.toNat ∧
        rotation ((List.range s.n.toNat).map (s.elem .data)) (t.elem .suf (t.elem .rank p)) =
          rotation ((List.range s.n.toNat).map (s.elem .data)) p ∧
        ∀ k < t.elem .rank p,
          rotation ((List.range s.n.toNat).map (s.elem .data)) (t.elem .suf k) ≠
            rotation ((List.range s.n.toNat).map (s.elem .data)) p) ∧
      (∀ k < s.n.toNat, t.elem .group k = t.elem .rank (t.elem .suf k)) ∧ t.elem .group s.n.toNat = s.n.toNat

/-- R104 to R106: `refine` of a block orders its members by the key `RANK[(pos + h) mod n]`, equal keys in their previous order;
each member's new block starts where its key starts; other slots stay. R103: a round refines the block of the slot it has reached,
if it has more than one slot, and goes on at the block's end. R101, R107: after `j` rounds the arrays are proper, (a) a smaller rank
is a smaller rotation, (b) equal ranks agree on `2^j` bytes, (c) equal rotations share a rank and stand in ascending position.
R108, R110: `STEP` after `SORT` is the smallest `2^j` with `2^j >= n` or no unresolved block after `j` rounds, `j` at most
`ceil_log2(n)` (so 1 for `n <= 1`). -/
def Obligations.SortStopsAtTheFirstSufficientDepth : Prop :=
  (∀ (n h start stop : Nat) (a : SortArrays), a.proper n → start < stop → stop ≤ n →
    (∀ k < stop, start ≤ k → a.group.getD k 0 = start) → a.group.getD stop 0 ≠ start →
    (refine n start stop h a).proper n ∧
    (∀ k < n, k < start ∨ stop ≤ k →
      (refine n start stop h a).suf.getD k 0 = a.suf.getD k 0 ∧ (refine n start stop h a).group.getD k 0 = a.group.getD k 0) ∧
    (((refine n start stop h a).suf.drop start).take (stop - start)).Perm ((a.suf.drop start).take (stop - start)) ∧
    (∀ k l, start ≤ k → k < l → l < stop →
      a.key n h ((refine n start stop h a).suf.getD k 0) < a.key n h ((refine n start stop h a).suf.getD l 0) ∨
        a.key n h ((refine n start stop h a).suf.getD k 0) = a.key n h ((refine n start stop h a).suf.getD l 0) ∧
        a.suf.idxOf ((refine n start stop h a).suf.getD k 0) < a.suf.idxOf ((refine n start stop h a).suf.getD l 0)) ∧
    ∀ k g, start ≤ k → k < stop → (refine n start stop h a).group.getD k 0 = g → start ≤ g ∧
      a.key n h ((refine n start stop h a).suf.getD g 0) = a.key n h ((refine n start stop h a).suf.getD k 0) ∧
      (start < g → a.key n h ((refine n start stop h a).suf.getD (g - 1) 0) <
        a.key n h ((refine n start stop h a).suf.getD k 0))) ∧
  (∀ (n h fuel start stop : Nat) (a : SortArrays), a.group.length = n + 1 → start < stop → stop ≤ n →
    (∀ k < stop, start < k → a.group.getD k 0 = start) → a.group.getD stop 0 ≠ start →
    sortRound n h (fuel + 1) start a =
      sortRound n h fuel stop (if 1 < stop - start then refine n start stop h a else a) ∧ sortRound n h fuel n a = a) ∧
  (∀ (d : List Nat) (j : Nat), 1 ≤ d.length → (∀ b ∈ d, b < 256) →
    (sortAfter d j).proper d.length ∧
    ∀ p q, p < d.length → q < d.length →
      ((sortAfter d j).rank.getD p 0 < (sortAfter d j).rank.getD q 0 → rotation d p < rotation d q) ∧
      ((sortAfter d j).rank.getD p 0 = (sortAfter d j).rank.getD q 0 →
        (rotation d p).take (2 ^ j) = (rotation d q).take (2 ^ j)) ∧
      (rotation d p = rotation d q → (sortAfter d j).rank.getD p 0 = (sortAfter d j).rank.getD q 0 ∧
        (p < q → (sortAfter d j).suf.idxOf p < (sortAfter d j).suf.idxOf q))) ∧
  ∀ s : State, s.good → s.paramsLegal → s.n.toNat ≤ s.cfgNmax.toNat →
    ∃ t j, exec .sort s = .next t ∧ completedFrom s t ∧ t.sortStep.toNat = 2 ^ j ∧ j ≤ ceilLog2 s.n.toNat ∧
      (s.n.toNat ≤ 2 ^ j ∨ unresolved s.n.toNat (sortAfter ((List.range s.n.toNat).map (s.elem .data)) j).group = false) ∧
      ∀ j' < j, 2 ^ j' < s.n.toNat ∧
        unresolved s.n.toNat (sortAfter ((List.range s.n.toNat).map (s.elem .data)) j').group = true

/-- R104: the radix branch and the insertion branch give the same order of the pairs, so the threshold changes no result. -/
def Obligations.RadixSortAgreesWithInsertionSort : Prop :=
  ∀ (n : Nat) (pairs : List (Nat × Nat)), (∀ x ∈ pairs, x.1 < n) → radixSort n pairs = insertionSort pairs

/-- R120, R121, R126: `BWTF` leaves `SORT`'s arrays and depth, `XF[i] = DATA[(SUF[i] + n - 1) mod n]`, and in `BIDX` the one slot
with `SUF[BIDX] = 0` (0 for `n = 0`), which holds the last byte of the input. -/
def Obligations.BwtForwardTransforms : Prop :=
  ∀ s : State, s.good → s.paramsLegal → s.n.toNat ≤ s.cfgNmax.toNat →
    ∃ t u, exec .bwtf s = .next t ∧ completedFrom s t ∧ exec .sort s = .next u ∧ t.sortStep = u.sortStep ∧
      (∀ sp k, sp = .suf ∨ sp = .rank ∨ sp = .group → sameElem u t sp k) ∧
      (∀ i < s.n.toNat, t.elem .xf i = s.elem .data ((t.elem .suf i + s.n.toNat - 1) % s.n.toNat)) ∧
      (s.n.toNat = 0 → t.bidx = 0) ∧
      (0 < s.n.toNat → t.bidx.toNat < s.n.toNat ∧ t.elem .xf t.bidx.toNat = s.elem .data (s.n.toNat - 1) ∧
        ∀ i < s.n.toNat, (t.elem .suf i = 0 ↔ i = t.bidx.toNat))

/-- R122, R123, R124: `BWTI` puts each slot `j` at its stable rank among the bytes of `XF`, then walks `p = NEXT[p]` from `BIDX`
emitting `XF[p]`; for `n = 0` it completes and writes nothing (R127). -/
def Obligations.BwtInverseWalksTheStableOrder : Prop :=
  ∀ s : State, s.good → s.paramsLegal → s.n.toNat ≤ s.cfgNmax.toNat → (0 < s.n.toNat → s.bidx.toNat < s.n.toNat) →
    ∃ t, exec .bwti s = .next t ∧ completedFrom s t ∧
      (s.n.toNat = 0 → t.bufs = s.bufs) ∧
      (∀ j < s.n.toNat,
        t.elem .next
          ((List.range s.n.toNat).countP (fun k => decide (s.elem .xf k < s.elem .xf j)) +
            (List.range j).countP (fun k => decide (s.elem .xf k = s.elem .xf j))) = j) ∧
      ∃ p : Nat → Nat, p 0 = s.bidx.toNat ∧
        ∀ k < s.n.toNat, p (k + 1) = t.elem .next (p k) ∧ t.elem .data k = s.elem .xf (p (k + 1))

/-- R125: `BWTF` and then `BWTI`, from any state that has kept `XF`, `BIDX` and `N`, restores `DATA`. -/
def Obligations.BwtInverseRestoresTheInput : Prop :=
  ∀ s : State, s.good → s.paramsLegal → s.n.toNat ≤ s.cfgNmax.toNat →
    ∃ t, exec .bwtf s = .next t ∧ completedFrom s t ∧
      ∀ t' : State, t'.good → t'.cfgNmax = s.cfgNmax → t'.n = s.n → t'.bidx = t.bidx →
        (∀ k < s.n.toNat, t'.elem .xf k = t.elem .xf k) →
        ∃ u, exec .bwti t' = .next u ∧ completedFrom t' u ∧ ∀ k < s.n.toNat, u.elem .data k = s.elem .data k

/-! ## Move to front (file 42) -/

/-- R135, R136, R137: both commands keep a list that starts as the identity and stays a permutation. For `MTFE` each code is the
place of the byte, for `MTFD` each byte is the one at the code's place; that byte then goes to the front, and `MTFL` is the last
list. -/
def Obligations.MtfCodesPlacesInTheRecencyList : Prop :=
  ∀ s : State, s.good → s.n.toNat ≤ s.cfgNmax.toNat →
    (∃ t, exec .mtfe s = .next t ∧ completedFrom s t ∧ ∃ l : Nat → List Nat,
      l 0 = List.range 256 ∧ (∀ i ≤ s.n.toNat, (l i).Perm (List.range 256)) ∧
      (∀ i < s.n.toNat, (l i)[t.elem .sym i]? = some (s.elem .xf i) ∧
        l (i + 1) = s.elem .xf i :: (l i).erase (s.elem .xf i)) ∧
      ∀ k < 256, (l s.n.toNat)[k]? = some (t.elem .mtfl k)) ∧
    (∃ t, exec .mtfd s = .next t ∧ completedFrom s t ∧ ∃ l : Nat → List Nat,
      l 0 = List.range 256 ∧ (∀ i ≤ s.n.toNat, (l i).Perm (List.range 256)) ∧
      (∀ i < s.n.toNat, (l i)[s.elem .sym i]? = some (t.elem .xf i) ∧
        l (i + 1) = t.elem .xf i :: (l i).erase (t.elem .xf i)) ∧
      ∀ k < 256, (l s.n.toNat)[k]? = some (t.elem .mtfl k))

/-- R138: `MTFE` then `MTFD` restores `XF`, and `MTFD` then `MTFE` restores `SYM`, from any state that has kept the other buffer. -/
def Obligations.MtfIsInvertibleBothWays : Prop :=
  ∀ s : State, s.good → s.n.toNat ≤ s.cfgNmax.toNat →
    (∃ t, exec .mtfe s = .next t ∧ completedFrom s t ∧
      ∀ t' : State, t'.good → t'.cfgNmax = s.cfgNmax → t'.n = s.n →
        (∀ k < s.n.toNat, t'.elem .sym k = t.elem .sym k) →
        ∃ u, exec .mtfd t' = .next u ∧ completedFrom t' u ∧ ∀ k < s.n.toNat, u.elem .xf k = s.elem .xf k) ∧
    (∃ t, exec .mtfd s = .next t ∧ completedFrom s t ∧
      ∀ t' : State, t'.good → t'.cfgNmax = s.cfgNmax → t'.n = s.n →
        (∀ k < s.n.toNat, t'.elem .xf k = t.elem .xf k) →
        ∃ u, exec .mtfe t' = .next u ∧ completedFrom t' u ∧ ∀ k < s.n.toNat, u.elem .sym k = s.elem .sym k)

/-! ## The range coder (file 43) -/

/-- R155: `RCEI`, in every good state. -/
def Obligations.EncoderConstruction : Prop :=
  ∀ s : State, s.good → ∃ t, exec .rcei s = .next t ∧ completedFrom s t ∧ t.status.rcmode = .encoding ∧
    t.coder.low.toNat = 0 ∧ t.coder.range.toNat = 2 ^ 32 ∧ (∀ slot, t.elem .qcount slot = 0) ∧
    t.coder.qpos = 0 ∧ t.coder.qlen = 0 ∧ t.coder.oacc = 0 ∧ t.coder.ocnt = 0 ∧ t.coder.ochars = 0 ∧
    t.coder.tlen = 0 ∧ t.coder.tpos = 0 ∧ t.coder.iacc = 0 ∧ t.coder.icnt = 0 ∧ t.coder.text = s.coder.text

/-- R168: `RCDI` in a good state: `BAD_LENGTH` when `TLEN > TMAX`, else the constructed decoder, `TLEN` and `TEXT` kept. -/
def Obligations.DecoderConstruction : Prop :=
  ∀ s : State, s.good →
    (s.cfgTmax.toNat < s.coder.tlen.toNat → exec .rcdi s = .next { s with
      fault := .badLength, finfo := s.coder.tlen,
      status := { busy := false, done := false, faulted := true, rcmode := s.status.rcmode } }) ∧
    (s.coder.tlen.toNat ≤ s.cfgTmax.toNat → ∃ t, exec .rcdi s = .next t ∧ completedFrom s t ∧
      t.status.rcmode = .decoding ∧ t.coder.low.toNat = 0 ∧ t.coder.range.toNat = 1 ∧
      (∀ slot, t.elem .qcount slot = 0) ∧ t.coder.qpos = 0 ∧ t.coder.qlen = 0 ∧ t.coder.oacc = 0 ∧
      t.coder.ocnt = 0 ∧ t.coder.ochars = 0 ∧ t.coder.tpos = 0 ∧ t.coder.iacc = 0 ∧ t.coder.icnt = 0 ∧
      t.coder.tlen = s.coder.tlen ∧ t.coder.text = s.coder.text)

/-- R151, R153: `push_bit(b)` appends `b` to `PEND` (while the ring has a free slot and the tail run's count can still rise). -/
def Obligations.PushBitAppendsOneBit : Prop :=
  ∀ (b : Bool) (c : Coder), c.qpos.toNat < 128 → c.qlen.toNat < 128 → c.pend.length < 2 ^ 62 →
    ∃ c', pushBit b c = .ok c' ∧ c'.pend = c.pend ++ [b] ∧ c'.qlen.toNat ≤ c.qlen.toNat + 1 ∧ c'.qpos.toNat < 128

/-- R163: `carry()` adds one to `PEND` read as a binary number, keeping its length, in one more slot; where there is no 0-bit to carry
into it takes `RC_QUEUE` with `QLEN` and changes nothing. (`QCOUNT` in its canonical form, which every step keeps.) -/
def Obligations.CarryAddsOneToThePendingBits : Prop :=
  ∀ c : Coder, c.qcount.wf (unlisted .qcount 64) = true → c.qpos.toNat < 128 → c.qlen.toNat < 128 →
    (c.canCarry → ∃ c', carry c = .ok c' ∧ c'.pend.length = c.pend.length ∧ bitsValue c'.pend = bitsValue c.pend + 1 ∧
      c'.qlen.toNat = c.qlen.toNat + 1 ∧ c'.qpos = c.qpos) ∧
    (¬ c.canCarry → carry c = .error (.raised .rcQueue c.qlen c))

/-- R164, R166: a drain hands the oldest bits to the text in order: the bits of the unfinished character and of `PEND` before are the
bits written to `TEXT` followed by those of the unfinished character and of `PEND` after, and at most `keep` slots remain. -/
def Obligations.DrainLosesAndReordersNoBit : Prop :=
  ∀ (port : TextPort) (keep : Nat) (c c' : Coder), port.tmax < 2 ^ 64 → c.qpos.toNat < 128 → c.qlen.toNat ≤ 128 →
    c.ocnt.toNat ≤ 5 → c.oacc.toNat < 2 ^ c.ocnt.toNat → drain port.tmax keep c = .ok c' →
    c.partialBits ++ c.pend = c'.textBits port c.tlen.toNat c'.tlen.toNat ++ c'.partialBits ++ c'.pend ∧
    c'.qlen.toNat ≤ max keep c.qlen.toNat ∧ (keep ≤ c.qlen.toNat → c'.qlen.toNat = keep) ∧ c'.ocnt.toNat ≤ 5

/-- R166: `out_bit(b)`: fewer than six bits only shift in; with the sixth the character goes to `TEXT[TLEN]`, and when 80 divides the
new `OCHARS` a newline after it; each of the two bytes takes `TEXT_OVERFLOW` when `TLEN >= TMAX`, what was done before it kept. -/
def Obligations.OutBitPacksSixBitsToACharacter : Prop :=
  ∀ (port : TextPort) (b : Bool) (c : Coder), port.tmax < 2 ^ 64 → c.ocnt.toNat ≤ 5 → c.oacc.toNat < 2 ^ c.ocnt.toNat →
    (c.ocnt.toNat < 5 →
      outBit port.tmax b c = .ok { c with oacc := reg64 (2 * c.oacc.toNat + b.toNat), ocnt := c.ocnt + 1 }) ∧
    (c.ocnt.toNat = 5 → port.tmax ≤ c.tlen.toNat →
      outBit port.tmax b c = .error (.raised .textOverflow c.tlen
        { c with oacc := reg64 (2 * c.oacc.toNat + b.toNat), ocnt := 6 })) ∧
    (c.ocnt.toNat = 5 → c.tlen.toNat < port.tmax → ∃ c1 : Coder,
      c1 = { c with text := c1.text, tlen := c.tlen + 1, ochars := c.ochars + 1, oacc := 0, ocnt := 0 } ∧
      fetch .text port.powerUp c1.text c.tlen.toNat = alphabetByte (BitVec.ofNat 6 (2 * c.oacc.toNat + b.toNat)) ∧
      (∀ k, k ≠ c.tlen.toNat → fetch .text port.powerUp c1.text k = fetch .text port.powerUp c.text k) ∧
      (c1.ochars.toNat % 80 ≠ 0 → outBit port.tmax b c = .ok c1) ∧
      (c1.ochars.toNat % 80 = 0 → c.tlen.toNat + 1 = port.tmax →
        outBit port.tmax b c = .error (.raised .textOverflow c1.tlen c1)) ∧
      (c1.ochars.toNat % 80 = 0 → c.tlen.toNat + 1 < port.tmax → ∃ c2 : Coder, outBit port.tmax b c = .ok c2 ∧
        c2 = { c1 with text := c2.text, tlen := c1.tlen + 1 } ∧
        fetch .text port.powerUp c2.text (c.tlen.toNat + 1) = 0x0A ∧
        ∀ k, k ≠ c.tlen.toNat + 1 → fetch .text port.powerUp c2.text k = fetch .text port.powerUp c1.text k))

/-- R167: the alphabet bytes are the 64 characters as written, in value order; the inverse table is exact, and every other byte, the
newline among them, is non-alphabet. -/
def Obligations.AlphabetIsTheStringAsWritten : Prop :=
  (∀ v : BitVec 6, (alphabetByte v).toNat =
    (("0123456789ABCDEFGHIJKLMNOPQRSTUVWXYZabcdefghijklmnopqrstuvwxyz._".toList)[v.toNat]?.getD ' ').toNat) ∧
  (∀ (b : Byte) (v : BitVec 6), alphabetValue b = some v ↔ b = alphabetByte v) ∧ alphabetValue 0x0A = none

/-- R154: `enc_norm()` doubles `RANGE` to above `HALF` in at most 32 turns, shifts `LOW`, and appends the bits shifted out, top bit
first. (From `RANGE = 0`, which no run reaches, its loop never ends: the model's stop, assumption 7.) -/
def Obligations.EncoderNormalises : Prop :=
  (∀ c : Coder, c.range = 0 → encNorm c = .error (.stuck .endlessLoop)) ∧
  ∀ c : Coder, 1 ≤ c.range.toNat → c.range.toNat ≤ 2 ^ 32 → c.low.toNat < 2 ^ 32 → c.qpos.toNat < 128 →
    c.qlen.toNat ≤ 63 → c.pend.length < 2 ^ 62 →
    ∃ c' k, encNorm c = .ok c' ∧ k ≤ 32 ∧ c'.range.toNat = 2 ^ k * c.range.toNat ∧ 2 ^ 31 < c'.range.toNat ∧
      c'.range.toNat ≤ 2 ^ 32 ∧ c'.low.toNat = 2 ^ k * c.low.toNat % 2 ^ 32 ∧
      c'.pend = c.pend ++ (List.range k).map (fun j => c.low.getLsbD (31 - j))

/-- R160, R161: for a range above `HALF` and a legal interval, floor scaling gives `0 <= off < top <= RANGE`; intervals in order give
sub-windows in order; the first starts at 0 and the last ends at `RANGE`; and the products fit 64 bits. -/
def Obligations.ScalingGivesDisjointSubWindows : Prop :=
  ∀ range lo hi den : Nat, 2 ^ 31 < range → range ≤ 2 ^ 32 → legalInterval lo hi den = true →
    scaled range lo den = range * lo / den ∧ scaled range lo den < scaled range hi den ∧ scaled range hi den ≤ range ∧
    scaled range 0 den = 0 ∧ scaled range den den = range ∧ range * hi < 2 ^ 64 ∧
    ∀ lo2, hi ≤ lo2 → scaled range hi den ≤ scaled range lo2 den

/-- R157: `RCENC` of a legal interval with room in `TEXT` completes: it normalises, scales and, on overflow, carries; the encoder stays
ready and the spaces canonical, from canonical spaces. (The room, 40 bytes beside the pending bits, is the model's own sufficient
bound; the spec states none.) -/
def Obligations.EncodeNarrowsTheWindow : Prop :=
  ∀ s : State, s.good → s.memWf = true → s.paramsLegal → s.status.rcmode = .encoding → s.coder.encReady →
    legalInterval s.arg0.toNat s.arg1.toNat s.arg2.toNat = true → s.coder.pend.length < 2 ^ 62 →
    s.coder.tlen.toNat + s.coder.pend.length + 40 ≤ s.cfgTmax.toNat →
    ∃ t c, exec .rcenc s = .next t ∧ completedFrom s t ∧ t.status.rcmode = .encoding ∧ encNorm s.coder = .ok c ∧
      t.coder.range.toNat = c.range.toNat * s.arg1.toNat / s.arg2.toNat - c.range.toNat * s.arg0.toNat / s.arg2.toNat ∧
      t.coder.low.toNat = (c.low.toNat + c.range.toNat * s.arg0.toNat / s.arg2.toNat) % 2 ^ 32 ∧
      t.coder.qlen.toNat ≤ 2 ∧ t.coder.encReady ∧ t.memWf = true

/-- R158, R159: in units of the pending bits' last place, the window after narrowing is `[L + off, L + top)`, inside the window
`[L, L + RANGE)` before it, whether or not a carry took place. (`QCOUNT` in its canonical form.) -/
def Obligations.NarrowedWindowLiesInsideTheOldOne : Prop :=
  ∀ (c : Coder) (lo hi den : Nat), c.qcount.wf (unlisted .qcount 64) = true → c.qpos.toNat < 128 → c.qlen.toNat < 128 → c.low.toNat < 2 ^ 32 →
    2 ^ 31 < c.range.toNat → c.range.toNat ≤ 2 ^ 32 → (2 ^ 32 < c.low.toNat + c.range.toNat → c.canCarry) →
    legalInterval lo hi den = true →
    ∃ c', narrow lo hi den c = .ok c' ∧ c'.low.toNat < 2 ^ 32 ∧
      bitsValue c'.pend * 2 ^ 32 + c'.low.toNat =
        bitsValue c.pend * 2 ^ 32 + c.low.toNat + c.range.toNat * lo / den ∧
      c'.range.toNat = c.range.toNat * hi / den - c.range.toNat * lo / den ∧
      bitsValue c'.pend * 2 ^ 32 + c'.low.toNat + c'.range.toNat ≤
        bitsValue c.pend * 2 ^ 32 + c.low.toNat + c.range.toNat

/-- R152, R159, R163: from a ready encoder no `encode` of a legal interval takes `RC_QUEUE` or stops: it leaves a ready encoder, or
takes `TEXT_OVERFLOW`. (`QCOUNT` in its canonical form, before and after.) -/
def Obligations.ReadyEncoderNeverTakesAQueueFault : Prop :=
  ∀ (tmax lo hi den : Nat) (c : Coder), tmax < 2 ^ 64 → c.qcount.wf (unlisted .qcount 64) = true → c.encReady →
    c.pend.length < 2 ^ 62 → legalInterval lo hi den = true →
    (∃ c', encode64 tmax lo hi den c = .ok c' ∧ c'.encReady ∧ c'.qcount.wf (unlisted .qcount 64) = true) ∨
    (∃ info c', encode64 tmax lo hi den c = .error (.raised .textOverflow info c'))

/-- R169: `next_bit()` returns the head of the input stream (the unread bits of `IACC`, the alphabet characters of the rest of the
text, then 1-bits for ever) and leaves its tail. R285 (file 93, U6): a read of `TEXT` at or beyond `TMAX` is refused. -/
def Obligations.NextBitReadsTheInputStream : Prop :=
  (∀ (port : TextPort) (c : Coder), c.icnt = 0 → c.tpos.toNat < c.tlen.toNat → port.tmax ≤ c.tpos.toNat →
    nextBit port c = .error (.refused .textIndexOutside)) ∧
  ∀ (port : TextPort) (c : Coder), c.icnt.toNat ≤ 6 → c.tlen.toNat ≤ port.tmax → c.tpos.toNat ≤ c.tlen.toNat →
    ∃ c', nextBit port c = .ok (c.inputBit port 0, c') ∧ (∀ k, c'.inputBit port k = c.inputBit port (k + 1)) ∧
      c'.icnt.toNat ≤ 5 ∧ c.tpos.toNat ≤ c'.tpos.toNat ∧ c'.tpos.toNat ≤ c.tlen.toNat ∧ c'.low = c.low ∧ c'.range = c.range ∧
      c'.tlen = c.tlen ∧ c'.text = c.text

/-- R170, R171: `RCDEC` completes; it shifts `k <= 32` input bits into `LOW`, and `RES` is the value whose sub-window holds `LOW`. -/
def Obligations.DecodeReturnsTheValueAtTheCodePoint : Prop :=
  ∀ s : State, s.good → s.paramsLegal → s.status.rcmode = .decoding → s.coder.legal .decoding → s.cursorsLegal →
    legalDenom s.arg2.toNat = true →
    ∃ t k, exec .rcdec s = .next t ∧ completedFrom s t ∧ k ≤ 32 ∧
      t.coder.range.toNat = 2 ^ k * s.coder.range.toNat ∧ 2 ^ 31 < t.coder.range.toNat ∧ t.coder.range.toNat ≤ 2 ^ 32 ∧
      t.coder.low.toNat = 2 ^ k * s.coder.low.toNat + bitsValue ((List.range k).map (s.coder.inputBit s.port)) ∧
      (∀ j, t.coder.inputBit s.port j = s.coder.inputBit s.port (k + j)) ∧ t.coder.low.toNat < t.coder.range.toNat ∧
      t.res.toNat = ((t.coder.low.toNat + 1) * s.arg2.toNat - 1) / t.coder.range.toNat ∧ t.res.toNat < s.arg2.toNat ∧
      t.coder.range.toNat * t.res.toNat / s.arg2.toNat ≤ t.coder.low.toNat ∧
      t.coder.low.toNat < t.coder.range.toNat * (t.res.toNat + 1) / s.arg2.toNat

/-- R172: `RCSCL` normalises, then completes when the sub-window holds `LOW` (new offset and width, `LOW < RANGE` again) and takes
`RC_DESYNC` with `LOW` when it does not. -/
def Obligations.ScaleSubtractsTheOffsetOrDesyncs : Prop :=
  ∀ s : State, s.good → s.paramsLegal → s.status.rcmode = .decoding → s.coder.legal .decoding → s.cursorsLegal →
    legalInterval s.arg0.toNat s.arg1.toNat s.arg2.toNat = true →
    ∃ t c, exec .rcscl s = .next t ∧ decNorm s.port s.coder = .ok c ∧
      (scaled c.range.toNat s.arg0.toNat s.arg2.toNat ≤ c.low.toNat ∧
          c.low.toNat < scaled c.range.toNat s.arg1.toNat s.arg2.toNat →
        completedFrom s t ∧ t.coder.low.toNat = c.low.toNat - scaled c.range.toNat s.arg0.toNat s.arg2.toNat ∧
        t.coder.range.toNat = scaled c.range.toNat s.arg1.toNat s.arg2.toNat - scaled c.range.toNat s.arg0.toNat s.arg2.toNat ∧
        t.coder.low.toNat < t.coder.range.toNat) ∧
      (¬ (scaled c.range.toNat s.arg0.toNat s.arg2.toNat ≤ c.low.toNat ∧
          c.low.toNat < scaled c.range.toNat s.arg1.toNat s.arg2.toNat) →
        faultedFrom s t .rcDesync c.low.toNat ∧ t.coder = c)

/-- R173, R174: what an encoder wrote, a decoder reads back. From `RCEI`'s coder, `encode` of the intervals and `finish` complete;
then a decoder over that text, or over any text whose alphabet characters begin with that text's, answers the mirrored `decode`,
`scale` pairs of every prefix of the intervals without a fault, each value lies in its interval, and its `RANGE` is the encoder's
after the same non-empty prefix. -/
def Obligations.DecoderMirrorsTheEncoder : Prop :=
  ∀ (port : TextPort) (intervals : List (Nat × Nat × Nat)) (text : Memory 8) (c e d0 : Coder) (extra : List (BitVec 6)),
    port.tmax < 2 ^ 64 → intervals.length < 2 ^ 50 →
    encodeAll port.tmax intervals { Coder.atReset text with range := reg64 Config.norm } = .ok c →
    finish64 port.tmax c = .ok e →
    d0.low = 0 → d0.range = 1 → d0.icnt = 0 → d0.tpos = 0 → d0.tlen.toNat ≤ port.tmax →
    textChars port d0 0 d0.tlen.toNat = textChars port e 0 e.tlen.toNat ++ extra →
    ∀ k ≤ intervals.length, ∃ ck vs d,
      encodeAll port.tmax (intervals.take k) { Coder.atReset text with range := reg64 Config.norm } = .ok ck ∧
      decodeAll port (intervals.take k) d0 = .ok (vs, d) ∧ (0 < k → d.range = ck.range) ∧
      List.Forall₂ (fun v (i : Nat × Nat × Nat) => i.1 ≤ v ∧ v < i.2.1) vs (intervals.take k)

/-- R165: `RCFIN`. In Decoding and Finished mode it only sets the mode. A ready encoder with room in `TEXT` completes: after
normalising (and a carry when `p = 4`) the pending bits, the two bits of `p = ceil(LOW / 2^30)` and at most five 1-bits are
written; the queue and the last character are empty. (From canonical spaces; the room, 60 bytes beside the pending bits, is the model's
own sufficient bound, the spec states none.) -/
def Obligations.FinishFlushesTwoBitsAndPads : Prop :=
  (∀ s : State, s.good → s.status.rcmode = .decoding ∨ s.status.rcmode = .finished →
    exec .rcfin s = .next { s with
      status := { busy := false, done := true, faulted := false, rcmode := .finished }, cmdcnt := s.cmdcnt + 1 }) ∧
  ∀ s : State, s.good → s.memWf = true → s.paramsLegal → s.status.rcmode = .encoding → s.coder.encReady →
    s.coder.pend.length < 2 ^ 62 → s.coder.tlen.toNat + s.coder.pend.length + 60 ≤ s.cfgTmax.toNat →
    ∃ t c c' p pad, exec .rcfin s = .next t ∧ completedFrom s t ∧ t.status.rcmode = .finished ∧
      t.coder.qlen.toNat = 0 ∧ t.coder.ocnt.toNat = 0 ∧ encNorm s.coder = .ok c ∧ p < 4 ∧ pad ≤ 5 ∧
      (c' = c ∧ p = (c.low.toNat + 2 ^ 30 - 1) / 2 ^ 30 ∨
        carry c = .ok c' ∧ p = 0 ∧ (c.low.toNat + 2 ^ 30 - 1) / 2 ^ 30 = 4) ∧
      t.coder.textBits s.port s.coder.tlen.toNat t.coder.tlen.toNat =
        s.coder.partialBits ++ c'.pend ++ [p.testBit 1, p.testBit 0] ++ List.replicate pad true

/-! ## The pipeline (file 44) -/

/-- R201: `FREQ` counts the symbols and cumulates the counts; `CUM[256] = n`. -/
def Obligations.FrequencyTableCountsAndCumulates : Prop :=
  ∀ s : State, s.good → s.paramsLegal → s.n.toNat ≤ s.cfgNmax.toNat →
    ∃ t, exec .freq s = .next t ∧ completedFrom s t ∧
      (∀ c < 256, t.elem .freq c = (List.range s.n.toNat).countP (fun i => decide (s.elem .sym i = c))) ∧
      t.cumOfFreq ∧ t.elem .cum 256 = s.n.toNat

/-- R202, R204, R205: `HDRE` runs the `encode` calls of the length, the index (when `n > 0`) and the 256 counts with shrinking
denominator, `SYME` one `encode` per symbol against its interval of `CUM`, denominator `n`, in that order; the first that faults
ends the command. -/
def Obligations.HeaderAndSymbolsAreEncodedInOrder : Prop :=
  ∀ s : State, s.good → s.status.rcmode = .encoding → s.n.toNat ≤ s.cfgNmax.toNat →
    (∀ c, encodeAll s.cfgTmax.toNat
        (headerIntervals s.n.toNat s.bidx.toNat ((List.range 256).map (s.elem .freq))) s.coder = .ok c →
      ∃ t, exec .hdre s = .next t ∧ completedFrom s t ∧ t.coder = c) ∧
    (∀ code info c, encodeAll s.cfgTmax.toNat
        (headerIntervals s.n.toNat s.bidx.toNat ((List.range 256).map (s.elem .freq))) s.coder =
          .error (.raised code info c) →
      ∃ t, exec .hdre s = .next t ∧ faultedFrom s t code info.toNat ∧ t.coder = c) ∧
    (∀ c, encodeAll s.cfgTmax.toNat (symbolIntervals s s.n.toNat) s.coder = .ok c →
      ∃ t, exec .syme s = .next t ∧ completedFrom s t ∧ t.coder = c) ∧
    (∀ code info c, encodeAll s.cfgTmax.toNat (symbolIntervals s s.n.toNat) s.coder = .error (.raised code info c) →
      ∃ t, exec .syme s = .next t ∧ faultedFrom s t code info.toNat ∧ t.coder = c)

/-- R202, R205: with a ready encoder and room in `TEXT`, `HDRE` completes when the index is below `n` and the counts sum to at most
`n`, and `SYME` completes when `CUM` fits `SYM`. (From canonical spaces; the room in `TEXT` is the model's own sufficient
bound, the spec states none.) -/
def Obligations.HeaderAndSymbolEncodingComplete : Prop :=
  (∀ s : State, s.good → s.memWf = true → s.paramsLegal → s.status.rcmode = .encoding → s.n.toNat ≤ s.cfgNmax.toNat →
    (0 < s.n.toNat → s.bidx.toNat < s.n.toNat) → ((List.range 256).map (s.elem .freq)).sum ≤ s.n.toNat →
    s.coder.encReady → s.coder.pend.length < 2 ^ 62 →
    s.coder.tlen.toNat + s.coder.pend.length + 1600 ≤ s.cfgTmax.toNat →
    ∃ t, exec .hdre s = .next t ∧ completedFrom s t ∧ t.coder.encReady ∧ t.memWf = true) ∧
  ∀ s : State, s.good → s.memWf = true → s.paramsLegal → s.status.rcmode = .encoding → s.n.toNat ≤ s.cfgNmax.toNat →
    (∀ i < s.n.toNat, s.elem .cum (s.elem .sym i) < s.elem .cum (s.elem .sym i + 1) ∧
      s.elem .cum (s.elem .sym i + 1) ≤ s.n.toNat) →
    s.coder.encReady → s.coder.pend.length < 2 ^ 62 →
    s.coder.tlen.toNat + s.coder.pend.length + 6 * (s.n.toNat + 10) ≤ s.cfgTmax.toNat →
    ∃ t, exec .syme s = .next t ∧ completedFrom s t ∧ t.coder.encReady ∧ t.memWf = true

/-- R206: `HDRD` of a live decoder decodes a length. Above `NMAX` it takes `BAD_LENGTH` with that length, before `N` is written; else it
writes `N`, an index below it and a cumulated table, and completes when the counts sum to the length or takes `CORRUPT_STREAM` with
what is missing, plus one; no other outcome. -/
def Obligations.HeaderDecodingOutcomes : Prop :=
  ∀ s : State, s.good → s.paramsLegal → s.status.rcmode = .decoding → s.coder.legal .decoding → s.cursorsLegal →
    ∃ t n c, exec .hdrd s = .next t ∧ n < Config.lenDenom ∧
      decodeAll s.port [(n, n + 1, Config.lenDenom)] s.coder = .ok ([n], c) ∧
      (s.cfgNmax.toNat < n →
        faultedFrom s t .badLength n ∧ t.finfo.toNat = n ∧ t.n = s.n ∧ t.bidx = s.bidx ∧ t.bufs = s.bufs ∧ t.coder = c) ∧
      (n ≤ s.cfgNmax.toNat →
        t.n.toNat = n ∧ t.cumOfFreq ∧ (n = 0 → t.bidx.toNat = 0) ∧ (0 < n → t.bidx.toNat < n) ∧
        (completedFrom s t ∧ t.elem .cum 256 = n ∨
          ∃ r, 2 ≤ r ∧ faultedFrom s t .corruptStream r ∧ t.finfo.toNat = r ∧ t.elem .cum 256 + r = n + 1))

/-- R206, R213: a decoder just constructed over a text whose alphabet characters begin with those an encoder wrote for a header
(and anything after it) completes `HDRD` with exactly that length, index and table. -/
def Obligations.HeaderDecodingReadsWhatTheEncoderWrote : Prop :=
  ∀ (s : State) (n bidx : Nat) (freq : List Nat) (more : List (Nat × Nat × Nat)) (text : Memory 8) (c e : Coder)
    (extra : List (BitVec 6)),
    s.good → s.paramsLegal → s.status.rcmode = .decoding → s.coder.low = 0 → s.coder.range = 1 → s.coder.icnt = 0 →
    s.coder.tpos = 0 → s.coder.tlen.toNat ≤ s.cfgTmax.toNat → n ≤ s.cfgNmax.toNat → freq.length = 256 → freq.sum = n →
    (0 < n → bidx < n) → (n = 0 → bidx = 0) → more.length < 2 ^ 40 →
    encodeAll s.cfgTmax.toNat (headerIntervals n bidx freq ++ more)
      { Coder.atReset text with range := reg64 Config.norm } = .ok c →
    finish64 s.cfgTmax.toNat c = .ok e →
    textChars s.port s.coder 0 s.coder.tlen.toNat = textChars s.port e 0 e.tlen.toNat ++ extra →
    ∃ t, exec .hdrd s = .next t ∧ completedFrom s t ∧ t.n.toNat = n ∧ t.bidx.toNat = bidx ∧
      (List.range 256).map (t.elem .freq) = freq ∧ t.cumOfFreq

/-- R207: with a consistent `CUM` a live decoder completes `SYMD`: it is the `decode(n)`, `scale` pairs of the symbols in order, and
`SYM[i]` is the `lookup` of the `i`-th value, a symbol with a non-empty interval. From any `CUM`, a fault of `SYMD` is that of the first
`scale` whose interval, that of its value's `lookup`, does not fit; the symbols before it are written. -/
def Obligations.SymbolDecodingCompletes : Prop :=
  (∀ s : State, s.good → s.paramsLegal → s.status.rcmode = .decoding → s.coder.legal .decoding → s.cursorsLegal →
    s.n.toNat ≤ s.cfgNmax.toNat → s.cumConsistent s.n.toNat →
    ∃ t vs, exec .symd s = .next t ∧ completedFrom s t ∧ t.coder.legal .decoding ∧
      decodeAll s.port (symbolIntervals t s.n.toNat) s.coder = .ok (vs, t.coder) ∧ vs.length = s.n.toNat ∧
      ∀ i < s.n.toNat, t.elem .sym i = s.lookup (vs.getD i 0) ∧ t.elem .sym i < 256 ∧
        s.elem .cum (t.elem .sym i) < s.elem .cum (t.elem .sym i + 1)) ∧
  ∀ s t : State, s.good → s.paramsLegal → s.status.rcmode = .decoding → s.n.toNat ≤ s.cfgNmax.toNat →
    exec .symd s = .next t → t.status.faulted = true →
    ∃ k vs c v c' code info, k < s.n.toNat ∧ vs.length = k ∧
      decodeAll s.port ((symbolIntervals t s.n.toNat).take k) s.coder = .ok (vs, c) ∧
      (∀ i < k, t.elem .sym i = s.lookup (vs.getD i 0)) ∧ decode64 s.port s.n.toNat c = .ok (v, c') ∧
      scale64 s.port (s.elem .cum (s.lookup v)) (s.elem .cum (s.lookup v + 1)) s.n.toNat c' =
        .error (.raised code info t.coder) ∧
      faultedFrom s t code info.toNat

/-- R208: with a non-decreasing table that starts at 0, `lookup(v)` is the largest symbol `c` with `CUM[c] <= v`, and for `v < CUM[256]`
its interval holds `v`. -/
def Obligations.LookupFindsTheLargestSymbol : Prop :=
  ∀ (s : State) (v : Nat), s.elem .cum 0 = 0 → (∀ c < 256, s.elem .cum c ≤ s.elem .cum (c + 1)) →
    s.lookup v < 256 ∧ s.elem .cum (s.lookup v) ≤ v ∧ (∀ c < 256, s.lookup v < c → v < s.elem .cum c) ∧
    (v < s.elem .cum 256 → v < s.elem .cum (s.lookup v + 1))

/-- R209, R210: `COMP` leaves the state its seven stages leave when they are issued one after another, except for `CMDCNT` (one more
when it completes, as it was when it faults), whether they complete or one faults, and stops where they stop; the first stage that
faults ends it, since the state it leaves is the last. The same of `DECOMP` and its six stages. -/
def Obligations.CompositesAreTheirStages : Prop :=
  ∀ (i : Instr) (stages : List Instr) (s : State), i = .comp ∧ stages = compStages ∨ i = .decomp ∧ stages = decompStages →
    s.good →
    (∀ t, exec i s = .next t ↔ ∃ u, issued stages s = .next u ∧
      t = { u with cmdcnt := if u.status.faulted then s.cmdcnt else s.cmdcnt + 1 }) ∧
    (∀ f, exec i s = .fault f ↔ issued stages s = .fault f) ∧
    (∀ r, exec i s = .refused r ↔ issued stages s = .refused r) ∧
    ∀ k u, issued (stages.take k) s = .next u → u.status.faulted = true → issued stages s = .next u

/-- R209: from a good state `COMP` completes in Finished mode, or takes `BAD_LENGTH` when `N > NMAX`, or `TEXT_OVERFLOW`; no other fault is
reachable; and with `TMAX >= 6 * (N + 260)` (the model's own sufficient bound, the spec states none) it completes. -/
def Obligations.CompressOutcomes : Prop :=
  ∀ s : State, s.good → s.paramsLegal →
    ∃ t, exec .comp s = .next t ∧ t.n = s.n ∧ (∀ k, sameElem s t .data k) ∧
      (s.cfgNmax.toNat < s.n.toNat → faultedFrom s t .badLength s.n.toNat) ∧
      (s.n.toNat ≤ s.cfgNmax.toNat →
        completedFrom s t ∧ t.status.rcmode = .finished ∨ faultedFrom s t .textOverflow s.cfgTmax.toNat) ∧
      (s.n.toNat ≤ s.cfgNmax.toNat → 6 * (s.n.toNat + 260) ≤ s.cfgTmax.toNat →
        completedFrom s t ∧ t.status.rcmode = .finished)

/-- R211, R206: `COMP` of the empty input writes the text `"000007"`; on that text a decoder just constructed completes `HDRD` with
length 0, index 0 and empty tables, and `DECOMP` gives `N = 0`, `BIDX = 0` and writes no `DATA` element. -/
def Obligations.EmptyInputHasTheSixByteText : Prop :=
  (∀ s : State, s.good → s.n = 0 → 6 ≤ s.cfgTmax.toNat →
    ∃ t, exec .comp s = .next t ∧ completedFrom s t ∧ t.status.rcmode = .finished ∧ t.coder.tlen = 6 ∧
      (List.range 6).map (t.elem .text) = emptyText ∧ t.bidx = 0) ∧
  (∀ s : State, s.good → s.status.rcmode = .decoding → s.coder.low = 0 → s.coder.range = 1 → s.coder.icnt = 0 →
    s.coder.tpos = 0 → s.coder.tlen = 6 → 6 ≤ s.cfgTmax.toNat → (List.range 6).map (s.elem .text) = emptyText →
    ∃ t, exec .hdrd s = .next t ∧ completedFrom s t ∧ t.n = 0 ∧ t.bidx = 0 ∧ (∀ c < 256, t.elem .freq c = 0) ∧
      ∀ c ≤ 256, t.elem .cum c = 0) ∧
  ∀ s : State, s.good → s.coder.tlen = 6 → 6 ≤ s.cfgTmax.toNat → (List.range 6).map (s.elem .text) = emptyText →
    ∃ t, exec .decomp s = .next t ∧ completedFrom s t ∧ t.n = 0 ∧ t.bidx = 0 ∧ ∀ k, sameElem s t .data k

/-- R214, R210: `DECOMP` is total: for every text with `TLEN <= TMAX` it completes with some `N <= NMAX`, or takes `BAD_LENGTH` with a
length above `NMAX` or `CORRUPT_STREAM` with what the counts leave of it, plus one; with `TLEN > TMAX` it takes `BAD_LENGTH` with `TLEN`. -/
def Obligations.DecompressOutcomes : Prop :=
  ∀ s : State, s.good → s.paramsLegal →
    ∃ t, exec .decomp s = .next t ∧ t.coder.tlen = s.coder.tlen ∧ t.coder.text = s.coder.text ∧
      (s.cfgTmax.toNat < s.coder.tlen.toNat → faultedFrom s t .badLength s.coder.tlen.toNat) ∧
      (s.coder.tlen.toNat ≤ s.cfgTmax.toNat → completedFrom s t ∧ t.status.rcmode = .finished ∧ t.n.toNat ≤ s.cfgNmax.toNat ∨
        s.cfgNmax.toNat < t.finfo.toNat ∧ t.finfo.toNat < Config.lenDenom ∧ faultedFrom s t .badLength t.finfo.toNat ∨
        2 ≤ t.finfo.toNat ∧ faultedFrom s t .corruptStream t.finfo.toNat ∧ t.n.toNat ≤ s.cfgNmax.toNat ∧
          t.elem .cum 256 + t.finfo.toNat = t.n.toNat + 1)

/-- R213: if `COMP` completes, `DECOMP`, from any good state with the same parameters whose text has the alphabet characters `COMP`
left, with newlines removed, non-alphabet bytes inserted or anything appended, completes and restores `N` and `DATA`. -/
def Obligations.DecompressRestoresWhatCompressRead : Prop :=
  ∀ (s t u : State) (extra : List (BitVec 6)), s.good → s.paramsLegal → exec .comp s = .next t → t.good → u.good →
    u.cfgNmax = s.cfgNmax → u.cfgTmax = s.cfgTmax → u.coder.tlen.toNat ≤ u.cfgTmax.toNat →
    textChars u.port u.coder 0 u.coder.tlen.toNat = textChars t.port t.coder 0 t.coder.tlen.toNat ++ extra →
    ∃ v, exec .decomp u = .next v ∧ completedFrom u v ∧ v.n = s.n ∧ ∀ k < s.n.toNat, v.elem .data k = s.elem .data k

/-! ## Invariants of the whole machine -/

/-- R63 and the model's canonical form (assumption 4): every step keeps every space in its canonical form and, where the registers
are legal, every listed element below its space's element count. -/
def Obligations.StepKeepsMemoryCanonicalAndInside : Prop :=
  ∀ s t : State, step s = .next t →
    (s.memWf = true → t.memWf = true) ∧ (s.memWithin = true → s.regsLegal → t.memWithin = true)

/-- R21, R22, R26, R35: every step keeps the register invariant (from canonical spaces, which every step keeps), and every command keeps `TPOS <= TLEN <= TMAX` (which a host write
to `TLEN` can break). -/
def Obligations.StepKeepsRegistersLegal : Prop :=
  (∀ s t : State, s.memWf = true → s.regsLegal → step s = .next t → t.regsLegal) ∧
  ∀ (i : Instr) (s t : State), s.cursorsLegal → exec i s = .next t → t.cursorsLegal

/-- R280: the reset state meets every invariant above, for all legal parameters. -/
def Obligations.ResetMeetsTheInvariants : Prop :=
  (∀ (nmax tmax powerUp : Nat) (program : List HostAction), nmax ≤ 2 ^ 31 - 2 → 1 ≤ tmax → tmax < 2 ^ 64 →
    (State.resetWith nmax tmax powerUp program).regsLegal ∧ (State.resetWith nmax tmax powerUp program).cursorsLegal ∧
    (State.resetWith nmax tmax powerUp program).memWf = true ∧
    (State.resetWith nmax tmax powerUp program).memWithin = true) ∧
  State.reset.regsLegal ∧ State.reset.memWf = true

/-- R232: a command, once issued in a legal state, runs to its completion or to its fault: it never stops the machine. -/
def Obligations.EveryCommandAnswers : Prop :=
  ∀ (i : Instr) (s : State), s.regsLegal → (s.status.rcmode = .decoding → s.cursorsLegal) → ∃ t, exec i s = .next t
end

