-- ==== Sys2Proof/Laws/Memory.lean ====
section
/-! SUPPORT. The laws of element reads and writes (R10, R64), and the canonical form every memory operation keeps. -/

namespace Sys2Proof.Machine

variable {w : Nat}

/-- A listed head with a larger index than the one sought leaves the tail as it is. -/
theorem Memory.peek_of_forall_lt (blank : Option (BitVec w)) (i : Nat) (m : Memory w) (h : ∀ cell ∈ m, i < cell.1) :
    m.peek blank i = blank := by
  induction m with
  | nil => rfl
  | cons cell rest ih =>
    have hi : i < cell.1 := h cell (by simp)
    have hne : cell.1 ≠ i := by omega
    simp only [Memory.peek, if_neg hne]
    exact ih fun c hc => h c (by simp [hc])

/-- The canonical form of a non-empty memory: its head is below the rest and is no unlisted value, and the rest is canonical. -/
theorem Memory.wf_cons (blank : Option (BitVec w)) (cell : Nat × BitVec w) (rest : Memory w) :
    Memory.wf blank (cell :: rest) = true ↔
      (∀ c ∈ rest, cell.1 < c.1) ∧ blank ≠ some cell.2 ∧ Memory.wf blank rest = true := by
  simp only [Memory.wf, List.pairwise_cons, List.all_cons, Bool.and_eq_true, decide_eq_true_eq]
  tauto

theorem Memory.wf_nil (blank : Option (BitVec w)) : Memory.wf blank ([] : Memory w) = true := rfl

/-- Every index listed after a write was listed before it or is the written one. -/
theorem Memory.mem_put (blank : Option (BitVec w)) (i : Nat) (v : BitVec w) (m : Memory w) (cell : Nat × BitVec w)
    (h : cell ∈ m.put blank i v) : cell ∈ m ∨ cell = (i, v) := by
  induction m with
  | nil =>
    simp only [Memory.put] at h
    split at h
    · simp at h
    · exact .inr (by simpa using h)
  | cons head rest ih =>
    simp only [Memory.put] at h
    split at h
    · split at h
      · exact .inl h
      · rcases List.mem_cons.mp h with h | h
        · exact .inr h
        · exact .inl h
    · split at h
      · split at h
        · exact .inl (List.mem_cons_of_mem _ h)
        · rcases List.mem_cons.mp h with h | h
          · exact .inr h
          · exact .inl (List.mem_cons_of_mem _ h)
      · rcases List.mem_cons.mp h with h | h
        · exact .inl (by simp [h])
        · exact (ih h).imp (List.mem_cons_of_mem _) id

/-- A write keeps the canonical form. -/
theorem Memory.put_wf (blank : Option (BitVec w)) (i : Nat) (v : BitVec w) (m : Memory w) (h : m.wf blank = true) :
    (m.put blank i v).wf blank = true := by
  induction m with
  | nil =>
    simp only [Memory.put]
    split
    · rfl
    · rename_i hb
      exact (Memory.wf_cons ..).mpr ⟨by simp, hb, rfl⟩
  | cons head rest ih =>
    obtain ⟨hlt, hne, hrest⟩ := (Memory.wf_cons ..).mp h
    simp only [Memory.put]
    split
    · rename_i hi
      split
      · exact h
      · rename_i hb
        refine (Memory.wf_cons ..).mpr ⟨fun c hc => ?_, hb, h⟩
        rcases List.mem_cons.mp hc with hc | hc
        · simpa [hc] using hi
        · exact lt_trans hi (hlt c hc)
    · split
      · rename_i heq
        split
        · exact hrest
        · rename_i hb
          exact (Memory.wf_cons ..).mpr ⟨fun c hc => by simpa [heq] using hlt c hc, hb, hrest⟩
      · rename_i hnlt hneq
        refine (Memory.wf_cons ..).mpr ⟨fun c hc => ?_, hne, ih hrest⟩
        rcases Memory.mem_put _ _ _ _ _ hc with hc | hc
        · exact hlt c hc
        · subst hc
          show head.1 < i
          omega

/-- The element written holds the value. -/
theorem Memory.peek_put_same (blank : Option (BitVec w)) (i : Nat) (v : BitVec w) (m : Memory w) (h : m.wf blank = true) :
    (m.put blank i v).peek blank i = some v := by
  induction m with
  | nil =>
    simp only [Memory.put]
    split
    · rename_i hb; simpa [Memory.peek] using hb
    · simp [Memory.peek]
  | cons head rest ih =>
    obtain ⟨hlt, -, hrest⟩ := (Memory.wf_cons ..).mp h
    simp only [Memory.put]
    split
    · rename_i hi
      split
      · rename_i hb
        rw [← hb]
        refine Memory.peek_of_forall_lt _ _ _ fun c hc => ?_
        rcases List.mem_cons.mp hc with hc | hc
        · simpa [hc] using hi
        · exact lt_trans hi (hlt c hc)
      · simp [Memory.peek]
    · split
      · rename_i heq
        split
        · rename_i hb
          rw [← hb]
          exact Memory.peek_of_forall_lt _ _ _ fun c hc => by simpa [heq] using hlt c hc
        · simp [Memory.peek]
      · rename_i hneq
        have : head.1 ≠ i := fun h => hneq h.symm
        simpa [Memory.peek, this] using ih hrest

/-- Every other element holds what it held. -/
theorem Memory.peek_put_other (blank : Option (BitVec w)) (i j : Nat) (v : BitVec w) (m : Memory w) (hij : j ≠ i) :
    (m.put blank i v).peek blank j = m.peek blank j := by
  have hji : i ≠ j := fun h => hij h.symm
  induction m with
  | nil =>
    simp only [Memory.put]
    split
    · rfl
    · simp [Memory.peek, hji]
  | cons head rest ih =>
    simp only [Memory.put]
    split
    · split
      · rfl
      · simp [Memory.peek, hji]
    · split
      · rename_i heq
        split
        · simp [Memory.peek, ← heq, hji]
        · simp [Memory.peek, ← heq, hji]
      · simp [Memory.peek, ih]

/-- A write below the element count keeps every listed element below it. -/
theorem Memory.put_within (blank : Option (BitVec w)) (count i : Nat) (v : BitVec w) (m : Memory w) (hi : i < count)
    (h : m.within count = true) : (m.put blank i v).within count = true := by
  simp only [Memory.within, List.all_eq_true, decide_eq_true_eq] at *
  intro cell hc
  rcases Memory.mem_put _ _ _ _ _ hc with hc | hc
  · exact h cell hc
  · simpa [hc] using hi

/-! ### Elements of a space -/

theorem fetch_store_same (sp : Space) (powerUp i : Nat) (v : BitVec w) (m : Memory w) (h : m.wf (unlisted sp w) = true) :
    fetch sp powerUp (store sp i v m) i = v := by
  simp [fetch, store, Memory.peek_put_same _ _ _ _ h]

theorem fetch_store_other (sp : Space) (powerUp i j : Nat) (v : BitVec w) (m : Memory w) (hij : j ≠ i) :
    fetch sp powerUp (store sp i v m) j = fetch sp powerUp m j := by
  simp [fetch, store, Memory.peek_put_other _ _ _ _ _ hij]

theorem store_wf (sp : Space) (i : Nat) (v : BitVec w) (m : Memory w) (h : m.wf (unlisted sp w) = true) :
    (store sp i v m).wf (unlisted sp w) = true := Memory.put_wf _ _ _ _ h

theorem storeFrom_wf (sp : Space) (i : Nat) (vs : List Nat) (m : Memory w) (h : m.wf (unlisted sp w) = true) :
    (storeFrom sp i vs m).wf (unlisted sp w) = true := by
  induction vs generalizing i with
  | nil => exact h
  | cons v rest ih => exact store_wf _ _ _ _ (ih (i + 1))

/-- A write from `i` on leaves every element below `i` and from its end on as it was. -/
theorem peek_storeFrom_other (sp : Space) (i j : Nat) (vs : List Nat) (m : Memory w) (h : j < i ∨ i + vs.length ≤ j) :
    (storeFrom sp i vs m).peek (unlisted sp w) j = m.peek (unlisted sp w) j := by
  induction vs generalizing i with
  | nil => rfl
  | cons v rest ih =>
    simp only [List.length_cons] at h
    simp only [storeFrom, store]
    rw [Memory.peek_put_other _ _ _ _ _ (by omega), ih (i + 1) (by omega)]

/-- A write from `i` on: element `i + k` holds the `k`-th value. -/
theorem peek_storeFrom (sp : Space) (i k : Nat) (vs : List Nat) (m : Memory w) (hm : m.wf (unlisted sp w) = true)
    (hk : k < vs.length) : (storeFrom sp i vs m).peek (unlisted sp w) (i + k) = some (BitVec.ofNat w (vs.getD k 0)) := by
  induction vs generalizing i k with
  | nil => simp at hk
  | cons v rest ih =>
    simp only [storeFrom, store]
    cases k with
    | zero => simpa using Memory.peek_put_same _ _ _ _ (storeFrom_wf sp (i + 1) rest m hm)
    | succ k =>
      rw [Memory.peek_put_other _ _ _ _ _ (by omega), show i + (k + 1) = i + 1 + k by omega,
        ih (i + 1) k (by simpa using hk)]
      simp

/-- A write inside the element count keeps every listed element below it. -/
theorem storeFrom_within (sp : Space) (count i : Nat) (vs : List Nat) (m : Memory w) (hi : i + vs.length ≤ count)
    (h : m.within count = true) : (storeFrom sp i vs m).within count = true := by
  induction vs generalizing i with
  | nil => exact h
  | cons v rest ih =>
    simp only [List.length_cons] at hi
    exact Memory.put_within _ _ _ _ _ (by omega) (ih (i + 1) (by omega))

theorem fetchPrefix_length (sp : Space) (powerUp n : Nat) (m : Memory w) : (fetchPrefix sp powerUp m n).length = n := by
  simp [fetchPrefix]

/-- `memWf` space by space. -/
theorem State.memWf_iff (s : State) : s.memWf = true ↔
    s.bufs.data.wf (unlisted .data 8) = true ∧ s.bufs.xf.wf (unlisted .xf 8) = true ∧
    s.bufs.sym.wf (unlisted .sym 8) = true ∧ s.coder.text.wf (unlisted .text 8) = true ∧
    s.bufs.suf.wf (unlisted .suf 32) = true ∧ s.bufs.rank.wf (unlisted .rank 32) = true ∧
    s.bufs.group.wf (unlisted .group 32) = true ∧ s.bufs.next.wf (unlisted .next 32) = true ∧
    s.bufs.freq.wf (unlisted .freq 32) = true ∧ s.bufs.cum.wf (unlisted .cum 32) = true ∧
    s.bufs.mtfl.wf (unlisted .mtfl 8) = true ∧ s.coder.qcount.wf (unlisted .qcount 64) = true := by
  simp only [State.memWf, Bool.and_eq_true, and_assoc]

end Sys2Proof.Machine
end

