-- ==== Sys2Proof/Laws/State.lean ====
section
/-! SUPPORT. What each named update does to each field of the state and of the coder: one lemma per field per update. -/

namespace Sys2Proof.Machine

/-! ### `startCommand` (R82 step 3) -/

@[simp] theorem State.startCommand_cmd (s : State) : (s.startCommand).cmd = s.cmd := rfl
@[simp] theorem State.startCommand_status (s : State) :
    (s.startCommand).status = { s.status with busy := true, done := false } := rfl
@[simp] theorem State.startCommand_fault (s : State) : (s.startCommand).fault = s.fault := rfl
@[simp] theorem State.startCommand_finfo (s : State) : (s.startCommand).finfo = s.finfo := rfl
@[simp] theorem State.startCommand_n (s : State) : (s.startCommand).n = s.n := rfl
@[simp] theorem State.startCommand_bidx (s : State) : (s.startCommand).bidx = s.bidx := rfl
@[simp] theorem State.startCommand_arg0 (s : State) : (s.startCommand).arg0 = s.arg0 := rfl
@[simp] theorem State.startCommand_arg1 (s : State) : (s.startCommand).arg1 = s.arg1 := rfl
@[simp] theorem State.startCommand_arg2 (s : State) : (s.startCommand).arg2 = s.arg2 := rfl
@[simp] theorem State.startCommand_res (s : State) : (s.startCommand).res = s.res := rfl
@[simp] theorem State.startCommand_sortStep (s : State) : (s.startCommand).sortStep = s.sortStep := rfl
@[simp] theorem State.startCommand_cmdcnt (s : State) : (s.startCommand).cmdcnt = s.cmdcnt := rfl
@[simp] theorem State.startCommand_cfgNmax (s : State) : (s.startCommand).cfgNmax = s.cfgNmax := rfl
@[simp] theorem State.startCommand_cfgTmax (s : State) : (s.startCommand).cfgTmax = s.cfgTmax := rfl
@[simp] theorem State.startCommand_coder (s : State) : (s.startCommand).coder = s.coder := rfl
@[simp] theorem State.startCommand_bufs (s : State) : (s.startCommand).bufs = s.bufs := rfl
@[simp] theorem State.startCommand_powerUp (s : State) : (s.startCommand).powerUp = s.powerUp := rfl
@[simp] theorem State.startCommand_queue (s : State) : (s.startCommand).queue = s.queue := rfl
@[simp] theorem State.startCommand_seen (s : State) : (s.startCommand).seen = s.seen := rfl

/-! ### `complete` (R82 step 6) -/

@[simp] theorem State.complete_cmd (s : State) : (s.complete).cmd = s.cmd := rfl
@[simp] theorem State.complete_status (s : State) :
    (s.complete).status = { s.status with busy := false, done := true } := rfl
@[simp] theorem State.complete_fault (s : State) : (s.complete).fault = s.fault := rfl
@[simp] theorem State.complete_finfo (s : State) : (s.complete).finfo = s.finfo := rfl
@[simp] theorem State.complete_n (s : State) : (s.complete).n = s.n := rfl
@[simp] theorem State.complete_bidx (s : State) : (s.complete).bidx = s.bidx := rfl
@[simp] theorem State.complete_arg0 (s : State) : (s.complete).arg0 = s.arg0 := rfl
@[simp] theorem State.complete_arg1 (s : State) : (s.complete).arg1 = s.arg1 := rfl
@[simp] theorem State.complete_arg2 (s : State) : (s.complete).arg2 = s.arg2 := rfl
@[simp] theorem State.complete_res (s : State) : (s.complete).res = s.res := rfl
@[simp] theorem State.complete_sortStep (s : State) : (s.complete).sortStep = s.sortStep := rfl
@[simp] theorem State.complete_cmdcnt (s : State) : (s.complete).cmdcnt = s.cmdcnt + 1 := rfl
@[simp] theorem State.complete_cfgNmax (s : State) : (s.complete).cfgNmax = s.cfgNmax := rfl
@[simp] theorem State.complete_cfgTmax (s : State) : (s.complete).cfgTmax = s.cfgTmax := rfl
@[simp] theorem State.complete_coder (s : State) : (s.complete).coder = s.coder := rfl
@[simp] theorem State.complete_bufs (s : State) : (s.complete).bufs = s.bufs := rfl
@[simp] theorem State.complete_powerUp (s : State) : (s.complete).powerUp = s.powerUp := rfl
@[simp] theorem State.complete_queue (s : State) : (s.complete).queue = s.queue := rfl
@[simp] theorem State.complete_seen (s : State) : (s.complete).seen = s.seen := rfl

/-! ### `takeFault` (R252) -/

@[simp] theorem State.takeFault_cmd (s : State) (code : FaultCode) (info : Reg64) :
    (s.takeFault code info).cmd = s.cmd := rfl
@[simp] theorem State.takeFault_status (s : State) (code : FaultCode) (info : Reg64) :
    (s.takeFault code info).status = { s.status with faulted := true, busy := false, done := false } := rfl
@[simp] theorem State.takeFault_fault (s : State) (code : FaultCode) (info : Reg64) :
    (s.takeFault code info).fault = code := rfl
@[simp] theorem State.takeFault_finfo (s : State) (code : FaultCode) (info : Reg64) :
    (s.takeFault code info).finfo = info := rfl
@[simp] theorem State.takeFault_n (s : State) (code : FaultCode) (info : Reg64) : (s.takeFault code info).n = s.n := rfl
@[simp] theorem State.takeFault_bidx (s : State) (code : FaultCode) (info : Reg64) :
    (s.takeFault code info).bidx = s.bidx := rfl
@[simp] theorem State.takeFault_arg0 (s : State) (code : FaultCode) (info : Reg64) :
    (s.takeFault code info).arg0 = s.arg0 := rfl
@[simp] theorem State.takeFault_arg1 (s : State) (code : FaultCode) (info : Reg64) :
    (s.takeFault code info).arg1 = s.arg1 := rfl
@[simp] theorem State.takeFault_arg2 (s : State) (code : FaultCode) (info : Reg64) :
    (s.takeFault code info).arg2 = s.arg2 := rfl
@[simp] theorem State.takeFault_res (s : State) (code : FaultCode) (info : Reg64) :
    (s.takeFault code info).res = s.res := rfl
@[simp] theorem State.takeFault_sortStep (s : State) (code : FaultCode) (info : Reg64) :
    (s.takeFault code info).sortStep = s.sortStep := rfl
@[simp] theorem State.takeFault_cmdcnt (s : State) (code : FaultCode) (info : Reg64) :
    (s.takeFault code info).cmdcnt = s.cmdcnt := rfl
@[simp] theorem State.takeFault_cfgNmax (s : State) (code : FaultCode) (info : Reg64) :
    (s.takeFault code info).cfgNmax = s.cfgNmax := rfl
@[simp] theorem State.takeFault_cfgTmax (s : State) (code : FaultCode) (info : Reg64) :
    (s.takeFault code info).cfgTmax = s.cfgTmax := rfl
@[simp] theorem State.takeFault_coder (s : State) (code : FaultCode) (info : Reg64) :
    (s.takeFault code info).coder = s.coder := rfl
@[simp] theorem State.takeFault_bufs (s : State) (code : FaultCode) (info : Reg64) :
    (s.takeFault code info).bufs = s.bufs := rfl
@[simp] theorem State.takeFault_powerUp (s : State) (code : FaultCode) (info : Reg64) :
    (s.takeFault code info).powerUp = s.powerUp := rfl
@[simp] theorem State.takeFault_queue (s : State) (code : FaultCode) (info : Reg64) :
    (s.takeFault code info).queue = s.queue := rfl
@[simp] theorem State.takeFault_seen (s : State) (code : FaultCode) (info : Reg64) :
    (s.takeFault code info).seen = s.seen := rfl

/-! ### `softReset` (R231) -/

@[simp] theorem State.softReset_cmd (s : State) : (s.softReset).cmd = 0 := rfl
@[simp] theorem State.softReset_status (s : State) :
    (s.softReset).status = { busy := false, done := false, faulted := false, rcmode := .idle } := rfl
@[simp] theorem State.softReset_fault (s : State) : (s.softReset).fault = .none := rfl
@[simp] theorem State.softReset_finfo (s : State) : (s.softReset).finfo = 0 := rfl
@[simp] theorem State.softReset_n (s : State) : (s.softReset).n = 0 := rfl
@[simp] theorem State.softReset_bidx (s : State) : (s.softReset).bidx = 0 := rfl
@[simp] theorem State.softReset_arg0 (s : State) : (s.softReset).arg0 = 0 := rfl
@[simp] theorem State.softReset_arg1 (s : State) : (s.softReset).arg1 = 0 := rfl
@[simp] theorem State.softReset_arg2 (s : State) : (s.softReset).arg2 = 0 := rfl
@[simp] theorem State.softReset_res (s : State) : (s.softReset).res = 0 := rfl
@[simp] theorem State.softReset_sortStep (s : State) : (s.softReset).sortStep = 1 := rfl
@[simp] theorem State.softReset_cmdcnt (s : State) : (s.softReset).cmdcnt = 0 := rfl
@[simp] theorem State.softReset_cfgNmax (s : State) : (s.softReset).cfgNmax = s.cfgNmax := rfl
@[simp] theorem State.softReset_cfgTmax (s : State) : (s.softReset).cfgTmax = s.cfgTmax := rfl
@[simp] theorem State.softReset_coder (s : State) : (s.softReset).coder = Coder.atReset s.coder.text := rfl
@[simp] theorem State.softReset_bufs (s : State) : (s.softReset).bufs = s.bufs := rfl
@[simp] theorem State.softReset_powerUp (s : State) : (s.softReset).powerUp = s.powerUp := rfl
@[simp] theorem State.softReset_queue (s : State) : (s.softReset).queue = s.queue := rfl
@[simp] theorem State.softReset_seen (s : State) : (s.softReset).seen = s.seen := rfl

/-! ### `withCoder` -/

@[simp] theorem State.withCoder_cmd (s : State) (c : Coder) : (s.withCoder c).cmd = s.cmd := rfl
@[simp] theorem State.withCoder_status (s : State) (c : Coder) : (s.withCoder c).status = s.status := rfl
@[simp] theorem State.withCoder_fault (s : State) (c : Coder) : (s.withCoder c).fault = s.fault := rfl
@[simp] theorem State.withCoder_finfo (s : State) (c : Coder) : (s.withCoder c).finfo = s.finfo := rfl
@[simp] theorem State.withCoder_n (s : State) (c : Coder) : (s.withCoder c).n = s.n := rfl
@[simp] theorem State.withCoder_bidx (s : State) (c : Coder) : (s.withCoder c).bidx = s.bidx := rfl
@[simp] theorem State.withCoder_arg0 (s : State) (c : Coder) : (s.withCoder c).arg0 = s.arg0 := rfl
@[simp] theorem State.withCoder_arg1 (s : State) (c : Coder) : (s.withCoder c).arg1 = s.arg1 := rfl
@[simp] theorem State.withCoder_arg2 (s : State) (c : Coder) : (s.withCoder c).arg2 = s.arg2 := rfl
@[simp] theorem State.withCoder_res (s : State) (c : Coder) : (s.withCoder c).res = s.res := rfl
@[simp] theorem State.withCoder_sortStep (s : State) (c : Coder) : (s.withCoder c).sortStep = s.sortStep := rfl
@[simp] theorem State.withCoder_cmdcnt (s : State) (c : Coder) : (s.withCoder c).cmdcnt = s.cmdcnt := rfl
@[simp] theorem State.withCoder_cfgNmax (s : State) (c : Coder) : (s.withCoder c).cfgNmax = s.cfgNmax := rfl
@[simp] theorem State.withCoder_cfgTmax (s : State) (c : Coder) : (s.withCoder c).cfgTmax = s.cfgTmax := rfl
@[simp] theorem State.withCoder_coder (s : State) (c : Coder) : (s.withCoder c).coder = c := rfl
@[simp] theorem State.withCoder_bufs (s : State) (c : Coder) : (s.withCoder c).bufs = s.bufs := rfl
@[simp] theorem State.withCoder_powerUp (s : State) (c : Coder) : (s.withCoder c).powerUp = s.powerUp := rfl
@[simp] theorem State.withCoder_queue (s : State) (c : Coder) : (s.withCoder c).queue = s.queue := rfl
@[simp] theorem State.withCoder_seen (s : State) (c : Coder) : (s.withCoder c).seen = s.seen := rfl

/-! ### `withBufs` -/

@[simp] theorem State.withBufs_cmd (s : State) (b : Buffers) : (s.withBufs b).cmd = s.cmd := rfl
@[simp] theorem State.withBufs_status (s : State) (b : Buffers) : (s.withBufs b).status = s.status := rfl
@[simp] theorem State.withBufs_fault (s : State) (b : Buffers) : (s.withBufs b).fault = s.fault := rfl
@[simp] theorem State.withBufs_finfo (s : State) (b : Buffers) : (s.withBufs b).finfo = s.finfo := rfl
@[simp] theorem State.withBufs_n (s : State) (b : Buffers) : (s.withBufs b).n = s.n := rfl
@[simp] theorem State.withBufs_bidx (s : State) (b : Buffers) : (s.withBufs b).bidx = s.bidx := rfl
@[simp] theorem State.withBufs_arg0 (s : State) (b : Buffers) : (s.withBufs b).arg0 = s.arg0 := rfl
@[simp] theorem State.withBufs_arg1 (s : State) (b : Buffers) : (s.withBufs b).arg1 = s.arg1 := rfl
@[simp] theorem State.withBufs_arg2 (s : State) (b : Buffers) : (s.withBufs b).arg2 = s.arg2 := rfl
@[simp] theorem State.withBufs_res (s : State) (b : Buffers) : (s.withBufs b).res = s.res := rfl
@[simp] theorem State.withBufs_sortStep (s : State) (b : Buffers) : (s.withBufs b).sortStep = s.sortStep := rfl
@[simp] theorem State.withBufs_cmdcnt (s : State) (b : Buffers) : (s.withBufs b).cmdcnt = s.cmdcnt := rfl
@[simp] theorem State.withBufs_cfgNmax (s : State) (b : Buffers) : (s.withBufs b).cfgNmax = s.cfgNmax := rfl
@[simp] theorem State.withBufs_cfgTmax (s : State) (b : Buffers) : (s.withBufs b).cfgTmax = s.cfgTmax := rfl
@[simp] theorem State.withBufs_coder (s : State) (b : Buffers) : (s.withBufs b).coder = s.coder := rfl
@[simp] theorem State.withBufs_bufs (s : State) (b : Buffers) : (s.withBufs b).bufs = b := rfl
@[simp] theorem State.withBufs_powerUp (s : State) (b : Buffers) : (s.withBufs b).powerUp = s.powerUp := rfl
@[simp] theorem State.withBufs_queue (s : State) (b : Buffers) : (s.withBufs b).queue = s.queue := rfl
@[simp] theorem State.withBufs_seen (s : State) (b : Buffers) : (s.withBufs b).seen = s.seen := rfl

/-! ### `withMode` (R25) -/

@[simp] theorem State.withMode_cmd (s : State) (m : RcMode) : (s.withMode m).cmd = s.cmd := rfl
@[simp] theorem State.withMode_status (s : State) (m : RcMode) : (s.withMode m).status = { s.status with rcmode := m } := rfl
@[simp] theorem State.withMode_fault (s : State) (m : RcMode) : (s.withMode m).fault = s.fault := rfl
@[simp] theorem State.withMode_finfo (s : State) (m : RcMode) : (s.withMode m).finfo = s.finfo := rfl
@[simp] theorem State.withMode_n (s : State) (m : RcMode) : (s.withMode m).n = s.n := rfl
@[simp] theorem State.withMode_bidx (s : State) (m : RcMode) : (s.withMode m).bidx = s.bidx := rfl
@[simp] theorem State.withMode_arg0 (s : State) (m : RcMode) : (s.withMode m).arg0 = s.arg0 := rfl
@[simp] theorem State.withMode_arg1 (s : State) (m : RcMode) : (s.withMode m).arg1 = s.arg1 := rfl
@[simp] theorem State.withMode_arg2 (s : State) (m : RcMode) : (s.withMode m).arg2 = s.arg2 := rfl
@[simp] theorem State.withMode_res (s : State) (m : RcMode) : (s.withMode m).res = s.res := rfl
@[simp] theorem State.withMode_sortStep (s : State) (m : RcMode) : (s.withMode m).sortStep = s.sortStep := rfl
@[simp] theorem State.withMode_cmdcnt (s : State) (m : RcMode) : (s.withMode m).cmdcnt = s.cmdcnt := rfl
@[simp] theorem State.withMode_cfgNmax (s : State) (m : RcMode) : (s.withMode m).cfgNmax = s.cfgNmax := rfl
@[simp] theorem State.withMode_cfgTmax (s : State) (m : RcMode) : (s.withMode m).cfgTmax = s.cfgTmax := rfl
@[simp] theorem State.withMode_coder (s : State) (m : RcMode) : (s.withMode m).coder = s.coder := rfl
@[simp] theorem State.withMode_bufs (s : State) (m : RcMode) : (s.withMode m).bufs = s.bufs := rfl
@[simp] theorem State.withMode_powerUp (s : State) (m : RcMode) : (s.withMode m).powerUp = s.powerUp := rfl
@[simp] theorem State.withMode_queue (s : State) (m : RcMode) : (s.withMode m).queue = s.queue := rfl
@[simp] theorem State.withMode_seen (s : State) (m : RcMode) : (s.withMode m).seen = s.seen := rfl

/-! ### `answer` (R236) -/

@[simp] theorem State.answer_cmd (s : State) (vs : List Reg64) : (s.answer vs).cmd = s.cmd := rfl
@[simp] theorem State.answer_status (s : State) (vs : List Reg64) : (s.answer vs).status = s.status := rfl
@[simp] theorem State.answer_fault (s : State) (vs : List Reg64) : (s.answer vs).fault = s.fault := rfl
@[simp] theorem State.answer_finfo (s : State) (vs : List Reg64) : (s.answer vs).finfo = s.finfo := rfl
@[simp] theorem State.answer_n (s : State) (vs : List Reg64) : (s.answer vs).n = s.n := rfl
@[simp] theorem State.answer_bidx (s : State) (vs : List Reg64) : (s.answer vs).bidx = s.bidx := rfl
@[simp] theorem State.answer_arg0 (s : State) (vs : List Reg64) : (s.answer vs).arg0 = s.arg0 := rfl
@[simp] theorem State.answer_arg1 (s : State) (vs : List Reg64) : (s.answer vs).arg1 = s.arg1 := rfl
@[simp] theorem State.answer_arg2 (s : State) (vs : List Reg64) : (s.answer vs).arg2 = s.arg2 := rfl
@[simp] theorem State.answer_res (s : State) (vs : List Reg64) : (s.answer vs).res = s.res := rfl
@[simp] theorem State.answer_sortStep (s : State) (vs : List Reg64) : (s.answer vs).sortStep = s.sortStep := rfl
@[simp] theorem State.answer_cmdcnt (s : State) (vs : List Reg64) : (s.answer vs).cmdcnt = s.cmdcnt := rfl
@[simp] theorem State.answer_cfgNmax (s : State) (vs : List Reg64) : (s.answer vs).cfgNmax = s.cfgNmax := rfl
@[simp] theorem State.answer_cfgTmax (s : State) (vs : List Reg64) : (s.answer vs).cfgTmax = s.cfgTmax := rfl
@[simp] theorem State.answer_coder (s : State) (vs : List Reg64) : (s.answer vs).coder = s.coder := rfl
@[simp] theorem State.answer_bufs (s : State) (vs : List Reg64) : (s.answer vs).bufs = s.bufs := rfl
@[simp] theorem State.answer_powerUp (s : State) (vs : List Reg64) : (s.answer vs).powerUp = s.powerUp := rfl
@[simp] theorem State.answer_queue (s : State) (vs : List Reg64) : (s.answer vs).queue = s.queue := rfl
@[simp] theorem State.answer_seen (s : State) (vs : List Reg64) : (s.answer vs).seen = s.seen ++ vs := rfl

/-! ### `Coder.setCount` (R151) -/

@[simp] theorem Coder.setCount_low (c : Coder) (slot v : Nat) : (c.setCount slot v).low = c.low := rfl
@[simp] theorem Coder.setCount_range (c : Coder) (slot v : Nat) : (c.setCount slot v).range = c.range := rfl
@[simp] theorem Coder.setCount_qpos (c : Coder) (slot v : Nat) : (c.setCount slot v).qpos = c.qpos := rfl
@[simp] theorem Coder.setCount_qlen (c : Coder) (slot v : Nat) : (c.setCount slot v).qlen = c.qlen := rfl
@[simp] theorem Coder.setCount_oacc (c : Coder) (slot v : Nat) : (c.setCount slot v).oacc = c.oacc := rfl
@[simp] theorem Coder.setCount_ocnt (c : Coder) (slot v : Nat) : (c.setCount slot v).ocnt = c.ocnt := rfl
@[simp] theorem Coder.setCount_ochars (c : Coder) (slot v : Nat) : (c.setCount slot v).ochars = c.ochars := rfl
@[simp] theorem Coder.setCount_tlen (c : Coder) (slot v : Nat) : (c.setCount slot v).tlen = c.tlen := rfl
@[simp] theorem Coder.setCount_tpos (c : Coder) (slot v : Nat) : (c.setCount slot v).tpos = c.tpos := rfl
@[simp] theorem Coder.setCount_iacc (c : Coder) (slot v : Nat) : (c.setCount slot v).iacc = c.iacc := rfl
@[simp] theorem Coder.setCount_icnt (c : Coder) (slot v : Nat) : (c.setCount slot v).icnt = c.icnt := rfl
@[simp] theorem Coder.setCount_qcount (c : Coder) (slot v : Nat) :
    (c.setCount slot v).qcount = store .qcount slot (reg64 v) c.qcount := rfl
@[simp] theorem Coder.setCount_text (c : Coder) (slot v : Nat) : (c.setCount slot v).text = c.text := rfl

/-! ### `Coder.atReset` (R280) -/

@[simp] theorem Coder.atReset_low (text : Memory 8) : (Coder.atReset text).low = 0 := rfl
@[simp] theorem Coder.atReset_range (text : Memory 8) : (Coder.atReset text).range = 0 := rfl
@[simp] theorem Coder.atReset_qpos (text : Memory 8) : (Coder.atReset text).qpos = 0 := rfl
@[simp] theorem Coder.atReset_qlen (text : Memory 8) : (Coder.atReset text).qlen = 0 := rfl
@[simp] theorem Coder.atReset_oacc (text : Memory 8) : (Coder.atReset text).oacc = 0 := rfl
@[simp] theorem Coder.atReset_ocnt (text : Memory 8) : (Coder.atReset text).ocnt = 0 := rfl
@[simp] theorem Coder.atReset_ochars (text : Memory 8) : (Coder.atReset text).ochars = 0 := rfl
@[simp] theorem Coder.atReset_tlen (text : Memory 8) : (Coder.atReset text).tlen = 0 := rfl
@[simp] theorem Coder.atReset_tpos (text : Memory 8) : (Coder.atReset text).tpos = 0 := rfl
@[simp] theorem Coder.atReset_iacc (text : Memory 8) : (Coder.atReset text).iacc = 0 := rfl
@[simp] theorem Coder.atReset_icnt (text : Memory 8) : (Coder.atReset text).icnt = 0 := rfl
@[simp] theorem Coder.atReset_qcount (text : Memory 8) : (Coder.atReset text).qcount = [] := rfl
@[simp] theorem Coder.atReset_text (text : Memory 8) : (Coder.atReset text).text = text := rfl

end Sys2Proof.Machine
end

