-- ==== Sys2Proof/Laws/Ops.lean ====
section
/-! SUPPORT. What the shared operations of `Machine/Ops.lean` can do, said once: how a run of pseudocode goes on, how a command
ends, when an entry check passes. -/

namespace Sys2Proof.Machine

variable {σ τ α β : Type}

/-! ### Runs of pseudocode -/

/-- A run that goes on has finished its first part. -/
theorem Run.bind_ok_iff (x : Run σ α) (f : α → Run σ β) (b : β) :
    (x >>= f) = .ok b ↔ ∃ a, x = .ok a ∧ f a = .ok b := by
  cases x <;> simp [bind, Except.bind]

/-- A run that ends early ends in its first part or in the rest. -/
theorem Run.bind_error_iff (x : Run σ α) (f : α → Run σ β) (e : Ended σ) :
    (x >>= f) = .error e ↔ x = .error e ∨ ∃ a, x = .ok a ∧ f a = .error e := by
  cases x <;> simp [bind, Except.bind]

@[simp] theorem Run.ok_bind (a : α) (f : α → Run σ β) : ((.ok a : Run σ α) >>= f) = f a := rfl

@[simp] theorem Run.error_bind (e : Ended σ) (f : α → Run σ β) : ((.error e : Run σ α) >>= f) = .error e := rfl

theorem raise_ne_ok (code : FaultCode) (info : Nat) (s : σ) (a : α) : (raise code info s : Run σ α) ≠ .ok a := by
  simp [raise]

/-! ### How a command ends (R82, R252) -/

/-- A settled run answers a next state exactly by completing or by taking a fault. -/
theorem settle_next_iff (r : Run State State) (t : State) :
    settle r = .next t ↔
      (∃ u, r = .ok u ∧ t = u.complete) ∨ ∃ code info u, r = .error (.raised code info u) ∧ t = u.takeFault code info := by
  rcases r with e | u
  · cases e <;> simp [settle, eq_comm]
  · simp [settle, eq_comm]

/-- A command other than `RESET` answers a next state exactly by being ignored, by completing or by taking a fault. -/
theorem runCommand_next_iff (body : State → Run State State) (s t : State) :
    runCommand body s = .next t ↔
      (s.status.faulted = true ∧ t = s) ∨
      (s.status.faulted = false ∧
        ((∃ u, body s.startCommand = .ok u ∧ t = u.complete) ∨
          ∃ code info u, body s.startCommand = .error (.raised code info u) ∧ t = u.takeFault code info)) := by
  cases hs : s.status.faulted
  · simp [runCommand, hs, settle_next_iff]
  · simp [runCommand, hs, eq_comm]

theorem runCommand_of_faulted (body : State → Run State State) (s : State) (h : s.status.faulted = true) :
    runCommand body s = .next s := by simp [runCommand, h]

theorem runCommand_of_ok (body : State → Run State State) (s u : State) (hs : s.status.faulted = false)
    (h : body s.startCommand = .ok u) : runCommand body s = .next u.complete := by simp [runCommand, hs, h, settle]

theorem runCommand_of_raised (body : State → Run State State) (s u : State) (code : FaultCode) (info : Reg64)
    (hs : s.status.faulted = false) (h : body s.startCommand = .error (.raised code info u)) :
    runCommand body s = .next (u.takeFault code info) := by simp [runCommand, hs, h, settle]

/-- A body that answers, one way or another, for the started state makes its command answer. -/
theorem runCommand_answers (body : State → Run State State) (s : State)
    (h : ∀ u, s.startCommand = u → (∃ v, body u = .ok v) ∨ ∃ code info v, body u = .error (.raised code info v)) :
    ∃ t, runCommand body s = .next t := by
  cases hs : s.status.faulted
  · rcases h _ rfl with ⟨v, hv⟩ | ⟨code, info, v, hv⟩
    · exact ⟨_, runCommand_of_ok body s v hs hv⟩
    · exact ⟨_, runCommand_of_raised body s v code info hs hv⟩
  · exact ⟨s, runCommand_of_faulted body s hs⟩

/-! ### Entry checks (R251) -/

theorem checkLength_ok_iff (s : State) (n : Nat) : checkLength s n = .ok () ↔ n ≤ s.cfgNmax.toNat := by
  unfold checkLength
  split <;> simp [raise] <;> omega

theorem checkLength_error_iff (s : State) (n : Nat) (e : Ended State) :
    checkLength s n = .error e ↔ s.cfgNmax.toNat < n ∧ e = .raised .badLength (reg64 n) s := by
  unfold checkLength
  split <;> simp [raise, *, eq_comm]

theorem checkMode_ok_iff (s : State) (m : RcMode) : checkMode s m = .ok () ↔ s.status.rcmode = m := by
  unfold checkMode
  split <;> simp [raise, *]

theorem checkMode_error_iff (s : State) (m : RcMode) (e : Ended State) :
    checkMode s m = .error e ↔
      s.status.rcmode ≠ m ∧ e = .raised .rcMode (reg64 (modeNumber s.status.rcmode)) s := by
  unfold checkMode
  split
  · rename_i h
    simp [h]
  · rename_i h
    simp only [raise, Except.error.injEq]
    exact ⟨fun he => ⟨h, he.symm⟩, fun he => he.2.symm⟩

/-! ### The coder inside the machine -/

theorem onCoder_ok_iff (s t : State) (r : Run Coder Coder) : onCoder s r = .ok t ↔ ∃ c, r = .ok c ∧ t = s.withCoder c := by
  cases r <;> simp [onCoder, eq_comm]

theorem onCoder_raised_iff (s t : State) (r : Run Coder Coder) (code : FaultCode) (info : Reg64) :
    onCoder s r = .error (.raised code info t) ↔ ∃ c, r = .error (.raised code info c) ∧ t = s.withCoder c := by
  rcases r with e | c
  · cases e <;> simp [onCoder, Ended.map, eq_comm, and_assoc]
  · simp [onCoder]

theorem onCoderValue_ok_iff (s t : State) (a : α) (r : Run Coder (α × Coder)) :
    onCoderValue s r = .ok (a, t) ↔ ∃ c, r = .ok (a, c) ∧ t = s.withCoder c := by
  rcases r with e | ⟨b, c⟩
  · simp [onCoderValue]
  · simp only [onCoderValue, Except.ok.injEq, Prod.mk.injEq]
    constructor
    · rintro ⟨rfl, rfl⟩
      exact ⟨c, ⟨rfl, rfl⟩, rfl⟩
    · rintro ⟨c', ⟨rfl, rfl⟩, rfl⟩
      exact ⟨rfl, rfl⟩

theorem onCoderValue_raised_iff (s t : State) (r : Run Coder (α × Coder)) (code : FaultCode) (info : Reg64) :
    onCoderValue s r = .error (.raised code info t) ↔ ∃ c, r = .error (.raised code info c) ∧ t = s.withCoder c := by
  rcases r with e | ⟨b, c⟩
  · cases e <;> simp [onCoderValue, Ended.map, eq_comm, and_assoc]
  · simp [onCoderValue]

/-! ### Registers as numbers -/

theorem reg64_toNat (v : Nat) (h : v < 2 ^ 64) : (reg64 v).toNat = v := by
  rw [reg64, BitVec.toNat_ofNat, Nat.mod_eq_of_lt h]

@[simp] theorem reg64_of_toNat (r : Reg64) : reg64 r.toNat = r := by simp [reg64]

theorem legalInterval_iff (lo hi den : Nat) : legalInterval lo hi den = true ↔ lo < hi ∧ hi ≤ den ∧ den ≤ 2 ^ 31 + 1 := by
  unfold legalInterval
  exact decide_eq_true_iff

theorem legalDenom_iff (den : Nat) : legalDenom den = true ↔ 1 ≤ den ∧ den ≤ 2 ^ 31 + 1 := by
  unfold legalDenom
  exact decide_eq_true_iff

/-! ### Commands issued one after another -/

@[simp] theorem issued_nil (s : State) : issued [] s = .next s := rfl

theorem issued_cons_next_iff (i : Instr) (rest : List Instr) (s u : State) :
    issued (i :: rest) s = .next u ↔ ∃ t, exec i s = .next t ∧ issued rest t = .next u := by
  rw [issued]
  cases exec i s <;> simp

theorem issued_append_of_next (front rest : List Instr) (s t : State) (h : issued front s = .next t) :
    issued (front ++ rest) s = issued rest t := by
  induction front generalizing s with
  | nil => cases h; rfl
  | cons i front ih =>
    obtain ⟨t', hi, hf⟩ := (issued_cons_next_iff i front s t).mp h
    rw [List.cons_append, issued, hi]
    exact ih t' hf

end Sys2Proof.Machine
end

