-- ==== Sys2Proof/Laws/Coder.lean ====
section
/-! SUPPORT. What the shared operations of the range coder can change: the encoder's side never touches the parser, the decoder's
side never touches the queue, the serialiser or the text, wherever a run ends. -/

namespace Sys2Proof.Machine

variable {σ α β : Type}

/-- Wherever a run ends with a state, by its last line or by a fault, that state satisfies `P`. -/
def Run.leaves (state : α → σ) (P : σ → Prop) : Run σ α → Prop
  | .ok a => P (state a)
  | .error (.raised _ _ s) => P s
  | .error (.stuck _) => True
  | .error (.refused _) => True

theorem Run.leaves_ok (state : α → σ) (P : σ → Prop) (a : α) : Run.leaves state P (.ok a : Run σ α) ↔ P (state a) := Iff.rfl

theorem Run.leaves_raise (state : α → σ) (P : σ → Prop) (code : FaultCode) (info : Nat) (s : σ) :
    Run.leaves state P (raise code info s : Run σ α) ↔ P s := Iff.rfl

/-- A run in two parts leaves a `P`-state when each part does. -/
theorem Run.leaves_bind (sa : α → σ) (sb : β → σ) (P Q : σ → Prop) (x : Run σ α) (f : α → Run σ β)
    (hx : Run.leaves sa P x) (hPQ : ∀ s, P s → Q s) (hf : ∀ a, P (sa a) → Run.leaves sb Q (f a)) :
    Run.leaves sb Q (x >>= f) := by
  rcases x with e | a
  · cases e with
    | raised code info s => exact hPQ s hx
    | stuck => exact trivial
    | refused => exact trivial
  · exact hf a hx

theorem Run.leaves_mono (state : α → σ) (P Q : σ → Prop) (x : Run σ α) (h : ∀ s, P s → Q s) (hx : Run.leaves state P x) :
    Run.leaves state Q x := by
  rcases x with e | a
  · cases e with
    | raised code info s => exact h s hx
    | stuck => exact trivial
    | refused => exact trivial
  · exact h _ hx

/-- The state a completed run leaves. -/
theorem Run.leaves_of_ok (state : α → σ) (P : σ → Prop) (x : Run σ α) (a : α) (hx : Run.leaves state P x) (h : x = .ok a) :
    P (state a) := by subst h; exact hx

/-- The state a faulted run leaves. -/
theorem Run.leaves_of_raised (state : α → σ) (P : σ → Prop) (x : Run σ α) (code : FaultCode) (info : Reg64) (s : σ)
    (hx : Run.leaves state P x) (h : x = .error (.raised code info s)) : P s := by subst h; exact hx

/-! ### The encoder's side -/

/-- The window, the serialiser and the parser are as they were: only the queue may differ. -/
@[simp] abbrev Coder.queueOnly (c d : Coder) : Prop :=
  d.low = c.low ∧ d.range = c.range ∧ d.oacc = c.oacc ∧ d.ocnt = c.ocnt ∧ d.ochars = c.ochars ∧ d.tlen = c.tlen ∧
    d.text = c.text ∧ d.tpos = c.tpos ∧ d.iacc = c.iacc ∧ d.icnt = c.icnt

/-- The window, the queue and the parser are as they were: only the serialiser and the text may differ. -/
@[simp] abbrev Coder.serialiserOnly (c d : Coder) : Prop :=
  d.low = c.low ∧ d.range = c.range ∧ d.qpos = c.qpos ∧ d.qlen = c.qlen ∧ d.qcount = c.qcount ∧
    d.tpos = c.tpos ∧ d.iacc = c.iacc ∧ d.icnt = c.icnt

/-- The parser is as it was. -/
@[simp] abbrev Coder.sameParser (c d : Coder) : Prop := d.tpos = c.tpos ∧ d.iacc = c.iacc ∧ d.icnt = c.icnt

theorem pushBit_queueOnly (b : Bool) (c : Coder) : Run.leaves id c.queueOnly (pushBit b c) := by
  unfold pushBit
  split
  · simp [Run.leaves]
  · split
    · simp [Run.leaves]
    · split <;> simp [Run.leaves, raise]

/-- The only fault of `push_bit` is the full ring, with nothing changed (R153). -/
theorem pushBit_error (b : Bool) (c : Coder) (e : Ended Coder) (h : pushBit b c = .error e) :
    128 ≤ c.qlen.toNat ∧ e = .raised .rcQueue c.qlen c := by
  unfold pushBit at h
  split at h
  · simp at h
  · split at h
    · simp at h
    · split at h
      · rename_i hq
        simp only [raise, Except.error.injEq, reg64_of_toNat] at h
        exact ⟨hq, h.symm⟩
      · simp at h

theorem carry_queueOnly (c : Coder) : Run.leaves id c.queueOnly (carry c) := by
  unfold carry
  split
  · simp [Run.leaves, raise]
  · split
    · split <;> simp [Run.leaves, raise]
    · split <;> simp [Run.leaves, raise]

/-- A byte is stored at the cursor, or `TEXT` is full (R166). -/
theorem putByte_ok_iff (tmax : Nat) (v : Byte) (c d : Coder) :
    putByte tmax v c = .ok d ↔
      c.tlen.toNat < tmax ∧ d = { c with text := store .text c.tlen.toNat v c.text, tlen := c.tlen + 1 } := by
  unfold putByte
  split
  · simp [raise]; omega
  · simp [eq_comm]; omega

theorem putByte_error_iff (tmax : Nat) (v : Byte) (c : Coder) (e : Ended Coder) :
    putByte tmax v c = .error e ↔ tmax ≤ c.tlen.toNat ∧ e = .raised .textOverflow c.tlen c := by
  unfold putByte
  split <;> simp [raise, *, eq_comm]

theorem putByte_serialiserOnly (tmax : Nat) (v : Byte) (c : Coder) : Run.leaves id c.serialiserOnly (putByte tmax v c) := by
  unfold putByte
  split <;> simp [Run.leaves, raise]

theorem putChar_serialiserOnly (tmax : Nat) (c : Coder) : Run.leaves id c.serialiserOnly (putChar tmax c) := by
  refine Run.leaves_bind id id _ _ _ _ (putByte_serialiserOnly ..) (fun _ h => h) fun d hd => ?_
  dsimp only
  split
  · exact Run.leaves_mono _ _ _ _ (fun s hs => by simp_all) (putByte_serialiserOnly ..)
  · exact hd

theorem outBit_serialiserOnly (tmax : Nat) (b : Bool) (c : Coder) : Run.leaves id c.serialiserOnly (outBit tmax b c) := by
  unfold outBit
  dsimp only
  split
  · exact Run.leaves_mono _ _ _ _ (fun s hs => by simp_all) (putChar_serialiserOnly ..)
  · simp [Run.leaves]

theorem outBits_serialiserOnly (tmax : Nat) (b : Bool) (k : Nat) (c : Coder) :
    Run.leaves id c.serialiserOnly (outBits tmax b k c) := by
  induction k generalizing c with
  | zero => simp [outBits, Run.leaves]
  | succ k ih =>
    refine Run.leaves_bind id id _ _ _ _ (outBit_serialiserOnly tmax b c) (fun _ h => h) fun d hd => ?_
    exact Run.leaves_mono _ _ _ _ (fun s hs => by simp_all) (ih d)

/-- The window and the parser are as they were. -/
@[simp] abbrev Coder.outputOnly (c d : Coder) : Prop :=
  d.low = c.low ∧ d.range = c.range ∧ d.tpos = c.tpos ∧ d.iacc = c.iacc ∧ d.icnt = c.icnt

theorem drainRun_outputOnly (tmax : Nat) (c : Coder) : Run.leaves id c.outputOnly (drainRun tmax c) := by
  refine Run.leaves_bind id id _ _ _ _
    (Run.leaves_mono _ _ c.outputOnly _ (fun s hs => by simp_all) (outBits_serialiserOnly ..)) (fun _ h => h) fun d hd => ?_
  simpa [Run.leaves] using hd

theorem drainRuns_outputOnly (tmax k : Nat) (c : Coder) : Run.leaves id c.outputOnly (drainRuns tmax k c) := by
  induction k generalizing c with
  | zero => simp [drainRuns, Run.leaves]
  | succ k ih =>
    refine Run.leaves_bind id id _ _ _ _ (drainRun_outputOnly tmax c) (fun _ h => h) fun d hd => ?_
    exact Run.leaves_mono _ _ _ _ (fun s hs => by simp_all) (ih d)

theorem drain_outputOnly (tmax keep : Nat) (c : Coder) : Run.leaves id c.outputOnly (drain tmax keep c) :=
  drainRuns_outputOnly ..

theorem padTurns_outputOnly (tmax fuel : Nat) (c : Coder) : Run.leaves id c.outputOnly (padTurns tmax fuel c) := by
  induction fuel generalizing c with
  | zero =>
    unfold padTurns
    split <;> simp [Run.leaves]
  | succ fuel ih =>
    unfold padTurns
    split
    · simp [Run.leaves]
    · refine Run.leaves_bind id id _ _ _ _
        (Run.leaves_mono _ _ c.outputOnly _ (fun s hs => by simp_all) (outBit_serialiserOnly ..)) (fun _ h => h) fun d hd => ?_
      exact Run.leaves_mono _ _ _ _ (fun s hs => by simp_all) (ih d)

/-- The serialiser, the text and the parser are as they were: only the window and the queue may differ. -/
@[simp] abbrev Coder.windowOnly (c d : Coder) : Prop :=
  d.oacc = c.oacc ∧ d.ocnt = c.ocnt ∧ d.ochars = c.ochars ∧ d.tlen = c.tlen ∧ d.text = c.text ∧ d.tpos = c.tpos ∧
    d.iacc = c.iacc ∧ d.icnt = c.icnt

theorem encNormTurns_windowOnly (fuel : Nat) (c : Coder) : Run.leaves id c.windowOnly (encNormTurns fuel c) := by
  induction fuel generalizing c with
  | zero => simp [encNormTurns, Run.leaves]
  | succ fuel ih =>
    unfold encNormTurns
    split
    · refine Run.leaves_bind id id _ _ _ _
        (Run.leaves_mono _ _ c.windowOnly _ (fun s hs => by simp_all) (pushBit_queueOnly ..)) (fun _ h => h) fun d hd => ?_
      exact Run.leaves_mono _ _ _ _ (fun s hs => by simp_all) (ih _)
    · simp [Run.leaves]

theorem encNorm_windowOnly (c : Coder) : Run.leaves id c.windowOnly (encNorm c) := by
  unfold encNorm
  split
  · exact trivial
  · exact encNormTurns_windowOnly ..

theorem narrow_windowOnly (lo hi den : Nat) (c : Coder) : Run.leaves id c.windowOnly (narrow lo hi den c) := by
  unfold narrow
  dsimp only
  split
  · exact Run.leaves_mono _ _ _ _ (fun s hs => by simp_all) (carry_queueOnly ..)
  · simp [Run.leaves]

/-- `encode` never touches the parser (R157). -/
theorem encode64_sameParser (tmax lo hi den : Nat) (c : Coder) : Run.leaves id c.sameParser (encode64 tmax lo hi den c) := by
  unfold encode64
  split
  · split
    · simp [Run.leaves, raise]
    · refine Run.leaves_bind id id c.sameParser _ _ _
        (Run.leaves_mono _ _ _ _ (fun s hs => by simp_all) (encNorm_windowOnly c)) (fun _ h => h) fun d hd => ?_
      refine Run.leaves_bind id id c.sameParser _ _ _
        (Run.leaves_mono _ _ _ _ (fun s hs => by simp_all) (narrow_windowOnly ..)) (fun _ h => h) fun d' hd' => ?_
      exact Run.leaves_mono _ _ _ _ (fun s hs => by simp_all) (drain_outputOnly ..)
  · simp [Run.leaves, raise]

/-! ### The decoder's side -/

/-- The queue, the serialiser and the text are as they were. -/
@[simp] abbrev Coder.sameEncoder (c d : Coder) : Prop :=
  d.qpos = c.qpos ∧ d.qlen = c.qlen ∧ d.qcount = c.qcount ∧ d.oacc = c.oacc ∧ d.ocnt = c.ocnt ∧ d.ochars = c.ochars ∧
    d.tlen = c.tlen ∧ d.text = c.text

/-- The queue, the serialiser, the text and the window are as they were: only the parser may differ. -/
@[simp] abbrev Coder.parserOnly (c d : Coder) : Prop := c.sameEncoder d ∧ d.low = c.low ∧ d.range = c.range

theorem fetchChar_parserOnly (port : TextPort) (fuel : Nat) (c : Coder) :
    Run.leaves Prod.snd c.parserOnly (fetchChar port fuel c) := by
  induction fuel generalizing c with
  | zero => simp [fetchChar, Run.leaves]
  | succ fuel ih =>
    unfold fetchChar
    split
    · split
      · exact trivial
      · dsimp only
        split
        · simp [Run.leaves]
        · exact Run.leaves_mono _ _ _ _ (fun s hs => by simp_all) (ih _)
    · simp [Run.leaves]

theorem refill_parserOnly (port : TextPort) (c : Coder) : Run.leaves id c.parserOnly (refill port c) := by
  refine Run.leaves_bind Prod.snd id _ _ _ _ (fetchChar_parserOnly ..) (fun _ h => h) fun d hd => ?_
  simpa [Run.leaves] using hd

theorem nextBit_parserOnly (port : TextPort) (c : Coder) : Run.leaves Prod.snd c.parserOnly (nextBit port c) := by
  unfold nextBit
  split
  · refine Run.leaves_bind id Prod.snd _ _ _ _ (refill_parserOnly port c) (fun _ h => h) fun d hd => ?_
    simpa [Run.leaves] using hd
  · simp [Run.leaves]

theorem decNormTurns_sameEncoder (port : TextPort) (fuel : Nat) (c : Coder) :
    Run.leaves id c.sameEncoder (decNormTurns port fuel c) := by
  induction fuel generalizing c with
  | zero => simp [decNormTurns, Run.leaves]
  | succ fuel ih =>
    unfold decNormTurns
    split
    · refine Run.leaves_bind Prod.snd id c.sameEncoder _ _ _
        (Run.leaves_mono _ _ _ _ (fun s hs => hs.1) (nextBit_parserOnly ..)) (fun _ h => h) fun d hd => ?_
      exact Run.leaves_mono _ _ _ _ (fun s hs => by simp_all) (ih _)
    · simp [Run.leaves]

theorem decNorm_sameEncoder (port : TextPort) (c : Coder) : Run.leaves id c.sameEncoder (decNorm port c) := by
  unfold decNorm
  split
  · exact trivial
  · exact decNormTurns_sameEncoder ..

/-- `decode` never touches the queue, the serialiser or the text (R171). -/
theorem decode64_sameEncoder (port : TextPort) (den : Nat) (c : Coder) :
    Run.leaves Prod.snd c.sameEncoder (decode64 port den c) := by
  unfold decode64
  split
  · exact Run.leaves_bind id Prod.snd _ _ _ _ (decNorm_sameEncoder port c) (fun _ h => h) fun d hd => hd
  · simp [Run.leaves, raise]

theorem decScale_sameEncoder (lo hi den : Nat) (c : Coder) : Run.leaves id c.sameEncoder (decScale lo hi den c) := by
  unfold decScale
  dsimp only
  split <;> simp [Run.leaves, raise]

/-- `scale` never touches the queue, the serialiser or the text (R172). -/
theorem scale64_sameEncoder (port : TextPort) (lo hi den : Nat) (c : Coder) :
    Run.leaves id c.sameEncoder (scale64 port lo hi den c) := by
  unfold scale64
  split
  · refine Run.leaves_bind id id c.sameEncoder _ _ _ (decNorm_sameEncoder port c) (fun _ h => h) fun d hd => ?_
    exact Run.leaves_mono _ _ _ _ (fun s hs => by simp_all) (decScale_sameEncoder ..)
  · simp [Run.leaves, raise]

end Sys2Proof.Machine
end

