-- ==== Sys2Proof/Laws/PerInstr.lean ====
section
/-! SUPPORT. One lemma per command: it is well formed and its word has format `C` (R80): `rsv = 0`, its opcode in bits 7:0. -/

/-- The word of a command has format `C` and decodes by the one row of the opcode map that holds its opcode. -/
def Sys2Proof.Laws.FormatC.Statement (i : Sys2Proof.Instr) : Prop :=
  i.wellFormed = true ∧ Sys2Proof.rsvField (Sys2Proof.encode i) = 0 ∧
    Sys2Proof.opcField (Sys2Proof.encode i) = i.opcode ∧
    Sys2Proof.opcodeMap.filter (fun row => row.1 == i.opcode) = [(i.opcode, i)]

namespace Sys2Proof.Laws.FormatC

theorem nop : Statement .nop := by unfold Statement; decide
theorem reset : Statement .reset := by unfold Statement; decide
theorem sort : Statement .sort := by unfold Statement; decide
theorem bwtf : Statement .bwtf := by unfold Statement; decide
theorem bwti : Statement .bwti := by unfold Statement; decide
theorem mtfe : Statement .mtfe := by unfold Statement; decide
theorem mtfd : Statement .mtfd := by unfold Statement; decide
theorem rcei : Statement .rcei := by unfold Statement; decide
theorem rcdi : Statement .rcdi := by unfold Statement; decide
theorem rcenc : Statement .rcenc := by unfold Statement; decide
theorem rcdec : Statement .rcdec := by unfold Statement; decide
theorem rcscl : Statement .rcscl := by unfold Statement; decide
theorem rcfin : Statement .rcfin := by unfold Statement; decide
theorem freq : Statement .freq := by unfold Statement; decide
theorem hdre : Statement .hdre := by unfold Statement; decide
theorem syme : Statement .syme := by unfold Statement; decide
theorem hdrd : Statement .hdrd := by unfold Statement; decide
theorem symd : Statement .symd := by unfold Statement; decide
theorem comp : Statement .comp := by unfold Statement; decide
theorem decomp : Statement .decomp := by unfold Statement; decide

end Sys2Proof.Laws.FormatC
end

