-- ==== Sys2Proof/Tests/Slice0.lean ====
section
/-! SUPPORT. The model's own tests: what the well-formedness checks refuse, the words of R80 and R81 written out bit by bit, one or
two steps per command with the results the spec's vectors give (file 95), and a witness for the hypotheses of each obligation. -/

namespace Sys2Proof.Tests

open Sys2Proof Sys2Proof.Machine

/- One theorem at a time: their kernel evaluations side by side would pass the check's memory limit. -/
set_option Elab.async false

/-! ## Well-formedness: one ill-formed term per check -/

theorem test_wellFormed_nop : Instr.nop.wellFormed = true := by decide

theorem test_reserved_bit_refused : CommandWord.wellFormed 0x00000140#32 = false := by decide

theorem test_unassigned_opcode_refused : CommandWord.wellFormed 0x00000015#32 = false := by decide

theorem test_assigned_word_accepted : CommandWord.wellFormed 0x00000041#32 = true := by decide

theorem test_reserved_register_refused : HostAction.wellFormed 16 16 (.wr 0x0E 0) = false := by decide

theorem test_reserved_register_read_refused : HostAction.wellFormed 16 16 (.rd 0x27) = false := by decide

theorem test_space_number_refused : HostAction.wellFormed 16 16 (.rdb 12 0 1) = false := by decide

theorem test_readOnly_space_refused : HostAction.wellFormed 16 16 (.wrb 4 0 [0]) = false := by decide

theorem test_index_outside_refused : HostAction.wellFormed 16 16 (.rdb 0 10 7) = false := by decide

theorem test_group_has_one_more : HostAction.wellFormed 16 16 (.rdb 6 16 1) = true := by decide

theorem test_value_too_wide_refused : HostAction.wellFormed 16 16 (.wrb 0 0 [256]) = false := by decide

theorem test_readOnly_register_refused : HostAction.wellFormed 16 16 (.wr 0x0D 5) = false := by decide

/-! ## Command words, bit by bit: 24 zeros of `rsv`, then the opcode (R80, R81) -/

theorem test_decode_nop : decode 0b00000000000000000000000000000000#32 = .ok .nop := by decide

theorem test_decode_reset : decode 0b00000000000000000000000000000001#32 = .ok .reset := by decide

theorem test_decode_sort : decode 0b00000000000000000000000000010000#32 = .ok .sort := by decide

theorem test_decode_bwtf : decode 0b00000000000000000000000000010001#32 = .ok .bwtf := by decide

theorem test_decode_bwti : decode 0b00000000000000000000000000010010#32 = .ok .bwti := by decide

theorem test_decode_mtfe : decode 0b00000000000000000000000000010011#32 = .ok .mtfe := by decide

theorem test_decode_mtfd : decode 0b00000000000000000000000000010100#32 = .ok .mtfd := by decide

theorem test_decode_rcei : decode 0b00000000000000000000000000100000#32 = .ok .rcei := by decide

theorem test_decode_rcdi : decode 0b00000000000000000000000000100001#32 = .ok .rcdi := by decide

theorem test_decode_rcenc : decode 0b00000000000000000000000000100010#32 = .ok .rcenc := by decide

theorem test_decode_rcdec : decode 0b00000000000000000000000000100011#32 = .ok .rcdec := by decide

theorem test_decode_rcscl : decode 0b00000000000000000000000000100100#32 = .ok .rcscl := by decide

theorem test_decode_rcfin : decode 0b00000000000000000000000000100101#32 = .ok .rcfin := by decide

theorem test_decode_freq : decode 0b00000000000000000000000000110000#32 = .ok .freq := by decide

theorem test_decode_hdre : decode 0b00000000000000000000000000110001#32 = .ok .hdre := by decide

theorem test_decode_syme : decode 0b00000000000000000000000000110010#32 = .ok .syme := by decide

theorem test_decode_hdrd : decode 0b00000000000000000000000000110011#32 = .ok .hdrd := by decide

theorem test_decode_symd : decode 0b00000000000000000000000000110100#32 = .ok .symd := by decide

theorem test_decode_comp : decode 0b00000000000000000000000001000000#32 = .ok .comp := by decide

theorem test_decode_decomp : decode 0b00000000000000000000000001000001#32 = .ok .decomp := by decide

theorem test_decode_gap : decode 0b00000000000000000000000000100110#32 = .error .unassignedOpcode := by decide

theorem test_decode_rsv : decode 0b10000000000000000000000001000000#32 = .error .reservedBits := by decide

theorem test_decodeTableWord : decodeTableWord 32 0x25 = some .rcfin ∧ decodeTableWord 32 0x26 = none := by decide

/-! ## Small states -/

/-- The next state, where there is one. -/
def answered (o : Host.Outcome State Fault Refusal) : Option State :=
  match o with
  | .next t => some t
  | .fault _ => none
  | .refused _ => none

/-- The value of a run that reached its last line. -/
def finished {σ α : Type} (r : Run σ α) : Option α :=
  match r with
  | .ok a => some a
  | .error _ => none

theorem next_of_answered {o : Host.Outcome State Fault Refusal} (h : (answered o).isSome = true) : ∃ t, o = .next t := by
  cases o with
  | next t => exact ⟨t, rfl⟩
  | fault _ => exact absurd h (by simp [answered])
  | refused _ => exact absurd h (by simp [answered])

theorem ok_of_finished {σ α : Type} {r : Run σ α} {a : α} (h : finished r = some a) : r = .ok a := by
  cases r with
  | ok b => simpa [finished] using h
  | error _ => exact absurd h (by simp [finished])

/-- The bytes of a string. -/
def bytes (s : String) : List Nat := s.toList.map Char.toNat

/-- An idle machine with `NMAX = 16`, `TMAX = 4096`. -/
def idle : State := State.resetWith 16 4096 0 []

/-- The idle machine with `DATA`, `N` loaded. -/
def withData (d : List Nat) : State :=
  { idle with n := reg64 d.length, bufs := { Buffers.unwritten with data := storeFrom .data 0 d [] } }

/-- The idle machine with `XF`, `N`, `BIDX` loaded. -/
def withXf (d : List Nat) (bidx : Nat) : State :=
  { idle with n := reg64 d.length, bidx := reg64 bidx, bufs := { Buffers.unwritten with xf := storeFrom .xf 0 d [] } }

/-- The idle machine with `SYM`, `N`, and the tables `FREQ` makes of it. -/
def withSym (d : List Nat) : State :=
  { idle with
    n := reg64 d.length, bidx := 3,
    bufs := { Buffers.unwritten with
      sym := storeFrom .sym 0 d [], freq := storeFrom .freq 0 (countSymbols d) [],
      cum := storeFrom .cum 0 (cumulate 0 (countSymbols d)) [] } }

/-- `TEXT` holding a string. -/
def textOf (s : String) : Memory 8 := storeFrom .text 0 (bytes s) []

/-- A coder with a given window, just constructed otherwise, over a text of length `TLEN`. -/
def coderAt (low range : Nat) (text : String) : Coder :=
  { Coder.atReset (textOf text) with low := reg64 low, range := reg64 range, tlen := reg64 text.length }

/-- A machine in a coder mode with a coder. -/
def inMode (m : RcMode) (c : Coder) (s : State) : State := (s.withCoder c).withMode m

/-- The operand registers of `RCENC`, `RCDEC`, `RCSCL`. -/
def withArgs (lo hi den : Nat) (s : State) : State := { s with arg0 := reg64 lo, arg1 := reg64 hi, arg2 := reg64 den }

/-- `STATUS`, `CMDCNT`, `FAULT` and `FINFO` as the host reads them. -/
def flags (t : State) : List Nat := [.status, .cmdcnt, .fault, .finfo].map (fun r => (readReg t r).toNat)

/-- Registers as the host reads them. -/
def regs (rs : List Reg) (t : State) : List Nat := rs.map (fun r => (readReg t r).toNat)

/-- Elements as the host reads them. -/
def elems (sp : Space) (i count : Nat) (t : State) : List Nat := (List.range count).map (fun k => t.elem sp (i + k))

/-! ## One step per test; the results are those of file 95 -/

/-- V60. -/
theorem test_nop : (answered (exec .nop (inMode .encoding idle.coder idle))).map flags = some [0x0A, 1, 0, 0] := by
  decide +kernel

/-- V62: `RESET` under a fault; `TEXT` stays. -/
theorem test_reset : (answered (exec .reset ({ inMode .decoding (coderAt 0xA7FFFFFF 0x100000000 "f") idle with
      cmdcnt := 2 }.takeFault .rcDesync 0xA7FFFFFF))).map
    (fun t => flags t ++ regs [.low, .range, .tlen, .step, .cfgNmax] t ++ elems .text 0 1 t) =
    some [0, 0, 0, 0, 0, 0, 0, 1, 16, 102] := by decide +kernel

/-- V10. -/
theorem test_sort_banana : (answered (exec .sort (withData (bytes "banana")))).map
    (fun t => (elems .suf 0 6 t, elems .rank 0 6 t, elems .group 0 7 t, regs [.step] t)) =
    some ([5, 3, 1, 0, 4, 2], [3, 2, 5, 1, 4, 0], [0, 1, 2, 3, 4, 5, 6], [4]) := by decide +kernel

/-- V17: bytes compare as unsigned. -/
theorem test_sort_unsigned : (answered (exec .sort (withData [255, 0, 255, 0, 0]))).map
    (fun t => (elems .suf 0 5 t, elems .rank 0 5 t, regs [.step] t)) =
    some ([3, 1, 4, 2, 0], [4, 1, 3, 0, 2], [4]) := by decide +kernel

/-- V16: two digits, `kb = 16` for `n = 300`; equal keys keep their order (R106). -/
theorem test_radix_two_digits : radixSort 300 [(299, 298), (0, 7), (43, 3), (256, 5), (0, 2)] =
    [(0, 7), (0, 2), (43, 3), (256, 5), (299, 298)] := by decide +kernel

/-- V20. -/
theorem test_bwtf_banana : (answered (exec .bwtf (withData (bytes "banana")))).map
    (fun t => (elems .xf 0 6 t, regs [.bidx] t)) = some (bytes "nnbaaa", [3]) := by decide +kernel

/-- V20: equal rotations keep ascending positions. -/
theorem test_bwtf_abab : (answered (exec .bwtf (withData (bytes "abab")))).map
    (fun t => (elems .xf 0 4 t, regs [.bidx, .step] t)) = some (bytes "bbaa", [0, 4]) := by decide +kernel

/-- V21: a walk that closes a cycle shorter than `n`. -/
theorem test_bwti_abab : (answered (exec .bwti (withXf (bytes "bbaa") 0))).map
    (fun t => (elems .next 0 4 t, elems .data 0 4 t)) = some ([2, 3, 0, 1], bytes "abab") := by decide +kernel

/-- V24. -/
theorem test_bwti_index : (answered (exec .bwti (withXf (bytes "nnbaaa") 6))).map flags = some [0x04, 0, 3, 6] := by
  decide +kernel

/-- V30. -/
theorem test_mtfe : (answered (exec .mtfe (withXf (bytes "nnbaaa") 0))).map
    (fun t => (elems .sym 0 6 t, elems .mtfl 0 6 t)) = some ([110, 0, 99, 99, 0, 0], [97, 98, 110, 0, 1, 2]) := by
  decide +kernel

/-- V31. -/
theorem test_mtfd : (answered (exec .mtfd (withSym [255, 255, 1]))).map
    (fun t => (elems .xf 0 3 t, elems .mtfl 0 4 t)) = some ([255, 254, 255], [255, 254, 0, 1]) := by decide +kernel

/-- V40, command 1. -/
theorem test_rcei : (answered (exec .rcei idle)).map (fun t => flags t ++ regs [.low, .range, .qlen, .tlen] t) =
    some [0x0A, 1, 0, 0, 0, 0x100000000, 0, 0] := by decide +kernel

/-- V46: `TLEN > TMAX`. -/
theorem test_rcdi_length : (answered (exec .rcdi { idle with cfgTmax := 8, coder := { idle.coder with tlen := 9 } })).map
    flags = some [0x04, 0, 2, 9] := by decide +kernel

/-- V40, decoder command 1. -/
theorem test_rcdi : (answered (exec .rcdi (inMode .idle (coderAt 0 0 "T") idle))).map
    (fun t => flags t ++ regs [.low, .range, .tlen, .tpos, .icnt] t) = some [0x12, 1, 0, 0, 0, 1, 1, 0, 0] := by decide +kernel

/-- V41, command 3: a carry into an even tail. -/
theorem test_rcenc_carry : (answered (exec .rcenc (withArgs 3 4 4
      (inMode .encoding (coderAt 0x40000000 0x80000000 "") idle)))).map
    (fun t => regs [.low, .range, .qpos, .qlen] t ++ elems .qcount 0 3 t) =
    some [0x40000000, 0x40000000, 0, 2, 0, 1, 0] := by decide +kernel

/-- V42, last `RCENC`: a carry through a run of ones, then the drain of an empty slot. -/
theorem test_rcenc_carry_run : (answered (exec .rcenc (withArgs 3 4 4 (inMode .encoding
      { coderAt 0xC0000000 0x80000000 "" with qlen := 2, qcount := [(0, 1), (1, 4)] } idle)))).map
    (fun t => regs [.low, .range, .qpos, .qlen] t ++ elems .qcount 0 4 t) =
    some [0x40000000, 0x40000000, 1, 2, 0, 1, 5, 0] := by decide +kernel

/-- V40, decoder command 2. -/
theorem test_rcdec : (answered (exec .rcdec (withArgs 0 0 2 (inMode .decoding (coderAt 0 1 "T") idle)))).map
    (regs [.res, .low, .range, .tpos, .iacc, .icnt]) = some [0, 0x77FFFFFF, 0x100000000, 1, 63, 4] := by decide +kernel

/-- V46: `den = 0`. -/
theorem test_rcdec_zero : (answered (exec .rcdec (withArgs 0 0 0 (inMode .decoding (coderAt 0 1 "") idle)))).map flags =
    some [0x14, 0, 5, 0] := by decide +kernel

/-- V41, decoder command 3. -/
theorem test_rcscl : (answered (exec .rcscl (withArgs 1 3 4 (inMode .decoding (coderAt 0xA7FFFFFF 0x100000000 "") idle)))).map
    (regs [.low, .range]) = some [0x67FFFFFF, 0x80000000] := by decide +kernel

/-- V46: `RC_DESYNC`. -/
theorem test_rcscl_desync : (answered (exec .rcscl (withArgs 0 1 4
      (inMode .decoding (coderAt 0xA7FFFFFF 0x100000000 "") idle)))).map flags = some [0x14, 0, 7, 0xA7FFFFFF] := by
  decide +kernel

/-- V41, command 4. -/
theorem test_rcfin : (answered (exec .rcfin (inMode .encoding
      { coderAt 0x40000000 0x40000000 "" with qlen := 2, qcount := [(1, 1)] } idle))).map
    (fun t => regs [.status, .low, .range, .qpos, .qlen, .tlen, .ochars] t ++ elems .text 0 1 t) =
    some [0x1A, 0, 0x100000000, 5, 0, 1, 1, 102] := by decide +kernel

/-- V46. -/
theorem test_rcfin_idle : (answered (exec .rcfin idle)).map flags = some [0x04, 0, 4, 0] := by decide +kernel

/-- V50. -/
theorem test_freq : (answered (exec .freq (withSym [110, 0, 99, 99, 0, 0]))).map
    (fun t => [t.elem .freq 99, t.elem .cum 100]) = some [2, 5] := by decide +kernel

/-- V50. -/
theorem test_hdre : (answered (exec .hdre (inMode .encoding (coderAt 0 0x100000000 "") (withSym [110, 0, 99, 99, 0, 0])))).map
    (fun t => (regs [.low, .range, .tlen, .ochars, .oacc, .ocnt, .qpos, .qlen] t ++ elems .qcount 28 2 t, elems .text 0 40 t)) =
    some ([0x861830C0, 0xC30C30C0, 40, 40, 1, 1, 28, 2, 3, 1], bytes "00003IIIIIG0000000000000000000000000001X") := by
  decide +kernel

/-- V56: the first symbol whose interval is illegal ends `HDRE`. -/
theorem test_hdre_interval : (answered (exec .hdre (inMode .encoding (coderAt 0 0x100000000 "")
      ((withSym [110, 0, 99, 99, 0, 0]).setFreq 5 9)))).map
    (fun t => (flags t ++ regs [.tlen] t, elems .text 0 6 t)) = some ([0x0C, 0, 5, 0, 6], bytes "00003I") := by decide +kernel

/-- V50. -/
theorem test_syme : (answered (exec .syme (inMode .encoding
      { coderAt 0x861830C0 0xC30C30C0 "" with
        tlen := 40, ochars := 40, oacc := 1, ocnt := 1, qpos := 28, qlen := 2, qcount := [(28, 3), (29, 1)] }
      (withSym [110, 0, 99, 99, 0, 0])))).map
    (fun t => regs [.low, .range, .tlen, .ochars, .oacc, .ocnt, .qpos, .qlen] t ++ elems .qcount 32 2 t ++ elems .text 40 1 t) =
    some [0x785C1550, 0x73957238, 41, 41, 3, 3, 32, 2, 2, 2, 97] := by decide +kernel

/-- V51. -/
theorem test_hdrd : (answered (exec .hdrd (inMode .decoding
      (coderAt 0 1 "00003IIIIIG0000000000000000000000000001XaPp") idle))).map
    (fun t => regs [.n, .bidx, .low, .range, .tpos, .iacc, .icnt] t ++
      [t.elem .freq 99, t.elem .cum 110]) = some [6, 3, 0xAD87CF3F, 0xC30C30C0, 43, 63, 5, 2, 5] := by decide +kernel

/-- V55: counts that do not sum to the length. -/
theorem test_hdrd_corrupt : (answered (exec .hdrd (inMode .decoding
      (coderAt 0 1 "00000W00000000000000000000000000000000000000000000000000") idle))).map
    (fun t => flags t ++ regs [.n, .tpos] t) = some [0x14, 0, 9, 2, 1, 53] := by decide +kernel

/-- V51. -/
theorem test_symd : (answered (exec .symd (inMode .decoding
      { coderAt 0xAD87CF3F 0xC30C30C0 "" with tlen := 43, tpos := 43, iacc := 63, icnt := 5 }
      (withSym [110, 0, 99, 99, 0, 0])))).map
    (fun t => (elems .sym 0 6 t, regs [.low, .range, .icnt] t)) =
    some ([110, 0, 99, 99, 0, 0], [0x27A3EAAF, 0x73957238, 3]) := by decide +kernel

/-- V52. -/
theorem test_comp : (answered (exec .comp (withData (bytes "aaaa")))).map
    (fun t => (flags t ++ regs [.tlen, .bidx, .qpos] t, elems .text 0 23 t)) =
    some ([0x1A, 1, 0, 0, 23, 0, 26], bytes "000024pCpCo00000000001R") := by decide +kernel

/-- V56: `TEXT_OVERFLOW` leaves what the pseudocode had done. -/
theorem test_comp_overflow : (answered (exec .comp { withData (bytes "a") with cfgTmax := 4 })).map
    (fun t => flags t ++ regs [.tlen, .ochars, .ocnt, .qlen] t ++ elems .qcount 0 3 t) =
    some [0x0C, 0, 8, 4, 4, 4, 6, 3, 30, 1, 1] := by decide +kernel

/-- V53. -/
theorem test_decomp : (answered (exec .decomp (inMode .idle (coderAt 0 0 "000023CpCpC000000000000000000006p") idle))).map
    (fun t => (regs [.status, .n, .bidx, .step, .low, .range, .iacc, .icnt] t, elems .data 0 4 t)) =
    some ([0x1A, 4, 0, 1, 0x39D4923F, 0x51ABB360, 63, 3], bytes "abab") := by decide +kernel

/-- V55: the empty text. -/
theorem test_decomp_empty : (answered (exec .decomp idle)).map (fun t => flags t ++ regs [.n, .low, .range] t) =
    some [0x14, 0, 2, 0x7FFFFFFE, 0, 2, 3] := by decide +kernel

/-- V61. -/
theorem test_illegal_word : (answered (step { idle with queue := [.wr 0x00 0x80000040] })).map
    (fun t => flags t ++ regs [.cmd] t) = some [0x04, 0, 1, 0x80000040, 0x80000040] := by decide +kernel

/-- V62: a word other than `RESET`'s is ignored under a fault. -/
theorem test_ignored_word : (answered (step { idle.takeFault .rcDesync 0xA7FFFFFF with queue := [.wr 0x00 0x101] })).map
    (fun t => flags t ++ regs [.cmd] t) = some [0x04, 0, 7, 0xA7FFFFFF, 0x101] := by decide +kernel

/-- R82, R83: the word placed by `withFetchWord` is the one the next step runs. -/
theorem test_withFetchWord : (answered (step (State.reset.withFetchWord 32 0x20))).map (regs [.cmd, .status, .cmdcnt]) =
    some [0x20, 0x0A, 1] := by decide +kernel

/-- R236: host reads and writes. -/
theorem test_host_write : (answered (step { idle with queue := [.wrb 3 2 [0x66, 0x67]] })).map
    (fun t => (t.holds .text 1, t.holds .text 2, t.holds .text 3)) = some (none, some 0x66, some 0x67) := by decide +kernel

/-- U9: a write to a read-only register is no step. -/
theorem test_readOnly_register : answered (step { idle with queue := [.wr 0x09 5] }) = none := by decide +kernel

/-- Assumption 4: the reset memory has its canonical form. -/
theorem test_reset_memory_canonical : State.reset.memWf = true := by decide +kernel

/-! ## Witnesses: for each obligation with hypotheses, a state and operands that meet them together -/

theorem next_and {o : Host.Outcome State Fault Refusal} {P : State → Bool} (h : (answered o).any P = true) :
    ∃ t, o = .next t ∧ P t = true := by
  cases o with
  | next t => exact ⟨t, rfl, by simpa [answered] using h⟩
  | fault _ => simp [answered] at h
  | refused _ => simp [answered] at h

theorem ok_and {σ α : Type} {r : Run σ α} {P : α → Bool} (h : (finished r).any P = true) :
    ∃ a, r = .ok a ∧ P a = true := by
  cases r with
  | ok a => exact ⟨a, rfl, by simpa [finished] using h⟩
  | error _ => simp [finished] at h

/-- A run that ended in a fault. -/
def faulting {σ α : Type} (r : Run σ α) : Bool :=
  match r with
  | .error (.raised _ _ _) => true
  | .ok _ | .error (.stuck _) | .error (.refused _) => false

theorem raised_of_faulting {σ α : Type} {r : Run σ α} (h : faulting r = true) :
    ∃ code info s, r = .error (.raised code info s) := by
  rcases r with e | a
  · cases e with
    | raised code info s => exact ⟨code, info, s, rfl⟩
    | stuck _ => simp [faulting] at h
    | refused _ => simp [faulting] at h
  · simp [faulting] at h

/-- The symbols of `"banana"` (V50). -/
def syms : State := withSym [110, 0, 99, 99, 0, 0]

/-- An encoder just constructed, over the symbols of `"banana"`. -/
def encoder : State := inMode .encoding (coderAt 0 0x100000000 "") syms

/-- An encoder whose window reaches beyond `NORM`, a carry pending: one 0-bit in the queue. -/
def carrying : Coder := { coderAt 0x80000000 0x80000001 "" with qlen := 1, qcount := [(0, 1)] }

/-- A decoder just constructed over the text `"T"` (V40). -/
def decoder : State := inMode .decoding (coderAt 0 1 "T") idle

/-- A machine with five symbols 0 and tables the host loaded itself (R234). -/
def loaded (freq cum : List Nat) : State :=
  { idle with
    n := 5, bidx := 4,
    bufs := { Buffers.unwritten with
      sym := storeFrom .sym 0 [0, 0, 0, 0, 0] [], freq := storeFrom .freq 0 freq [], cum := storeFrom .cum 0 cum [] } }

theorem loaded_cum (freq cum : List Nat) (c : Nat) (h : c < cum.length) :
    (loaded freq cum).elem .cum c = (reg64 (BitVec.ofNat 32 (cum.getD c 0)).toNat).toNat := by
  have hp := peek_storeFrom (w := 32) .cum 0 c cum [] rfl h
  rw [Nat.zero_add] at hp
  show (reg64 (fetch .cum 0 (storeFrom .cum 0 cum []) c).toNat).toNat = _
  rw [fetch, hp, Option.getD_some]

theorem loaded_freq (freq cum : List Nat) (c : Nat) (h : c < freq.length) :
    (loaded freq cum).elem .freq c = (reg64 (BitVec.ofNat 32 (freq.getD c 0)).toNat).toNat := by
  have hp := peek_storeFrom (w := 32) .freq 0 c freq [] rfl h
  rw [Nat.zero_add] at hp
  show (reg64 (fetch .freq 0 (storeFrom .freq 0 freq []) c).toNat).toNat = _
  rw [fetch, hp, Option.getD_some]

/-- `FREQ` all zeros, `CUM = [0, 5, 5, ...]`. -/
def tables : State := loaded (List.replicate 256 0) (0 :: List.replicate 256 5)

theorem tables_cum (c : Nat) (h : c < 257) : tables.elem .cum c = if c = 0 then 0 else 5 := by
  rw [tables, loaded_cum _ _ _ (by rwa [List.length_cons, List.length_replicate])]
  cases c with
  | zero => rfl
  | succ c =>
    rw [List.getD_cons_succ, List.getD_replicate _ (by omega)]
    rfl

theorem tables_freq (c : Nat) (h : c < 256) : tables.elem .freq c = 0 := by
  rw [tables, loaded_freq _ _ _ (by rwa [List.length_replicate]), List.getD_replicate _ h]
  rfl

theorem tables_cum_le (c : Nat) (h : c < 256) : tables.elem .cum c ≤ tables.elem .cum (c + 1) := by
  rw [tables_cum c (by omega), tables_cum (c + 1) (by omega)]
  split <;> simp

theorem tables_sym (i : Nat) (h : i < 5) : tables.elem .sym i = 0 := by
  have : ∀ i < 5, tables.elem .sym i = 0 := by decide +kernel
  exact this i h

/-- An encoder just constructed, over those tables. -/
def tablesEncoder : State := inMode .encoding (coderAt 0 0x100000000 "") tables

/-- A machine under a fault, with an action waiting. -/
def faultedWith (a : HostAction) : State := { idle.takeFault .rcDesync 7 with queue := [a] }

theorem witness_DecodeAndEncodeAgree : Instr.comp.wellFormed = true ∧ (∃ i, decode 0x41 = .ok i) ∧
    CommandWord.reservedClear 0x100 = false := ⟨by decide, ⟨.decomp, by decide⟩, by decide⟩

theorem witness_StepRunsTheDecodedCommand : ({ idle with queue := [.wr 0x00 0xFFFFFFFF00000010] } : State).status.busy = false ∧
    ({ idle with queue := [.wr 0x00 0xFFFFFFFF00000010] } : State).queue = .wr 0x00 0xFFFFFFFF00000010 :: [] ∧
    decode (BitVec.ofNat 32 (0xFFFFFFFF00000010 : Reg64).toNat) = .ok .sort := by decide

theorem witness_IllegalWordTakesIllegalCmd : ({ idle with queue := [.wr 0x00 0x42] } : State).status.busy = false ∧
    ({ idle with queue := [.wr 0x00 0x42] } : State).good ∧
    ({ idle with queue := [.wr 0x00 0x42] } : State).queue = .wr 0x00 0x42 :: [] ∧
    decode (BitVec.ofNat 32 (0x42 : Reg64).toNat) = .error .unassignedOpcode ∧
    decode (BitVec.ofNat 32 (0x100 : Reg64).toNat) = .error .reservedBits := by decide

theorem witness_FaultIsStickyUntilReset : (faultedWith (.wr 0x00 0x101)).status.faulted = true ∧
    (faultedWith (.wr 0x00 0x101)).status.busy = false ∧ (0x101 : Reg64).toNat % 2 ^ 32 ≠ 1 ∧
    (∃ t, step (faultedWith (.wr 0x00 0x101)) = .next t) ∧ ∃ t, step (faultedWith (.wr 0x00 1)) = .next t :=
  ⟨by decide, by decide, by decide, next_of_answered (by decide +kernel), next_of_answered (by decide +kernel)⟩

theorem witness_CommandCompletesOrTakesOneFault : idle.good ∧ (∃ t, exec .nop idle = .next t ∧ completedFrom idle t) ∧
    ∃ t, exec .rcfin idle = .next t ∧ faultedFrom idle t .rcMode 0 :=
  ⟨by decide, ⟨_, rfl, by decide⟩, ⟨_, rfl, by decide⟩⟩

theorem witness_NopOnlyCompletes : idle.good ∧ (faultedWith (.rd 0)).status.faulted = true := by decide

theorem witness_HardwareResetState : (2 ^ 31 - 2 : Nat) < 2 ^ 64 ∧ (2 ^ 64 - 1 : Nat) < 2 ^ 64 := by decide

theorem witness_HostReadsReturnTheValueAndChangeNothing : idle.status.busy = false ∧ regOfNumber 0x26 = some .cfgLenden ∧
    spaceOfNumber 11 = some .qcount ∧ 127 + 1 ≤ spaceCount idle.cfgNmax.toNat idle.cfgTmax.toNat .qcount := by decide

theorem witness_HostWritesReachOnlyTheirTarget : idle.status.busy = false ∧ regOfNumber 0x0A = some .tlen ∧ (Reg.tlen ≠ .cmd) ∧
    regHostWrites .tlen = true ∧ regOfNumber 0x0B = some .tpos ∧ (Reg.tpos ≠ .cmd) ∧ regHostWrites .tpos = false ∧ spaceOfNumber 9 = some .cum ∧ spaceHostWrites .cum = true ∧
    256 + [(0xFFFFFFFF : Reg64)].length ≤ spaceCount idle.cfgNmax.toNat idle.cfgTmax.toNat .cum ∧
    ∀ v ∈ [(0xFFFFFFFF : Reg64)], v.toNat < 2 ^ spaceWidth .cum :=
  ⟨by decide, by decide, by decide, by decide, by decide, by decide, by decide, by decide, by decide, by decide,
    List.forall_mem_singleton.mpr (by decide +kernel)⟩

theorem witness_HostActionRefusedExactlyWhenIllFormed : idle.status.busy = false ∧
    (HostAction.rdb 6 16 1).wellFormed idle.cfgNmax.toNat idle.cfgTmax.toNat = true ∧
    (HostAction.rdb 6 17 1).wellFormed idle.cfgNmax.toNat idle.cfgTmax.toNat = false ∧
    (∀ v, HostAction.rdb 6 17 1 ≠ .wr 0x00 v) ∧ (∀ v, HostAction.rdb 6 16 1 ≠ .wr 0x00 v) ∧
    idle.startCommand.status.busy = true ∧ HostAction.rd 0x02 ≠ .rd 0x01 :=
  ⟨by decide, by decide, by decide, nofun, nofun, by decide, by decide⟩

theorem witness_CommandsChangeOnlyTheirResultRegisters : (∃ t, exec .rcei idle = .next t) ∧ mayWriteReg .rcei .n = false ∧
    commandRegs .n = false := ⟨⟨_, rfl⟩, by decide, by decide⟩

theorem witness_CommandsWriteOnlyTheirSpaces : (∃ t, exec .mtfe (withXf (bytes "nnbaaa") 0) = .next t) ∧
    mayWrite .mtfe .xf = false := ⟨next_of_answered (by decide +kernel), by decide⟩

theorem witness_CommandsKeepElementsBeyondTheirRange : (∃ t, exec .sort (withData (bytes "ab")) = .next t ∧
    writtenBelow .sort (withData (bytes "ab")) t .group ≤ 3) ∧
    ∃ t, exec .bwtf (withData []) = .next t ∧ writtenBelow .bwtf (withData []) t .group ≤ 0 :=
  ⟨(next_and (P := fun t => decide (writtenBelow .sort (withData (bytes "ab")) t .group ≤ 3)) (by decide +kernel)).imp
    fun _ h => ⟨h.1, of_decide_eq_true h.2⟩,
    (next_and (P := fun t => decide (writtenBelow .bwtf (withData []) t .group ≤ 0)) (by decide +kernel)).imp
    fun _ h => ⟨h.1, of_decide_eq_true h.2⟩⟩

theorem witness_EncoderStoresOnlyBetweenOldAndNewTlen :
    (∃ t, exec .rcfin (inMode .encoding (coderAt 0 0x100000000 "") idle) = .next t ∧ 0 < t.coder.tlen.toNat) ∧
    ∃ t, exec .comp (withData []) = .next t ∧ 0 < t.coder.tlen.toNat :=
  ⟨(next_and (P := fun t => decide (0 < t.coder.tlen.toNat)) (by decide +kernel)).imp fun _ h => ⟨h.1, of_decide_eq_true h.2⟩,
    (next_and (P := fun t => decide (0 < t.coder.tlen.toNat)) (by decide +kernel)).imp fun _ h => ⟨h.1, of_decide_eq_true h.2⟩⟩

theorem witness_ModeChangesOnlyAsR25Lists : (∃ t, exec .nop decoder = .next t) ∧ mayChangeMode .nop = false ∧
    ∃ t, exec .rcfin decoder = .next t ∧ t.status.faulted = false := ⟨⟨_, rfl⟩, by decide, ⟨_, rfl, by decide⟩⟩

theorem witness_LengthOrIndexOutsideFaultsAtEntry : ({ encoder with n := 17 } : State).good ∧
    ({ encoder with n := 17 } : State).cfgNmax.toNat < ({ encoder with n := 17 } : State).n.toNat ∧
    ({ encoder with n := 17 } : State).status.rcmode = .encoding ∧ ({ decoder with n := 17 } : State).good ∧
    ({ decoder with n := 17 } : State).cfgNmax.toNat < ({ decoder with n := 17 } : State).n.toNat ∧
    ({ decoder with n := 17 } : State).status.rcmode = .decoding ∧
    ({ idle with n := 16, bidx := 16 } : State).good ∧ 0 < ({ idle with n := 16, bidx := 16 } : State).n.toNat ∧
    ({ idle with n := 16, bidx := 16 } : State).n.toNat ≤ ({ idle with n := 16, bidx := 16 } : State).cfgNmax.toNat ∧
    ({ idle with n := 16, bidx := 16 } : State).n.toNat ≤ ({ idle with n := 16, bidx := 16 } : State).bidx.toNat ∧
    ({ decoder with cfgTmax := 0 } : State).good ∧
    ({ decoder with cfgTmax := 0 } : State).cfgTmax.toNat < ({ decoder with cfgTmax := 0 } : State).coder.tlen.toNat := by
  decide +kernel

theorem witness_WrongModeThenIllegalIntervalFaultsAtEntry : idle.good ∧ idle.status.rcmode ≠ .encoding ∧
    idle.status.rcmode ≠ .decoding ∧ idle.status.rcmode = .idle ∧ encoder.good ∧ encoder.status.rcmode = .encoding ∧
    ¬ ((withArgs 0 1 (2 ^ 31 + 2) encoder).arg2.toNat ≤ 2 ^ 31 + 1) ∧ decoder.good ∧ decoder.status.rcmode = .decoding ∧
    ¬ 1 ≤ (withArgs 0 0 0 decoder).arg2.toNat := by decide +kernel

theorem witness_SortOrdersAllRotations : (withData (bytes "a")).good ∧ (withData (bytes "a")).paramsLegal ∧
    1 ≤ (withData (bytes "a")).n.toNat ∧ (withData (List.range 16)).n.toNat ≤ (withData (List.range 16)).cfgNmax.toNat ∧
    1 ≤ (withData (List.range 16)).n.toNat ∧ (withData (List.range 16)).good ∧ (withData (List.range 16)).paramsLegal := by
  decide +kernel

theorem witness_SortStopsAtTheFirstSufficientDepth : (withData []).good ∧ (withData []).paramsLegal ∧
    (withData []).n.toNat ≤ (withData []).cfgNmax.toNat ∧
    (sortAfter (bytes "banana") 0).proper 6 ∧
    (∀ k < 3, 0 ≤ k → (sortAfter (bytes "banana") 0).group.getD k 0 = 0) ∧
    (sortAfter (bytes "banana") 0).group.getD 3 0 ≠ 0 ∧ (sortAfter (bytes "banana") 0).group.length = 6 + 1 ∧
    (∀ k < 6, 4 ≤ k → (sortAfter (bytes "banana") 0).group.getD k 0 = 4) ∧
    (sortAfter (bytes "banana") 0).group.getD 6 0 ≠ 4 ∧
    1 ≤ (bytes "banana").length ∧ ∀ b ∈ bytes "banana", b < 256 := by
  refine ⟨?_, ?_, ?_, ?_, ?_, ?_, ?_, ?_, ?_, ?_, ?_⟩ <;> decide +kernel

theorem witness_RadixSortAgreesWithInsertionSort : ∀ x ∈ [(299, 298), (0, 7), (43, 3)], x.1 < 300 := by decide

theorem witness_BwtForwardTransforms : (withData (List.range 16)).good ∧ (withData (List.range 16)).paramsLegal ∧
    (withData (List.range 16)).n.toNat ≤ (withData (List.range 16)).cfgNmax.toNat ∧ (withData []).good ∧
    (withData []).paramsLegal ∧ (withData []).n.toNat = 0 := by decide +kernel

theorem witness_BwtInverseWalksTheStableOrder : (withXf (bytes "nnbaaa") 5).good ∧ (withXf (bytes "nnbaaa") 5).paramsLegal ∧
    (withXf (bytes "nnbaaa") 5).n.toNat ≤ (withXf (bytes "nnbaaa") 5).cfgNmax.toNat ∧
    (0 < (withXf (bytes "nnbaaa") 5).n.toNat → (withXf (bytes "nnbaaa") 5).bidx.toNat < (withXf (bytes "nnbaaa") 5).n.toNat) ∧
    (0 < (withXf [] 5).n.toNat → (withXf [] 5).bidx.toNat < (withXf [] 5).n.toNat) := by decide +kernel

theorem witness_BwtInverseRestoresTheInput : (withData (bytes "abab")).good ∧ (withData (bytes "abab")).paramsLegal ∧
    (withData (bytes "abab")).n.toNat ≤ (withData (bytes "abab")).cfgNmax.toNat ∧
    ∃ t, exec .bwtf (withData (bytes "abab")) = .next t ∧ t.good ∧ t.cfgNmax = (withData (bytes "abab")).cfgNmax ∧
      t.n = (withData (bytes "abab")).n := by
  refine ⟨by decide +kernel, by decide +kernel, by decide +kernel, ?_⟩
  obtain ⟨t, h, hP⟩ := next_and (o := exec .bwtf (withData (bytes "abab")))
    (P := fun t => decide (t.good ∧ t.cfgNmax = (withData (bytes "abab")).cfgNmax ∧ t.n = (withData (bytes "abab")).n))
    (by decide +kernel)
  exact ⟨t, h, of_decide_eq_true hP⟩

theorem witness_MtfCodesPlacesInTheRecencyList : (withXf (List.range 16) 0).good ∧
    (withXf (List.range 16) 0).n.toNat ≤ (withXf (List.range 16) 0).cfgNmax.toNat := by decide +kernel

theorem witness_MtfIsInvertibleBothWays : (withXf (bytes "ba") 0).good ∧
    (withXf (bytes "ba") 0).n.toNat ≤ (withXf (bytes "ba") 0).cfgNmax.toNat ∧
    ∃ t, exec .mtfe (withXf (bytes "ba") 0) = .next t ∧ t.good ∧ t.cfgNmax = (withXf (bytes "ba") 0).cfgNmax ∧
      t.n = (withXf (bytes "ba") 0).n := by
  refine ⟨by decide +kernel, by decide +kernel, ?_⟩
  obtain ⟨t, h, hP⟩ := next_and (o := exec .mtfe (withXf (bytes "ba") 0))
    (P := fun t => decide (t.good ∧ t.cfgNmax = (withXf (bytes "ba") 0).cfgNmax ∧ t.n = (withXf (bytes "ba") 0).n))
    (by decide +kernel)
  exact ⟨t, h, of_decide_eq_true hP⟩

theorem witness_EncoderConstruction : decoder.good := by decide +kernel

theorem witness_DecoderConstruction : decoder.good ∧ ({ decoder with cfgTmax := 1 } : State).coder.tlen.toNat ≤
      ({ decoder with cfgTmax := 1 } : State).cfgTmax.toNat ∧
    ({ decoder with cfgTmax := 0 } : State).cfgTmax.toNat < ({ decoder with cfgTmax := 0 } : State).coder.tlen.toNat := by
  decide +kernel

theorem witness_PushBitAppendsOneBit : ({ carrying with qpos := 127, qlen := 127 } : Coder).qpos.toNat < 128 ∧
    ({ carrying with qpos := 127, qlen := 127 } : Coder).qlen.toNat < 128 ∧
    ({ carrying with qpos := 127, qlen := 127 } : Coder).pend.length < 2 ^ 62 := by decide +kernel

theorem witness_CarryAddsOneToThePendingBits : carrying.qpos.toNat < 128 ∧ carrying.qlen.toNat < 128 ∧
    (∀ c ∈ [carrying, { carrying with qlen := 2, qcount := [(0, 1), (1, 4)] }],
      c.qcount.wf (unlisted .qcount 64) = true ∧ c.canCarry) ∧
    ∀ c ∈ [({ carrying with qpos := 1, qcount := [(1, 4)] } : Coder), { carrying with qcount := [] }, { carrying with qlen := 0 }],
      c.qcount.wf (unlisted .qcount 64) = true ∧ ¬ c.canCarry := by decide +kernel

theorem witness_DrainLosesAndReordersNoBit : carrying.qpos.toNat < 128 ∧ carrying.qlen.toNat ≤ 128 ∧ carrying.ocnt.toNat ≤ 5 ∧
    carrying.oacc.toNat < 2 ^ carrying.ocnt.toNat ∧ (∃ c', drain 4096 0 carrying = .ok c') ∧
    ∃ c', drain 4096 2 carrying = .ok c' := ⟨by decide +kernel, by decide +kernel, by decide +kernel, by decide +kernel,
  (ok_and (P := fun _ => true) (by decide +kernel)).imp fun _ h => h.1,
  (ok_and (P := fun _ => true) (by decide +kernel)).imp fun _ h => h.1⟩

theorem witness_OutBitPacksSixBitsToACharacter :
    (∀ c ∈ [({ carrying with ocnt := 5, oacc := 31, ochars := 79 } : Coder), { carrying with ocnt := 5, oacc := 31 }],
      c.ocnt.toNat = 5 ∧ c.oacc.toNat < 2 ^ c.ocnt.toNat ∧ c.tlen.toNat < 1 ∧ c.tlen.toNat + 1 = 1 ∧ c.tlen.toNat + 1 < 2 ∧
        0 ≤ c.tlen.toNat) ∧
    (({ carrying with ocnt := 5, oacc := 31, ochars := 79 } : Coder).ochars + 1).toNat % 80 = 0 ∧
    (({ carrying with ocnt := 5, oacc := 31 } : Coder).ochars + 1).toNat % 80 ≠ 0 ∧
    ({ carrying with ocnt := 4, oacc := 15 } : Coder).ocnt.toNat < 5 ∧
    ({ carrying with ocnt := 4, oacc := 15 } : Coder).oacc.toNat < 2 ^ 4 := by decide +kernel

theorem witness_EncoderNormalises : ({ carrying with range := 0 } : Coder).range = 0 ∧
    ∀ c ∈ [({ carrying with range := 1, qlen := 63 } : Coder), { carrying with range := 0x100000000 }],
      1 ≤ c.range.toNat ∧ c.range.toNat ≤ 2 ^ 32 ∧ c.low.toNat < 2 ^ 32 ∧ c.qpos.toNat < 128 ∧ c.qlen.toNat ≤ 63 ∧
        c.pend.length < 2 ^ 62 := by decide +kernel

theorem witness_ScalingGivesDisjointSubWindows : (2 ^ 31 : Nat) < 2 ^ 31 + 1 ∧ (2 ^ 31 + 1 : Nat) ≤ 2 ^ 32 ∧
    legalInterval (2 ^ 31) (2 ^ 31 + 1) (2 ^ 31 + 1) = true ∧ legalInterval 0 1 1 = true := by decide

theorem witness_EncodeNarrowsTheWindow : (withArgs (2 ^ 31) (2 ^ 31 + 1) (2 ^ 31 + 1) (inMode .encoding carrying idle)).good ∧
    (withArgs (2 ^ 31) (2 ^ 31 + 1) (2 ^ 31 + 1) (inMode .encoding carrying idle)).memWf = true ∧
    idle.paramsLegal ∧ (inMode .encoding carrying idle).status.rcmode = .encoding ∧ carrying.encReady ∧
    legalInterval (withArgs (2 ^ 31) (2 ^ 31 + 1) (2 ^ 31 + 1) (inMode .encoding carrying idle)).arg0.toNat
      (withArgs (2 ^ 31) (2 ^ 31 + 1) (2 ^ 31 + 1) (inMode .encoding carrying idle)).arg1.toNat
      (withArgs (2 ^ 31) (2 ^ 31 + 1) (2 ^ 31 + 1) (inMode .encoding carrying idle)).arg2.toNat = true ∧
    carrying.pend.length < 2 ^ 62 ∧ carrying.tlen.toNat + carrying.pend.length + 40 ≤ idle.cfgTmax.toNat := by decide +kernel

theorem witness_NarrowedWindowLiesInsideTheOldOne : carrying.qcount.wf (unlisted .qcount 64) = true ∧ carrying.qpos.toNat < 128 ∧ carrying.qlen.toNat < 128 ∧
    carrying.low.toNat < 2 ^ 32 ∧ 2 ^ 31 < carrying.range.toNat ∧ carrying.range.toNat ≤ 2 ^ 32 ∧
    2 ^ 32 < carrying.low.toNat + carrying.range.toNat ∧ carrying.canCarry ∧ legalInterval 3 4 4 = true := by decide +kernel

theorem witness_ReadyEncoderNeverTakesAQueueFault : carrying.encReady ∧ encoder.coder.encReady ∧
    carrying.qcount.wf (unlisted .qcount 64) = true ∧ encoder.coder.qcount.wf (unlisted .qcount 64) = true ∧
    carrying.pend.length < 2 ^ 62 ∧ legalInterval 3 4 4 = true ∧ (4096 : Nat) < 2 ^ 64 := by
  refine ⟨?_, ?_, ?_, ?_, ?_, ?_, ?_⟩ <;> decide +kernel

theorem witness_NextBitReadsTheInputStream :
    (∀ c ∈ [decoder.coder, { decoder.coder with icnt := 6, iacc := 63, tpos := 1 }],
      c.icnt.toNat ≤ 6 ∧ c.tlen.toNat ≤ decoder.port.tmax ∧ c.tpos.toNat ≤ c.tlen.toNat) ∧
    ({ decoder.coder with tlen := 4097, tpos := 4096 } : Coder).icnt = 0 ∧
    ({ decoder.coder with tlen := 4097, tpos := 4096 } : Coder).tpos.toNat <
      ({ decoder.coder with tlen := 4097, tpos := 4096 } : Coder).tlen.toNat ∧
    decoder.port.tmax ≤ ({ decoder.coder with tlen := 4097, tpos := 4096 } : Coder).tpos.toNat := by decide +kernel

theorem witness_DecodeReturnsTheValueAtTheCodePoint : (withArgs 0 0 (2 ^ 31 + 1) decoder).good ∧ decoder.paramsLegal ∧
    decoder.status.rcmode = .decoding ∧ decoder.coder.legal .decoding ∧ decoder.cursorsLegal ∧
    legalDenom (withArgs 0 0 (2 ^ 31 + 1) decoder).arg2.toNat = true ∧ legalDenom (withArgs 0 0 1 decoder).arg2.toNat = true := by
  decide +kernel

theorem witness_ScaleSubtractsTheOffsetOrDesyncs : (withArgs 1 3 4 decoder).good ∧ decoder.paramsLegal ∧
    decoder.status.rcmode = .decoding ∧ decoder.coder.legal .decoding ∧ decoder.cursorsLegal ∧
    legalInterval (withArgs 1 3 4 decoder).arg0.toNat (withArgs 1 3 4 decoder).arg1.toNat
      (withArgs 1 3 4 decoder).arg2.toNat = true ∧
    (∃ t, exec .rcscl (withArgs 1 3 4 decoder) = .next t ∧ t.good) ∧
    ∃ t, exec .rcscl (withArgs 0 1 4 decoder) = .next t ∧ t.fault = .rcDesync :=
  ⟨by decide +kernel, by decide +kernel, by decide +kernel, by decide +kernel, by decide +kernel, by decide +kernel,
    (next_and (P := fun t => decide t.good) (by decide +kernel)).imp fun _ h => ⟨h.1, of_decide_eq_true h.2⟩,
    (next_and (P := fun t => decide (t.fault = .rcDesync)) (by decide +kernel)).imp fun _ h => ⟨h.1, of_decide_eq_true h.2⟩⟩

/-- V41: the two intervals whose second forces a carry. -/
theorem witness_DecoderMirrorsTheEncoder : ∃ (c e d0 : Coder) (extra : List (BitVec 6)),
    encodeAll 64 [(1, 3, 4), (3, 4, 4)] { Coder.atReset [] with range := reg64 Config.norm } = .ok c ∧
    finish64 64 c = .ok e ∧ d0.low = 0 ∧ d0.range = 1 ∧ d0.icnt = 0 ∧ d0.tpos = 0 ∧ d0.tlen.toNat ≤ 64 ∧
    textChars { tmax := 64, powerUp := 0 } d0 0 d0.tlen.toNat =
      textChars { tmax := 64, powerUp := 0 } e 0 e.tlen.toNat ++ extra := by
  obtain ⟨c, hc, hP⟩ := ok_and
    (r := encodeAll 64 [(1, 3, 4), (3, 4, 4)] { Coder.atReset [] with range := reg64 Config.norm })
    (P := fun c : Coder => (finished (finish64 64 c)).any fun e : Coder => decide (e.tlen.toNat ≤ 64)) (by decide +kernel)
  obtain ⟨e, he, hl⟩ := ok_and hP
  exact ⟨c, e, { Coder.atReset e.text with range := 1, tlen := e.tlen }, [], hc, he, rfl, rfl, rfl, rfl,
    of_decide_eq_true hl, (List.append_nil _).symm⟩

theorem witness_FinishFlushesTwoBitsAndPads : decoder.good ∧ decoder.status.rcmode = .decoding ∧
    (inMode .finished idle.coder idle).good ∧ (inMode .finished idle.coder idle).status.rcmode = .finished ∧
    (inMode .encoding { carrying with low := 0xC0000001 } idle).good ∧
    (inMode .encoding { carrying with low := 0xC0000001 } idle).memWf = true ∧ idle.paramsLegal ∧
    (inMode .encoding { carrying with low := 0xC0000001 } idle).status.rcmode = .encoding ∧
    ({ carrying with low := 0xC0000001 } : Coder).encReady ∧ carrying.pend.length < 2 ^ 62 ∧
    carrying.tlen.toNat + carrying.pend.length + 60 ≤ idle.cfgTmax.toNat := by
  refine ⟨?_, ?_, ?_, ?_, ?_, ?_, ?_, ?_, ?_, ?_, ?_⟩ <;> decide +kernel

theorem witness_FrequencyTableCountsAndCumulates : syms.good ∧ syms.paramsLegal ∧ syms.n.toNat ≤ syms.cfgNmax.toNat ∧
    idle.good ∧ idle.n.toNat = 0 := by decide +kernel

theorem witness_HeaderAndSymbolsAreEncodedInOrder : encoder.good ∧ encoder.status.rcmode = .encoding ∧
    encoder.n.toNat ≤ encoder.cfgNmax.toNat ∧
    (∃ c, encodeAll encoder.cfgTmax.toNat (symbolIntervals encoder encoder.n.toNat) encoder.coder = .ok c) ∧
    (∃ code info c, encodeAll 4 (symbolIntervals encoder encoder.n.toNat)
      { encoder.coder with range := 1, tlen := 4 } = .error (.raised code info c)) ∧
    (∃ c, encodeAll encoder.cfgTmax.toNat (headerIntervals 0 0 ((List.range 256).map (idle.elem .qcount))) encoder.coder =
      .ok c) ∧
    ∃ code info c, encodeAll encoder.cfgTmax.toNat (headerIntervals 1 1 []) encoder.coder = .error (.raised code info c) :=
  ⟨by decide +kernel, by decide +kernel, by decide +kernel,
    (ok_and (P := fun _ => true) (by decide +kernel)).imp fun _ h => h.1, raised_of_faulting (by decide +kernel),
    (ok_and (P := fun _ => true) (by decide +kernel)).imp fun _ h => h.1, raised_of_faulting (by decide +kernel)⟩

theorem witness_HeaderAndSymbolEncodingComplete : tablesEncoder.good ∧ tablesEncoder.memWf = true ∧ tablesEncoder.paramsLegal ∧
    tablesEncoder.status.rcmode = .encoding ∧ tablesEncoder.n.toNat ≤ tablesEncoder.cfgNmax.toNat ∧
    (0 < tablesEncoder.n.toNat → tablesEncoder.bidx.toNat < tablesEncoder.n.toNat) ∧
    ((List.range 256).map (tablesEncoder.elem .freq)).sum ≤ tablesEncoder.n.toNat ∧ tablesEncoder.coder.encReady ∧
    tablesEncoder.coder.pend.length < 2 ^ 62 ∧
    tablesEncoder.coder.tlen.toNat + tablesEncoder.coder.pend.length + 1600 ≤ tablesEncoder.cfgTmax.toNat ∧
    (∀ i < tablesEncoder.n.toNat,
      tablesEncoder.elem .cum (tablesEncoder.elem .sym i) < tablesEncoder.elem .cum (tablesEncoder.elem .sym i + 1) ∧
      tablesEncoder.elem .cum (tablesEncoder.elem .sym i + 1) ≤ tablesEncoder.n.toNat) ∧
    tablesEncoder.coder.tlen.toNat + tablesEncoder.coder.pend.length + 6 * (tablesEncoder.n.toNat + 10) ≤
      tablesEncoder.cfgTmax.toNat := by
  refine ⟨by decide +kernel, by decide +kernel, by decide +kernel, by decide +kernel, by decide +kernel, by decide +kernel, ?_,
    by decide +kernel, by decide +kernel, by decide +kernel, ?_, by decide +kernel⟩
  · have h0 : ((List.range 256).map (tablesEncoder.elem .freq)).sum = 0 := by
      refine List.sum_eq_zero fun x hx => ?_
      obtain ⟨c, hc, rfl⟩ := List.mem_map.mp hx
      exact tables_freq c (List.mem_range.mp hc)
    rw [h0]
    exact Nat.zero_le _
  · intro i hi
    have hs : tablesEncoder.elem .sym i = 0 := tables_sym i hi
    have h0 : tablesEncoder.elem .cum 0 = 0 := tables_cum 0 (by decide)
    have h1 : tablesEncoder.elem .cum (0 + 1) = 5 := tables_cum 1 (by decide)
    rw [hs, h0, h1]
    exact ⟨by decide, by decide +kernel⟩

theorem witness_HeaderDecodingOutcomes : decoder.good ∧ decoder.paramsLegal ∧ decoder.status.rcmode = .decoding ∧
    decoder.coder.legal .decoding ∧ decoder.cursorsLegal := by decide +kernel

/-- The header of the empty input. -/
theorem witness_HeaderDecodingReadsWhatTheEncoderWrote : ∃ (s : State) (c e : Coder),
    s.good ∧ s.paramsLegal ∧ s.status.rcmode = .decoding ∧ s.coder.low = 0 ∧ s.coder.range = 1 ∧ s.coder.icnt = 0 ∧
    s.coder.tpos = 0 ∧ s.coder.tlen.toNat ≤ s.cfgTmax.toNat ∧ 0 ≤ s.cfgNmax.toNat ∧
    (List.replicate 256 0).length = 256 ∧ (List.replicate 256 0).sum = 0 ∧
    encodeAll s.cfgTmax.toNat (headerIntervals 0 0 (List.replicate 256 0) ++ [])
      { Coder.atReset [] with range := reg64 Config.norm } = .ok c ∧
    finish64 s.cfgTmax.toNat c = .ok e ∧
    textChars s.port s.coder 0 s.coder.tlen.toNat = textChars s.port e 0 e.tlen.toNat ++ [] := by
  obtain ⟨c, hc, hP⟩ := ok_and
    (r := encodeAll 4096 (headerIntervals 0 0 (List.replicate 256 0) ++ [])
      { Coder.atReset [] with range := reg64 Config.norm })
    (P := fun c : Coder => (finished (finish64 4096 c)).any fun e : Coder => decide (e.tlen.toNat ≤ 4096)) (by decide +kernel)
  obtain ⟨e, he, hl⟩ := ok_and hP
  exact ⟨inMode .decoding { Coder.atReset e.text with range := 1, tlen := e.tlen } idle, c, e, rfl,
    (by decide : idle.paramsLegal), rfl, rfl,
    rfl, rfl, rfl, of_decide_eq_true hl, Nat.zero_le _, by decide +kernel, by decide +kernel, hc, he, (List.append_nil _).symm⟩

theorem witness_SymbolDecodingCompletes : (inMode .decoding decoder.coder tables).good ∧
    (inMode .decoding decoder.coder tables).paramsLegal ∧ (inMode .decoding decoder.coder tables).status.rcmode = .decoding ∧
    (inMode .decoding decoder.coder tables).coder.legal .decoding ∧ (inMode .decoding decoder.coder tables).cursorsLegal ∧
    (inMode .decoding decoder.coder tables).n.toNat ≤ (inMode .decoding decoder.coder tables).cfgNmax.toNat ∧
    (inMode .decoding decoder.coder tables).cumConsistent (inMode .decoding decoder.coder tables).n.toNat ∧
    ∃ t, exec .symd (inMode .decoding decoder.coder (loaded [] (List.replicate 257 0))) = .next t ∧ t.status.faulted = true :=
  ⟨by decide +kernel, by decide +kernel, by decide +kernel, by decide +kernel, by decide +kernel, by decide +kernel,
    ⟨tables_cum 0 (by decide), tables_cum 256 (by decide), tables_cum_le⟩,
    next_and (P := fun t => t.status.faulted) (by decide +kernel)⟩

theorem witness_LookupFindsTheLargestSymbol : tables.elem .cum 0 = 0 ∧
    (∀ c < 256, tables.elem .cum c ≤ tables.elem .cum (c + 1)) ∧ 4 < tables.elem .cum 256 :=
  ⟨tables_cum 0 (by decide), tables_cum_le, by rw [tables_cum 256 (by decide)]; decide⟩

theorem witness_CompositesAreTheirStages : (withData []).good ∧ (∃ t, exec .comp (withData []) = .next t ∧ t.good) ∧
    (∃ u, issued (compStages.take 1) { idle with n := 17 } = .next u ∧ u.status.faulted = true) ∧
    (∃ u, issued (decompStages.take 2) idle = .next u ∧ u.status.faulted = true) ∧
    ∃ t, exec .decomp (inMode .idle (coderAt 0 0 "000007") idle) = .next t ∧ t.good :=
  ⟨by decide +kernel,
    (next_and (P := fun t => decide t.good) (by decide +kernel)).imp fun _ h => ⟨h.1, of_decide_eq_true h.2⟩,
    next_and (P := fun t => t.status.faulted) (by decide +kernel),
    next_and (P := fun t => t.status.faulted) (by decide +kernel),
    (next_and (P := fun t => decide t.good) (by decide +kernel)).imp fun _ h => ⟨h.1, of_decide_eq_true h.2⟩⟩

theorem witness_CompressOutcomes : (withData (bytes "a")).good ∧ (withData (bytes "a")).paramsLegal ∧
    (withData (bytes "a")).n.toNat ≤ (withData (bytes "a")).cfgNmax.toNat ∧
    6 * ((withData (bytes "a")).n.toNat + 260) ≤ (withData (bytes "a")).cfgTmax.toNat ∧
    ({ idle with n := 17 } : State).cfgNmax.toNat < ({ idle with n := 17 } : State).n.toNat := by decide +kernel

theorem witness_EmptyInputHasTheSixByteText : ({ idle with cfgTmax := 6 } : State).good ∧ idle.n = 0 ∧
    6 ≤ ({ idle with cfgTmax := 6 } : State).cfgTmax.toNat ∧ (coderAt 0 1 "000007").tlen = 6 ∧
    (inMode .decoding (coderAt 0 1 "000007") idle).good ∧
    (List.range 6).map ((inMode .decoding (coderAt 0 1 "000007") idle).elem .text) = emptyText := by decide +kernel

theorem witness_DecompressOutcomes : decoder.good ∧ decoder.paramsLegal ∧
    ({ decoder with coder := { decoder.coder with tlen := 4097 } } : State).cfgTmax.toNat <
      ({ decoder with coder := { decoder.coder with tlen := 4097 } } : State).coder.tlen.toNat ∧
    decoder.coder.tlen.toNat ≤ ({ decoder with cfgTmax := 1 } : State).cfgTmax.toNat ∧
    ({ decoder with cfgTmax := 1 } : State).paramsLegal := by decide +kernel

/-- The text of `"a"` (V52) as a host may edit it (R234): bytes outside the alphabet inserted, a character appended. -/
def edited : State := inMode .idle (coderAt 0 0 "00000W00 000000000000-09T") idle

theorem witness_DecompressRestoresWhatCompressRead : (withData (bytes "a")).good ∧ (withData (bytes "a")).paramsLegal ∧
    ∃ t : State, exec .comp (withData (bytes "a")) = .next t ∧ t.good ∧ edited.good ∧
      edited.cfgNmax = (withData (bytes "a")).cfgNmax ∧ edited.cfgTmax = (withData (bytes "a")).cfgTmax ∧
      edited.coder.tlen.toNat ≤ edited.cfgTmax.toNat ∧
      textChars edited.port edited.coder 0 edited.coder.tlen.toNat =
        textChars t.port t.coder 0 t.coder.tlen.toNat ++ [29] := by
  refine ⟨by decide +kernel, by decide +kernel, ?_⟩
  obtain ⟨t, h, hP⟩ := next_and (o := exec .comp (withData (bytes "a")))
    (P := fun t => decide (t.good ∧ textChars edited.port edited.coder 0 edited.coder.tlen.toNat =
      textChars t.port t.coder 0 t.coder.tlen.toNat ++ [29])) (by decide +kernel)
  obtain ⟨h1, h2⟩ := of_decide_eq_true hP
  exact ⟨t, h, h1, by decide +kernel, by decide +kernel, by decide +kernel, by decide +kernel, h2⟩

theorem witness_StepKeepsMemoryCanonicalAndInside : (withData (bytes "ab")).memWf = true ∧
    (withData (bytes "ab")).memWithin = true ∧ (withData (bytes "ab")).regsLegal ∧
    ∃ t, step ((withData (bytes "ab")).withFetchWord 32 0x10) = .next t :=
  ⟨by decide +kernel, by decide +kernel, by decide +kernel, next_of_answered (by decide +kernel)⟩

theorem witness_StepKeepsRegistersLegal : encoder.regsLegal ∧ decoder.regsLegal ∧ encoder.cursorsLegal ∧
    encoder.memWf = true ∧ decoder.memWf = true ∧
    (∃ t, step (encoder.withFetchWord 32 0x25) = .next t) ∧ ∃ t, exec .rcfin encoder = .next t :=
  ⟨by decide +kernel, by decide +kernel, by decide +kernel, by decide +kernel, by decide +kernel,
    next_of_answered (by decide +kernel), next_of_answered (by decide +kernel)⟩

theorem witness_ResetMeetsTheInvariants : (0 : Nat) ≤ 2 ^ 31 - 2 ∧ (1 : Nat) ≤ 1 ∧ (1 : Nat) < 2 ^ 64 ∧
    (1 : Nat) ≤ 2 ^ 64 - 1 ∧ (2 ^ 64 - 1 : Nat) < 2 ^ 64 := by decide

theorem witness_EveryCommandAnswers : encoder.regsLegal ∧ (encoder.status.rcmode = .decoding → encoder.cursorsLegal) ∧
    decoder.regsLegal ∧ decoder.cursorsLegal := by
  refine ⟨?_, ?_, ?_, ?_⟩ <;> decide +kernel

end Sys2Proof.Tests
end

section
/-! PROOFS. How a run of pseudocode may end, with separate conditions for its last line and for a fault; the pseudocode of every
command, and what `exec` can answer in terms of it. -/

namespace Sys2Proof.Machine

variable {σ α β : Type}

/-! ### The two ends of a run -/

/-- A run ends within bounds: `ok` holds of what its last line yields, `bad` of the code and the state of a fault (R10, R252). -/
def Run.ends (ok : α → Prop) (bad : FaultCode → σ → Prop) : Run σ α → Prop
  | .ok a => ok a
  | .error (.raised code _ s) => bad code s
  | .error (.stuck _) => True
  | .error (.refused _) => True

variable {ok ok' : α → Prop} {bad bad' : FaultCode → σ → Prop}

theorem Run.leaves_iff_ends (state : α → σ) (P : σ → Prop) (x : Run σ α) :
    Run.leaves state P x ↔ Run.ends (fun a => P (state a)) (fun _ => P) x := by
  rcases x with e | a
  · cases e <;> rfl
  · rfl

theorem Run.ends_mono {x : Run σ α} (hx : Run.ends ok bad x) (hok : ∀ a, ok a → ok' a)
    (hbad : ∀ code s, bad code s → bad' code s) : Run.ends ok' bad' x := by
  rcases x with e | a
  · cases e with
    | raised code info s => exact hbad code s hx
    | stuck => exact trivial
    | refused => exact trivial
  · exact hok a hx

theorem Run.ends_and {x : Run σ α} (hx : Run.ends ok bad x) (hx' : Run.ends ok' bad' x) :
    Run.ends (fun a => ok a ∧ ok' a) (fun code s => bad code s ∧ bad' code s) x := by
  rcases x with e | a
  · cases e with
    | raised code info s => exact ⟨hx, hx'⟩
    | stuck => exact trivial
    | refused => exact trivial
  · exact ⟨hx, hx'⟩

/-- The ends of a run together with a frame that holds at both of them. -/
theorem Run.ends_and_leaves {P : σ → Prop} {ok : σ → Prop} {x : Run σ σ} (hx : Run.ends ok bad x)
    (hP : Run.leaves id P x) : Run.ends (fun a => ok a ∧ P a) bad x := by
  rcases x with e | a
  · cases e <;> exact hx
  · exact ⟨hx, hP⟩

/-- A run in two parts: the second starts where the first ended, and both may fault. -/
theorem Run.ends_bind {x : Run σ α} {f : α → Run σ β} {okb : β → Prop} (hx : Run.ends ok bad x)
    (hf : ∀ a, ok a → Run.ends okb bad (f a)) : Run.ends okb bad (x >>= f) := by
  rcases x with e | a
  · cases e <;> exact hx
  · exact hf a hx

theorem Run.ends_of_ok {x : Run σ α} {a : α} (hx : Run.ends ok bad x) (h : x = .ok a) : ok a := by subst h; exact hx

theorem checkLength_ends {P : Prop} {bad : FaultCode → State → Prop} (s : State) (n : Nat)
    (hok : n ≤ s.cfgNmax.toNat → P) (hbad : bad .badLength s) : Run.ends (fun _ => P) bad (checkLength s n) := by
  unfold checkLength
  split
  · exact hbad
  · exact hok (by omega)

theorem checkMode_ends {P : Prop} {bad : FaultCode → State → Prop} (s : State) (m : RcMode)
    (hok : s.status.rcmode = m → P) (hbad : bad .rcMode s) : Run.ends (fun _ => P) bad (checkMode s m) := by
  unfold checkMode
  split
  · exact hok ‹_›
  · exact hbad

/-- A stretch of coder pseudocode inside the machine ends where it ends on the coder, the rest of the state unchanged. -/
theorem onCoder_ends {P : State → Prop} {Q : FaultCode → State → Prop} {s : State} {r : Run Coder Coder}
    (hr : Run.ends (fun c => P (s.withCoder c)) (fun code c => Q code (s.withCoder c)) r) : Run.ends P Q (onCoder s r) := by
  rcases r with e | c
  · cases e <;> exact hr
  · exact hr

theorem onCoderValue_ends {P : α × State → Prop} {Q : FaultCode → State → Prop} {s : State} {r : Run Coder (α × Coder)}
    (hr : Run.ends (fun p => P (p.1, s.withCoder p.2)) (fun code c => Q code (s.withCoder c)) r) :
    Run.ends P Q (onCoderValue s r) := by
  rcases r with e | ⟨a, c⟩
  · cases e <;> exact hr
  · exact hr

/-! ### The pseudocode of every command (R81) -/

/-- The pseudocode of a command, run between R82 steps 3 and 6. `RESET` stands outside the acceptance sequence (R231); its row is
its effect. -/
def commandBody : Instr → State → Run State State
  | .nop => .ok
  | .reset => fun s => .ok s.softReset
  | .sort => sortBody
  | .bwtf => bwtfBody
  | .bwti => bwtiBody
  | .mtfe => mtfeBody
  | .mtfd => mtfdBody
  | .rcei => rceiBody
  | .rcdi => rcdiBody
  | .rcenc => rcencBody
  | .rcdec => rcdecBody
  | .rcscl => rcsclBody
  | .rcfin => rcfinBody
  | .freq => freqBody
  | .hdre => hdreBody
  | .syme => symeBody
  | .hdrd => hdrdBody
  | .symd => symdBody
  | .comp => compBody
  | .decomp => decompBody

theorem exec_of_ne_reset (i : Instr) (s : State) (hi : i ≠ .reset) : exec i s = runCommand (commandBody i) s := by
  cases i
  case reset => exact absurd rfl hi
  all_goals rfl

/-- What a command other than `RESET` can answer, given how its pseudocode may end: it is ignored, it completes, or it takes a
fault (R82, R252). -/
theorem exec_next_cases {i : Instr} {s t : State} {P : State → Prop} {Q : FaultCode → State → Prop} (hi : i ≠ .reset)
    (h : exec i s = .next t) (hbody : s.good → Run.ends P Q (commandBody i s.startCommand)) :
    (s.status.faulted = true ∧ t = s) ∨
      (s.good ∧ ∃ u, P u ∧ commandBody i s.startCommand = .ok u ∧ t = u.complete) ∨
      (s.good ∧ ∃ code info u, Q code u ∧ t = u.takeFault code info) := by
  rw [exec_of_ne_reset i s hi, runCommand_next_iff] at h
  rcases h with h | ⟨hg, ⟨u, hu, rfl⟩ | ⟨code, info, u, hu, rfl⟩⟩
  · exact .inl h
  · exact .inr (.inl ⟨hg, u, Run.ends_of_ok (hbody hg) hu, hu, rfl⟩)
  · have hQ := hbody hg
    rw [hu] at hQ
    exact .inr (.inr ⟨hg, code, info, u, hQ, rfl⟩)

end Sys2Proof.Machine
end

section
/-! PROOFS. The loops of the pipeline stages (R202 to R208), once for every property that their parts keep: what each encode,
decode and scale call keeps, the whole stage keeps, up to its first fault. -/

namespace Sys2Proof.Machine

variable {P : State → Prop} {Q : FaultCode → State → Prop}

/-! ### The encoder's stages -/

/-- `P` is kept by every `encode` call (R212), and `Q` holds wherever a fault ends a stage. -/
structure KeptByEncode (P : State → Prop) (Q : FaultCode → State → Prop) : Prop where
  fault : ∀ code s, code ≠ .none → P s → Q code s
  encode : ∀ s lo hi den, P s → Run.ends P Q (encodeInterval s lo hi den)

theorem KeptByEncode.encodeCounts (h : KeptByEncode P Q) (fs : List Nat) (s : State) (remaining : Nat) (hs : P s) :
    Run.ends P Q (encodeCounts s remaining fs) := by
  induction fs generalizing s remaining with
  | nil => exact hs
  | cons f rest ih => exact Run.ends_bind (h.encode s _ _ _ hs) fun t ht => ih t _ ht

theorem KeptByEncode.encodeSymbols (h : KeptByEncode P Q) (n : Nat) (syms : List Nat) (s : State) (hs : P s) :
    Run.ends P Q (encodeSymbols n s syms) := by
  induction syms generalizing s with
  | nil => exact hs
  | cons c rest ih => exact Run.ends_bind (h.encode s _ _ _ hs) fun t ht => ih t ht

theorem KeptByEncode.hdreBody (h : KeptByEncode P Q) (s : State) (hs : P s) : Run.ends P Q (hdreBody s) := by
  refine Run.ends_bind (checkMode_ends s _ (fun _ => trivial) (h.fault _ s (by decide) hs)) fun _ _ => ?_
  refine Run.ends_bind (checkLength_ends s _ (fun _ => trivial) (h.fault _ s (by decide) hs)) fun _ _ => ?_
  refine Run.ends_bind (h.encode s _ _ _ hs) fun t ht => ?_
  dsimp only
  split
  · exact Run.ends_bind (ok := P) ht fun u hu => h.encodeCounts _ u _ hu
  · exact Run.ends_bind (h.encode t _ _ _ ht) fun u hu => h.encodeCounts _ u _ hu

theorem KeptByEncode.symeBody (h : KeptByEncode P Q) (s : State) (hs : P s) : Run.ends P Q (symeBody s) := by
  refine Run.ends_bind (checkMode_ends s _ (fun _ => trivial) (h.fault _ s (by decide) hs)) fun _ _ => ?_
  refine Run.ends_bind (checkLength_ends s _ (fun _ => trivial) (h.fault _ s (by decide) hs)) fun _ _ => ?_
  exact h.encodeSymbols _ _ s hs

/-! ### The decoder's stages -/

/-- `P` is kept by every `decode` and `scale` call (R212), and `Q` holds wherever a fault ends a stage. -/
structure KeptByDecode (P : State → Prop) (Q : FaultCode → State → Prop) : Prop where
  fault : ∀ code s, code ≠ .none → P s → Q code s
  decode : ∀ s den, P s → Run.ends (fun r => P r.2) Q (decodeValueOf s den)
  scale : ∀ s lo hi den, P s → Run.ends P Q (scaleInterval s lo hi den)

/-- `P` is kept by the assignments `HDRD` makes beside its decode calls (R206). -/
structure KeptByHeader (P : State → Prop) : Prop where
  n : ∀ s v, P s → P { s with n := v }
  bidx : ∀ s v, P s → P { s with bidx := v }
  freq : ∀ s c f, c < Config.nsym → P s → P (s.setFreq c f)
  cum : ∀ s, P s → P (buildCum s)

theorem KeptByDecode.decodeValue (h : KeptByDecode P Q) (s : State) (den : Nat) (hs : P s) :
    Run.ends (fun r => P r.2) Q (decodeValue s den) :=
  Run.ends_bind (h.decode s den hs) fun r hr => Run.ends_bind (h.scale r.2 _ _ _ hr) fun _ ht => ht

theorem KeptByDecode.decodeIndex (h : KeptByDecode P Q) (k : KeptByHeader P) (s : State) (n : Nat) (hs : P s) :
    Run.ends P Q (decodeIndex s n) := by
  have h0 : P { s with bidx := 0 } := k.bidx s 0 hs
  unfold Machine.decodeIndex
  dsimp only
  split
  · exact h0
  · exact Run.ends_bind (h.decodeValue _ _ h0) fun r hr => k.bidx r.2 _ hr

theorem KeptByDecode.decodeCounts (h : KeptByDecode P Q) (k : KeptByHeader P) (todo c : Nat) (s : State)
    (remaining : Nat) (hc : c + todo ≤ Config.nsym) (hs : P s) :
    Run.ends (fun r => P r.2) Q (decodeCounts s todo c remaining) := by
  induction todo generalizing c s remaining with
  | zero => exact hs
  | succ todo ih =>
    refine Run.ends_bind (h.decodeValue s _ hs) fun r hr => ?_
    exact ih (c + 1) _ _ (by omega) (k.freq r.2 c _ (by omega) hr)

theorem KeptByDecode.hdrdBody (h : KeptByDecode P Q) (k : KeptByHeader P) (s : State) (hs : P s) :
    Run.ends P Q (hdrdBody s) := by
  refine Run.ends_bind (checkMode_ends s _ (fun _ => trivial) (h.fault _ s (by decide) hs)) fun _ _ => ?_
  refine Run.ends_bind (h.decodeValue s _ hs) fun r hr => ?_
  refine Run.ends_bind (checkLength_ends r.2 r.1 (fun _ => trivial) (h.fault _ r.2 (by decide) hr)) fun _ _ => ?_
  refine Run.ends_bind (h.decodeIndex k _ _ (k.n r.2 _ hr)) fun t ht => ?_
  refine Run.ends_bind (h.decodeCounts k _ 0 t _ (by omega) ht) fun q hq => ?_
  have hcum : P (buildCum q.2) := k.cum q.2 hq
  dsimp only
  split
  · exact hcum
  · exact h.fault _ _ (by decide) hcum

theorem KeptByDecode.decodeSymbols (h : KeptByDecode P Q) (n todo i : Nat) (s : State) (hi : i + todo ≤ n)
    (hsym : ∀ s i c, i < n → P s → P (s.setSym i c)) (hs : P s) : Run.ends P Q (decodeSymbols n s todo i) := by
  induction todo generalizing i s with
  | zero => exact hs
  | succ todo ih =>
    refine Run.ends_bind (h.decode s _ hs) fun r hr => ?_
    refine Run.ends_bind (h.scale r.2 _ _ _ hr) fun t ht => ?_
    exact ih (i + 1) _ (by omega) (hsym t i _ (by omega) ht)

theorem KeptByDecode.symdBody (h : KeptByDecode P Q) (s : State)
    (hsym : ∀ t i c, i < s.n.toNat → P t → P (t.setSym i c)) (hs : P s) : Run.ends P Q (symdBody s) := by
  refine Run.ends_bind (checkMode_ends s _ (fun _ => trivial) (h.fault _ s (by decide) hs)) fun _ _ => ?_
  refine Run.ends_bind (checkLength_ends s _ (fun _ => trivial) (h.fault _ s (by decide) hs)) fun _ _ => ?_
  exact h.decodeSymbols _ _ 0 s (by omega) hsym hs

end Sys2Proof.Machine
end

section
/-! PROOFS. The queue stays in order (R35, R151 to R153, R163): occupied slots, and what pushing, carrying and draining do to
them. -/

namespace Sys2Proof.Machine

/-- A slot of the ring that holds a run (R151). -/
def Coder.occupied (c : Coder) (slot : Nat) : Prop := ∃ j < c.qlen.toNat, ringSlot (c.qpos.toNat + j) = slot

/-- The queue in order: canonical, `QPOS` inside the ring, and every free slot 0 (R35, assumption 4). -/
structure Coder.ringOk (c : Coder) : Prop where
  wf : c.qcount.wf (unlisted .qcount 64) = true
  qpos : c.qpos.toNat < Config.qcap
  clear : ∀ slot < Config.qcap, ¬ c.occupied slot → c.count slot = 0

theorem Coder.slotsClear_iff (c : Coder) : c.slotsClear ↔ ∀ slot < Config.qcap, ¬ c.occupied slot → c.count slot = 0 := by
  simp [Coder.slotsClear, Coder.occupied]

theorem ringSlot_lt (x : Nat) : ringSlot x < Config.qcap := Nat.mod_lt _ (by decide)

theorem Coder.ringOk_congr {c d : Coder} (h : c.ringOk) (hp : d.qpos = c.qpos) (hl : d.qlen = c.qlen)
    (hq : d.qcount = c.qcount) : d.ringOk := by
  obtain ⟨hwf, hpos, hclear⟩ := h
  refine ⟨hq ▸ hwf, hp ▸ hpos, fun slot hs ho => ?_⟩
  simp only [Coder.count, Coder.occupied, hp, hl, hq] at ho ⊢
  exact hclear slot hs ho

/-! ### Slots -/

theorem Coder.count_setCount_other (c : Coder) {slot other : Nat} (v : Nat) (h : other ≠ slot) :
    (c.setCount slot v).count other = c.count other := by
  simp [Coder.count, fetch_store_other _ _ _ _ _ _ h]

theorem Coder.count_setCount_zero (c : Coder) (slot : Nat) (h : c.qcount.wf (unlisted .qcount 64) = true) :
    (c.setCount slot 0).count slot = 0 := by
  simp [Coder.count, fetch_store_same _ _ _ _ _ h, reg64]

theorem Coder.occupied_tail (c : Coder) (h : c.qlen.toNat ≠ 0) : c.occupied c.tail :=
  ⟨c.qlen.toNat - 1, by omega, by rw [Coder.tail, ← Nat.add_sub_assoc (by omega)]⟩

theorem Coder.occupied_prev (c : Coder) (h : 2 ≤ c.qlen.toNat) : c.occupied c.prev :=
  ⟨c.qlen.toNat - 2, by omega, by simp only [Coder.prev, Coder.tail, ringSlot, Config.qcap, Config.qmask]; omega⟩

/-- The coder with one more slot taken into the queue. -/
def Coder.grown (c : Coder) : Coder := { c with qlen := c.qlen + 1 }

theorem Coder.grown_qlen (c : Coder) (h : c.qlen.toNat < 2 ^ 63) : c.grown.qlen.toNat = c.qlen.toNat + 1 := by
  simp only [Coder.grown]
  bv_omega

theorem Coder.occupied.grow {c : Coder} {slot : Nat} (ho : c.occupied slot) (h : c.qlen.toNat < 2 ^ 63) :
    c.grown.occupied slot := by
  obtain ⟨j, hj, hslot⟩ := ho
  exact ⟨j, by rw [c.grown_qlen h]; omega, hslot⟩

theorem Coder.occupied_fresh (c : Coder) (h0 : c.qlen.toNat ≠ 0) (h : c.qlen.toNat < 2 ^ 63) :
    c.grown.occupied c.fresh := by
  refine ⟨c.qlen.toNat, by rw [c.grown_qlen h]; omega, ?_⟩
  simp only [Coder.grown, Coder.fresh, Coder.tail, ringSlot, Config.qcap]
  omega

/-! ### What keeps the queue in order -/

theorem Coder.ringOk.setCount {c : Coder} (h : c.ringOk) {slot : Nat} (v : Nat) (ho : c.occupied slot) :
    (c.setCount slot v).ringOk := by
  refine ⟨store_wf _ _ _ _ h.wf, h.qpos, fun other hlt hfree => ?_⟩
  have hne : other ≠ slot := fun he => hfree (he ▸ ho)
  rw [Coder.count_setCount_other c v hne]
  exact h.clear other hlt hfree

theorem Coder.ringOk.grow {c : Coder} (h : c.ringOk) (hlen : c.qlen.toNat < 2 ^ 63) :
    c.grown.ringOk :=
  ⟨h.wf, h.qpos, fun slot hlt hfree => h.clear slot hlt fun ho => hfree (ho.grow hlen)⟩

/-- The first run put into an empty queue. -/
theorem Coder.ringOk.first {c : Coder} (h : c.ringOk) (h0 : c.qlen.toNat = 0) {slot : Nat} (hslot : slot < Config.qcap)
    (v : Nat) : (({ c with qpos := reg64 slot, qlen := 1 } : Coder).setCount slot v).ringOk := by
  have hnum : (reg64 slot).toNat = slot := reg64_toNat slot (by simp only [Config.qcap] at hslot; omega)
  refine ⟨store_wf _ _ _ _ h.wf, by simpa [hnum] using hslot, fun other hlt hfree => ?_⟩
  have hne : other ≠ slot := fun he => hfree ⟨0, by simp, by simp [hnum, he, ringSlot, Nat.mod_eq_of_lt hslot]⟩
  rw [Coder.count_setCount_other _ v hne]
  exact h.clear other hlt fun ⟨j, hj, _⟩ => by omega

/-- The oldest run taken off and its slot cleared (R164). -/
theorem Coder.ringOk.pop {c : Coder} (h : c.ringOk) (h0 : c.qlen.toNat ≠ 0) :
    (({ c with qpos := reg64 (ringSlot (c.qpos.toNat + 1)), qlen := c.qlen - 1 } : Coder).setCount c.qpos.toNat 0).ringOk := by
  have hlt := ringSlot_lt (c.qpos.toNat + 1)
  have hnum : (reg64 (ringSlot (c.qpos.toNat + 1))).toNat = ringSlot (c.qpos.toNat + 1) :=
    reg64_toNat _ (by simp only [Config.qcap] at hlt; omega)
  have hlen : (c.qlen - 1).toNat = c.qlen.toNat - 1 := by bv_omega
  refine ⟨store_wf _ _ _ _ h.wf, by simpa [hnum] using hlt, fun slot hs hfree => ?_⟩
  by_cases he : slot = c.qpos.toNat
  · rw [he]
    exact Coder.count_setCount_zero _ _ h.wf
  · rw [Coder.count_setCount_other _ 0 he]
    refine h.clear slot hs fun ⟨j, hj, hslot⟩ => ?_
    have hj0 : j ≠ 0 := by
      rintro rfl
      exact he (by simpa [ringSlot, Nat.mod_eq_of_lt h.qpos] using hslot.symm)
    refine hfree ⟨j - 1, ?_, ?_⟩
    · rw [Coder.setCount_qlen, hlen]
      omega
    · rw [Coder.setCount_qpos, hnum, ← hslot]
      simp only [ringSlot, Config.qcap]
      omega

/-! ### Pushing and carrying -/

/-- Where a coder operation is ended by a fault: a code of R250 other than 0, and `QPOS` inside the ring. -/
def Coder.stopOk (code : FaultCode) (c : Coder) : Prop := code ≠ .none ∧ c.qpos.toNat < Config.qcap

theorem Coder.ringOk.stopOk {c : Coder} (h : c.ringOk) {code : FaultCode} (hcode : code ≠ .none) : c.stopOk code :=
  ⟨hcode, h.qpos⟩

/-- `push_bit` keeps the queue in order and adds at most one slot (R153). -/
theorem pushBit_ends (b : Bool) (c : Coder) (h : c.ringOk) (hlen : c.qlen.toNat < 2 ^ 63) :
    Run.ends (fun d => d.ringOk ∧ d.qlen.toNat ≤ c.qlen.toNat + 1) Coder.stopOk (pushBit b c) := by
  unfold pushBit
  split
  · rename_i h0
    have h0 : c.qlen.toNat = 0 := by simp [h0]
    refine ⟨h.first h0 ?_ 1, by simp [h0]⟩
    split
    · exact h.qpos
    · exact ringSlot_lt _
  · rename_i h0
    have h0 : c.qlen.toNat ≠ 0 := fun hz => h0 (BitVec.eq_of_toNat_eq hz)
    split
    · exact ⟨h.setCount _ (c.occupied_tail h0), by simp⟩
    · split
      · exact h.stopOk (by decide)
      · exact ⟨(h.grow hlen).setCount _ (c.occupied_fresh h0 hlen), (c.grown_qlen hlen).le⟩

/-- `carry` keeps the queue in order and adds at most one slot (R163). -/
theorem carry_ends (c : Coder) (h : c.ringOk) (hlen : c.qlen.toNat < 2 ^ 63) :
    Run.ends (fun d => d.ringOk ∧ d.qlen.toNat ≤ c.qlen.toNat + 1) Coder.stopOk (carry c) := by
  unfold carry
  split
  · exact h.stopOk (by decide)
  · rename_i h0
    have h0 : c.qlen.toNat ≠ 0 := fun hz => h0 (BitVec.eq_of_toNat_eq hz)
    have htail := (c.occupied_tail h0).grow hlen
    have hfresh := c.occupied_fresh h0 hlen
    split
    · split
      · exact h.stopOk (by decide)
      · rename_i hruns
        have hprev := (c.occupied_prev (by omega)).grow hlen
        exact ⟨(((h.grow hlen).setCount _ hprev).setCount _ htail).setCount _ hfresh, (c.grown_qlen hlen).le⟩
    · split
      · exact h.stopOk (by decide)
      · exact ⟨((h.grow hlen).setCount _ htail).setCount _ hfresh, (c.grown_qlen hlen).le⟩

end Sys2Proof.Machine
end

section
/-! PROOFS. The legal values of the coder (R21, R26, R35) taken apart, and that the encoder's operations keep them (R152 to R166). -/

namespace Sys2Proof.Machine

/-- The serialiser holds fewer than six bits (R27, R166). -/
def Coder.serialOk (c : Coder) : Prop := c.ocnt.toNat ≤ 5 ∧ c.oacc.toNat < 2 ^ c.ocnt.toNat

/-- The parser holds one character at most (R27, R169). -/
def Coder.parserOk (c : Coder) : Prop := c.iacc.toNat < 64 ∧ c.icnt.toNat ≤ 6

/-- The window and the fill of the queue and the serialiser, by mode (R26, R35). -/
def Coder.windowOk (c : Coder) : RcMode → Prop
  | .idle => c.range.toNat = 0 ∧ c.qlen.toNat = 0 ∧ c.ocnt.toNat = 0
  | .encoding => c.low.toNat < Config.norm ∧ 1 ≤ c.range.toNat ∧ c.range.toNat ≤ Config.norm ∧ c.qlen.toNat ≤ 2
  | .decoding => c.low.toNat < c.range.toNat ∧ c.range.toNat ≤ Config.norm ∧ c.qlen.toNat = 0 ∧ c.ocnt.toNat = 0
  | .finished => c.qlen.toNat = 0 ∧ c.ocnt.toNat = 0

/-- The coder between commands: its legal values over a canonical `QCOUNT`. -/
structure Coder.sound (mode : RcMode) (c : Coder) : Prop where
  ring : c.ringOk
  serial : c.serialOk
  parser : c.parserOk
  window : c.windowOk mode

theorem Coder.sound_iff (mode : RcMode) (c : Coder) :
    c.sound mode ↔ c.qcount.wf (unlisted .qcount 64) = true ∧ c.legal mode := by
  constructor
  · rintro ⟨⟨hwf, hpos, hclear⟩, ⟨hocnt, hoacc⟩, ⟨hiacc, hicnt⟩, hwin⟩
    refine ⟨hwf, ?_, ?_, ?_, ?_, hpos, c.slotsClear_iff.mpr hclear, hocnt, hoacc, hiacc, hicnt⟩ <;>
      cases mode <;> simp_all [Coder.windowOk]
  · rintro ⟨hwf, henc, hdec, hout, hidle, hpos, hclear, hocnt, hoacc, hiacc, hicnt⟩
    refine ⟨⟨hwf, hpos, c.slotsClear_iff.mp hclear⟩, ⟨hocnt, hoacc⟩, ⟨hiacc, hicnt⟩, ?_⟩
    cases mode <;> simp_all [Coder.windowOk]

theorem Coder.atReset_ringOk (text : Memory 8) : (Coder.atReset text).ringOk :=
  ⟨rfl, by simp [Config.qcap], fun _ _ _ => rfl⟩

/-! ### Normalising and narrowing (R154, R157) -/

/-- The encoder while a command runs: at most `len` slots, the window within `NORM` (R26, R152). -/
structure Coder.encoderOk (len : Nat) (c : Coder) : Prop where
  ring : c.ringOk
  qlen : c.qlen.toNat ≤ len
  low : c.low.toNat < Config.norm
  range : c.range.toNat ≤ Config.norm

theorem encNormTurns_ends (fuel len : Nat) (c : Coder) (h : c.encoderOk len) (hlen : len + fuel < 2 ^ 63)
    (hrange : Config.half < c.range.toNat * 2 ^ fuel) :
    Run.ends (fun d => d.encoderOk (len + fuel) ∧ Config.half < d.range.toNat) Coder.stopOk (encNormTurns fuel c) := by
  induction fuel generalizing c len with
  | zero => exact ⟨h, by simpa using hrange⟩
  | succ fuel ih =>
    unfold encNormTurns
    split
    · rename_i hle
      obtain ⟨hring, hq, hlow, hnorm⟩ := h
      refine Run.ends_bind (Run.ends_and_leaves (pushBit_ends _ c hring (by omega)) (pushBit_queueOnly _ c)) ?_
      rintro d ⟨⟨hdring, hdq⟩, hdlow, hdrange, -⟩
      have hhalf : (reg64 (2 * d.range.toNat)).toNat = 2 * c.range.toNat := by
        rw [hdrange, reg64_toNat]
        simp only [Config.half] at hle
        omega
      have hnext := ih (len + 1)
        { d with low := reg64 (2 * d.low.toNat % Config.norm), range := reg64 (2 * d.range.toNat) } ⟨?_, ?_, ?_, ?_⟩
        (by omega) ?_
      · rwa [Nat.add_assoc, Nat.add_comm 1 fuel] at hnext
      · exact Coder.ringOk_congr hdring rfl rfl rfl
      · show d.qlen.toNat ≤ len + 1
        omega
      · show (reg64 _).toNat < _
        rw [reg64_toNat] <;> simp only [Config.norm] <;> omega
      · show (reg64 _).toNat ≤ _
        simp only [hhalf, Config.half, Config.norm] at *
        omega
      · show _ < (reg64 _).toNat * _
        rw [hhalf]
        calc Config.half < c.range.toNat * 2 ^ (fuel + 1) := hrange
          _ = 2 * c.range.toNat * 2 ^ fuel := by ring
    · rename_i hgt
      exact ⟨⟨h.ring, by have := h.qlen; omega, h.low, h.range⟩, by omega⟩

theorem encNorm_ends (c : Coder) (h : c.encoderOk 2) :
    Run.ends (fun d => d.encoderOk 34 ∧ Config.half < d.range.toNat) Coder.stopOk (encNorm c) := by
  unfold encNorm
  split
  · exact trivial
  · rename_i h0
    have h0 : c.range.toNat ≠ 0 := fun hz => h0 (BitVec.eq_of_toNat_eq hz)
    refine encNormTurns_ends Config.rcBits 2 c h (by decide) ?_
    simp only [Config.half, Config.rcBits]
    omega

/-- Floor scaling keeps a legal sub-interval non-empty and inside the range it is taken from (R160, R161). -/
theorem scaled_lt_scaled (range lo hi den : Nat) (hlo : lo < hi) (hhi : hi ≤ den) (hden : den ≤ range) :
    scaled range lo den < scaled range hi den ∧ scaled range hi den ≤ range := by
  have hpos : 0 < den := by omega
  have hstep : range * lo + den ≤ range * hi := by
    calc range * lo + den ≤ range * lo + range := by omega
      _ = range * (lo + 1) := by ring
      _ ≤ range * hi := Nat.mul_le_mul_left _ hlo
  constructor
  · calc range * lo / den < range * lo / den + 1 := by omega
      _ = (range * lo + den) / den := (Nat.add_div_right _ hpos).symm
      _ ≤ range * hi / den := Nat.div_le_div_right hstep
  · exact Nat.div_le_of_le_mul (by rw [Nat.mul_comm den]; exact Nat.mul_le_mul_left _ hhi)

theorem narrow_ends (len lo hi den : Nat) (c : Coder) (h : c.encoderOk len) (hlen : len < 2 ^ 63)
    (hrange : Config.half < c.range.toNat) (hint : legalInterval lo hi den = true) :
    Run.ends (fun d => d.encoderOk (len + 1) ∧ 1 ≤ d.range.toNat) Coder.stopOk (narrow lo hi den c) := by
  obtain ⟨hring, hq, hlow, hnorm⟩ := h
  obtain ⟨hlo, hhi, hden⟩ := (legalInterval_iff ..).mp hint
  obtain ⟨hlt, hle⟩ := scaled_lt_scaled c.range.toNat lo hi den hlo hhi (by simp only [Config.half] at hrange; omega)
  simp only [Config.norm] at hlow hnorm
  have hsize : (reg64 (scaled c.range.toNat hi den - scaled c.range.toNat lo den)).toNat =
      scaled c.range.toNat hi den - scaled c.range.toNat lo den := reg64_toNat _ (by omega)
  unfold narrow
  dsimp only
  split
  · rename_i hcarry
    have hlow' : (reg64 (c.low.toNat + scaled c.range.toNat lo den - Config.norm)).toNat =
        c.low.toNat + scaled c.range.toNat lo den - Config.norm := reg64_toNat _ (by omega)
    refine Run.ends_mono (Run.ends_and_leaves (carry_ends _ (Coder.ringOk_congr hring rfl rfl rfl)
      (by show c.qlen.toNat < _; omega)) (carry_queueOnly _)) ?_ fun _ _ hs => hs
    rintro d ⟨⟨hdring, hdq⟩, hdlow, hdrange, -⟩
    simp only [Config.norm] at hdlow hcarry hlow'
    have hdq : d.qlen.toNat ≤ c.qlen.toNat + 1 := hdq
    exact ⟨⟨hdring, by omega, by rw [hdlow, hlow']; simp only [Config.norm]; omega,
      by rw [hdrange, hsize]; simp only [Config.norm]; omega⟩, by rw [hdrange, hsize]; omega⟩
  · rename_i hcarry
    refine ⟨⟨Coder.ringOk_congr hring rfl rfl rfl, ?_, ?_, ?_⟩, ?_⟩
    · show c.qlen.toNat ≤ _
      omega
    · show (reg64 _).toNat < _
      rw [reg64_toNat _ (by omega)]
      exact Nat.lt_of_not_le hcarry
    · show (reg64 _).toNat ≤ _
      rw [hsize]
      simp only [Config.norm]
      omega
    · show _ ≤ (reg64 _).toNat
      rw [hsize]
      omega

/-! ### Draining and padding (R164 to R166) -/

/-- The encoder's output side: the queue in order with exactly `len` slots, and the serialiser. -/
structure Coder.outputOk (len : Nat) (c : Coder) : Prop where
  ring : c.ringOk
  serial : c.serialOk
  qlen : c.qlen.toNat = len

theorem Coder.outputOk.stopOk {len : Nat} {c : Coder} (h : c.outputOk len) {code : FaultCode} (hcode : code ≠ .none) :
    c.stopOk code := h.ring.stopOk hcode

theorem putByte_ends {P : Coder → Prop} {Q : FaultCode → Coder → Prop} (tmax : Nat) (v : Byte) (c : Coder)
    (hok : c.tlen.toNat < tmax → P { c with text := store .text c.tlen.toNat v c.text, tlen := c.tlen + 1 })
    (hbad : Q .textOverflow c) : Run.ends P Q (putByte tmax v c) := by
  unfold putByte
  split
  · exact hbad
  · exact hok (by omega)

theorem putChar_ends (tmax len : Nat) (c : Coder) (h : c.ringOk) (hlen : c.qlen.toNat = len) :
    Run.ends (Coder.outputOk len) Coder.stopOk (putChar tmax c) := by
  refine Run.ends_bind (ok := fun d => d.ringOk ∧ d.qlen.toNat = len)
    (putByte_ends _ _ c (fun _ => ?_) (h.stopOk (by decide))) ?_
  · exact ⟨Coder.ringOk_congr h rfl rfl rfl, hlen⟩
  rintro d ⟨hd, hdlen⟩
  have hd' : Coder.outputOk len { d with ochars := d.ochars + 1, oacc := 0, ocnt := 0 } :=
    ⟨Coder.ringOk_congr hd rfl rfl rfl, ⟨Nat.zero_le _, Nat.one_pos⟩, hdlen⟩
  dsimp only
  split
  · exact putByte_ends _ _ _ (fun _ => ⟨Coder.ringOk_congr hd rfl rfl rfl, hd'.serial, hdlen⟩) (hd'.stopOk (by decide))
  · exact hd'

theorem outBit_ends (tmax len : Nat) (b : Bool) (c : Coder) (h : c.outputOk len) :
    Run.ends (Coder.outputOk len) Coder.stopOk (outBit tmax b c) := by
  obtain ⟨hring, ⟨hocnt, hoacc⟩, hlen⟩ := h
  have hcnt : (c.ocnt + 1).toNat = c.ocnt.toNat + 1 := by bv_omega
  have hpow : 2 ^ (c.ocnt.toNat + 1) ≤ 2 ^ 6 := Nat.pow_le_pow_right (by omega) (by omega)
  have hbit : b.toNat ≤ 1 := Bool.toNat_le b
  unfold outBit
  dsimp only
  split
  · exact putChar_ends _ _ _ (Coder.ringOk_congr hring rfl rfl rfl) hlen
  · rename_i hne
    have h6 : c.ocnt.toNat + 1 ≠ 6 := fun he => hne (BitVec.eq_of_toNat_eq (by rw [hcnt, he]; rfl))
    refine ⟨Coder.ringOk_congr hring rfl rfl rfl, ⟨?_, ?_⟩, hlen⟩
    · show (c.ocnt + 1).toNat ≤ 5
      omega
    · show (reg64 (2 * c.oacc.toNat + b.toNat)).toNat < 2 ^ (c.ocnt + 1).toNat
      rw [reg64_toNat _ (by rw [Nat.pow_succ] at hpow; omega), hcnt, Nat.pow_succ]
      omega

section Repeated

variable {P : Coder → Prop} {Q : FaultCode → Coder → Prop} (tmax : Nat)

/-- What one `out_bit` keeps, any number of them keep. -/
theorem outBits_ends (b : Bool) (hbit : ∀ c, P c → Run.ends P Q (outBit tmax b c)) (k : Nat) (c : Coder) (h : P c) :
    Run.ends P Q (outBits tmax b k c) := by
  induction k generalizing c with
  | zero => exact h
  | succ k ih => exact Run.ends_bind (hbit c h) ih

/-- What one `out_bit` keeps, the padding keeps, and it stops at a character boundary (R165). -/
theorem padTurns_ends (hbit : ∀ c, P c → Run.ends P Q (outBit tmax true c)) (fuel : Nat) (c : Coder) (h : P c) :
    Run.ends (fun d => P d ∧ d.ocnt = 0) Q (padTurns tmax fuel c) := by
  induction fuel generalizing c with
  | zero =>
    unfold padTurns
    split
    · exact ⟨h, ‹_›⟩
    · exact trivial
  | succ fuel ih =>
    unfold padTurns
    split
    · exact ⟨h, ‹_›⟩
    · exact Run.ends_bind (hbit c h) ih

/-- Draining by turns: one turn takes `I (m + 1)` to `I m`. -/
theorem drainRuns_ends {I : Nat → Coder → Prop} (hrun : ∀ m c, I (m + 1) c → Run.ends (I m) Q (drainRun tmax c))
    (k m : Nat) (c : Coder) (h : I (m + k) c) : Run.ends (I m) Q (drainRuns tmax k c) := by
  induction k generalizing c with
  | zero => exact h
  | succ k ih => exact Run.ends_bind (hrun (m + k) c h) ih

end Repeated

theorem drainRun_ends (tmax len : Nat) (c : Coder) (h : c.outputOk (len + 1)) :
    Run.ends (Coder.outputOk len) Coder.stopOk (drainRun tmax c) := by
  refine Run.ends_bind (Run.ends_and_leaves (outBits_ends tmax _ (outBit_ends tmax (len + 1) _) _ c h)
    (outBits_serialiserOnly ..)) ?_
  rintro d ⟨⟨hring, hserial, hlen⟩, -, -, hpos, -⟩
  rw [← hpos]
  refine ⟨hring.pop (by omega), hserial, ?_⟩
  show (d.qlen - 1).toNat = len
  bv_omega

theorem drain_ends (tmax keep len : Nat) (c : Coder) (h : c.outputOk len) :
    Run.ends (fun d => d.ringOk ∧ d.serialOk ∧ d.qlen.toNat ≤ keep) Coder.stopOk (drain tmax keep c) := by
  have hlen := h.qlen
  refine Run.ends_mono (drainRuns_ends tmax (drainRun_ends tmax) _ (min len keep) c ?_) ?_ fun _ _ hs => hs
  · rw [hlen, show min len keep + (len - keep) = len by omega]
    exact h
  · rintro d ⟨hring, hserial, hd⟩
    exact ⟨hring, hserial, by omega⟩

/-! ### `RCENC` and `RCFIN` on the coder -/

/-- `encode` keeps the coder legal in Encoding mode (R26, R152, R157). -/
theorem encode64_ends (tmax lo hi den : Nat) (c : Coder) (h : c.sound .encoding) :
    Run.ends (Coder.sound .encoding) Coder.stopOk (encode64 tmax lo hi den c) := by
  obtain ⟨hring, hserial, hparser, hlow, -, hrange, hlen⟩ := h
  refine Run.ends_mono (Run.ends_and_leaves (ok := fun d => d.ringOk ∧ d.serialOk ∧ d.windowOk .encoding) ?_
    (encode64_sameParser tmax lo hi den c)) ?_ fun _ _ hs => hs
  · unfold encode64
    split
    · rename_i hint
      split
      · exact hring.stopOk (by decide)
      · refine Run.ends_bind (Run.ends_and_leaves (encNorm_ends c ⟨hring, hlen, hlow, hrange⟩) (encNorm_windowOnly c)) ?_
        rintro d ⟨⟨hd, hdrange⟩, hdacc, hdcnt, -⟩
        refine Run.ends_bind (Run.ends_and_leaves (narrow_ends 34 lo hi den d hd (by omega) hdrange hint)
          (narrow_windowOnly ..)) ?_
        rintro e ⟨⟨he, hpos⟩, heacc, hecnt, -⟩
        have heserial : e.serialOk := by rwa [Coder.serialOk, heacc, hecnt, hdacc, hdcnt]
        refine Run.ends_mono (Run.ends_and_leaves (drain_ends tmax 2 _ e ⟨he.ring, heserial, rfl⟩)
          (drain_outputOnly ..)) ?_ fun _ _ hs => hs
        rintro f ⟨⟨hfring, hfserial, hflen⟩, hflow, hfrange, -⟩
        exact ⟨hfring, hfserial, hflow ▸ he.low, hfrange ▸ hpos, hfrange ▸ he.range, hflen⟩
    · exact hring.stopOk (by decide)
  · rintro d ⟨⟨hdring, hdserial, hdwin⟩, -, hacc, hcnt⟩
    exact ⟨hdring, hdserial, by rwa [Coder.parserOk, hacc, hcnt], hdwin⟩

/-- The end of the flush (R165): its two bits, the queue emptied, the last character padded. -/
def flushBits (tmax : Nat) (b1 b0 : Bool) (c : Coder) : Run Coder Coder := do
  let c ← pushBit b1 c
  let c ← pushBit b0 c
  let c ← drain tmax 0 c
  pad tmax c

theorem flush_eq (tmax : Nat) (c : Coder) :
    flush tmax c =
      if (c.low.toNat + Config.norm / 4 - 1) / (Config.norm / 4) = 4 then carry c >>= flushBits tmax false false
      else flushBits tmax (((c.low.toNat + Config.norm / 4 - 1) / (Config.norm / 4)).testBit 1)
        (((c.low.toNat + Config.norm / 4 - 1) / (Config.norm / 4)).testBit 0) c := by
  unfold flush
  dsimp only
  split
  · simp only [Nat.zero_testBit]
    rfl
  · rfl

theorem flushBits_sameParser (tmax : Nat) (b1 b0 : Bool) (c : Coder) :
    Run.leaves id c.sameParser (flushBits tmax b1 b0 c) := by
  refine Run.leaves_bind id id c.sameParser _ _ _
    (Run.leaves_mono _ _ _ _ (fun s hs => by simp_all) (pushBit_queueOnly ..)) (fun _ h => h) fun d hd => ?_
  refine Run.leaves_bind id id c.sameParser _ _ _
    (Run.leaves_mono _ _ _ _ (fun s hs => by simp_all) (pushBit_queueOnly ..)) (fun _ h => h) fun e he => ?_
  refine Run.leaves_bind id id c.sameParser _ _ _
    (Run.leaves_mono _ _ _ _ (fun s hs => by simp_all) (drain_outputOnly ..)) (fun _ h => h) fun f hf => ?_
  exact Run.leaves_mono _ _ _ _ (fun s hs => by simp_all) (padTurns_outputOnly ..)

/-- The encoder's part of `finish` never touches the parser (R165). -/
theorem finish64_sameParser (tmax : Nat) (c : Coder) : Run.leaves id c.sameParser (finish64 tmax c) := by
  refine Run.leaves_bind id id c.sameParser _ _ _
    (Run.leaves_mono _ _ _ _ (fun s hs => by simp_all) (encNorm_windowOnly c)) (fun _ h => h) fun d hd => ?_
  rw [flush_eq]
  split
  · refine Run.leaves_bind id id c.sameParser _ _ _
      (Run.leaves_mono _ _ _ _ (fun s hs => by simp_all) (carry_queueOnly ..)) (fun _ h => h) fun e he => ?_
    exact Run.leaves_mono _ _ _ _ (fun s hs => by simp_all) (flushBits_sameParser ..)
  · exact Run.leaves_mono _ _ _ _ (fun s hs => by simp_all) (flushBits_sameParser ..)

/-- The serialiser is left alone by an operation that only reaches the queue. -/
theorem Coder.serialOk.queueOnly {c d : Coder} (h : c.serialOk) (hd : c.queueOnly d) : d.serialOk := by
  obtain ⟨-, -, hacc, hcnt, -⟩ := hd
  rwa [Coder.serialOk, hacc, hcnt]

/-- `push_bit` on the encoder's side: the queue in order, the serialiser as it was. -/
theorem pushBit_ends_output (b : Bool) (len : Nat) (hlen : len < 2 ^ 63) (c : Coder)
    (h : c.ringOk ∧ c.serialOk ∧ c.qlen.toNat ≤ len) :
    Run.ends (fun d => d.ringOk ∧ d.serialOk ∧ d.qlen.toNat ≤ len + 1) Coder.stopOk (pushBit b c) := by
  obtain ⟨hring, hserial, hq⟩ := h
  refine Run.ends_mono (Run.ends_and_leaves (pushBit_ends b c hring (by omega)) (pushBit_queueOnly b c)) ?_ fun _ _ hs => hs
  rintro d ⟨⟨hdring, hdq⟩, hd⟩
  exact ⟨hdring, hserial.queueOnly hd, by omega⟩

theorem flushBits_ends (tmax : Nat) (b1 b0 : Bool) (c : Coder) (h : c.ringOk ∧ c.serialOk ∧ c.qlen.toNat ≤ 35) :
    Run.ends (fun d => d.ringOk ∧ d.serialOk ∧ d.windowOk .finished) Coder.stopOk (flushBits tmax b1 b0 c) := by
  refine Run.ends_bind (pushBit_ends_output b1 35 (by omega) c h) fun d hd => ?_
  refine Run.ends_bind (pushBit_ends_output b0 36 (by omega) d hd) fun e he => ?_
  refine Run.ends_bind (drain_ends tmax 0 _ e ⟨he.1, he.2.1, rfl⟩) ?_
  rintro f ⟨hring, hserial, hlen⟩
  refine Run.ends_mono (padTurns_ends tmax (outBit_ends tmax 0 true) 5 f ⟨hring, hserial, by omega⟩) ?_ fun _ _ hs => hs
  rintro g ⟨⟨hgring, hgserial, hglen⟩, hcnt⟩
  exact ⟨hgring, hgserial, hglen, by simp [hcnt]⟩

/-- `finish` takes a legal coder from Encoding mode to Finished mode: the queue and the serialiser are empty (R35, R165). -/
theorem finish64_ends (tmax : Nat) (c : Coder) (h : c.sound .encoding) :
    Run.ends (Coder.sound .finished) Coder.stopOk (finish64 tmax c) := by
  obtain ⟨hring, hserial, hparser, hlow, -, hrange, hlen⟩ := h
  refine Run.ends_mono (Run.ends_and_leaves (ok := fun d => d.ringOk ∧ d.serialOk ∧ d.windowOk .finished) ?_
    (finish64_sameParser tmax c)) ?_ fun _ _ hs => hs
  · refine Run.ends_bind (Run.ends_and_leaves (encNorm_ends c ⟨hring, hlen, hlow, hrange⟩) (encNorm_windowOnly c)) ?_
    rintro d ⟨⟨⟨hdring, hdq, -, -⟩, -⟩, hdacc, hdcnt, -⟩
    have hdserial : d.serialOk := by rwa [Coder.serialOk, hdacc, hdcnt]
    rw [flush_eq]
    split
    · refine Run.ends_bind (Run.ends_and_leaves (carry_ends d hdring (by omega)) (carry_queueOnly d)) ?_
      rintro e ⟨⟨hering, heq⟩, he⟩
      exact flushBits_ends tmax _ _ e ⟨hering, hdserial.queueOnly he, by omega⟩
    · exact flushBits_ends tmax _ _ d ⟨hdring, hdserial, by omega⟩
  · rintro d ⟨⟨hdring, hdserial, hdwin⟩, -, hacc, hcnt⟩
    exact ⟨hdring, hdserial, by rwa [Coder.parserOk, hacc, hcnt], hdwin⟩

end Sys2Proof.Machine
end

section
/-! PROOFS. The decoder's operations keep the coder legal (R168 to R172), and every coder operation keeps `TPOS <= TLEN <= TMAX`
(R35). -/

namespace Sys2Proof.Machine

/-- `TPOS <= TLEN <= TMAX`, on the coder (R35). -/
def Coder.cursorsOk (tmax : Nat) (c : Coder) : Prop := c.tpos.toNat ≤ c.tlen.toNat ∧ c.tlen.toNat ≤ tmax

theorem Coder.cursorsOk.congr {tmax : Nat} {c d : Coder} (h : c.cursorsOk tmax) (hlen : d.tlen = c.tlen)
    (hpos : d.tpos = c.tpos) : d.cursorsOk tmax := by rwa [Coder.cursorsOk, hlen, hpos]

/-! ### The decoder -/

/-- The decoder while a command runs: the code value inside the window, the window within `NORM`, the parser (R26, R168). -/
structure Coder.decoderOk (c : Coder) : Prop where
  low : c.low.toNat < c.range.toNat
  range : c.range.toNat ≤ Config.norm
  parser : c.parserOk

/-- What a stretch of decoding from `c` to `d` keeps. -/
structure Coder.decodesTo (c d : Coder) : Prop where
  decoder : c.decoderOk → d.decoderOk
  cursors : ∀ tmax, c.cursorsOk tmax → d.cursorsOk tmax

theorem Coder.decodesTo.refl (c : Coder) : c.decodesTo c := ⟨id, fun _ => id⟩

theorem Coder.decodesTo.trans {c d e : Coder} (h : c.decodesTo d) (h' : d.decodesTo e) : c.decodesTo e :=
  ⟨fun hc => h'.decoder (h.decoder hc), fun tmax hc => h'.cursors tmax (h.cursors tmax hc)⟩

/-- The skipping loop takes no fault and never passes `TLEN` (R169). -/
theorem fetchChar_ends (port : TextPort) (fuel : Nat) (c : Coder) :
    Run.ends (fun r => ∀ tmax, c.cursorsOk tmax → r.2.cursorsOk tmax) (fun _ _ => False) (fetchChar port fuel c) := by
  induction fuel generalizing c with
  | zero => exact fun _ h => h
  | succ fuel ih =>
    unfold fetchChar
    split
    · rename_i hlt
      have hadvance : ∀ tmax, c.cursorsOk tmax → ({ c with tpos := c.tpos + 1 } : Coder).cursorsOk tmax := by
        rintro tmax ⟨-, hlen⟩
        refine ⟨?_, hlen⟩
        show (c.tpos + 1).toNat ≤ c.tlen.toNat
        bv_omega
      split
      · exact trivial
      · dsimp only
        split
        · exact hadvance
        · exact Run.ends_mono (ih _) (fun r hr tmax hc => hr tmax (hadvance tmax hc)) fun _ _ h => h
    · exact fun _ h => h

theorem refill_ends (port : TextPort) (c : Coder) :
    Run.ends (fun d => d.parserOk ∧ d.icnt ≠ 0 ∧ ∀ tmax, c.cursorsOk tmax → d.cursorsOk tmax) (fun _ _ => False)
      (refill port c) := by
  refine Run.ends_bind (fetchChar_ends port _ c) ?_
  rintro ⟨v, d⟩ hd
  refine ⟨⟨?_, (by decide : (6 : Reg64).toNat ≤ 6)⟩, (by decide : (6 : Reg64) ≠ 0), hd⟩
  have hv : (v.getD 63).toNat < 2 ^ 6 := (v.getD 63).isLt
  show (reg64 (v.getD 63).toNat).toNat < 64
  rw [reg64_toNat] <;> omega

theorem Coder.parserOk.take {c : Coder} (h : c.parserOk) (h0 : c.icnt ≠ 0) :
    ({ c with icnt := c.icnt - 1 } : Coder).parserOk := by
  obtain ⟨hacc, hcnt⟩ := h
  refine ⟨hacc, ?_⟩
  show (c.icnt - 1).toNat ≤ 6
  bv_omega

/-- `next_bit` takes no fault, and leaves the parser with at most one character and the cursor at most at `TLEN` (R169). -/
theorem nextBit_ends (port : TextPort) (c : Coder) :
    Run.ends (fun r => (c.parserOk → r.2.parserOk) ∧ ∀ tmax, c.cursorsOk tmax → r.2.cursorsOk tmax) (fun _ _ => False)
      (nextBit port c) := by
  unfold nextBit
  split
  · refine Run.ends_bind (refill_ends port c) ?_
    rintro d ⟨hparser, h0, hcursors⟩
    exact ⟨fun _ => hparser.take h0, hcursors⟩
  · rename_i h0
    exact ⟨fun hc => hc.take h0, fun _ h => h⟩

theorem decNormTurns_ends (port : TextPort) (fuel : Nat) (c : Coder) :
    Run.ends c.decodesTo (fun _ _ => False) (decNormTurns port fuel c) := by
  induction fuel generalizing c with
  | zero => exact .refl c
  | succ fuel ih =>
    unfold decNormTurns
    split
    · rename_i hhalf
      refine Run.ends_bind (Run.ends_mono (Run.ends_and (nextBit_ends port c)
        ((Run.leaves_iff_ends ..).mp (nextBit_parserOnly port c))) (fun _ hr => hr) fun _ _ hs => hs.1) ?_
      rintro ⟨b, d⟩ ⟨⟨hparser, hcursors⟩, -, hdlow, hdrange⟩
      have hnext : c.decodesTo
          { d with low := reg64 (2 * d.low.toNat + b.toNat), range := reg64 (2 * d.range.toNat) } := ⟨?_, hcursors⟩
      · exact Run.ends_mono (ih _) (fun e he => hnext.trans he) fun _ _ h => h
      rintro ⟨hlow, hrange, hp⟩
      have hbit : b.toNat ≤ 1 := Bool.toNat_le b
      simp only [Config.half] at hhalf
      refine ⟨?_, ?_, hparser hp⟩
      · show (reg64 (2 * d.low.toNat + b.toNat)).toNat < (reg64 (2 * d.range.toNat)).toNat
        rw [hdlow, hdrange, reg64_toNat _ (by omega), reg64_toNat _ (by omega)]
        omega
      · show (reg64 (2 * d.range.toNat)).toNat ≤ Config.norm
        rw [hdrange, reg64_toNat _ (by omega)]
        simp only [Config.norm]
        omega
    · exact .refl c

theorem decNorm_ends (port : TextPort) (c : Coder) : Run.ends c.decodesTo (fun _ _ => False) (decNorm port c) := by
  unfold decNorm
  split
  · exact trivial
  · exact decNormTurns_ends ..

/-- The code value of a decoder inside its window is below the denominator (R171). -/
theorem codeValue_lt (c : Coder) (den : Nat) (hden : 1 ≤ den) (h : c.low.toNat < c.range.toNat) : codeValue c den < den := by
  have hle : (c.low.toNat + 1) * den ≤ c.range.toNat * den := Nat.mul_le_mul_right _ h
  have hpos : 0 < (c.low.toNat + 1) * den := Nat.mul_pos (by omega) hden
  exact Nat.div_lt_of_lt_mul (by omega)

/-- `decode` keeps the decoder, and its value fits `RES` (R21, R171). -/
theorem decode64_ends (port : TextPort) (den : Nat) (c : Coder) :
    Run.ends (fun r => c.decodesTo r.2 ∧ (c.decoderOk → r.1 ≤ Config.half))
      (fun code d => code ≠ .none ∧ c.decodesTo d) (decode64 port den c) := by
  unfold decode64
  split
  · rename_i hlegal
    obtain ⟨hpos, hden⟩ := (legalDenom_iff den).mp hlegal
    refine Run.ends_bind (Run.ends_mono (decNorm_ends port c) (fun _ h => h) fun _ _ h => h.elim) fun d hd => ⟨hd, fun hc => ?_⟩
    have hlt := codeValue_lt d den hpos (hd.decoder hc).low
    simp only [Config.half]
    omega
  · exact ⟨by decide, .refl c⟩

/-- `scale` keeps the decoder (R172). -/
theorem scale64_ends (port : TextPort) (lo hi den : Nat) (c : Coder) :
    Run.ends c.decodesTo (fun code d => code ≠ .none ∧ c.decodesTo d) (scale64 port lo hi den c) := by
  unfold scale64
  split
  · rename_i hlegal
    obtain ⟨-, hhi, -⟩ := (legalInterval_iff ..).mp hlegal
    refine Run.ends_bind (Run.ends_mono (decNorm_ends port c) (fun _ h => h) fun _ _ h => h.elim) fun d hd => ?_
    unfold decScale
    dsimp only
    split
    · rename_i hin
      refine hd.trans ⟨fun ⟨hlow, hrange, hparser⟩ => ?_, fun _ h => h⟩
      have htop : scaled d.range.toNat hi den ≤ d.range.toNat := by
        exact Nat.div_le_of_le_mul (by rw [Nat.mul_comm den]; exact Nat.mul_le_mul_left _ hhi)
      simp only [Config.norm] at hrange
      refine ⟨?_, ?_, hparser⟩
      · show (reg64 _).toNat < (reg64 _).toNat
        rw [reg64_toNat _ (by omega), reg64_toNat _ (by omega)]
        omega
      · show (reg64 _).toNat ≤ Config.norm
        rw [reg64_toNat _ (by omega)]
        simp only [Config.norm]
        omega
    · exact ⟨by decide, hd⟩
  · exact ⟨by decide, .refl c⟩

/-- A decoding step that keeps the decoder and leaves the encoder's side alone keeps the coder legal in Decoding mode. -/
theorem Coder.sound.decodesTo {c d : Coder} (h : c.sound .decoding) (hd : c.decodesTo d) (hsame : c.sameEncoder d) :
    d.sound .decoding := by
  obtain ⟨hring, hserial, hparser, hlow, hrange, hq, ho⟩ := h
  obtain ⟨hpos, hlen, hcount, hacc, hcnt, -⟩ := hsame
  obtain ⟨hdlow, hdrange, hdparser⟩ := hd.decoder ⟨hlow, hrange, hparser⟩
  exact ⟨Coder.ringOk_congr hring hpos hlen hcount, by rwa [Coder.serialOk, hacc, hcnt], hdparser, hdlow, hdrange,
    hlen ▸ hq, hcnt ▸ ho⟩

/-! ### The encoder's cursor -/

section Cursors

variable {tmax : Nat} (htmax : tmax < 2 ^ 64)

/-- An operation that leaves both cursors alone keeps them. -/
theorem Coder.cursorsOk.ends_of_leaves {c : Coder} (h : c.cursorsOk tmax) {P : Coder → Prop} {x : Run Coder Coder}
    (hx : Run.leaves id P x) (hP : ∀ d, P d → d.tlen = c.tlen ∧ d.tpos = c.tpos) :
    Run.ends (Coder.cursorsOk tmax) (fun _ => Coder.cursorsOk tmax) x :=
  (Run.leaves_iff_ends id ..).mp (Run.leaves_mono _ _ _ _ (fun d hd => h.congr (hP d hd).1 (hP d hd).2) hx)

theorem Coder.cursorsOk.encNorm {c : Coder} (h : c.cursorsOk tmax) :
    Run.ends (Coder.cursorsOk tmax) (fun _ => Coder.cursorsOk tmax) (encNorm c) :=
  h.ends_of_leaves (encNorm_windowOnly c) fun _ hd => by simp_all

theorem Coder.cursorsOk.pushBit {c : Coder} (h : c.cursorsOk tmax) (b : Bool) :
    Run.ends (Coder.cursorsOk tmax) (fun _ => Coder.cursorsOk tmax) (pushBit b c) :=
  h.ends_of_leaves (pushBit_queueOnly b c) fun _ hd => by simp_all

include htmax

theorem putByte_cursors (v : Byte) (c : Coder) (h : c.cursorsOk tmax) :
    Run.ends (Coder.cursorsOk tmax) (fun _ => Coder.cursorsOk tmax) (putByte tmax v c) := by
  refine putByte_ends tmax v c (fun hlt => ?_) h
  obtain ⟨hpos, -⟩ := h
  have hnext : (c.tlen + 1).toNat = c.tlen.toNat + 1 := by bv_omega
  rw [Coder.cursorsOk, hnext]
  exact ⟨hpos.trans (Nat.le_succ _), hlt⟩

theorem putChar_cursors (c : Coder) (h : c.cursorsOk tmax) :
    Run.ends (Coder.cursorsOk tmax) (fun _ => Coder.cursorsOk tmax) (putChar tmax c) := by
  refine Run.ends_bind (putByte_cursors htmax _ c h) fun d hd => ?_
  dsimp only
  split
  · exact putByte_cursors htmax _ _ hd
  · exact hd

theorem outBit_cursors (b : Bool) (c : Coder) (h : c.cursorsOk tmax) :
    Run.ends (Coder.cursorsOk tmax) (fun _ => Coder.cursorsOk tmax) (outBit tmax b c) := by
  unfold outBit
  dsimp only
  split
  · exact putChar_cursors htmax _ h
  · exact h

theorem drain_cursors (keep : Nat) (c : Coder) (h : c.cursorsOk tmax) :
    Run.ends (Coder.cursorsOk tmax) (fun _ => Coder.cursorsOk tmax) (drain tmax keep c) :=
  drainRuns_ends (I := fun _ => Coder.cursorsOk tmax) tmax
    (fun _ c hc => Run.ends_bind (outBits_ends tmax _ (outBit_cursors htmax _) _ c hc) fun _ hd => hd) _ 0 c h

/-- `encode` keeps the cursors (R157). -/
theorem encode64_cursors (lo hi den : Nat) (c : Coder) (h : c.cursorsOk tmax) :
    Run.ends (Coder.cursorsOk tmax) (fun _ => Coder.cursorsOk tmax) (encode64 tmax lo hi den c) := by
  unfold encode64
  split
  · split
    · exact h
    · refine Run.ends_bind h.encNorm fun d hd => ?_
      refine Run.ends_bind (hd.ends_of_leaves (narrow_windowOnly lo hi den d) fun _ he => by simp_all) fun e he => ?_
      exact drain_cursors htmax 2 e he
  · exact h

theorem flushBits_cursors (b1 b0 : Bool) (c : Coder) (h : c.cursorsOk tmax) :
    Run.ends (Coder.cursorsOk tmax) (fun _ => Coder.cursorsOk tmax) (flushBits tmax b1 b0 c) := by
  refine Run.ends_bind (h.pushBit b1) fun d hd => Run.ends_bind (hd.pushBit b0) fun e he => ?_
  refine Run.ends_bind (drain_cursors htmax 0 e he) fun f hf => ?_
  exact Run.ends_mono (padTurns_ends tmax (outBit_cursors htmax true) 5 f hf) (fun _ hg => hg.1) fun _ _ hs => hs

/-- `finish` keeps the cursors (R165). -/
theorem finish64_cursors (c : Coder) (h : c.cursorsOk tmax) :
    Run.ends (Coder.cursorsOk tmax) (fun _ => Coder.cursorsOk tmax) (finish64 tmax c) := by
  refine Run.ends_bind h.encNorm fun d hd => ?_
  rw [flush_eq]
  split
  · refine Run.ends_bind (hd.ends_of_leaves (carry_queueOnly d) fun _ he => by simp_all) fun e he => ?_
    exact flushBits_cursors htmax _ _ e he
  · exact flushBits_cursors htmax _ _ d hd

end Cursors

end Sys2Proof.Machine
end

section
/-! PROOFS. A property that the parts of the commands keep is kept by every command; the register invariant (R21, R22, R26, R35)
and the text cursors (R35) are two such properties. Settles O58. -/

namespace Sys2Proof.Machine

/-! ### From the parts to the commands -/

/-- `P` is kept by the parts the commands' pseudocode is made of, and `Q` holds wherever a fault ends one. -/
structure KeptByParts (P : State → Prop) (Q : FaultCode → State → Prop) : Prop
    extends KeptByEncode P Q, KeptByDecode P Q where
  bufs : ∀ s b, P s → P (s.withBufs b)
  n : ∀ s v, P s → P { s with n := v }
  bidx : ∀ s v, P s → P { s with bidx := v }
  sort : ∀ s, P s → Run.ends P Q (sortBody s)
  rcei : ∀ s, P s → Run.ends P Q (rceiBody s)
  rcdi : ∀ s, P s → Run.ends P Q (rcdiBody s)
  rcdec : ∀ s, P s → Run.ends P Q (rcdecBody s)
  rcfin : ∀ s, P s → Run.ends P Q (rcfinBody s)

namespace KeptByParts

variable {P : State → Prop} {Q : FaultCode → State → Prop} (h : KeptByParts P Q)
include h

theorem header : KeptByHeader P where
  n := h.n
  bidx := h.bidx
  freq _ _ _ _ hs := h.bufs _ _ hs
  cum _ hs := h.bufs _ _ hs

theorem checkLength (s : State) (n : Nat) (hs : P s) : Run.ends (fun _ => True) Q (checkLength s n) :=
  checkLength_ends s n (fun _ => trivial) (h.fault _ s (by decide) hs)

theorem bwtf (s : State) (hs : P s) : Run.ends P Q (bwtfBody s) := by
  refine Run.ends_bind (h.checkLength s _ hs) fun _ _ => ?_
  refine Run.ends_bind (h.sort s hs) fun t ht => ?_
  exact h.bufs { t with bidx := reg64 (bwtIndex (fetchPrefix .suf t.powerUp t.bufs.suf s.n.toNat)) } _ (h.bidx t _ ht)

theorem bwti (s : State) (hs : P s) : Run.ends P Q (bwtiBody s) := by
  refine Run.ends_bind (h.checkLength s _ hs) fun _ _ => ?_
  dsimp only
  split
  · exact hs
  · split
    · exact h.fault _ s (by decide) hs
    · exact h.bufs _ _ hs

theorem mtfe (s : State) (hs : P s) : Run.ends P Q (mtfeBody s) :=
  Run.ends_bind (h.checkLength s _ hs) fun _ _ => h.bufs _ _ hs

theorem mtfd (s : State) (hs : P s) : Run.ends P Q (mtfdBody s) :=
  Run.ends_bind (h.checkLength s _ hs) fun _ _ => h.bufs _ _ hs

theorem freq (s : State) (hs : P s) : Run.ends P Q (freqBody s) :=
  Run.ends_bind (h.checkLength s _ hs) fun _ _ => h.bufs _ _ (h.bufs s _ hs)

theorem comp (s : State) (hs : P s) : Run.ends P Q (compBody s) := by
  refine Run.ends_bind (h.bwtf s hs) fun s hs => Run.ends_bind (h.mtfe s hs) fun s hs => ?_
  refine Run.ends_bind (h.freq s hs) fun s hs => Run.ends_bind (h.rcei s hs) fun s hs => ?_
  refine Run.ends_bind (h.toKeptByEncode.hdreBody s hs) fun s hs => ?_
  exact Run.ends_bind (h.toKeptByEncode.symeBody s hs) h.rcfin

theorem symd (s : State) (hs : P s) : Run.ends P Q (symdBody s) :=
  h.toKeptByDecode.symdBody s (fun t _ _ _ ht => h.bufs t _ ht) hs

theorem decomp (s : State) (hs : P s) : Run.ends P Q (decompBody s) := by
  refine Run.ends_bind (h.rcdi s hs) fun s hs => ?_
  refine Run.ends_bind (h.toKeptByDecode.hdrdBody h.header s hs) fun s hs => ?_
  refine Run.ends_bind (h.symd s hs) fun s hs => Run.ends_bind (h.rcfin s hs) fun s hs => ?_
  exact Run.ends_bind (h.mtfd s hs) h.bwti

/-- Every command but `RESET` keeps what its parts keep. -/
theorem body (i : Instr) (hi : i ≠ .reset) (s : State) (hs : P s) : Run.ends P Q (commandBody i s) := by
  cases i with
  | reset => exact absurd rfl hi
  | nop => exact hs
  | sort => exact h.sort s hs
  | bwtf => exact h.bwtf s hs
  | bwti => exact h.bwti s hs
  | mtfe => exact h.mtfe s hs
  | mtfd => exact h.mtfd s hs
  | rcei => exact h.rcei s hs
  | rcdi => exact h.rcdi s hs
  | rcenc => exact h.encode s _ _ _ hs
  | rcdec => exact h.rcdec s hs
  | rcscl => exact h.scale s _ _ _ hs
  | rcfin => exact h.rcfin s hs
  | freq => exact h.freq s hs
  | hdre => exact h.toKeptByEncode.hdreBody s hs
  | syme => exact h.toKeptByEncode.symeBody s hs
  | hdrd => exact h.toKeptByDecode.hdrdBody h.header s hs
  | symd => exact h.symd s hs
  | comp => exact h.comp s hs
  | decomp => exact h.decomp s hs

end KeptByParts

/-! ### The depth of a sort (R28, R108) -/

theorem sortLoop_depth (n fuel j : Nat) (a : SortArrays) :
    ∃ k, (sortLoop n fuel (2 ^ j) a).1 = 2 ^ k ∧ (k = j ∨ 2 ^ k < 2 * n) := by
  induction fuel generalizing j a with
  | zero => exact ⟨j, rfl, .inl rfl⟩
  | succ fuel ih =>
    unfold sortLoop
    split
    · rename_i hgo
      have hlt : 2 ^ j < n := by simp_all
      obtain ⟨k, hk, hbound⟩ := ih (j + 1) (sortRound n (2 ^ j) n 0 a)
      refine ⟨k, by rw [← hk, Nat.pow_succ, Nat.mul_comm], .inr ?_⟩
      rcases hbound with rfl | hbound
      · rw [Nat.pow_succ]
        omega
      · exact hbound
    · exact ⟨j, rfl, .inl rfl⟩

/-- The depth a sort of at most `NMAX` bytes ends with is a power of two that `STEP` holds (R21, R28). -/
theorem sortBytes_depth (d : List Nat) (h : d.length ≤ Config.nmaxBound) :
    ∃ k < 32, (reg64 (sortBytes d).1).toNat = 2 ^ k := by
  obtain ⟨k, hk, hbound⟩ := sortLoop_depth d.length (ceilLog2 d.length) 0 (initialOrder d)
  have hlt : 2 ^ k < 2 ^ 32 := by
    simp only [Config.nmaxBound] at h
    rcases hbound with rfl | hbound <;> omega
  refine ⟨k, (Nat.pow_lt_pow_iff_right (by omega)).mp hlt, ?_⟩
  rw [sortBytes, show (1 : Nat) = 2 ^ 0 from rfl, hk, reg64_toNat _ (by omega)]

/-! ### The register invariant -/

/-- The register invariant while a command runs. -/
structure State.running (s : State) : Prop where
  params : s.paramsLegal
  good : s.good
  fault : s.fault = .none
  coder : s.coder.sound s.status.rcmode
  res : s.res.toNat ≤ Config.half
  step : ∃ j < 32, s.sortStep.toNat = 2 ^ j

/-- What is left of it where a fault ends a command. -/
def State.stopOk (code : FaultCode) (s : State) : Prop :=
  code ≠ .none ∧ s.paramsLegal ∧ s.coder.qpos.toNat < Config.qcap

theorem State.running.stopOk {s : State} (h : s.running) {code : FaultCode} (hcode : code ≠ .none) : s.stopOk code :=
  ⟨hcode, h.params, h.coder.ring.qpos⟩

theorem State.running.withBufs {s : State} (h : s.running) (b : Buffers) : (s.withBufs b).running :=
  ⟨h.params, h.good, h.fault, h.coder, h.res, h.step⟩

theorem State.running.withCoder {s : State} (h : s.running) {c : Coder} (hc : c.sound s.status.rcmode) :
    (s.withCoder c).running := ⟨h.params, h.good, h.fault, hc, h.res, h.step⟩

theorem State.running.stopOk_withCoder {s : State} (h : s.running) {c : Coder} {code : FaultCode} (hc : c.stopOk code) :
    (s.withCoder c).stopOk code := ⟨hc.1, h.params, hc.2⟩

theorem State.running.startCommand {s : State} (h : s.regsLegal) (hmem : s.memWf = true) (hg : s.good) :
    s.startCommand.running := by
  obtain ⟨hparams, -, hfault, -, -, hgood⟩ := h
  obtain ⟨hcoder, hres, hstep⟩ := hgood hg
  obtain ⟨-, -, -, -, -, -, -, -, -, -, -, hqcount⟩ := (State.memWf_iff s).mp hmem
  refine ⟨hparams, hg, ?_, (Coder.sound_iff ..).mpr ⟨hqcount, hcoder⟩, hres, hstep⟩
  by_contra hne
  exact absurd (hfault.mpr hne) (by rw [hg]; decide)

theorem State.running.complete {s : State} (h : s.running) : s.complete.regsLegal := by
  have hg : s.status.faulted = false := h.good
  refine ⟨h.params, rfl, ?_, ?_, h.coder.ring.qpos, fun _ => ⟨((Coder.sound_iff ..).mp h.coder).2, h.res, h.step⟩⟩
  · simp [hg, h.fault]
  · simp [hg]

theorem State.stopOk.takeFault {s : State} {code : FaultCode} (h : s.stopOk code) (info : Reg64) :
    (s.takeFault code info).regsLegal := by
  obtain ⟨hcode, hparams, hpos⟩ := h
  exact ⟨hparams, rfl, by simp [hcode], fun _ => rfl, hpos, by simp⟩

theorem State.running.sortBody {s : State} (h : s.running) : Run.ends State.running State.stopOk (sortBody s) := by
  refine Run.ends_bind (checkLength_ends s _ id (h.stopOk (by decide))) fun _ hn => ?_
  dsimp only
  split
  · exact ⟨h.params, h.good, h.fault, h.coder, h.res, 0, by decide, rfl⟩
  · refine ⟨h.params, h.good, h.fault, h.coder, h.res, sortBytes_depth _ ?_⟩
    rw [fetchPrefix_length]
    exact hn.trans h.params.1

theorem State.running.encodeInterval {s : State} (h : s.running) (lo hi den : Nat) :
    Run.ends State.running State.stopOk (encodeInterval s lo hi den) := by
  refine Run.ends_bind (checkMode_ends s _ id (h.stopOk (by decide))) fun _ hmode => onCoder_ends ?_
  exact Run.ends_mono (encode64_ends _ lo hi den s.coder (hmode ▸ h.coder))
    (fun c hc => h.withCoder (hmode ▸ hc)) fun code c hc => h.stopOk_withCoder hc

theorem State.running.decodeValueOf {s : State} (h : s.running) (den : Nat) :
    Run.ends (fun r => r.2.running ∧ r.1 ≤ Config.half) State.stopOk (decodeValueOf s den) := by
  refine Run.ends_bind (checkMode_ends s _ id (h.stopOk (by decide))) fun _ hmode => onCoderValue_ends ?_
  have hc : s.coder.sound .decoding := hmode ▸ h.coder
  refine Run.ends_mono (Run.ends_and (decode64_ends s.port den s.coder)
    ((Run.leaves_iff_ends ..).mp (decode64_sameEncoder s.port den s.coder))) ?_ ?_
  · rintro ⟨v, c⟩ ⟨⟨hto, hv⟩, hsame⟩
    exact ⟨h.withCoder (hmode ▸ hc.decodesTo hto hsame), hv ⟨hc.window.1, hc.window.2.1, hc.parser⟩⟩
  · rintro code c ⟨⟨hcode, hto⟩, hsame⟩
    exact h.stopOk_withCoder ⟨hcode, (hc.decodesTo hto hsame).ring.qpos⟩

theorem State.running.scaleInterval {s : State} (h : s.running) (lo hi den : Nat) :
    Run.ends State.running State.stopOk (scaleInterval s lo hi den) := by
  refine Run.ends_bind (checkMode_ends s _ id (h.stopOk (by decide))) fun _ hmode => onCoder_ends ?_
  have hc : s.coder.sound .decoding := hmode ▸ h.coder
  refine Run.ends_mono (Run.ends_and (scale64_ends s.port lo hi den s.coder)
    ((Run.leaves_iff_ends ..).mp (scale64_sameEncoder s.port lo hi den s.coder))) ?_ ?_
  · rintro c ⟨hto, hsame⟩
    exact h.withCoder (hmode ▸ hc.decodesTo hto hsame)
  · rintro code c ⟨⟨hcode, hto⟩, hsame⟩
    exact h.stopOk_withCoder ⟨hcode, (hc.decodesTo hto hsame).ring.qpos⟩

theorem Coder.sound_encoderStart (text : Memory 8) :
    Coder.sound .encoding { Coder.atReset text with range := reg64 Config.norm } :=
  ⟨Coder.ringOk_congr (Coder.atReset_ringOk text) rfl rfl rfl, by simp [Coder.serialOk], by simp [Coder.parserOk],
    by simp [Coder.windowOk, Config.norm, reg64]⟩

theorem Coder.sound_decoderStart (text : Memory 8) (tlen : Reg64) :
    Coder.sound .decoding { Coder.atReset text with range := 1, tlen := tlen } :=
  ⟨Coder.ringOk_congr (Coder.atReset_ringOk text) rfl rfl rfl, by simp [Coder.serialOk], by simp [Coder.parserOk],
    by simp [Coder.windowOk, Config.norm]⟩

theorem State.running.rcdiBody {s : State} (h : s.running) : Run.ends State.running State.stopOk (rcdiBody s) := by
  unfold Machine.rcdiBody
  split
  · exact h.stopOk (by decide)
  · exact ⟨h.params, h.good, h.fault, Coder.sound_decoderStart _ _, h.res, h.step⟩

theorem State.running.rcfinBody {s : State} (h : s.running) : Run.ends State.running State.stopOk (rcfinBody s) := by
  have hfinish : ∀ c : Coder, c.sound .finished → ((s.withCoder c).withMode .finished).running := fun c hc =>
    ⟨h.params, h.good, h.fault, hc, h.res, h.step⟩
  have hcoder := h.coder
  unfold Machine.rcfinBody
  split
  · exact h.stopOk (by decide)
  · exact h
  · rename_i hmode
    rw [hmode] at hcoder
    exact hfinish s.coder ⟨hcoder.ring, hcoder.serial, hcoder.parser, hcoder.window.2.2⟩
  · rename_i hmode
    rw [hmode] at hcoder
    refine Run.ends_bind (onCoder_ends (P := fun t => (t.withMode .finished).running) ?_) fun t ht => ht
    exact Run.ends_mono (finish64_ends _ s.coder hcoder) hfinish fun code c hc => h.stopOk_withCoder hc

theorem running_keptByParts : KeptByParts State.running State.stopOk where
  fault _ _ hcode h := h.stopOk hcode
  encode _ lo hi den h := h.encodeInterval lo hi den
  decode _ den h := Run.ends_mono (h.decodeValueOf den) (fun _ hr => hr.1) fun _ _ hs => hs
  scale _ lo hi den h := h.scaleInterval lo hi den
  bufs _ b h := h.withBufs b
  n _ _ h := ⟨h.params, h.good, h.fault, h.coder, h.res, h.step⟩
  bidx _ _ h := ⟨h.params, h.good, h.fault, h.coder, h.res, h.step⟩
  sort _ h := h.sortBody
  rcei _ h := ⟨h.params, h.good, h.fault, Coder.sound_encoderStart _, h.res, h.step⟩
  rcdi _ h := h.rcdiBody
  rcdec s h := by
    refine Run.ends_bind (h.decodeValueOf _) ?_
    rintro ⟨v, t⟩ ⟨ht, hv⟩
    refine ⟨ht.params, ht.good, ht.fault, ht.coder, ?_, ht.step⟩
    show (reg64 v).toNat ≤ Config.half
    simp only [Config.half] at hv ⊢
    rwa [reg64_toNat _ (by omega)]
  rcfin _ h := h.rcfinBody

/-! ### The text cursors (R35) -/

theorem cursors_encodeInterval (s : State) (lo hi den : Nat) (h : s.cursorsLegal) :
    Run.ends State.cursorsLegal (fun _ => State.cursorsLegal) (encodeInterval s lo hi den) :=
  Run.ends_bind (checkMode_ends s _ (fun _ => trivial) h) fun _ _ =>
    onCoder_ends (encode64_cursors s.cfgTmax.isLt lo hi den s.coder h)

theorem cursors_decodeValueOf (s : State) (den : Nat) (h : s.cursorsLegal) :
    Run.ends (fun r => r.2.cursorsLegal) (fun _ => State.cursorsLegal) (decodeValueOf s den) := by
  refine Run.ends_bind (checkMode_ends s _ (fun _ => trivial) h) fun _ _ => onCoderValue_ends ?_
  exact Run.ends_mono (decode64_ends s.port den s.coder) (fun _ hr => hr.1.cursors _ h) fun _ _ hc => hc.2.cursors _ h

theorem cursors_scaleInterval (s : State) (lo hi den : Nat) (h : s.cursorsLegal) :
    Run.ends State.cursorsLegal (fun _ => State.cursorsLegal) (scaleInterval s lo hi den) := by
  refine Run.ends_bind (checkMode_ends s _ (fun _ => trivial) h) fun _ _ => onCoder_ends ?_
  exact Run.ends_mono (scale64_ends s.port lo hi den s.coder) (fun _ hc => hc.cursors _ h) fun _ _ hc => hc.2.cursors _ h

theorem cursors_sortBody (s : State) (h : s.cursorsLegal) :
    Run.ends State.cursorsLegal (fun _ => State.cursorsLegal) (sortBody s) := by
  refine Run.ends_bind (checkLength_ends s _ (fun _ => trivial) h) fun _ _ => ?_
  dsimp only
  split <;> exact h

theorem cursors_rcdiBody (s : State) (h : s.cursorsLegal) :
    Run.ends State.cursorsLegal (fun _ => State.cursorsLegal) (rcdiBody s) := by
  unfold rcdiBody
  split
  · exact h
  · exact ⟨Nat.zero_le _, h.2⟩

theorem cursors_rcfinBody (s : State) (h : s.cursorsLegal) :
    Run.ends State.cursorsLegal (fun _ => State.cursorsLegal) (rcfinBody s) := by
  unfold rcfinBody
  split
  · exact h
  · exact h
  · exact h
  · exact Run.ends_bind (onCoder_ends (finish64_cursors s.cfgTmax.isLt s.coder h)) fun t ht => ht

theorem cursors_keptByParts : KeptByParts State.cursorsLegal fun _ => State.cursorsLegal where
  fault _ _ _ h := h
  encode s lo hi den h := cursors_encodeInterval s lo hi den h
  decode s den h := cursors_decodeValueOf s den h
  scale s lo hi den h := cursors_scaleInterval s lo hi den h
  bufs _ _ h := h
  n _ _ h := h
  bidx _ _ h := h
  sort s h := cursors_sortBody s h
  rcei _ _ := ⟨Nat.le_refl 0, Nat.zero_le _⟩
  rcdi s h := cursors_rcdiBody s h
  rcdec s h := Run.ends_bind (cursors_decodeValueOf s _ h) fun _ ht => ht
  rcfin s h := cursors_rcfinBody s h

/-- Every command keeps `TPOS <= TLEN <= TMAX`. -/
theorem exec_keeps_cursorsLegal (i : Instr) (s t : State) (h : s.cursorsLegal) (hexec : exec i s = .next t) :
    t.cursorsLegal := by
  by_cases hi : i = .reset
  · subst hi
    cases hexec
    exact ⟨Nat.le_refl 0, Nat.zero_le _⟩
  · rcases exec_next_cases hi hexec fun _ => cursors_keptByParts.body i hi s.startCommand h with
      ⟨-, rfl⟩ | ⟨-, u, hu, -, rfl⟩ | ⟨-, code, info, u, hu, rfl⟩
    · exact h
    · exact hu
    · exact hu

/-! ### Every step (R21, R22, R26, R35) -/

theorem State.softReset_regsLegal (s : State) (h : s.paramsLegal) : s.softReset.regsLegal := by
  have hsound : Coder.sound .idle (Coder.atReset s.coder.text) :=
    ⟨Coder.atReset_ringOk _, by simp [Coder.serialOk], by simp [Coder.parserOk], by simp [Coder.windowOk]⟩
  exact ⟨h, rfl, by simp, fun _ => rfl, hsound.ring.qpos,
    fun _ => ⟨((Coder.sound_iff ..).mp hsound).2, by simp, 0, by decide, rfl⟩⟩

/-- Every command keeps the register invariant. -/
theorem exec_keeps_regsLegal (i : Instr) (s t : State) (hmem : s.memWf = true) (h : s.regsLegal)
    (hexec : exec i s = .next t) : t.regsLegal := by
  by_cases hi : i = .reset
  · subst hi
    cases hexec
    exact s.softReset_regsLegal h.1
  · rcases exec_next_cases hi hexec fun hg =>
        running_keptByParts.body i hi s.startCommand (State.running.startCommand h hmem hg) with
      ⟨-, rfl⟩ | ⟨-, u, hu, -, rfl⟩ | ⟨-, code, info, u, hu, rfl⟩
    · exact h
    · exact hu.complete
    · exact hu.takeFault info

theorem acceptCommand_keeps_regsLegal (v : Reg64) (s t : State) (hmem : s.memWf = true) (h : s.regsLegal)
    (haccept : acceptCommand v s = .next t) : t.regsLegal := by
  have hcmd : (writeReg s v .cmd).regsLegal := h
  have hmem : (writeReg s v .cmd).memWf = true := hmem
  unfold acceptCommand at haccept
  dsimp only at haccept
  split at haccept
  · exact exec_keeps_regsLegal _ _ _ hmem hcmd haccept
  · split at haccept
    · cases haccept
      exact hcmd
    · cases haccept
      obtain ⟨hparams, -, -, -, hpos, -⟩ := h
      exact State.stopOk.takeFault (s := (writeReg s v .cmd).startCommand) ⟨by decide, hparams, hpos⟩ _

/-- What a performed host action can do: issue a command, write a register, answer a read, or write elements (R60, R236). -/
theorem performAction_next_cases {a : HostAction} {s t : State} (h : performAction a s = .next t) :
    (∃ v, acceptCommand v s = .next t) ∨ (∃ r v, r ≠ .cmd ∧ t = writeReg s v r) ∨ (∃ vs, t = s.answer vs) ∨
      ∃ sp i, ∃ vs : List Reg64, sp.inRange s.cfgNmax.toNat s.cfgTmax.toNat i vs.length = true ∧
        t = writeElems s sp i (vs.map BitVec.toNat) := by
  cases a with
  | wr reg v =>
    simp only [performAction] at h
    split at h
    · cases h
    · split at h
      · exact .inl ⟨v, h⟩
      · rename_i hcmd
        split at h
        · cases h
          exact .inr (.inl ⟨_, v, hcmd, rfl⟩)
        · cases h
  | rd reg =>
    simp only [performAction] at h
    split at h
    · cases h
    · cases h
      exact .inr (.inr (.inl ⟨_, rfl⟩))
  | wrb space i vs =>
    simp only [performAction] at h
    split at h
    · cases h
    · split at h
      · split at h
        · rename_i hin
          split at h
          · cases h
            exact .inr (.inr (.inr ⟨_, i, vs, hin, rfl⟩))
          · cases h
        · cases h
      · cases h
  | rdb space i count =>
    simp only [performAction] at h
    split at h
    · cases h
    · split at h
      · cases h
        exact .inr (.inr (.inl ⟨_, rfl⟩))
      · cases h

theorem step_keeps_regsLegal (s t : State) (hmem : s.memWf = true) (h : s.regsLegal) (hstep : step s = .next t) :
    t.regsLegal := by
  unfold step at hstep
  split at hstep
  · cases hstep
    exact h
  · rename_i a rest hqueue
    have hs : ({ s with queue := rest } : State).regsLegal := h
    have hmem : ({ s with queue := rest } : State).memWf = true := hmem
    unfold hostStep at hstep
    split at hstep
    · cases hstep
    · rcases performAction_next_cases hstep with ⟨v, haccept⟩ | ⟨r, v, -, rfl⟩ | ⟨vs, rfl⟩ | ⟨sp, i, vs, -, rfl⟩
      · exact acceptCommand_keeps_regsLegal v _ t hmem hs haccept
      · cases r <;> exact hs
      · exact hs
      · cases sp <;> exact hs

end Sys2Proof.Machine

open Sys2Proof Sys2Proof.Machine

/-- Settles O58: both halves are properties the parts of every command keep (`KeptByParts`); a host action other than a command
reaches none of the registers the invariant speaks of. -/
theorem stepKeepsRegistersLegal : Obligations.StepKeepsRegistersLegal :=
  ⟨step_keeps_regsLegal, exec_keeps_cursorsLegal⟩
end

section
/-! PROOFS. Elements by what they hold, and the host's writes (R21, R60). Settles O11. -/

namespace Sys2Proof.Machine

/-! ### Elements -/

/-- Two states of one power-up in which an element holds the same read the same there (R60, assumption 2). -/
theorem sameElem_of_holds {s t : State} {sp : Space} {k : Nat} (hpower : t.powerUp = s.powerUp)
    (h : t.holds sp k = s.holds sp k) : sameElem s t sp k := by
  have hinj (w : Nat) : Function.Injective (Option.map (BitVec.toNat (w := w))) :=
    Option.map_injective fun _ _ => BitVec.eq_of_toNat_eq
  refine ⟨?_, h⟩
  cases sp <;> simp only [State.elem, readElem, fetch, hpower] <;> rw [hinj _ h]

theorem unlisted_of_ne_qcount {sp : Space} (w : Nat) (h : sp ≠ .qcount) : unlisted sp w = none := by
  cases sp
  case qcount => exact absurd rfl h
  all_goals rfl

section Memory

variable {w : Nat}

/-- The element written holds the value, in any list, where the value is not what an unlisted element holds. -/
theorem Memory.peek_put_same_of_ne (blank : Option (BitVec w)) (i : Nat) (v : BitVec w) (m : Memory w)
    (h : blank ≠ some v) : (m.put blank i v).peek blank i = some v := by
  induction m with
  | nil => simp [Memory.put, Memory.peek, h]
  | cons head rest ih =>
    simp only [Memory.put, h]
    split
    · simp [Memory.peek]
    · split
      · simp [Memory.peek]
      · rename_i hne
        have : head.1 ≠ i := fun he => hne he.symm
        simpa [Memory.peek, this] using ih

/-- `peek_storeFrom` in any list, for the spaces whose unlisted elements hold no value. -/
theorem peek_storeFrom_of_ne_qcount {sp : Space} (hsp : sp ≠ .qcount) (i k : Nat) (vs : List Nat) (m : Memory w)
    (hk : k < vs.length) : (storeFrom sp i vs m).peek (unlisted sp w) (i + k) = some (BitVec.ofNat w (vs.getD k 0)) := by
  induction vs generalizing i k with
  | nil => simp at hk
  | cons v rest ih =>
    simp only [storeFrom, store]
    cases k with
    | zero => exact Memory.peek_put_same_of_ne _ _ _ _ (by simp [unlisted_of_ne_qcount w hsp])
    | succ k =>
      rw [Memory.peek_put_other _ _ _ _ _ (by omega), show i + (k + 1) = i + 1 + k by omega,
        ih (i + 1) k (by simpa using hk)]
      simp

end Memory

/-! ### Host writes to elements -/

theorem holds_writeElems_other_space (s : State) {sp other : Space} (i k : Nat) (vs : List Nat) (h : other ≠ sp) :
    (writeElems s sp i vs).holds other k = s.holds other k := by
  cases sp <;> cases other <;> simp_all [writeElems, State.holds]

theorem holds_writeElems_outside (s : State) (sp : Space) (i k : Nat) (vs : List Nat) (h : k < i ∨ i + vs.length ≤ k) :
    (writeElems s sp i vs).holds sp k = s.holds sp k := by
  cases sp <;> simp [writeElems, State.holds, peek_storeFrom_other _ _ _ _ _ h]

theorem holds_writeElems (s : State) (sp : Space) (i k : Nat) (vs : List Nat) (hsp : spaceHostWrites sp = true)
    (hfit : vs.getD k 0 < 2 ^ spaceWidth sp) (hk : k < vs.length) :
    (writeElems s sp i vs).holds sp (i + k) = some (vs.getD k 0) := by
  cases sp
  case suf | rank | group | next | mtfl | qcount => cases hsp
  all_goals
    simp only [writeElems, State.holds, State.withBufs_bufs, State.withCoder_coder]
    rw [peek_storeFrom_of_ne_qcount (by decide) i k vs _ hk, Option.map_some, BitVec.toNat_ofNat]
    exact congrArg some (Nat.mod_eq_of_lt hfit)

theorem readReg_withBufs (s : State) (b : Buffers) (r : Reg) : readReg (s.withBufs b) r = readReg s r := by
  cases r <;> rfl

theorem readReg_writeElems (s : State) (sp : Space) (i : Nat) (vs : List Nat) (r : Reg) :
    readReg (writeElems s sp i vs) r = readReg s r := by
  cases sp
  case text => cases r <;> rfl
  case suf | rank | group | next | mtfl | qcount => rfl
  all_goals exact readReg_withBufs s _ r

theorem writeElems_host (s : State) (sp : Space) (i : Nat) (vs : List Nat) :
    (writeElems s sp i vs).queue = s.queue ∧ (writeElems s sp i vs).seen = s.seen ∧
      (writeElems s sp i vs).powerUp = s.powerUp := by
  cases sp <;> exact ⟨rfl, rfl, rfl⟩

/-! ### Host writes to registers -/

theorem readReg_writeReg (s : State) (v : Reg64) (r r' : Reg) (hr : r ≠ .cmd) (hrw : regHostWrites r = true) :
    readReg (writeReg s v r) r' = if r' = r then v else readReg s r' := by
  cases r
  case cmd => exact absurd rfl hr
  case n | bidx | arg0 | arg1 | arg2 | tlen => cases r' <;> rfl
  all_goals cases hrw

theorem writeReg_host (s : State) (v : Reg64) (r : Reg) :
    (writeReg s v r).queue = s.queue ∧ (writeReg s v r).seen = s.seen ∧ (writeReg s v r).powerUp = s.powerUp := by
  cases r <;> exact ⟨rfl, rfl, rfl⟩

theorem holds_writeReg (s : State) (v : Reg64) (r : Reg) (sp : Space) (k : Nat) :
    (writeReg s v r).holds sp k = s.holds sp k := by
  cases r <;> cases sp <;> rfl

/-! ### One step -/

theorem step_of_not_busy {s : State} {a : HostAction} {rest : List HostAction} (hbusy : s.status.busy = false)
    (hqueue : s.queue = a :: rest) : step s = performAction a { s with queue := rest } := by
  simp [step, hqueue, hostStep, hbusy]

theorem holds_withQueue (s : State) (rest : List HostAction) (sp : Space) (k : Nat) :
    ({ s with queue := rest } : State).holds sp k = s.holds sp k := by cases sp <;> rfl

theorem readReg_withQueue (s : State) (rest : List HostAction) (r : Reg) :
    readReg { s with queue := rest } r = readReg s r := by cases r <;> rfl

theorem step_register_write (s : State) (reg : Nat) (r : Reg) (v : Reg64) (rest : List HostAction)
    (hbusy : s.status.busy = false) (hqueue : s.queue = .wr reg v :: rest) (hreg : regOfNumber reg = some r)
    (hcmd : r ≠ .cmd) :
    step s = if regHostWrites r then .next (writeReg { s with queue := rest } v r) else .refused (.readOnlyRegister r) := by
  rw [step_of_not_busy hbusy hqueue]
  simp only [performAction, hreg, if_neg hcmd]

theorem step_element_write (s : State) (space i : Nat) (sp : Space) (vs : List Reg64) (rest : List HostAction)
    (hbusy : s.status.busy = false) (hqueue : s.queue = .wrb space i vs :: rest) (hspace : spaceOfNumber space = some sp)
    (hrw : spaceHostWrites sp = true) (hin : i + vs.length ≤ spaceCount s.cfgNmax.toNat s.cfgTmax.toNat sp)
    (hfit : ∀ v ∈ vs, v.toNat < 2 ^ spaceWidth sp) :
    step s = .next (writeElems { s with queue := rest } sp i (vs.map BitVec.toNat)) := by
  have hrange : sp.inRange s.cfgNmax.toNat s.cfgTmax.toNat i vs.length = true := by simp [Space.inRange, hin]
  have hfits : sp.fits vs = true := by simpa [Space.fits] using hfit
  rw [step_of_not_busy hbusy hqueue]
  simp only [performAction, hspace, hrw, hrange, hfits, if_true]

end Sys2Proof.Machine

open Sys2Proof Sys2Proof.Machine

/-- Settles O11: the step is `writeReg` or `writeElems` on the state with the action taken off the queue, and each reaches its
target only. -/
theorem hostWritesReachOnlyTheirTarget : Obligations.HostWritesReachOnlyTheirTarget := by
  refine ⟨fun s reg r v rest hbusy hqueue hreg hcmd => ?_, fun s space i sp vs rest hbusy hqueue hspace hrw hin hfit => ?_⟩
  · rw [step_register_write s reg r v rest hbusy hqueue hreg hcmd]
    refine ⟨fun hrw => ?_, fun hro => by simp [hro]⟩
    obtain ⟨hq, hseen, hpower⟩ := writeReg_host { s with queue := rest } v r
    refine ⟨_, if_pos hrw, hq, hseen, fun r' => ?_, fun sp k => sameElem_of_holds hpower ?_⟩
    · rw [readReg_writeReg _ v r r' hcmd hrw, readReg_withQueue]
    · rw [holds_writeReg, holds_withQueue]
  · obtain ⟨hq, hseen, hpower⟩ := writeElems_host { s with queue := rest } sp i (vs.map BitVec.toNat)
    refine ⟨_, step_element_write s space i sp vs rest hbusy hqueue hspace hrw hin hfit, hq, hseen,
      fun k hk => ?_, fun other k hother => sameElem_of_holds hpower ?_, fun r => ?_⟩
    · have hget : (vs.map BitVec.toNat).getD k 0 = (vs.getD k 0).toNat := by simp [hk]
      have hlt : (vs.getD k 0).toNat < 2 ^ spaceWidth sp := hfit _ (by simp [hk])
      rw [← hget]
      exact holds_writeElems _ sp i k _ hrw (hget ▸ hlt) (by simpa using hk)
    · rw [← holds_withQueue s rest]
      by_cases hsp : other = sp
      · subst hsp
        exact holds_writeElems_outside _ other i k _ (by simpa using hother)
      · exact holds_writeElems_other_space _ i k _ hsp
    · rw [readReg_writeElems, readReg_withQueue]
end

section
/-! PROOFS. How long the lists are that the buffer commands store (R100 to R106, R120 to R124, R135 to R137, R201). -/

namespace Sys2Proof.Machine

/-- The elements of an 8-bit space are bytes (R30). -/
theorem fetchPrefix_lt_nsym (sp : Space) (powerUp n : Nat) (m : Memory 8) :
    ∀ v ∈ fetchPrefix sp powerUp m n, v < Config.nsym := by
  intro v hv
  obtain ⟨i, -, rfl⟩ := List.mem_map.mp hv
  exact BitVec.isLt (w := 8) _

/-! ### The sorter -/

/-- A bucket pass rearranges its items when every bucket number is a byte (R102). -/
theorem countingPass_perm {α : Type} (bucket : α → Nat) (items : List α) (h : ∀ x ∈ items, bucket x < Config.nsym) :
    (countingPass bucket items).Perm items := by
  have hbuckets (m : Nat) : ((List.range m).flatMap fun d => items.filter (fun x => bucket x == d)).Perm
      (items.filter fun x => decide (bucket x < m)) := by
    induction m with
    | zero => simp
    | succ m ih =>
      rw [List.range_succ, List.flatMap_append, List.flatMap_singleton]
      refine (ih.append_right _).trans ?_
      have hsplit := List.filter_append_perm (fun x => decide (bucket x < m))
        (items.filter fun x => decide (bucket x < m + 1))
      rw [List.filter_filter, List.filter_filter] at hsplit
      have hlow : (items.filter fun x => decide (bucket x < m) && decide (bucket x < m + 1)) =
          items.filter fun x => decide (bucket x < m) := by
        refine List.filter_congr fun x _ => ?_
        rw [← Bool.decide_and, decide_eq_decide]
        omega
      have hlast : (items.filter fun x => !decide (bucket x < m) && decide (bucket x < m + 1)) =
          items.filter fun x => bucket x == m := by
        refine List.filter_congr fun x _ => ?_
        rw [Bool.eq_iff_iff]
        simp only [Bool.and_eq_true, Bool.not_eq_true', decide_eq_false_iff_not, decide_eq_true_eq, beq_iff_eq]
        omega
      rwa [hlow, hlast] at hsplit
  have hall : (items.filter fun x => decide (bucket x < Config.nsym)) = items := by
    simpa [List.filter_eq_self] using h
  have := hbuckets Config.nsym
  rwa [hall] at this

theorem insertPair_perm (x : Nat × Nat) (l : List (Nat × Nat)) : (insertPair x l).Perm (x :: l) := by
  induction l with
  | nil => exact .refl _
  | cons y rest ih =>
    simp only [insertPair]
    split
    · exact .refl _
    · exact (ih.cons y).trans (.swap x y rest)

theorem insertionSort_perm (pairs : List (Nat × Nat)) : (insertionSort pairs).Perm pairs := by
  have hfold (acc : List (Nat × Nat)) : (pairs.foldl (fun acc x => insertPair x acc) acc).Perm (acc ++ pairs) := by
    induction pairs generalizing acc with
    | nil => simp
    | cons x rest ih =>
      refine (ih _).trans (((insertPair_perm x acc).append_right rest).trans ?_)
      simpa using (List.perm_middle (a := x) (l₁ := acc) (l₂ := rest)).symm
  exact hfold []

theorem radixPasses_perm (passes t : Nat) (pairs : List (Nat × Nat)) : (radixPasses passes t pairs).Perm pairs := by
  induction passes generalizing t pairs with
  | zero => exact .refl _
  | succ passes ih => exact (ih _ _).trans (countingPass_perm _ _ fun _ _ => Nat.mod_lt _ (by decide))

theorem subBlocks_length (l : List (Nat × Nat)) (slot sub : Nat) (prev : Option Nat) :
    (subBlocks slot sub prev l).length = l.length := by
  induction l generalizing slot sub prev with
  | nil => rfl
  | cons x rest ih => simp [subBlocks, ih]

/-- Replacing part of a list by as many values keeps its length. -/
theorem replaceFrom_length (l vs : List Nat) (start : Nat) (h : vs = [] ∨ start + vs.length ≤ l.length) :
    (replaceFrom l start vs).length = l.length := by
  simp only [replaceFrom, List.length_append, List.length_take, List.length_drop]
  rcases h with rfl | h
  · simp
    omega
  · omega

theorem setRanks_length (rank members subs : List Nat) : (setRanks rank members subs).length = rank.length := by
  unfold setRanks
  induction members.zip subs generalizing rank with
  | nil => rfl
  | cons ms rest ih => simp [ih]

/-- The arrays have the lengths R101 gives them. -/
structure SortArrays.sized (n : Nat) (a : SortArrays) : Prop where
  suf : a.suf.length = n
  rank : a.rank.length = n
  group : a.group.length = n + 1

theorem SortArrays.sized.refine {n : Nat} {a : SortArrays} (ha : a.sized n) (start stop h : Nat) :
    (refine n start stop h a).sized n := by
  obtain ⟨hsuf, hrank, hgroup⟩ := ha
  have hsorted (pairs : List (Nat × Nat)) :
      (if stop - start < Config.insertionThreshold then insertionSort pairs else radixSort n pairs).length =
        pairs.length := by
    split
    · exact (insertionSort_perm pairs).length_eq
    · exact (radixPasses_perm _ _ pairs).length_eq
  have hfits (vs : List Nat) (hvs : vs.length = ((a.suf.drop start).take (stop - start)).length) :
      vs = [] ∨ start + vs.length ≤ n := by
    rw [← List.length_eq_zero_iff]
    simp only [List.length_take, List.length_drop] at hvs
    omega
  refine ⟨?_, (setRanks_length ..).trans hrank, ?_⟩
  · refine (replaceFrom_length _ _ _ (hsuf.symm ▸ hfits _ ?_)).trans hsuf
    rw [List.length_map, hsorted, List.length_map]
  · refine (replaceFrom_length _ _ _ ((hfits _ ?_).imp id fun hle => ?_)).trans hgroup
    · rw [subBlocks_length, hsorted, List.length_map]
    · omega

theorem SortArrays.sized.sortRound {n : Nat} (h fuel k : Nat) {a : SortArrays} (ha : a.sized n) :
    (sortRound n h fuel k a).sized n := by
  induction fuel generalizing k a with
  | zero => exact ha
  | succ fuel ih =>
    simp only [Machine.sortRound]
    split
    · refine ih _ ?_
      split
      · exact ha.refine ..
      · exact ha
    · exact ha

theorem SortArrays.sized.sortLoop {n : Nat} (fuel step : Nat) {a : SortArrays} (ha : a.sized n) :
    (sortLoop n fuel step a).2.sized n := by
  induction fuel generalizing step a with
  | zero => exact ha
  | succ fuel ih =>
    simp only [Machine.sortLoop]
    split
    · exact ih _ (ha.sortRound ..)
    · exact ha

theorem initialOrder_sized (d : List Nat) (hd : ∀ b ∈ d, b < Config.nsym) : (initialOrder d).sized d.length := by
  have hlen : (countingPass (fun p => d.getD p 0) (List.range d.length)).length = d.length := by
    rw [(countingPass_perm _ _ fun p hp => ?_).length_eq, List.length_range]
    have hp : p < d.length := List.mem_range.mp hp
    simpa [hp] using hd _ (List.getElem_mem hp)
  exact ⟨hlen, by simp [initialOrder], by simpa [initialOrder] using hlen⟩

theorem sortBytes_sized (d : List Nat) (hd : ∀ b ∈ d, b < Config.nsym) : (sortBytes d).2.sized d.length :=
  (initialOrder_sized d hd).sortLoop ..

/-! ### The transforms, the recency list and the tables -/

theorem buildNext_length (xf : List Nat) (h : ∀ b ∈ xf, b < Config.nsym) : (buildNext xf).length = xf.length := by
  rw [buildNext, (countingPass_perm _ _ fun j hj => ?_).length_eq, List.length_range]
  have hj : j < xf.length := List.mem_range.mp hj
  simpa [hj] using h _ (List.getElem_mem hj)

theorem bwtWalk_length (xf next : List Nat) (steps p : Nat) : (bwtWalk xf next steps p).length = steps := by
  induction steps generalizing p with
  | zero => rfl
  | succ steps ih => simp [bwtWalk, ih]

/-- Moving a listed element to the front rearranges the list (R135). -/
theorem moveToFront_perm (l : List Nat) (p : Nat) (h : p < l.length) : (moveToFront l p).Perm l := by
  rw [moveToFront, List.getD_eq_getElem _ _ h]
  exact List.getElem_cons_eraseIdx_perm h

/-- One code per byte, and the list stays a rearrangement of the byte values (R135, R136). -/
theorem mtfEncode_lengths (bs l : List Nat) (hl : l.Perm mtfIdentity) (hbs : ∀ b ∈ bs, b < Config.nsym) :
    (mtfEncode l bs).1.length = bs.length ∧ (mtfEncode l bs).2.length = Config.nsym := by
  induction bs generalizing l with
  | nil => exact ⟨rfl, hl.length_eq.trans List.length_range⟩
  | cons b rest ih =>
    have hmem : b ∈ l := hl.mem_iff.mpr (List.mem_range.mpr (hbs b (by simp)))
    have hfront := moveToFront_perm l (l.idxOf b) (List.idxOf_lt_length_iff.mpr hmem)
    obtain ⟨hcodes, hfinal⟩ := ih _ (hfront.trans hl) fun c hc => hbs c (by simp [hc])
    exact ⟨by simp [mtfEncode, hcodes], hfinal⟩

/-- One byte per code, and the list stays a rearrangement of the byte values (R135, R137). -/
theorem mtfDecode_lengths (ps l : List Nat) (hl : l.Perm mtfIdentity) (hps : ∀ p ∈ ps, p < Config.nsym) :
    (mtfDecode l ps).1.length = ps.length ∧ (mtfDecode l ps).2.length = Config.nsym := by
  induction ps generalizing l with
  | nil => exact ⟨rfl, hl.length_eq.trans List.length_range⟩
  | cons p rest ih =>
    have hlen : l.length = Config.nsym := by simpa [mtfIdentity] using hl.length_eq
    have hfront := moveToFront_perm l p (hlen ▸ hps p (by simp))
    obtain ⟨hbytes, hfinal⟩ := ih _ (hfront.trans hl) fun c hc => hps c (by simp [hc])
    exact ⟨by simp [mtfDecode, hbytes], hfinal⟩

theorem cumulate_length (fs : List Nat) (total : Nat) : (cumulate total fs).length = fs.length + 1 := by
  induction fs generalizing total with
  | nil => rfl
  | cons f rest ih => simp [cumulate, ih]

end Sys2Proof.Machine
end

section
/-! PROOFS. What a command's pseudocode leaves alone (R12, R23, R25, R28, R31): its frame, in registers, mode and elements, wherever
it ends. -/

namespace Sys2Proof.Machine

/-! ### Frames -/

/-- From `s` to `t` only registers of `W`, the flags if `W` has `STATUS`, the spaces `TEXT` and `QCOUNT`, and in every other space
elements below `B` may have changed. -/
structure State.frame (W : Reg → Bool) (B : Space → Nat) (s t : State) : Prop where
  regs : ∀ r, W r = false → readReg t r = readReg s r
  status : W .status = false → t.status = s.status
  queue : t.queue = s.queue
  seen : t.seen = s.seen
  powerUp : t.powerUp = s.powerUp
  elems : ∀ sp k, sp ≠ .text → sp ≠ .qcount → B sp ≤ k → t.holds sp k = s.holds sp k

/-- Wherever the run `x` ends, from `s` it stayed within a frame. -/
abbrev State.confines (s : State) (W : Reg → Bool) (B : Space → Nat) (x : Run State State) : Prop :=
  Run.ends (s.frame W B) (fun _ => s.frame W B) x

section Frames

variable {W W' : Reg → Bool} {B B' : Space → Nat} {s t u : State}

theorem State.frame.refl (s : State) : s.frame W B s :=
  ⟨fun _ _ => rfl, fun _ => rfl, rfl, rfl, rfl, fun _ _ _ _ _ => rfl⟩

theorem State.frame.trans (h : s.frame W B t) (h' : t.frame W B u) : s.frame W B u where
  regs r hr := (h'.regs r hr).trans (h.regs r hr)
  status hr := (h'.status hr).trans (h.status hr)
  queue := h'.queue.trans h.queue
  seen := h'.seen.trans h.seen
  powerUp := h'.powerUp.trans h.powerUp
  elems sp k ht hq hk := (h'.elems sp k ht hq hk).trans (h.elems sp k ht hq hk)

theorem State.frame.mono (h : s.frame W B t) (hW : W ≤ W') (hB : B ≤ B') : s.frame W' B' t where
  regs r hr := h.regs r (Bool.eq_false_of_le_false (hr ▸ hW r))
  status hr := h.status (Bool.eq_false_of_le_false (hr ▸ hW .status))
  queue := h.queue
  seen := h.seen
  powerUp := h.powerUp
  elems sp k ht hq hk := h.elems sp k ht hq ((hB sp).trans hk)

theorem State.confines.mono {x : Run State State} (h : s.confines W B x) (hW : W ≤ W') (hB : B ≤ B') :
    s.confines W' B' x :=
  Run.ends_mono h (fun _ ht => ht.mono hW hB) fun _ _ ht => ht.mono hW hB

/-- A stage that starts inside a frame and stays within a smaller one. -/
theorem State.frame.extend {x : Run State State} (h : s.frame W B t) (hx : t.confines W' B' x) (hW : W' ≤ W)
    (hB : B' ≤ B) : Run.ends (fun u => s.frame W B u ∧ t.frame W' B' u) (fun _ => s.frame W B) x :=
  Run.ends_mono hx (fun _ hu => ⟨h.trans (hu.mono hW hB), hu⟩) fun _ _ hu => h.trans (hu.mono hW hB)

theorem State.frame.withBufs (s : State) (b : Buffers)
    (hb : ∀ sp k, sp ≠ .text → sp ≠ .qcount → B sp ≤ k → (s.withBufs b).holds sp k = s.holds sp k) :
    s.frame W B (s.withBufs b) :=
  ⟨fun r _ => readReg_withBufs s b r, fun _ => rfl, rfl, rfl, rfl, hb⟩

/-- Register updates change no element. -/
theorem State.frame.of_regs (hregs : ∀ r, W r = false → readReg t r = readReg s r)
    (hstatus : W .status = false → t.status = s.status) (hqueue : t.queue = s.queue) (hseen : t.seen = s.seen)
    (hpower : t.powerUp = s.powerUp) (hbufs : t.bufs = s.bufs) : s.frame W B t := by
  refine ⟨hregs, hstatus, hqueue, hseen, hpower, fun sp k ht hq _ => ?_⟩
  cases sp
  case text => exact absurd rfl ht
  case qcount => exact absurd rfl hq
  all_goals simp only [State.holds, hbufs]

end Frames

/-- The registers the pseudocode of a command may write: its results, and `STATUS` where it sets the mode (R25). -/
def bodyWrites (i : Instr) (r : Reg) : Bool := mayWriteReg i r || (r == .status && mayChangeMode i)

/-- Element ranges of a stage over `n` elements: the tables whole, `GROUP` up to `g` (R31). -/
def rangeBelow (g n : Nat) : Space → Nat
  | .group => g
  | .freq | .mtfl => Config.nsym
  | .cum => Config.nsym + 1
  | .data | .xf | .sym | .suf | .rank | .next | .text | .qcount => n

theorem rangeBelow_mono {g g' n n' : Nat} (hg : g ≤ g') (hn : n ≤ n') : rangeBelow g n ≤ rangeBelow g' n' := by
  intro sp
  cases sp
  case group => exact hg
  case freq | mtfl | cum => exact Nat.le_refl _
  all_goals exact hn

theorem holds_storeFrom_beyond {w : Nat} (sp : Space) (vs : List Nat) (m : Memory w) {k : Nat} (h : vs.length ≤ k) :
    ((storeFrom sp 0 vs m).peek (unlisted sp w) k).map BitVec.toNat = (m.peek (unlisted sp w) k).map BitVec.toNat := by
  rw [peek_storeFrom_other sp 0 k vs m (.inr (by omega))]

/-! ### Registers under each assignment -/

theorem ne_of_outside {W : Reg → Bool} {r r' : Reg} (hr : W r = false) (hr' : W r' = true) : r ≠ r' := by
  rintro rfl
  exact absurd (hr.symm.trans hr') (by decide)

theorem readReg_setStep (s : State) (v : Reg64) {r : Reg} (h : r ≠ .step) : readReg { s with sortStep := v } r = readReg s r := by
  cases r
  case step => exact absurd rfl h
  all_goals rfl

theorem readReg_setN (s : State) (v : Reg64) {r : Reg} (h : r ≠ .n) : readReg { s with n := v } r = readReg s r := by
  cases r
  case n => exact absurd rfl h
  all_goals rfl

theorem readReg_setBidx (s : State) (v : Reg64) {r : Reg} (h : r ≠ .bidx) : readReg { s with bidx := v } r = readReg s r := by
  cases r
  case bidx => exact absurd rfl h
  all_goals rfl

theorem readReg_setRes (s : State) (v : Reg64) {r : Reg} (h : r ≠ .res) : readReg { s with res := v } r = readReg s r := by
  cases r
  case res => exact absurd rfl h
  all_goals rfl

theorem readReg_withMode (s : State) (m : RcMode) {r : Reg} (h : r ≠ .status) : readReg (s.withMode m) r = readReg s r := by
  cases r
  case status => exact absurd rfl h
  all_goals rfl

/-- The encoder reaches its own registers only (R23). -/
theorem readReg_withCoder_of_sameParser (s : State) {c : Coder} (hc : s.coder.sameParser c) {r : Reg}
    (hr : mayWriteReg .rcenc r = false) : readReg (s.withCoder c) r = readReg s r := by
  obtain ⟨hpos, hacc, hcnt⟩ := hc
  cases r
  case tpos => exact hpos
  case iacc => exact hacc
  case icnt => exact hcnt
  case low | range | qpos | qlen | oacc | ocnt | ochars | tlen => cases hr
  all_goals rfl

/-- The decoder reaches its own registers only (R23). -/
theorem readReg_withCoder_of_sameEncoder (s : State) {c : Coder} (hc : s.coder.sameEncoder c) {r : Reg}
    (hr : mayWriteReg .rcscl r = false) : readReg (s.withCoder c) r = readReg s r := by
  obtain ⟨hpos, hlen, -, hacc, hcnt, hchars, htlen, -⟩ := hc
  cases r
  case qpos => exact hpos
  case qlen => exact hlen
  case oacc => exact hacc
  case ocnt => exact hcnt
  case ochars => exact hchars
  case tlen => exact htlen
  case low | range | tpos | iacc | icnt => cases hr
  all_goals rfl

/-! ### The buffer stages -/

/-- `GROUP` is written to its sentinel, and not at all for `N = 0` (R101, R110). -/
def groupBelow (n : Nat) : Nat := if n = 0 then 0 else n + 1

theorem checkLength_confines (s : State) (n : Nat) (W : Reg → Bool) (B : Space → Nat) :
    Run.ends (fun _ => True) (fun _ => s.frame W B) (checkLength s n) :=
  checkLength_ends s n (fun _ => trivial) (.refl s)

theorem sortBody_confines (s : State) :
    s.confines (bodyWrites .sort) (rangeBelow (groupBelow s.n.toNat) s.n.toNat) (sortBody s) := by
  have hstep : ∀ v, s.frame (bodyWrites .sort) (rangeBelow (groupBelow s.n.toNat) s.n.toNat) { s with sortStep := v } :=
    fun v => .of_regs (fun r hr => readReg_setStep s v (ne_of_outside hr rfl)) (fun _ => rfl) rfl rfl rfl rfl
  refine Run.ends_bind (checkLength_confines ..) fun _ _ => ?_
  dsimp only
  split
  · exact hstep 1
  · rename_i hn
    obtain ⟨hsuf, hrank, hgroup⟩ :=
      sortBytes_sized (fetchPrefix .data s.powerUp s.bufs.data s.n.toNat) (fetchPrefix_lt_nsym _ _ _ _)
    rw [fetchPrefix_length] at hsuf hrank hgroup
    refine (hstep (reg64 (sortBytes (fetchPrefix .data s.powerUp s.bufs.data s.n.toNat)).1)).trans
      (.withBufs { s with sortStep := _ } _ fun sp k _ _ hk => ?_)
    cases sp
    case suf => exact holds_storeFrom_beyond _ _ _ (hsuf.le.trans hk)
    case rank => exact holds_storeFrom_beyond _ _ _ (hrank.le.trans hk)
    case group =>
      have hk : groupBelow s.n.toNat ≤ k := hk
      rw [groupBelow, if_neg hn] at hk
      exact holds_storeFrom_beyond _ _ _ (hgroup.le.trans hk)
    all_goals rfl

theorem bwtfBody_confines (s : State) :
    s.confines (bodyWrites .bwtf) (rangeBelow (groupBelow s.n.toNat) s.n.toNat) (bwtfBody s) := by
  refine Run.ends_bind (checkLength_confines ..) fun _ _ => ?_
  refine Run.ends_bind ((sortBody_confines s).mono (fun r => by cases r <;> decide) le_rfl) fun t ht => ?_
  have hbidx : ∀ v, t.frame (bodyWrites .bwtf) (rangeBelow (groupBelow s.n.toNat) s.n.toNat) { t with bidx := v } := fun v =>
    .of_regs (fun r hr => readReg_setBidx t v (ne_of_outside hr rfl)) (fun _ => rfl) rfl rfl rfl rfl
  refine ht.trans ((hbidx (reg64 (bwtIndex (fetchPrefix .suf t.powerUp t.bufs.suf s.n.toNat)))).trans
    (.withBufs { t with bidx := _ } _ fun sp k _ _ hk => ?_))
  cases sp
  case xf => exact holds_storeFrom_beyond _ _ _ (by rw [bwtForward, List.length_map, fetchPrefix_length]; exact hk)
  all_goals rfl

theorem bwtiBody_confines (s : State) : s.confines (bodyWrites .bwti) (rangeBelow 0 s.n.toNat) (bwtiBody s) := by
  refine Run.ends_bind (checkLength_confines ..) fun _ _ => ?_
  dsimp only
  split
  · exact .refl s
  · split
    · exact .refl s
    · refine .withBufs _ _ fun sp k _ _ hk => ?_
      cases sp
      case next =>
        refine holds_storeFrom_beyond _ _ _ ?_
        rw [buildNext_length _ (fetchPrefix_lt_nsym _ _ _ _), fetchPrefix_length]
        exact hk
      case data => exact holds_storeFrom_beyond _ _ _ (by rw [bwtWalk_length]; exact hk)
      all_goals rfl

theorem mtfeBody_confines (s : State) : s.confines (bodyWrites .mtfe) (rangeBelow 0 s.n.toNat) (mtfeBody s) := by
  refine Run.ends_bind (checkLength_confines ..) fun _ _ => ?_
  obtain ⟨hcodes, hfinal⟩ :=
    mtfEncode_lengths (fetchPrefix .xf s.powerUp s.bufs.xf s.n.toNat) _ (.refl _) (fetchPrefix_lt_nsym _ _ _ _)
  rw [fetchPrefix_length] at hcodes
  refine .withBufs _ _ fun sp k _ _ hk => ?_
  cases sp
  case sym => exact holds_storeFrom_beyond _ _ _ (hcodes.le.trans hk)
  case mtfl => exact holds_storeFrom_beyond _ _ _ (hfinal.le.trans hk)
  all_goals rfl

theorem mtfdBody_confines (s : State) : s.confines (bodyWrites .mtfd) (rangeBelow 0 s.n.toNat) (mtfdBody s) := by
  refine Run.ends_bind (checkLength_confines ..) fun _ _ => ?_
  obtain ⟨hbytes, hfinal⟩ :=
    mtfDecode_lengths (fetchPrefix .sym s.powerUp s.bufs.sym s.n.toNat) _ (.refl _) (fetchPrefix_lt_nsym _ _ _ _)
  rw [fetchPrefix_length] at hbytes
  refine .withBufs _ _ fun sp k _ _ hk => ?_
  cases sp
  case xf => exact holds_storeFrom_beyond _ _ _ (hbytes.le.trans hk)
  case mtfl => exact holds_storeFrom_beyond _ _ _ (hfinal.le.trans hk)
  all_goals rfl

/-- `build_cum` writes the 257 entries of `CUM` (R201). -/
theorem buildCum_frame {W : Reg → Bool} {B : Space → Nat} (s : State) (hB : Config.nsym + 1 ≤ B .cum) :
    s.frame W B (buildCum s) := by
  have hlen : (cumulate 0 s.freqTable).length = Config.nsym + 1 := by
    rw [cumulate_length, State.freqTable, fetchPrefix_length]
  unfold buildCum
  refine .withBufs s _ fun sp k _ _ hk => ?_
  cases sp <;> simp only [State.holds, State.withBufs_bufs, State.withBufs_coder]
  exact holds_storeFrom_beyond .cum _ _ (hlen.le.trans (hB.trans hk))

theorem freqBody_confines (s : State) : s.confines (bodyWrites .freq) (rangeBelow 0 s.n.toNat) (freqBody s) := by
  refine Run.ends_bind (checkLength_confines ..) fun _ _ => ?_
  have hlen : (countSymbols (fetchPrefix .sym s.powerUp s.bufs.sym s.n.toNat)).length = Config.nsym := by
    rw [countSymbols, List.length_map, List.length_range]
  refine State.frame.trans (.withBufs s _ fun sp k _ _ hk => ?_) (buildCum_frame _ (Nat.le_refl _))
  cases sp <;> simp only [State.holds, State.withBufs_bufs, State.withBufs_coder]
  exact holds_storeFrom_beyond .freq _ _ (hlen.le.trans hk)

/-! ### The coder's stages -/

section Coder

variable {W : Reg → Bool} {B : Space → Nat}

theorem State.frame.withCoder_of_sameParser (s : State) {c : Coder} (hc : s.coder.sameParser c)
    (hW : mayWriteReg .rcenc ≤ W) : s.frame W B (s.withCoder c) :=
  .of_regs (fun r hr => readReg_withCoder_of_sameParser s hc (Bool.eq_false_of_le_false (hr ▸ hW r))) (fun _ => rfl) rfl rfl
    rfl rfl

theorem State.frame.withCoder_of_sameEncoder (s : State) {c : Coder} (hc : s.coder.sameEncoder c)
    (hW : mayWriteReg .rcscl ≤ W) : s.frame W B (s.withCoder c) :=
  .of_regs (fun r hr => readReg_withCoder_of_sameEncoder s hc (Bool.eq_false_of_le_false (hr ▸ hW r))) (fun _ => rfl) rfl rfl
    rfl rfl

theorem State.frame.withMode (s : State) (m : RcMode) (hW : W .status = true) : s.frame W B (s.withMode m) :=
  .of_regs (fun r hr => readReg_withMode s m (ne_of_outside hr hW)) (fun h => absurd (h.symm.trans hW) (by decide)) rfl rfl rfl
    rfl

theorem frame_keptByEncode (s : State) (hW : mayWriteReg .rcenc ≤ W) :
    KeptByEncode (s.frame W B) fun _ => s.frame W B where
  fault _ _ _ h := h
  encode t lo hi den h := by
    refine Run.ends_bind (checkMode_ends t _ (fun _ => trivial) h) fun _ _ => onCoder_ends ?_
    have hframe := (Run.leaves_iff_ends ..).mp (encode64_sameParser t.cfgTmax.toNat lo hi den t.coder)
    exact Run.ends_mono hframe (fun c hc => h.trans (.withCoder_of_sameParser t hc hW))
      fun _ c hc => h.trans (.withCoder_of_sameParser t hc hW)

theorem frame_keptByDecode (s : State) (hW : mayWriteReg .rcscl ≤ W) :
    KeptByDecode (s.frame W B) fun _ => s.frame W B where
  fault _ _ _ h := h
  decode t den h := by
    refine Run.ends_bind (checkMode_ends t _ (fun _ => trivial) h) fun _ _ => onCoderValue_ends ?_
    have hframe := (Run.leaves_iff_ends ..).mp (decode64_sameEncoder t.port den t.coder)
    exact Run.ends_mono hframe (fun c hc => h.trans (.withCoder_of_sameEncoder t hc hW))
      fun _ c hc => h.trans (.withCoder_of_sameEncoder t hc hW)
  scale t lo hi den h := by
    refine Run.ends_bind (checkMode_ends t _ (fun _ => trivial) h) fun _ _ => onCoder_ends ?_
    have hframe := (Run.leaves_iff_ends ..).mp (scale64_sameEncoder t.port lo hi den t.coder)
    exact Run.ends_mono hframe (fun c hc => h.trans (.withCoder_of_sameEncoder t hc hW))
      fun _ c hc => h.trans (.withCoder_of_sameEncoder t hc hW)

/-- One element stored inside the range (R206, R207). -/
theorem holds_store_other {w : Nat} (sp : Space) (i : Nat) (v : BitVec w) (m : Memory w) {k : Nat} (h : k ≠ i) :
    ((store sp i v m).peek (unlisted sp w) k).map BitVec.toNat = (m.peek (unlisted sp w) k).map BitVec.toNat := by
  rw [store, Memory.peek_put_other _ _ _ _ _ h]

theorem frame_keptByHeader (s : State) (hn : W .n = true) (hb : W .bidx = true) (hfreq : Config.nsym ≤ B .freq)
    (hcum : Config.nsym + 1 ≤ B .cum) : KeptByHeader (s.frame W B) where
  n t v h := h.trans (.of_regs (fun r hr => readReg_setN t v (ne_of_outside hr hn)) (fun _ => rfl) rfl rfl rfl rfl)
  bidx t v h := h.trans (.of_regs (fun r hr => readReg_setBidx t v (ne_of_outside hr hb)) (fun _ => rfl) rfl rfl rfl rfl)
  freq t c f hc h := by
    refine h.trans (.withBufs _ _ fun sp k _ _ hk => ?_)
    cases sp
    case freq => exact holds_store_other _ _ _ _ (by have hk : B .freq ≤ k := hk; omega)
    all_goals rfl
  cum t h := h.trans (buildCum_frame t hcum)

theorem hdrdBody_confines (s : State) : s.confines (bodyWrites .hdrd) (rangeBelow 0 0) (hdrdBody s) :=
  (frame_keptByDecode s fun r => by cases r <;> decide).hdrdBody
    (frame_keptByHeader s rfl rfl (Nat.le_refl _) (Nat.le_refl _)) s (.refl s)

theorem symdBody_confines (s : State) : s.confines (bodyWrites .symd) (rangeBelow 0 s.n.toNat) (symdBody s) := by
  refine (frame_keptByDecode s fun r => by cases r <;> decide).symdBody s (fun t i c hi ht => ?_) (.refl s)
  refine ht.trans (.withBufs _ _ fun sp k _ _ hk => ?_)
  cases sp
  case sym => exact holds_store_other _ _ _ _ (by have hk : s.n.toNat ≤ k := hk; omega)
  all_goals rfl

theorem rcdecBody_confines (s : State) : s.confines (bodyWrites .rcdec) B (rcdecBody s) := by
  refine Run.ends_bind ((frame_keptByDecode s fun r => by cases r <;> decide).decode s _ (.refl s)) ?_
  rintro ⟨v, t⟩ ht
  exact ht.trans (.of_regs (fun r hr => readReg_setRes t _ (ne_of_outside hr rfl)) (fun _ => rfl) rfl rfl rfl rfl)

/-- The encoder and the decoder start from fresh coder registers; `RCDI` keeps `TLEN` (R155, R168). -/
theorem rceiBody_confines (s : State) : s.confines (bodyWrites .rcei) B (rceiBody s) := by
  refine State.frame.trans (t := s.withCoder { Coder.atReset s.coder.text with range := reg64 Config.norm })
    (.of_regs (fun r hr => ?_) (fun _ => rfl) rfl rfl rfl rfl) (.withMode _ _ rfl)
  cases r
  case low | range | qpos | qlen | oacc | ocnt | ochars | tlen | tpos | iacc | icnt => cases hr
  all_goals rfl

theorem rcdiBody_confines (s : State) : s.confines (bodyWrites .rcdi) B (rcdiBody s) := by
  unfold rcdiBody
  split
  · exact .refl s
  · refine State.frame.trans (t := s.withCoder { Coder.atReset s.coder.text with range := 1, tlen := s.coder.tlen })
      (.of_regs (fun r hr => ?_) (fun _ => rfl) rfl rfl rfl rfl) (.withMode _ _ rfl)
    cases r
    case low | range | qpos | qlen | oacc | ocnt | ochars | tpos | iacc | icnt => cases hr
    all_goals rfl

theorem rcfinBody_confines (s : State) : s.confines (bodyWrites .rcfin) B (rcfinBody s) := by
  unfold rcfinBody
  split
  · exact .refl s
  · exact .refl s
  · exact .withMode s _ rfl
  · refine Run.ends_bind (ok := s.frame (bodyWrites .rcfin) B) (onCoder_ends ?_) fun t ht => ht.trans (.withMode t _ rfl)
    have hframe := (Run.leaves_iff_ends ..).mp (finish64_sameParser s.cfgTmax.toNat s.coder)
    exact Run.ends_mono hframe (fun c hc => .withCoder_of_sameParser s hc fun r => by cases r <;> decide)
      fun _ c hc => .withCoder_of_sameParser s hc fun r => by cases r <;> decide

end Coder

/-! ### The composite commands -/

theorem rcfinBody_of_decoding {s : State} (h : s.status.rcmode = .decoding) :
    rcfinBody s = .ok (s.withMode .finished) := by simp only [rcfinBody, h]

theorem rcdiBody_mode (s : State) :
    Run.ends (fun t => t.status.rcmode = .decoding) (fun _ _ => True) (rcdiBody s) := by
  unfold rcdiBody
  split
  · exact trivial
  · rfl

theorem bodyWrites_le_comp : ∀ i ∈ compStages, bodyWrites i ≤ bodyWrites .comp := by
  intro i hi r
  revert i
  cases r <;> decide

/-- The stages of `DECOMP` but `RCFIN`, which could write the encoder's registers from another mode. -/
theorem bodyWrites_le_decomp : ∀ i ∈ [Instr.rcdi, .hdrd, .symd, .mtfd, .bwti], bodyWrites i ≤ bodyWrites .decomp := by
  intro i hi r
  revert i
  cases r <;> decide

theorem compBody_confines (s : State) :
    s.confines (bodyWrites .comp) (rangeBelow (groupBelow s.n.toNat) s.n.toNat) (compBody s) := by
  have hrange {t : State} (ht : s.frame (bodyWrites .comp) (rangeBelow (groupBelow s.n.toNat) s.n.toNat) t) :
      rangeBelow 0 t.n.toNat ≤ rangeBelow (groupBelow s.n.toNat) s.n.toNat := by
    have hn : t.n = s.n := ht.regs .n rfl
    exact rangeBelow_mono (Nat.zero_le _) (hn ▸ Nat.le_refl _)
  have hencode : KeptByEncode (s.frame (bodyWrites .comp) (rangeBelow (groupBelow s.n.toNat) s.n.toNat)) _ :=
    frame_keptByEncode s fun r => by cases r <;> decide
  refine Run.ends_bind ((bwtfBody_confines s).mono (bodyWrites_le_comp .bwtf (by decide)) le_rfl) fun t ht => ?_
  refine Run.ends_bind (ht.extend (mtfeBody_confines t) (bodyWrites_le_comp .mtfe (by decide)) (hrange ht)) fun t ⟨ht, _⟩ => ?_
  refine Run.ends_bind (ht.extend (freqBody_confines t) (bodyWrites_le_comp .freq (by decide)) (hrange ht)) fun t ⟨ht, _⟩ => ?_
  refine Run.ends_bind (ht.extend (rceiBody_confines t) (bodyWrites_le_comp .rcei (by decide)) le_rfl) fun t ⟨ht, _⟩ => ?_
  refine Run.ends_bind (hencode.hdreBody t ht) fun t ht => Run.ends_bind (hencode.symeBody t ht) fun t ht => ?_
  exact Run.ends_mono (ht.extend (rcfinBody_confines t) (bodyWrites_le_comp .rcfin (by decide)) le_rfl)
    (fun _ hu => hu.1) fun _ _ hu => hu

/-- The stages of `DECOMP` after the header: `N` is fixed, and `RCFIN` only sets the mode. -/
theorem decompTail_confines (s : State) (hmode : s.status.rcmode = .decoding) :
    s.confines (bodyWrites .rcdi) (rangeBelow 0 s.n.toNat)
      (do let s ← symdBody s; let s ← rcfinBody s; let s ← mtfdBody s; bwtiBody s) := by
  have hrange {t : State} (ht : s.frame (bodyWrites .rcdi) (rangeBelow 0 s.n.toNat) t) :
      rangeBelow 0 t.n.toNat ≤ rangeBelow 0 s.n.toNat := by
    have hn : t.n = s.n := ht.regs .n rfl
    exact rangeBelow_mono (Nat.le_refl _) (hn ▸ Nat.le_refl _)
  have hW : ∀ i ∈ [Instr.symd, .mtfd, .bwti], bodyWrites i ≤ bodyWrites .rcdi := by
    intro i hi r
    revert i
    cases r <;> decide
  have h0 : s.frame (bodyWrites .rcdi) (rangeBelow 0 s.n.toNat) s := .refl s
  refine Run.ends_bind (h0.extend (symdBody_confines s) (hW .symd (by decide)) le_rfl) fun t ⟨ht, hst⟩ => ?_
  rw [rcfinBody_of_decoding (by rw [hst.status rfl, hmode]), Run.ok_bind]
  have ht : s.frame (bodyWrites .rcdi) (rangeBelow 0 s.n.toNat) (t.withMode .finished) := ht.trans (.withMode t _ rfl)
  refine Run.ends_bind (ht.extend (mtfdBody_confines _) (hW .mtfd (by decide)) (hrange ht)) fun u ⟨hu, _⟩ => ?_
  exact Run.ends_mono (hu.extend (bwtiBody_confines u) (hW .bwti (by decide)) (hrange hu)) (fun _ hv => hv.1) fun _ _ hv => hv

/-- `DECOMP` writes elements below the `N` it leaves: before the header is decoded, only tables; after it, `N` is fixed. -/
theorem decompBody_confines (s : State) :
    Run.ends (fun u => s.frame (bodyWrites .decomp) (rangeBelow 0 u.n.toNat) u)
      (fun _ u => s.frame (bodyWrites .decomp) (rangeBelow 0 u.n.toNat) u) (decompBody s) := by
  have htables (u : State) : rangeBelow 0 0 ≤ rangeBelow 0 u.n.toNat := rangeBelow_mono (Nat.le_refl _) (Nat.zero_le _)
  have hrcdi := bodyWrites_le_decomp .rcdi (by decide)
  refine Run.ends_bind (Run.ends_mono (Run.ends_and (rcdiBody_confines (B := rangeBelow 0 0) s) (rcdiBody_mode s))
    (fun _ ht => ht) fun _ u hu => hu.1.mono hrcdi (htables u)) fun t ⟨ht, hmode⟩ => ?_
  have ht := ht.mono hrcdi (le_refl (rangeBelow 0 0))
  refine Run.ends_bind (Run.ends_mono (ht.extend (hdrdBody_confines t) (bodyWrites_le_decomp .hdrd (by decide)) le_rfl)
    (fun _ hu => hu) fun _ u hu => hu.mono le_rfl (htables u)) fun u ⟨hu, htu⟩ => ?_
  have htail : ∀ v, u.frame (bodyWrites .rcdi) (rangeBelow 0 u.n.toNat) v →
      s.frame (bodyWrites .decomp) (rangeBelow 0 v.n.toNat) v := fun v hv => by
    have hn : v.n = u.n := hv.regs .n rfl
    rw [hn]
    exact (hu.mono le_rfl (htables u)).trans (hv.mono hrcdi le_rfl)
  exact Run.ends_mono (decompTail_confines u (by rw [htu.status rfl, hmode])) htail fun _ => htail

/-! ### Every command -/

theorem rangeBelow_le_writtenBelow (i : Instr) (s t : State) (hi : i ≠ .decomp) :
    rangeBelow (groupBelow s.n.toNat) s.n.toNat ≤ writtenBelow i s t := by
  intro sp
  cases sp
  case group | freq | mtfl | cum => exact Nat.le_refl _
  all_goals
    cases i
    case decomp => exact absurd rfl hi
    all_goals exact Nat.le_refl _

theorem rangeBelow_le_writtenBelow_decomp (s t : State) : rangeBelow 0 t.n.toNat ≤ writtenBelow .decomp s t := by
  intro sp
  cases sp
  case group => exact Nat.zero_le _
  all_goals exact Nat.le_refl _

/-- A command but `DECOMP` and `RESET` writes below the ranges of the `N` it was issued with. -/
theorem commandBody_confines (i : Instr) (s : State) (hi : i ≠ .reset) (hd : i ≠ .decomp) :
    s.confines (bodyWrites i) (rangeBelow (groupBelow s.n.toNat) s.n.toNat) (commandBody i s) := by
  have hbuffers : rangeBelow 0 s.n.toNat ≤ rangeBelow (groupBelow s.n.toNat) s.n.toNat :=
    rangeBelow_mono (Nat.zero_le _) (Nat.le_refl _)
  cases i with
  | reset => exact absurd rfl hi
  | decomp => exact absurd rfl hd
  | nop => exact .refl s
  | sort => exact sortBody_confines s
  | bwtf => exact bwtfBody_confines s
  | bwti => exact (bwtiBody_confines s).mono le_rfl hbuffers
  | mtfe => exact (mtfeBody_confines s).mono le_rfl hbuffers
  | mtfd => exact (mtfdBody_confines s).mono le_rfl hbuffers
  | rcei => exact rceiBody_confines s
  | rcdi => exact rcdiBody_confines s
  | rcenc => exact (frame_keptByEncode s fun r => by cases r <;> decide).encode s _ _ _ (.refl s)
  | rcdec => exact rcdecBody_confines s
  | rcscl => exact (frame_keptByDecode s fun r => by cases r <;> decide).scale s _ _ _ (.refl s)
  | rcfin => exact rcfinBody_confines s
  | freq => exact (freqBody_confines s).mono le_rfl hbuffers
  | hdre => exact (frame_keptByEncode s fun r => by cases r <;> decide).hdreBody s (.refl s)
  | syme => exact (frame_keptByEncode s fun r => by cases r <;> decide).symeBody s (.refl s)
  | hdrd => exact (hdrdBody_confines s).mono le_rfl (rangeBelow_mono (Nat.zero_le _) (Nat.zero_le _))
  | symd => exact (symdBody_confines s).mono le_rfl hbuffers
  | comp => exact compBody_confines s

/-- Wherever the pseudocode of a command ends, it stayed within the command's frame. -/
theorem commandBody_frame (i : Instr) (s : State) (hi : i ≠ .reset) :
    Run.ends (fun u => s.frame (bodyWrites i) (writtenBelow i s u) u)
      (fun _ u => s.frame (bodyWrites i) (writtenBelow i s u) u) (commandBody i s) := by
  by_cases hd : i = .decomp
  · subst hd
    exact Run.ends_mono (decompBody_confines s) (fun u hu => hu.mono le_rfl (rangeBelow_le_writtenBelow_decomp s u))
      fun _ u hu => hu.mono le_rfl (rangeBelow_le_writtenBelow_decomp s u)
  · exact Run.ends_mono (commandBody_confines i s hi hd) (fun u hu => hu.mono le_rfl (rangeBelow_le_writtenBelow i s u hd))
      fun _ u hu => hu.mono le_rfl (rangeBelow_le_writtenBelow i s u hd)

end Sys2Proof.Machine
end

section
/-! PROOFS. The frame and the mode of every command. Settles O13, O15 and O17. -/

namespace Sys2Proof.Machine

/-! ### The frame of a command (R12, R23, R24, R28, R31) -/

/-- The flag registers a command writes around its pseudocode (R82, R252). -/
theorem readReg_startCommand (s : State) {r : Reg} (h : commandRegs r = false) : readReg s.startCommand r = readReg s r := by
  cases r
  case status | fault | finfo | cmdcnt => cases h
  all_goals rfl

theorem readReg_complete (s : State) {r : Reg} (h : commandRegs r = false) : readReg s.complete r = readReg s r := by
  cases r
  case status | fault | finfo | cmdcnt => cases h
  all_goals rfl

theorem readReg_takeFault (s : State) (code : FaultCode) (info : Reg64) {r : Reg} (h : commandRegs r = false) :
    readReg (s.takeFault code info) r = readReg s r := by
  cases r
  case status | fault | finfo | cmdcnt => cases h
  all_goals rfl

theorem readReg_softReset (s : State) {r : Reg} (h : mayWriteReg .reset r = false) : readReg s.softReset r = readReg s r := by
  cases r
  case cfgNmax | cfgTmax | cfgBits | cfgQcap | cfgThresh | cfgLine | cfgLenden => rfl
  all_goals cases h

/-- The registers a command may write: its results, the mode, and the flags of its end. -/
def execWrites (i : Instr) (r : Reg) : Bool := bodyWrites i r || commandRegs r

theorem execWrites_eq_false (i : Instr) {r : Reg} (hr : mayWriteReg i r = false) (hflags : commandRegs r = false) :
    execWrites i r = false := by
  have hstatus : (r == .status) = false := by
    cases r
    case status => cases hflags
    all_goals rfl
  simp [execWrites, bodyWrites, hr, hflags, hstatus]

/-- A command but `RESET` stays within its frame, whether it is ignored, completes or faults. -/
theorem exec_frame (i : Instr) (s t : State) (hi : i ≠ .reset) (h : exec i s = .next t) :
    s.frame (execWrites i) (writtenBelow i s t) t := by
  have hbody : bodyWrites i ≤ execWrites i := fun r => Bool.left_le_or _ _
  have hflags {r : Reg} (hr : execWrites i r = false) : commandRegs r = false := (Bool.or_eq_false_iff.mp hr).2
  have hstatus : ¬ execWrites i .status = false := fun hr => absurd (hflags hr) (by decide)
  have hstart {B : Space → Nat} : s.frame (execWrites i) B s.startCommand :=
    .of_regs (fun r hr => readReg_startCommand s (hflags hr)) (fun hr => absurd hr hstatus) rfl rfl rfl rfl
  rcases exec_next_cases hi h fun _ => commandBody_frame i s.startCommand hi with
    ⟨-, rfl⟩ | ⟨-, u, hu, -, rfl⟩ | ⟨-, code, info, u, hu, rfl⟩
  · exact .refl t
  · refine hstart.trans ((hu.mono hbody le_rfl).trans ?_)
    exact .of_regs (fun r hr => readReg_complete u (hflags hr)) (fun hr => absurd hr hstatus) rfl rfl rfl rfl
  · refine hstart.trans ((hu.mono hbody le_rfl).trans ?_)
    exact .of_regs (fun r hr => readReg_takeFault u code info (hflags hr)) (fun hr => absurd hr hstatus) rfl rfl rfl rfl

/-! ### The mode (R25) -/

theorem bodyWrites_status (i : Instr) (hi : i ≠ .reset) : bodyWrites i .status = mayChangeMode i := by
  cases i
  case reset => exact absurd rfl hi
  all_goals rfl

theorem exec_keeps_mode (i : Instr) (s t : State) (hm : mayChangeMode i = false) (h : exec i s = .next t) :
    t.status.rcmode = s.status.rcmode := by
  have hi : i ≠ .reset := by
    rintro rfl
    cases hm
  have hstatus : bodyWrites i .status = false := (bodyWrites_status i hi).trans hm
  rcases exec_next_cases hi h fun _ => commandBody_frame i s.startCommand hi with
    ⟨-, rfl⟩ | ⟨-, u, hu, -, rfl⟩ | ⟨-, code, info, u, hu, rfl⟩
  · rfl
  · have hmode : u.status.rcmode = s.status.rcmode := by rw [hu.status hstatus, State.startCommand_status]
    exact hmode
  · have hmode : u.status.rcmode = s.status.rcmode := by rw [hu.status hstatus, State.startCommand_status]
    exact hmode

theorem Run.ends_trivial {σ α : Type} (x : Run σ α) : Run.ends (fun _ => True) (fun _ _ => True) x := by
  rcases x with e | a
  · cases e <;> exact trivial
  · exact trivial

theorem rcfinBody_mode (s : State) :
    Run.ends (fun t => t.status.rcmode = .finished ∧ s.status.rcmode ≠ .idle) (fun _ _ => True) (rcfinBody s) := by
  unfold rcfinBody
  split
  · exact trivial
  · rename_i hmode
    exact ⟨hmode, by rw [hmode]; decide⟩
  · rename_i hmode
    exact ⟨rfl, by rw [hmode]; decide⟩
  · rename_i hmode
    exact Run.ends_bind (Run.ends_trivial _) fun t _ => ⟨rfl, by rw [hmode]; decide⟩

theorem compBody_mode (s : State) : Run.ends (fun t => t.status.rcmode = .finished) (fun _ _ => True) (compBody s) := by
  refine Run.ends_bind (Run.ends_trivial _) fun s _ => Run.ends_bind (Run.ends_trivial _) fun s _ => ?_
  refine Run.ends_bind (Run.ends_trivial _) fun s _ => Run.ends_bind (Run.ends_trivial _) fun s _ => ?_
  refine Run.ends_bind (Run.ends_trivial _) fun s _ => Run.ends_bind (Run.ends_trivial _) fun s _ => ?_
  exact Run.ends_mono (rcfinBody_mode s) (fun _ ht => ht.1) fun _ _ h => h

/-- After its `RCFIN` the stages of `DECOMP` leave the mode alone. -/
theorem decompBody_mode (s : State) : Run.ends (fun t => t.status.rcmode = .finished) (fun _ _ => True) (decompBody s) := by
  refine Run.ends_bind (Run.ends_trivial _) fun s _ => Run.ends_bind (Run.ends_trivial _) fun s _ => ?_
  refine Run.ends_bind (Run.ends_trivial _) fun s _ => Run.ends_bind (rcfinBody_mode s) fun t ⟨ht, _⟩ => ?_
  refine Run.ends_bind (Run.ends_mono (mtfdBody_confines t) (fun _ hu => hu) fun _ _ _ => trivial) fun u hu => ?_
  refine Run.ends_mono (bwtiBody_confines u) (fun v hv => ?_) fun _ _ _ => trivial
  rw [hv.status rfl, hu.status rfl, ht]

/-- A command after which no fault is recorded completed, with what its pseudocode leaves when it runs to its last line. -/
theorem exec_completed {i : Instr} {s t : State} {P : State → Prop} (hi : i ≠ .reset) (h : exec i s = .next t)
    (hg : t.status.faulted = false) (hbody : Run.ends P (fun _ _ => True) (commandBody i s.startCommand)) :
    ∃ u, P u ∧ t = u.complete := by
  rcases exec_next_cases hi h fun _ => hbody with ⟨hf, rfl⟩ | ⟨-, u, hu, -, rfl⟩ | ⟨-, code, info, u, -, rfl⟩
  · exact absurd (hf.symm.trans hg) (by decide)
  · exact ⟨u, hu, rfl⟩
  · cases hg

end Sys2Proof.Machine

open Sys2Proof Sys2Proof.Machine

/-- Settles O13: a command stays within its frame, and `RESET` keeps the parameters. -/
theorem commandsChangeOnlyTheirResultRegisters : Obligations.CommandsChangeOnlyTheirResultRegisters := by
  intro i s t h
  by_cases hi : i = .reset
  · subst hi
    cases h
    exact ⟨fun r hr _ => readReg_softReset s hr, rfl, rfl, rfl⟩
  · have hframe := exec_frame i s t hi h
    exact ⟨fun r hr hflags => hframe.regs r (execWrites_eq_false i hr hflags), hframe.queue, hframe.seen, hframe.powerUp⟩

/-- Settles O15: the elements at or beyond the command's range are outside its frame. -/
theorem commandsKeepElementsBeyondTheirRange : Obligations.CommandsKeepElementsBeyondTheirRange := by
  intro i s t sp k h hi htext hqcount hk
  have hframe := exec_frame i s t hi h
  exact sameElem_of_holds hframe.powerUp (hframe.elems sp k htext hqcount hk)

/-- Settles O17: only the listed commands write the mode, and each leaves what R25 names when it runs to its last line. -/
theorem modeChangesOnlyAsR25Lists : Obligations.ModeChangesOnlyAsR25Lists := by
  refine ⟨fun i s t h => ⟨fun hm => exec_keeps_mode i s t hm h, fun hg => ⟨?_, ?_, ?_, ?_⟩, ?_⟩, fun _ _ _ _ => rfl⟩
  · rintro rfl
    obtain ⟨u, hu, rfl⟩ := exec_completed (P := fun u => u.status.rcmode = .encoding) (by decide) h hg rfl
    exact hu
  · rintro rfl
    obtain ⟨u, hu, rfl⟩ := exec_completed (by decide) h hg (rcdiBody_mode _)
    exact hu
  · rintro rfl
    obtain ⟨u, hu, rfl⟩ := exec_completed (by decide) h hg (rcfinBody_mode _)
    exact hu
  · rintro (rfl | rfl)
    · obtain ⟨u, hu, rfl⟩ := exec_completed (by decide) h hg (compBody_mode _)
      exact hu
    · obtain ⟨u, hu, rfl⟩ := exec_completed (by decide) h hg (decompBody_mode _)
      exact hu
  · rintro rfl
    cases h
    rfl
end

section
/-! PROOFS. The host's reads, and which host actions are refused (R21, R22, R60, R63, R64, R233, R236). Settles O10 and O12. -/

namespace Sys2Proof.Machine

/-! ### Register numbers -/

/-- The registers have the numbers of the map, and no other number names one (R21). -/
theorem mem_regNumbers_of_regOfNumber {k : Nat} {r : Reg} (h : regOfNumber k = some r) : (k, r) ∈ regNumbers := by
  obtain ⟨row, hfind, rfl⟩ := Option.map_eq_some_iff.mp h
  have hk : row.1 = k := by simpa using List.find?_some hfind
  exact hk ▸ List.mem_of_find?_eq_some hfind

theorem regOfNumber_eq_cmd_iff (k : Nat) : regOfNumber k = some .cmd ↔ k = 0x00 := by
  have hrows : ∀ row ∈ regNumbers, row.2 = .cmd → row.1 = 0x00 := by decide
  exact ⟨fun h => hrows _ (mem_regNumbers_of_regOfNumber h) rfl, fun h => h ▸ rfl⟩

theorem regOfNumber_eq_status_iff (k : Nat) : regOfNumber k = some .status ↔ k = 0x01 := by
  have hrows : ∀ row ∈ regNumbers, row.2 = .status → row.1 = 0x01 := by decide
  exact ⟨fun h => hrows _ (mem_regNumbers_of_regOfNumber h) rfl, fun h => h ▸ rfl⟩

/-! ### Reads -/

theorem readElem_withQueue (s : State) (rest : List HostAction) (sp : Space) (k : Nat) :
    readElem { s with queue := rest } sp k = readElem s sp k := by cases sp <;> rfl

theorem step_register_read (s : State) (reg : Nat) (r : Reg) (rest : List HostAction) (hbusy : s.status.busy = false)
    (hqueue : s.queue = .rd reg :: rest) (hreg : regOfNumber reg = some r) :
    step s = .next { s with queue := rest, seen := s.seen ++ [readReg s r] } := by
  rw [step_of_not_busy hbusy hqueue]
  simp only [performAction, hreg, State.answer, readReg_withQueue]

theorem step_element_read (s : State) (space i count : Nat) (sp : Space) (rest : List HostAction)
    (hbusy : s.status.busy = false) (hqueue : s.queue = .rdb space i count :: rest)
    (hspace : spaceOfNumber space = some sp) (hin : i + count ≤ spaceCount s.cfgNmax.toNat s.cfgTmax.toNat sp) :
    step s = .next { s with
      queue := rest, seen := s.seen ++ (List.range count).map (fun k => readElem s sp (i + k)) } := by
  have hrange : sp.inRange s.cfgNmax.toNat s.cfgTmax.toNat i count = true := by simp [Space.inRange, hin]
  rw [step_of_not_busy hbusy hqueue]
  simp only [performAction, hspace, hrange, if_true, State.answer, readElem_withQueue]

/-! ### The layout of `STATUS` (R22) -/

theorem modeNumber_lt (m : RcMode) : modeNumber m < 4 := by cases m <;> decide

theorem statusWord_toNat (st : Status) : (statusWord st).toNat =
    st.busy.toNat + 2 * st.done.toNat + 4 * st.faulted.toNat + 8 * modeNumber st.rcmode := by
  have hmode := modeNumber_lt st.rcmode
  have hbusy := Bool.toNat_le st.busy
  have hdone := Bool.toNat_le st.done
  have hfaulted := Bool.toNat_le st.faulted
  exact reg64_toNat _ (by omega)

/-- A bit of a word, from the word as a number. -/
theorem getLsbD_of_div_mod {w : Nat} {x : BitVec w} {k : Nat} {b : Bool} (h : x.toNat / 2 ^ k % 2 = b.toNat) :
    x.getLsbD k = b := by
  rw [← BitVec.testBit_toNat, Nat.testBit_eq_decide_div_mod_eq, h]
  cases b <;> rfl

theorem statusWord_layout (st : Status) :
    (statusWord st).getLsbD 0 = st.busy ∧ (statusWord st).getLsbD 1 = st.done ∧
    (statusWord st).getLsbD 2 = st.faulted ∧
    (statusWord st).toNat / 8 % 4 = modeNumber st.rcmode ∧ (statusWord st).toNat < 32 := by
  have hmode := modeNumber_lt st.rcmode
  have hbusy := Bool.toNat_le st.busy
  have hdone := Bool.toNat_le st.done
  have hfaulted := Bool.toNat_le st.faulted
  have hword := statusWord_toNat st
  refine ⟨getLsbD_of_div_mod ?_, getLsbD_of_div_mod ?_, getLsbD_of_div_mod ?_, ?_, ?_⟩ <;> omega

/-! ### Refusals (U5, U8, U9) -/

/-- Nothing but a read of `STATUS` is allowed while busy (R233). -/
theorem allowedWhileBusy_iff (a : HostAction) : allowedWhileBusy a = true ↔ a = .rd 0x01 := by
  cases a with
  | rd reg => simp [allowedWhileBusy, regOfNumber_eq_status_iff]
  | wr | wrb | rdb => simp [allowedWhileBusy]

/-- A well-formed action that issues no command is performed (R236). -/
theorem performAction_of_wellFormed (s : State) (a : HostAction) (hcmd : ∀ v, a ≠ .wr 0x00 v)
    (h : a.wellFormed s.cfgNmax.toNat s.cfgTmax.toNat = true) : ∃ t, performAction a s = .next t := by
  cases a with
  | wr reg v =>
    obtain ⟨r, hreg, hrw⟩ := (Option.any_eq_true _ _).mp h
    have hr : r ≠ .cmd := fun he => hcmd v (by rw [(regOfNumber_eq_cmd_iff reg).mp (he ▸ hreg)])
    exact ⟨writeReg s v r, by simp only [performAction, hreg, if_neg hr, hrw, if_true]⟩
  | rd reg =>
    obtain ⟨r, hreg⟩ := Option.isSome_iff_exists.mp h
    exact ⟨s.answer [readReg s r], by simp only [performAction, hreg]⟩
  | wrb space i vs =>
    cases hspace : spaceOfNumber space with
    | none => simp [HostAction.wellFormed, hspace] at h
    | some sp =>
      simp only [HostAction.wellFormed, hspace, Bool.and_eq_true] at h
      obtain ⟨⟨hrw, hin⟩, hfit⟩ := h
      exact ⟨writeElems s sp i (vs.map BitVec.toNat), by simp only [performAction, hspace, hrw, hin, hfit, if_true]⟩
  | rdb space i count =>
    cases hspace : spaceOfNumber space with
    | none => simp [HostAction.wellFormed, hspace] at h
    | some sp =>
      simp only [HostAction.wellFormed, hspace] at h
      exact ⟨_, by simp only [performAction, hspace, h, if_true]; rfl⟩

/-- An ill-formed action that issues no command is refused (U8, U9). -/
theorem performAction_of_not_wellFormed (s : State) (a : HostAction) (hcmd : ∀ v, a ≠ .wr 0x00 v)
    (h : a.wellFormed s.cfgNmax.toNat s.cfgTmax.toNat = false) : ∃ r, performAction a s = .refused r := by
  cases a with
  | wr reg v =>
    cases hreg : regOfNumber reg with
    | none => exact ⟨_, by simp only [performAction, hreg]; rfl⟩
    | some r =>
      have hr : r ≠ .cmd := fun he => hcmd v (by rw [(regOfNumber_eq_cmd_iff reg).mp (he ▸ hreg)])
      have hro : regHostWrites r = false := by simpa [HostAction.wellFormed, hreg] using h
      exact ⟨.readOnlyRegister r, by simp [performAction, hreg, hr, hro]⟩
  | rd reg =>
    have hreg : regOfNumber reg = none := by simpa [HostAction.wellFormed] using h
    exact ⟨.reservedRegister reg, by simp only [performAction, hreg]⟩
  | wrb space i vs =>
    cases hspace : spaceOfNumber space with
    | none => exact ⟨.reservedSpace space, by simp only [performAction, hspace]⟩
    | some sp =>
      simp only [performAction, hspace]
      split
      · rename_i hrw
        split
        · rename_i hin
          simp only [HostAction.wellFormed, hspace, hrw, hin, Bool.true_and] at h
          exact ⟨.valueTooWide sp, by simp [h]⟩
        · exact ⟨_, rfl⟩
      · exact ⟨_, rfl⟩
  | rdb space i count =>
    cases hspace : spaceOfNumber space with
    | none => exact ⟨.reservedSpace space, by simp only [performAction, hspace]⟩
    | some sp =>
      simp only [HostAction.wellFormed, hspace] at h
      exact ⟨.indexOutside sp, by simp [performAction, hspace, h]⟩

end Sys2Proof.Machine

open Sys2Proof Sys2Proof.Machine

/-- Settles O10: a read is `State.answer` on the state with the action taken off the queue, and `STATUS` is read as
`statusWord`. -/
theorem hostReadsReturnTheValueAndChangeNothing : Obligations.HostReadsReturnTheValueAndChangeNothing :=
  ⟨fun s rest hbusy =>
    ⟨fun reg r hqueue hreg => step_register_read s reg r rest hbusy hqueue hreg,
      fun space sp i count hqueue hspace hin => step_element_read s space i count sp rest hbusy hqueue hspace hin⟩,
    fun s => statusWord_layout s.status⟩

/-- Settles O12: with `BUSY` 0 the refusals of `performAction` are the failures of `wellFormed`; with `BUSY` 1 only a read of
`STATUS` is let through. -/
theorem hostActionRefusedExactlyWhenIllFormed : Obligations.HostActionRefusedExactlyWhenIllFormed := by
  refine ⟨fun s a hbusy hcmd => ?_, fun s a hbusy => ⟨?_, fun hne => ?_⟩⟩
  · have hstep : hostStep a s = performAction a s := by simp [hostStep, hbusy]
    rw [hstep]
    exact ⟨performAction_of_wellFormed s a hcmd, performAction_of_not_wellFormed s a hcmd⟩
  · rintro rfl
    exact ⟨s.answer [readReg s .status], by simp [hostStep, (allowedWhileBusy_iff _).mpr, performAction,
      (regOfNumber_eq_status_iff _).mpr]⟩
  · have hno : allowedWhileBusy a = false := by simpa [hne] using (allowedWhileBusy_iff a).not
    simp [hostStep, hbusy, hno]
end

section
/-! PROOFS. The spaces of the block as one family, and what stores at admitted indices keep of a space (R30, R31, R60, R63). -/

namespace Sys2Proof.Machine

/-! ### One space -/

section Memory

variable {w : Nat}

/-- From the memory `m` a space came to its contents by stores at indices that `A` admits; `QCOUNT` may have been cleared on the
way, which writes every slot of the ring (R155, R168, R231). -/
inductive Memory.storesTo (sp : Space) (A : Nat → Prop) (m : Memory w) : Memory w → Prop
  | refl : Memory.storesTo sp A m m
  | store {m' : Memory w} (i : Nat) (v : BitVec w) (hi : A i) (h : Memory.storesTo sp A m m') :
      Memory.storesTo sp A m (store sp i v m')
  | clear (hsp : sp = .qcount) (hA : ∀ k < Config.qcap, A k) : Memory.storesTo sp A m []

variable {sp : Space} {A A' : Nat → Prop} {m m' m'' : Memory w}

theorem Memory.storesTo.mono (h : Memory.storesTo sp A m m') (hA : ∀ k, A k → A' k) : Memory.storesTo sp A' m m' := by
  induction h with
  | refl => exact .refl
  | store i v hi _ ih => exact .store i v (hA i hi) ih
  | clear hsp hall => exact .clear hsp fun k hk => hA k (hall k hk)

theorem Memory.storesTo.trans (h : Memory.storesTo sp A m m') (h' : Memory.storesTo sp A m' m'') :
    Memory.storesTo sp A m m'' := by
  induction h' with
  | refl => exact h
  | store i v hi _ ih => exact .store i v hi ih
  | clear hsp hall => exact .clear hsp hall

theorem Memory.storesTo_storeFrom (i : Nat) (vs : List Nat) (hA : ∀ k, i ≤ k → k < i + vs.length → A k) :
    Memory.storesTo sp A m (storeFrom sp i vs m) := by
  induction vs generalizing i with
  | nil => exact .refl
  | cons v rest ih =>
    simp only [List.length_cons] at hA
    exact .store i _ (hA i (by omega) (by omega)) (ih (i + 1) fun k hk hlt => hA k (by omega) (by omega))

/-- Stores keep the canonical form. -/
theorem Memory.storesTo.wf (h : Memory.storesTo sp A m m') (hm : m.wf (unlisted sp w) = true) :
    m'.wf (unlisted sp w) = true := by
  induction h with
  | refl => exact hm
  | store i v _ _ ih => exact store_wf sp i v _ ih
  | clear => exact Memory.wf_nil _

/-- Stores below an element count keep every listed element below it. -/
theorem Memory.storesTo.within {count : Nat} (h : Memory.storesTo sp A m m') (hA : ∀ k, A k → k < count)
    (hm : m.within count = true) : m'.within count = true := by
  induction h with
  | refl => exact hm
  | store i v hi _ ih => exact Memory.put_within _ _ _ _ _ (hA i hi) ih
  | clear => rfl

/-- An index that is not admitted holds what it held, in a space but `QCOUNT`. -/
theorem Memory.storesTo.peek (h : Memory.storesTo sp A m m') (hsp : sp ≠ .qcount) {k : Nat} (hk : ¬ A k) :
    m'.peek (unlisted sp w) k = m.peek (unlisted sp w) k := by
  induction h with
  | refl => rfl
  | store i v hi _ ih =>
    have hne : k ≠ i := fun he => hk (he ▸ hi)
    rw [← ih]
    exact Memory.peek_put_other _ _ _ _ _ hne
  | clear hq => exact absurd hq hsp

/-- Where no index is admitted, nothing is stored. -/
theorem Memory.storesTo.eq_of_none (h : Memory.storesTo sp A m m') (hA : ∀ k, ¬ A k) : m' = m := by
  cases h with
  | refl => rfl
  | store i _ hi _ => exact absurd hi (hA i)
  | clear _ hall => exact absurd (hall 0 (by decide)) (hA 0)

end Memory

/-! ### The twelve spaces -/

/-- The memory of a space (R60). -/
def State.mem (s : State) : (sp : Space) → Memory (spaceWidth sp)
  | .data => s.bufs.data
  | .xf => s.bufs.xf
  | .sym => s.bufs.sym
  | .text => s.coder.text
  | .suf => s.bufs.suf
  | .rank => s.bufs.rank
  | .group => s.bufs.group
  | .next => s.bufs.next
  | .freq => s.bufs.freq
  | .cum => s.bufs.cum
  | .mtfl => s.bufs.mtfl
  | .qcount => s.coder.qcount

theorem State.holds_eq_peek (s : State) (sp : Space) (k : Nat) :
    s.holds sp k = ((s.mem sp).peek (unlisted sp (spaceWidth sp)) k).map BitVec.toNat := by cases sp <;> rfl

theorem State.memWf_iff_forall (s : State) :
    s.memWf = true ↔ ∀ sp, (s.mem sp).wf (unlisted sp (spaceWidth sp)) = true := by
  rw [State.memWf_iff]
  constructor
  · rintro ⟨hdata, hxf, hsym, htext, hsuf, hrank, hgroup, hnext, hfreq, hcum, hmtfl, hqcount⟩ sp
    cases sp <;> assumption
  · exact fun h => ⟨h .data, h .xf, h .sym, h .text, h .suf, h .rank, h .group, h .next, h .freq, h .cum, h .mtfl, h .qcount⟩

theorem State.memWithin_iff_forall (s : State) :
    s.memWithin = true ↔ ∀ sp, (s.mem sp).within (spaceCount s.cfgNmax.toNat s.cfgTmax.toNat sp) = true := by
  simp only [State.memWithin, Bool.and_eq_true, and_assoc]
  constructor
  · rintro ⟨hdata, hxf, hsym, htext, hsuf, hrank, hgroup, hnext, hfreq, hcum, hmtfl, hqcount⟩ sp
    cases sp <;> assumption
  · exact fun h => ⟨h .data, h .xf, h .sym, h .text, h .suf, h .rank, h .group, h .next, h .freq, h .cum, h .mtfl, h .qcount⟩

/-! ### What a stretch of pseudocode stores -/

/-- The indices of a space that a command issued in `s` may store at: those inside the element count and, in `QCOUNT`, the slot
`QPOS` names, which is inside wherever the registers are legal (R35, R151). -/
def State.canStore (s : State) (sp : Space) (k : Nat) : Prop :=
  k < spaceCount s.cfgNmax.toNat s.cfgTmax.toNat sp ∨ (sp = .qcount ∧ k = s.coder.qpos.toNat)

theorem State.canStore.lt_spaceCount {s : State} {sp : Space} {k : Nat} (h : s.canStore sp k)
    (hpos : s.coder.qpos.toNat < Config.qcap) : k < spaceCount s.cfgNmax.toNat s.cfgTmax.toNat sp := by
  rcases h with h | ⟨rfl, rfl⟩
  · exact h
  · exact hpos

/-- From `s` to `t` only elements of the spaces `W` were stored, at indices `s` admits; the parameters are as they were, and
`QPOS` names a slot of the ring or the one it named. -/
structure State.reaches (W : Space → Bool) (s t : State) : Prop where
  mem : ∀ sp, Memory.storesTo sp (fun k => W sp = true ∧ s.canStore sp k) (s.mem sp) (t.mem sp)
  nmax : t.cfgNmax = s.cfgNmax
  tmax : t.cfgTmax = s.cfgTmax
  qpos : s.canStore .qcount t.coder.qpos.toNat

variable {W W' : Space → Bool} {s t u : State}

theorem State.reaches.canStore (h : s.reaches W t) {sp : Space} {k : Nat} (hk : t.canStore sp k) : s.canStore sp k := by
  rcases hk with hk | ⟨rfl, rfl⟩
  · rw [h.nmax, h.tmax] at hk
    exact .inl hk
  · exact h.qpos

theorem State.reaches.mono (h : s.reaches W t) (hW : W ≤ W') : s.reaches W' t :=
  ⟨fun sp => (h.mem sp).mono fun _ hk => ⟨hW sp hk.1, hk.2⟩, h.nmax, h.tmax, h.qpos⟩

theorem State.reaches.trans (h : s.reaches W t) (h' : t.reaches W u) : s.reaches W u :=
  ⟨fun sp => (h.mem sp).trans ((h'.mem sp).mono fun _ hk => ⟨hk.1, h.canStore hk.2⟩), h'.nmax.trans h.nmax,
    h'.tmax.trans h.tmax, h.canStore h'.qpos⟩

/-- Updates of other registers store nothing. -/
theorem State.reaches.of_regs (hbufs : t.bufs = s.bufs) (hcoder : t.coder = s.coder) (hnmax : t.cfgNmax = s.cfgNmax)
    (htmax : t.cfgTmax = s.cfgTmax) : s.reaches W t := by
  refine ⟨fun sp => ?_, hnmax, htmax, .inr ⟨rfl, by rw [hcoder]⟩⟩
  have hmem : t.mem sp = s.mem sp := by unfold State.mem; rw [hbufs, hcoder]
  rw [hmem]
  exact .refl

theorem State.reaches.refl (s : State) : s.reaches W s := .of_regs rfl rfl rfl rfl

/-- New buffers reached by stores. -/
theorem State.reaches.withBufs (s : State) (b : Buffers)
    (hb : ∀ sp, Memory.storesTo sp (fun k => W sp = true ∧ s.canStore sp k) (s.mem sp) ((s.withBufs b).mem sp)) :
    s.reaches W (s.withBufs b) := ⟨hb, rfl, rfl, .inr ⟨rfl, rfl⟩⟩

/-- A new coder whose `TEXT` and `QCOUNT` are reached by stores. -/
theorem State.reaches.withCoder (s : State) (c : Coder)
    (htext : Memory.storesTo .text (fun k => W .text = true ∧ s.canStore .text k) s.coder.text c.text)
    (hqcount : Memory.storesTo .qcount (fun k => W .qcount = true ∧ s.canStore .qcount k) s.coder.qcount c.qcount)
    (hpos : s.canStore .qcount c.qpos.toNat) : s.reaches W (s.withCoder c) := by
  refine ⟨fun sp => ?_, rfl, rfl, hpos⟩
  cases sp
  case text => exact htext
  case qcount => exact hqcount
  all_goals exact .refl

end Sys2Proof.Machine
end

section
/-! PROOFS. Where the pseudocode of every command stores: only in the spaces of its row of R61, only below their element counts
(R30, R31, R63). -/

namespace Sys2Proof.Machine

/-! ### Stages -/

/-- Wherever the run `x` ends, from `s` it stored only in the spaces `W`. -/
abbrev State.storesIn (s : State) (W : Space → Bool) (x : Run State State) : Prop :=
  Run.ends (s.reaches W) (fun _ => s.reaches W) x

section Stages

variable {W W' : Space → Bool} {s : State}

theorem State.storesIn.mono {x : Run State State} (h : s.storesIn W x) (hW : W ≤ W') : s.storesIn W' x :=
  Run.ends_mono h (fun _ ht => ht.mono hW) fun _ _ ht => ht.mono hW

theorem State.reaches.andThen {t : State} {x : Run State State} (h : s.reaches W t) (hx : t.storesIn W x) : s.storesIn W x :=
  Run.ends_mono hx (fun _ hu => h.trans hu) fun _ _ hu => h.trans hu

theorem State.storesIn.bind {x : Run State State} {f : State → Run State State} (hx : s.storesIn W x)
    (hf : ∀ t : State, t.storesIn W (f t)) : s.storesIn W (x >>= f) :=
  Run.ends_bind hx fun t ht => ht.andThen (hf t)

theorem State.storesIn.afterCheckLength {n : Nat} {x : Run State State} (hx : n ≤ s.cfgNmax.toNat → s.storesIn W x) :
    s.storesIn W (checkLength s n >>= fun _ => x) :=
  Run.ends_bind (checkLength_ends s n id (.refl s)) fun _ hn => hx hn

/-- A list no longer than the space, stored from its first element on. -/
theorem State.storesTo_list {sp : Space} {w : Nat} {m : Memory w} {vs : List Nat} (hW : W sp = true)
    (hlen : vs.length ≤ spaceCount s.cfgNmax.toNat s.cfgTmax.toNat sp) :
    Memory.storesTo sp (fun k => W sp = true ∧ s.canStore sp k) m (storeFrom sp 0 vs m) :=
  Memory.storesTo_storeFrom 0 vs fun k _ hk => ⟨hW, .inl (by omega)⟩

/-- One element stored inside the space. -/
theorem State.storesTo_element {sp : Space} {w i : Nat} {m : Memory w} {v : BitVec w} (hW : W sp = true)
    (hi : i < spaceCount s.cfgNmax.toNat s.cfgTmax.toNat sp) :
    Memory.storesTo sp (fun k => W sp = true ∧ s.canStore sp k) m (store sp i v m) :=
  .store i v ⟨hW, .inl hi⟩ .refl

end Stages

/-! ### The buffer stages (R100, R120, R122, R136, R137, R201) -/

theorem sortBody_storesIn (s : State) : s.storesIn (mayWrite .sort) (sortBody s) := by
  refine .afterCheckLength fun hn => ?_
  have hstep : ∀ v, s.reaches (mayWrite .sort) { s with sortStep := v } := fun v => .of_regs rfl rfl rfl rfl
  dsimp only
  split
  · exact hstep 1
  · obtain ⟨hsuf, hrank, hgroup⟩ :=
      sortBytes_sized (fetchPrefix .data s.powerUp s.bufs.data s.n.toNat) (fetchPrefix_lt_nsym _ _ _ _)
    rw [fetchPrefix_length] at hsuf hrank hgroup
    refine (hstep (reg64 (sortBytes (fetchPrefix .data s.powerUp s.bufs.data s.n.toNat)).1)).trans
      (.withBufs { s with sortStep := _ } _ fun sp => ?_)
    cases sp
    case suf => exact State.storesTo_list rfl (hsuf.le.trans hn)
    case rank => exact State.storesTo_list rfl (hrank.le.trans hn)
    case group => exact State.storesTo_list rfl (hgroup.le.trans (Nat.succ_le_succ hn))
    all_goals exact .refl

theorem bwtfBody_storesIn (s : State) : s.storesIn (mayWrite .bwtf) (bwtfBody s) := by
  refine .afterCheckLength fun hn => ?_
  refine Run.ends_bind ((sortBody_storesIn s).mono fun sp => by cases sp <;> decide) fun t ht => ?_
  have hbidx : ∀ v, t.reaches (mayWrite .bwtf) { t with bidx := v } := fun v => .of_regs rfl rfl rfl rfl
  refine ht.trans ((hbidx (reg64 (bwtIndex (fetchPrefix .suf t.powerUp t.bufs.suf s.n.toNat)))).trans
    (.withBufs { t with bidx := _ } _ fun sp => ?_))
  cases sp
  case xf =>
    refine State.storesTo_list rfl ?_
    rw [bwtForward, List.length_map, fetchPrefix_length, ht.nmax]
    exact hn
  all_goals exact .refl

theorem bwtiBody_storesIn (s : State) : s.storesIn (mayWrite .bwti) (bwtiBody s) := by
  refine .afterCheckLength fun hn => ?_
  dsimp only
  split
  · exact .refl s
  · split
    · exact .refl s
    · refine .withBufs s _ fun sp => ?_
      cases sp
      case next =>
        refine State.storesTo_list rfl ?_
        rw [buildNext_length _ (fetchPrefix_lt_nsym _ _ _ _), fetchPrefix_length]
        exact hn
      case data => exact State.storesTo_list rfl ((bwtWalk_length ..).le.trans hn)
      all_goals exact .refl

theorem mtfeBody_storesIn (s : State) : s.storesIn (mayWrite .mtfe) (mtfeBody s) := by
  refine .afterCheckLength fun hn => ?_
  obtain ⟨hcodes, hfinal⟩ :=
    mtfEncode_lengths (fetchPrefix .xf s.powerUp s.bufs.xf s.n.toNat) _ (.refl _) (fetchPrefix_lt_nsym _ _ _ _)
  rw [fetchPrefix_length] at hcodes
  refine .withBufs s _ fun sp => ?_
  cases sp
  case sym => exact State.storesTo_list rfl (hcodes.le.trans hn)
  case mtfl => exact State.storesTo_list rfl hfinal.le
  all_goals exact .refl

theorem mtfdBody_storesIn (s : State) : s.storesIn (mayWrite .mtfd) (mtfdBody s) := by
  refine .afterCheckLength fun hn => ?_
  obtain ⟨hbytes, hfinal⟩ :=
    mtfDecode_lengths (fetchPrefix .sym s.powerUp s.bufs.sym s.n.toNat) _ (.refl _) (fetchPrefix_lt_nsym _ _ _ _)
  rw [fetchPrefix_length] at hbytes
  refine .withBufs s _ fun sp => ?_
  cases sp
  case xf => exact State.storesTo_list rfl (hbytes.le.trans hn)
  case mtfl => exact State.storesTo_list rfl hfinal.le
  all_goals exact .refl

theorem buildCum_reaches {W : Space → Bool} (s : State) (hW : W .cum = true) : s.reaches W (buildCum s) := by
  have hlen : (cumulate 0 s.freqTable).length = Config.nsym + 1 := by
    rw [cumulate_length, State.freqTable, fetchPrefix_length]
  unfold buildCum
  refine .withBufs s _ fun sp => ?_
  cases sp <;> simp only [State.mem, State.withBufs_bufs, State.withBufs_coder]
  case cum => exact State.storesTo_list hW hlen.le
  all_goals exact .refl

theorem freqBody_storesIn (s : State) : s.storesIn (mayWrite .freq) (freqBody s) := by
  refine .afterCheckLength fun _ => State.reaches.trans (.withBufs s _ fun sp => ?_) (buildCum_reaches _ rfl)
  have hlen : (countSymbols (fetchPrefix .sym s.powerUp s.bufs.sym s.n.toNat)).length = Config.nsym := by
    rw [countSymbols, List.length_map, List.length_range]
  cases sp <;> simp only [State.mem, State.withBufs_bufs, State.withBufs_coder]
  case freq => exact State.storesTo_list rfl hlen.le
  all_goals exact .refl

/-! ### The encoder's side (R151 to R166) -/

/-- Indices of `TEXT` between two values of `TLEN`, below `TMAX` (R166). -/
def betweenTlen (tmax : Nat) (c d : Coder) (k : Nat) : Prop := k < tmax ∧ c.tlen.toNat ≤ k ∧ k < d.tlen.toNat

/-- Slots the queue may use: those of the ring, and the one `QPOS` names (R151). -/
def Coder.queueSlot (c : Coder) (k : Nat) : Prop := k < Config.qcap ∨ k = c.qpos.toNat

/-- What the encoder's pseudocode stores on the way from `c` to `d`: characters between the old and the new `TLEN`, and runs in
the slots of the queue. -/
structure Coder.encodesTo (tmax : Nat) (c d : Coder) : Prop where
  tlen : c.tlen.toNat ≤ d.tlen.toNat
  text : Memory.storesTo .text (betweenTlen tmax c d) c.text d.text
  qcount : Memory.storesTo .qcount c.queueSlot c.qcount d.qcount
  qpos : c.queueSlot d.qpos.toNat

/-- Wherever the run `x` ends, from `c` it stored as the encoder may. -/
abbrev Coder.encodes (tmax : Nat) (c : Coder) (x : Run Coder Coder) : Prop :=
  Run.ends (c.encodesTo tmax) (fun _ => c.encodesTo tmax) x

section Encoder

variable {tmax : Nat} {c d e : Coder}

theorem Coder.encodesTo.trans (h : c.encodesTo tmax d) (h' : d.encodesTo tmax e) : c.encodesTo tmax e := by
  have hlen := h.tlen
  have hlen' := h'.tlen
  have hslot {k : Nat} (hk : d.queueSlot k) : c.queueSlot k := by
    rcases hk with hk | rfl
    · exact .inl hk
    · exact h.qpos
  refine ⟨hlen.trans hlen', .trans (h.text.mono fun k hk => ?_) (h'.text.mono fun k hk => ?_),
    h.qcount.trans (h'.qcount.mono fun _ hk => hslot hk), hslot h'.qpos⟩
  · exact ⟨hk.1, hk.2.1, hk.2.2.trans_le hlen'⟩
  · exact ⟨hk.1, hlen.trans hk.2.1, hk.2.2⟩

/-- With `TEXT`, `TLEN`, `QCOUNT` and `QPOS` as they were, nothing was stored. -/
theorem Coder.encodesTo.of_eq (htlen : d.tlen = c.tlen) (htext : d.text = c.text) (hqcount : d.qcount = c.qcount)
    (hqpos : d.qpos = c.qpos) : c.encodesTo tmax d :=
  ⟨htlen ▸ Nat.le_refl _, htext ▸ .refl, hqcount ▸ .refl, .inr (by rw [hqpos])⟩

theorem Coder.encodesTo.refl (c : Coder) : c.encodesTo tmax c := .of_eq rfl rfl rfl rfl

theorem Coder.encodesTo.setWindow (c : Coder) (low range : Reg64) :
    c.encodesTo tmax { c with low := low, range := range } := .of_eq rfl rfl rfl rfl

theorem Coder.encodesTo.setSerialiser (c : Coder) (oacc ocnt ochars : Reg64) :
    c.encodesTo tmax { c with oacc := oacc, ocnt := ocnt, ochars := ochars } := .of_eq rfl rfl rfl rfl

theorem Coder.encodesTo.grown (c : Coder) : c.encodesTo tmax c.grown := .of_eq rfl rfl rfl rfl

/-- The queue starts at another of its slots. -/
theorem Coder.encodesTo.setQueue (h : c.encodesTo tmax d) (qlen : Reg64) {qpos : Reg64} (hpos : c.queueSlot qpos.toNat) :
    c.encodesTo tmax { d with qpos := qpos, qlen := qlen } := ⟨h.tlen, h.text, h.qcount, hpos⟩

/-- A run count stored in a slot of the queue. -/
theorem Coder.encodesTo.setCount (h : c.encodesTo tmax d) {slot : Nat} (v : Nat) (hslot : c.queueSlot slot) :
    c.encodesTo tmax (d.setCount slot v) :=
  ⟨h.tlen, h.text, .store slot _ hslot h.qcount, h.qpos⟩

theorem Coder.encodesTo.andThen {x : Run Coder Coder} (h : c.encodesTo tmax d) (hx : d.encodes tmax x) : c.encodes tmax x :=
  Run.ends_mono hx (fun _ he => h.trans he) fun _ _ he => h.trans he

theorem Coder.encodes.bind {x : Run Coder Coder} {f : Coder → Run Coder Coder} (hx : c.encodes tmax x)
    (hf : ∀ d : Coder, d.encodes tmax (f d)) : c.encodes tmax (x >>= f) :=
  Run.ends_bind hx fun d hd => hd.andThen (hf d)

theorem Coder.queueSlot_ringSlot (c : Coder) (x : Nat) : c.queueSlot (ringSlot x) := .inl (ringSlot_lt x)

/-- A register that takes a slot of the ring reads as that slot. -/
theorem Coder.queueSlot_reg64_ringSlot (c : Coder) (x : Nat) : c.queueSlot (reg64 (ringSlot x)).toNat := by
  have hlt := ringSlot_lt x
  rw [reg64_toNat _ (by simp only [Config.qcap] at hlt; omega)]
  exact .inl hlt

theorem pushBit_encodes (b : Bool) (c : Coder) : c.encodes tmax (pushBit b c) := by
  unfold pushBit
  split
  · have hfirst : ∀ slot, c.queueSlot slot → c.queueSlot (reg64 slot).toNat →
        c.encodesTo tmax (({ c with qpos := reg64 slot, qlen := 1 } : Coder).setCount slot 1) := fun slot hslot hpos =>
      ((Coder.encodesTo.refl c).setQueue 1 hpos).setCount 1 hslot
    refine hfirst _ ?_ ?_
    · split
      · exact .inr rfl
      · exact c.queueSlot_ringSlot _
    · split
      · exact .inr (by rw [reg64_of_toNat])
      · exact c.queueSlot_reg64_ringSlot _
  · split
    · exact (Coder.encodesTo.refl c).setCount _ (c.queueSlot_ringSlot _)
    · split
      · exact .refl c
      · exact (Coder.encodesTo.grown c).setCount 1 (c.queueSlot_ringSlot _)

theorem carry_encodes (c : Coder) : c.encodes tmax (carry c) := by
  have hgrown : c.encodesTo tmax c.grown := .grown c
  unfold carry
  split
  · exact .refl c
  · split
    · split
      · exact .refl c
      · exact ((hgrown.setCount _ (c.queueSlot_ringSlot _)).setCount _ (c.queueSlot_ringSlot _)).setCount _
          (c.queueSlot_ringSlot _)
    · split
      · exact .refl c
      · exact (hgrown.setCount _ (c.queueSlot_ringSlot _)).setCount _ (c.queueSlot_ringSlot _)

theorem encNormTurns_encodes (fuel : Nat) (c : Coder) : c.encodes tmax (encNormTurns fuel c) := by
  induction fuel generalizing c with
  | zero => exact .refl c
  | succ fuel ih =>
    unfold encNormTurns
    split
    · exact (pushBit_encodes _ c).bind fun d => (Coder.encodesTo.setWindow d _ _).andThen (ih _)
    · exact .refl c

theorem encNorm_encodes (c : Coder) : c.encodes tmax (encNorm c) := by
  unfold encNorm
  split
  · exact trivial
  · exact encNormTurns_encodes _ c

theorem narrow_encodes (lo hi den : Nat) (c : Coder) : c.encodes tmax (narrow lo hi den c) := by
  unfold narrow
  dsimp only
  split
  · exact (Coder.encodesTo.setWindow c _ _).andThen (carry_encodes _)
  · exact .setWindow c _ _

variable (htmax : tmax < 2 ^ 64)
include htmax

theorem putByte_encodes (v : Byte) (c : Coder) : c.encodes tmax (putByte tmax v c) := by
  refine putByte_ends tmax v c (fun hlt => ?_) (.refl c)
  have hnext : (c.tlen + 1).toNat = c.tlen.toNat + 1 := by bv_omega
  have hbetween : betweenTlen tmax c { c with text := store .text c.tlen.toNat v c.text, tlen := c.tlen + 1 } c.tlen.toNat :=
    ⟨hlt, Nat.le_refl _, by rw [hnext]; omega⟩
  exact ⟨by rw [hnext]; omega, .store _ v hbetween .refl, .refl, .inr rfl⟩

theorem putChar_encodes (c : Coder) : c.encodes tmax (putChar tmax c) := by
  refine (putByte_encodes htmax _ c).bind fun d => ?_
  dsimp only
  split
  · exact (Coder.encodesTo.setSerialiser d _ _ _).andThen (putByte_encodes htmax _ _)
  · exact .setSerialiser d _ _ _

theorem outBit_encodes (b : Bool) (c : Coder) : c.encodes tmax (outBit tmax b c) := by
  unfold outBit
  dsimp only
  split
  · exact (Coder.encodesTo.setSerialiser c _ _ _).andThen (putChar_encodes htmax _)
  · exact .setSerialiser c _ _ _

theorem drainRun_encodes (c : Coder) : c.encodes tmax (drainRun tmax c) := by
  have hbits := outBits_ends (P := c.encodesTo tmax) tmax (c.qpos.toNat % 2 == 1)
    (fun d hd => hd.andThen (outBit_encodes htmax _ d)) (c.count c.qpos.toNat) c (.refl c)
  refine Run.ends_bind hbits fun d hd => ?_
  exact (hd.setQueue _ (c.queueSlot_reg64_ringSlot _)).setCount 0 (.inr rfl)

theorem drain_encodes (keep : Nat) (c : Coder) : c.encodes tmax (drain tmax keep c) :=
  drainRuns_ends (I := fun _ => c.encodesTo tmax) tmax (fun _ d hd => hd.andThen (drainRun_encodes htmax d)) _ 0 c (.refl c)

theorem pad_encodes (c : Coder) : c.encodes tmax (pad tmax c) :=
  Run.ends_mono (padTurns_ends tmax (fun d hd => hd.andThen (outBit_encodes htmax true d)) 5 c (.refl c))
    (fun _ hd => hd.1) fun _ _ hd => hd

/-- Where `RCENC` stores (R157). -/
theorem encode64_encodes (lo hi den : Nat) (c : Coder) : c.encodes tmax (encode64 tmax lo hi den c) := by
  unfold encode64
  split
  · split
    · exact .refl c
    · exact (encNorm_encodes c).bind fun d => (narrow_encodes lo hi den d).bind fun e => drain_encodes htmax 2 e
  · exact .refl c

theorem flushBits_encodes (b1 b0 : Bool) (c : Coder) : c.encodes tmax (flushBits tmax b1 b0 c) :=
  (pushBit_encodes b1 c).bind fun d => (pushBit_encodes b0 d).bind fun e =>
    (drain_encodes htmax 0 e).bind (pad_encodes htmax)

/-- Where `RCFIN` stores (R165). -/
theorem finish64_encodes (c : Coder) : c.encodes tmax (finish64 tmax c) := by
  refine (encNorm_encodes c).bind fun d => ?_
  rw [flush_eq]
  split
  · exact (carry_encodes d).bind (flushBits_encodes htmax _ _)
  · exact flushBits_encodes htmax _ _ d

end Encoder

end Sys2Proof.Machine
end

section
/-! PROOFS. Where every command and every step stores (R12, R61, R63), and the encoder's stores between the old and the new `TLEN`
(R72, R166). Settles O57, O14 and O16. -/

namespace Sys2Proof.Machine

variable {W : Space → Bool}

/-! ### The coder's stages -/

/-- A stretch of encoding inside the machine. -/
theorem State.reaches.withCoder_of_encodesTo (s : State) {c : Coder} (hc : s.coder.encodesTo s.cfgTmax.toNat c)
    (hW : mayWrite .rcenc ≤ W) : s.reaches W (s.withCoder c) := by
  have hslot {k : Nat} (hk : s.coder.queueSlot k) : s.canStore .qcount k := hk.imp id fun hk => ⟨rfl, hk⟩
  exact .withCoder s c (hc.text.mono fun k hk => ⟨hW .text rfl, .inl hk.1⟩)
    (hc.qcount.mono fun k hk => ⟨hW .qcount rfl, hslot hk⟩) (hslot hc.qpos)

/-- A stretch of decoding inside the machine: it stores nothing. -/
theorem State.reaches.withCoder_of_sameEncoder (s : State) {c : Coder} (hc : s.coder.sameEncoder c) :
    s.reaches W (s.withCoder c) := by
  obtain ⟨hpos, -, hcount, -, -, -, -, htext⟩ := hc
  exact .withCoder s c (htext ▸ .refl) (hcount ▸ .refl) (.inr ⟨rfl, by rw [hpos]⟩)

/-- A fresh coder over the same text: `QCOUNT` is cleared (R155, R168, R231). -/
theorem State.reaches.freshCoder (s : State) (range tlen : Reg64) (hW : W .qcount = true) :
    s.reaches W (s.withCoder { Coder.atReset s.coder.text with range := range, tlen := tlen }) :=
  .withCoder s _ .refl (.clear rfl fun _ hk => ⟨hW, .inl hk⟩) (.inl (Nat.zero_lt_succ _))

theorem State.reaches.withMode (s : State) (m : RcMode) : s.reaches W (s.withMode m) := .of_regs rfl rfl rfl rfl

/-- What a run's last line yields, known from two sides. -/
theorem Run.ends_and_ok {σ α : Type} {ok ok' : α → Prop} {bad bad' : FaultCode → σ → Prop} {x : Run σ α}
    (hx : Run.ends ok bad x) (hx' : Run.ends ok' bad' x) : Run.ends (fun a => ok a ∧ ok' a) bad x :=
  Run.ends_mono (Run.ends_and hx hx') (fun _ h => h) fun _ _ h => h.1

theorem reaches_keptByEncode (s : State) (hW : mayWrite .rcenc ≤ W) :
    KeptByEncode (s.reaches W) fun _ => s.reaches W where
  fault _ _ _ h := h
  encode t lo hi den h := by
    refine Run.ends_bind (checkMode_ends t _ (fun _ => trivial) h) fun _ _ => onCoder_ends ?_
    exact Run.ends_mono (encode64_encodes t.cfgTmax.isLt lo hi den t.coder)
      (fun _ hc => h.trans (.withCoder_of_encodesTo t hc hW)) fun _ _ hc => h.trans (.withCoder_of_encodesTo t hc hW)

theorem reaches_keptByDecode (s : State) : KeptByDecode (s.reaches W) fun _ => s.reaches W where
  fault _ _ _ h := h
  decode t den h := by
    refine Run.ends_bind (checkMode_ends t _ (fun _ => trivial) h) fun _ _ => onCoderValue_ends ?_
    exact Run.ends_mono ((Run.leaves_iff_ends ..).mp (decode64_sameEncoder t.port den t.coder))
      (fun _ hc => h.trans (.withCoder_of_sameEncoder t hc)) fun _ _ hc => h.trans (.withCoder_of_sameEncoder t hc)
  scale t lo hi den h := by
    refine Run.ends_bind (checkMode_ends t _ (fun _ => trivial) h) fun _ _ => onCoder_ends ?_
    exact Run.ends_mono ((Run.leaves_iff_ends ..).mp (scale64_sameEncoder t.port lo hi den t.coder))
      (fun _ hc => h.trans (.withCoder_of_sameEncoder t hc)) fun _ _ hc => h.trans (.withCoder_of_sameEncoder t hc)

theorem reaches_keptByHeader (s : State) (hfreq : W .freq = true) (hcum : W .cum = true) :
    KeptByHeader (s.reaches W) where
  n t v h := h.trans (.of_regs rfl rfl rfl rfl)
  bidx t v h := h.trans (.of_regs rfl rfl rfl rfl)
  freq t c f hc h := by
    refine h.trans (.withBufs t _ fun sp => ?_)
    cases sp
    case freq => exact State.storesTo_element hfreq hc
    all_goals exact .refl
  cum t h := h.trans (buildCum_reaches t hcum)

theorem hdrdBody_storesIn (s : State) : s.storesIn (mayWrite .hdrd) (hdrdBody s) :=
  (reaches_keptByDecode s).hdrdBody (reaches_keptByHeader s rfl rfl) s (.refl s)

theorem symdBody_storesIn (s : State) : s.storesIn (mayWrite .symd) (symdBody s) := by
  refine Run.ends_bind (checkMode_ends s _ (fun _ => trivial) (.refl s)) fun _ _ =>
    State.storesIn.afterCheckLength fun hn => ?_
  refine (reaches_keptByDecode s).decodeSymbols _ _ 0 s (by omega) (fun t i c hi ht => ?_) (.refl s)
  refine ht.trans (.withBufs t _ fun sp => ?_)
  cases sp
  case sym =>
    refine State.storesTo_element rfl ?_
    show i < t.cfgNmax.toNat
    rw [ht.nmax]
    omega
  all_goals exact .refl

theorem rcdecBody_storesIn (s : State) : s.storesIn (mayWrite .rcdec) (rcdecBody s) :=
  Run.ends_bind ((reaches_keptByDecode s).decode s _ (.refl s)) fun _ ht => ht.trans (.of_regs rfl rfl rfl rfl)

theorem rceiBody_storesIn (s : State) : s.storesIn (mayWrite .rcei) (rceiBody s) :=
  (State.reaches.freshCoder s _ _ rfl).trans (.withMode _ _)

theorem rcdiBody_storesIn (s : State) : s.storesIn (mayWrite .rcdi) (rcdiBody s) := by
  unfold rcdiBody
  split
  · exact .refl s
  · exact (State.reaches.freshCoder s _ _ rfl).trans (.withMode _ _)

theorem rcfinBody_storesIn (s : State) : s.storesIn (mayWrite .rcfin) (rcfinBody s) := by
  unfold rcfinBody
  split
  · exact .refl s
  · exact .refl s
  · exact .withMode s _
  · refine Run.ends_bind (ok := s.reaches (mayWrite .rcfin)) (onCoder_ends ?_) fun t ht => ht.trans (.withMode t _)
    exact Run.ends_mono (finish64_encodes s.cfgTmax.isLt s.coder) (fun _ hc => .withCoder_of_encodesTo s hc le_rfl)
      fun _ _ hc => .withCoder_of_encodesTo s hc le_rfl

/-! ### The composite commands (R209, R210) -/

theorem mayWrite_le_comp : ∀ i ∈ compStages, mayWrite i ≤ mayWrite .comp := by
  intro i hi sp
  revert i
  cases sp <;> decide

/-- The stages of `DECOMP` but `RCFIN`, whose row has the encoder's spaces. -/
theorem mayWrite_le_decomp : ∀ i ∈ [Instr.rcdi, .hdrd, .symd, .mtfd, .bwti], mayWrite i ≤ mayWrite .decomp := by
  intro i hi sp
  revert i
  cases sp <;> decide

theorem compBody_storesIn (s : State) : s.storesIn (mayWrite .comp) (compBody s) := by
  have hencode (t : State) : KeptByEncode (t.reaches (mayWrite .comp)) fun _ => t.reaches (mayWrite .comp) :=
    reaches_keptByEncode t (by intro sp; cases sp <;> decide)
  refine ((bwtfBody_storesIn s).mono (mayWrite_le_comp .bwtf (by decide))).bind fun s => ?_
  refine ((mtfeBody_storesIn s).mono (mayWrite_le_comp .mtfe (by decide))).bind fun s => ?_
  refine ((freqBody_storesIn s).mono (mayWrite_le_comp .freq (by decide))).bind fun s => ?_
  refine ((rceiBody_storesIn s).mono (mayWrite_le_comp .rcei (by decide))).bind fun s => ?_
  refine State.storesIn.bind ((hencode s).hdreBody s (.refl s)) fun s => ?_
  refine State.storesIn.bind ((hencode s).symeBody s (.refl s)) fun s => ?_
  exact (rcfinBody_storesIn s).mono (mayWrite_le_comp .rcfin (by decide))

/-- The stages of `DECOMP` run in Decoding mode up to their `RCFIN`, which there only sets the mode (R165). -/
theorem decompBody_storesIn (s : State) : s.storesIn (mayWrite .decomp) (decompBody s) := by
  have hstage {i : Instr} (hi : i ∈ [Instr.rcdi, .hdrd, .symd, .mtfd, .bwti]) {s : State} {x : Run State State}
      (hx : s.storesIn (mayWrite i) x) : s.storesIn (mayWrite .decomp) x := hx.mono (mayWrite_le_decomp i hi)
  refine Run.ends_bind (Run.ends_and_ok (hstage (by decide) (rcdiBody_storesIn s)) (rcdiBody_mode s))
    fun t ⟨ht, hmode⟩ => ht.andThen ?_
  refine Run.ends_bind (Run.ends_and_ok (hstage (by decide) (hdrdBody_storesIn t)) (hdrdBody_confines t))
    fun u ⟨hu, htu⟩ => hu.andThen ?_
  refine Run.ends_bind (Run.ends_and_ok (hstage (by decide) (symdBody_storesIn u)) (symdBody_confines u))
    fun v ⟨hv, huv⟩ => hv.andThen ?_
  rw [rcfinBody_of_decoding (by rw [huv.status rfl, htu.status rfl, hmode]), Run.ok_bind]
  refine State.reaches.andThen (.withMode v .finished) ?_
  exact (hstage (by decide) (mtfdBody_storesIn _)).bind fun w => hstage (by decide) (bwtiBody_storesIn w)

/-! ### Every command and every step -/

/-- A command's pseudocode stores only in the spaces of its row (R61). -/
theorem commandBody_storesIn (i : Instr) (hi : i ≠ .reset) (s : State) : s.storesIn (mayWrite i) (commandBody i s) := by
  cases i with
  | reset => exact absurd rfl hi
  | nop => exact .refl s
  | sort => exact sortBody_storesIn s
  | bwtf => exact bwtfBody_storesIn s
  | bwti => exact bwtiBody_storesIn s
  | mtfe => exact mtfeBody_storesIn s
  | mtfd => exact mtfdBody_storesIn s
  | rcei => exact rceiBody_storesIn s
  | rcdi => exact rcdiBody_storesIn s
  | rcenc => exact (reaches_keptByEncode s le_rfl).encode s _ _ _ (.refl s)
  | rcdec => exact rcdecBody_storesIn s
  | rcscl => exact (reaches_keptByDecode s).scale s _ _ _ (.refl s)
  | rcfin => exact rcfinBody_storesIn s
  | freq => exact freqBody_storesIn s
  | hdre => exact (reaches_keptByEncode s le_rfl).hdreBody s (.refl s)
  | syme => exact (reaches_keptByEncode s le_rfl).symeBody s (.refl s)
  | hdrd => exact hdrdBody_storesIn s
  | symd => exact symdBody_storesIn s
  | comp => exact compBody_storesIn s
  | decomp => exact decompBody_storesIn s

/-- A command stores only in the spaces of its row, inside their element counts (R12, R61, R63). -/
theorem exec_reaches (i : Instr) (s t : State) (h : exec i s = .next t) : s.reaches (mayWrite i) t := by
  have hstart : s.reaches (mayWrite i) s.startCommand := .of_regs rfl rfl rfl rfl
  by_cases hi : i = .reset
  · subst hi
    cases h
    exact (State.reaches.freshCoder s 0 0 rfl).trans (.of_regs rfl rfl rfl rfl)
  · rcases exec_next_cases hi h fun _ => commandBody_storesIn i hi s.startCommand with
      ⟨-, rfl⟩ | ⟨-, u, hu, -, rfl⟩ | ⟨-, code, info, u, hu, rfl⟩
    · exact .refl t
    · exact hstart.trans (hu.trans (.of_regs rfl rfl rfl rfl))
    · exact hstart.trans (hu.trans (.of_regs rfl rfl rfl rfl))

theorem acceptCommand_reaches (v : Reg64) (s t : State) (h : acceptCommand v s = .next t) :
    s.reaches (fun _ => true) t := by
  have hcmd : s.reaches (fun _ => true) (writeReg s v .cmd) := .of_regs rfl rfl rfl rfl
  unfold acceptCommand at h
  dsimp only at h
  split at h
  · exact hcmd.trans ((exec_reaches _ _ _ h).mono fun _ => Bool.le_true _)
  · split at h
    · cases h
      exact hcmd
    · cases h
      exact hcmd.trans (.of_regs rfl rfl rfl rfl)

/-! ### The host's writes (R21, R60) -/

theorem mem_writeElems (s : State) (sp : Space) (i : Nat) (vs : List Nat) (h : spaceHostWrites sp = true) :
    (writeElems s sp i vs).mem sp = storeFrom sp i vs (s.mem sp) := by
  cases sp
  case suf | rank | group | next | mtfl | qcount => cases h
  all_goals rfl

theorem mem_writeElems_other (s : State) {sp other : Space} (i : Nat) (vs : List Nat) (h : other ≠ sp) :
    (writeElems s sp i vs).mem other = s.mem other := by
  cases sp <;> cases other <;> simp [writeElems, State.mem] at h ⊢ <;> rfl

theorem writeElems_of_readOnly (s : State) (sp : Space) (i : Nat) (vs : List Nat) (h : spaceHostWrites sp = false) :
    writeElems s sp i vs = s := by
  cases sp
  case suf | rank | group | next | mtfl | qcount => rfl
  all_goals cases h

/-- A host write stores in its own space, inside the element count (R60). -/
theorem writeElems_reaches (s : State) (sp : Space) (i : Nat) (vs : List Nat)
    (hin : sp.inRange s.cfgNmax.toNat s.cfgTmax.toNat i vs.length = true) :
    s.reaches spaceHostWrites (writeElems s sp i vs) := by
  cases hW : spaceHostWrites sp with
  | false =>
    rw [writeElems_of_readOnly s sp i vs hW]
    exact .refl s
  | true =>
    have hreg := readReg_writeElems s sp i vs
    refine ⟨fun other => ?_, hreg .cfgNmax, hreg .cfgTmax, .inr ⟨rfl, congrArg BitVec.toNat (hreg .qpos)⟩⟩
    by_cases he : other = sp
    · subst he
      rw [mem_writeElems s other i vs hW]
      refine Memory.storesTo_storeFrom i vs fun k hlow hhigh => ⟨hW, .inl ?_⟩
      simp only [Space.inRange, Bool.or_eq_true, beq_iff_eq, decide_eq_true_eq] at hin
      omega
    · rw [mem_writeElems_other s i vs he]
      exact .refl

theorem writeReg_reaches (s : State) (v : Reg64) (r : Reg) : s.reaches W (writeReg s v r) := by
  cases r
  case tlen => exact .withCoder s { s.coder with tlen := v } .refl .refl (.inr ⟨rfl, rfl⟩)
  all_goals exact .of_regs rfl rfl rfl rfl

/-- A step stores inside the element counts only (R60, R63). -/
theorem step_reaches (s t : State) (h : step s = .next t) : s.reaches (fun _ => true) t := by
  unfold step at h
  split at h
  · cases h
    exact .refl s
  · rename_i a rest hqueue
    have hs : s.reaches (fun _ => true) { s with queue := rest } := .of_regs rfl rfl rfl rfl
    unfold hostStep at h
    split at h
    · cases h
    · refine hs.trans ?_
      rcases performAction_next_cases h with ⟨v, haccept⟩ | ⟨r, v, -, rfl⟩ | ⟨vs, rfl⟩ | ⟨sp, i, vs, hin, rfl⟩
      · exact acceptCommand_reaches v _ t haccept
      · exact writeReg_reaches _ v r
      · exact .of_regs rfl rfl rfl rfl
      · refine (writeElems_reaches _ sp i _ ?_).mono fun _ => Bool.le_true _
        rw [List.length_map]
        exact hin

/-! ### The encoder's stores (R72, R166) -/

/-- From `s` to `t` the encoder ran: it stored characters between the old and the new `TLEN` only. -/
def State.encodesTo (s t : State) : Prop := t.cfgTmax = s.cfgTmax ∧ s.coder.encodesTo s.cfgTmax.toNat t.coder

theorem State.encodesTo.refl (s : State) : s.encodesTo s := ⟨rfl, .refl _⟩

theorem State.encodesTo.trans {s t u : State} (h : s.encodesTo t) (h' : t.encodesTo u) : s.encodesTo u := by
  obtain ⟨htmax, hc⟩ := h
  obtain ⟨htmax', hc'⟩ := h'
  exact ⟨htmax'.trans htmax, hc.trans (htmax ▸ hc')⟩

/-- `TLEN` does not fall, and the elements of `TEXT` outside what it passed hold what they held (R166). -/
theorem State.encodesTo.text {s t : State} (h : s.encodesTo t) :
    s.coder.tlen.toNat ≤ t.coder.tlen.toNat ∧
      ∀ k, k < s.coder.tlen.toNat ∨ t.coder.tlen.toNat ≤ k → t.holds .text k = s.holds .text k := by
  refine ⟨h.2.tlen, fun k hk => congrArg (Option.map BitVec.toNat) (h.2.text.peek (by decide) ?_)⟩
  rintro ⟨-, hlow, hhigh⟩
  omega

theorem encodesTo_keptByEncode (s : State) : KeptByEncode s.encodesTo fun _ => s.encodesTo where
  fault _ _ _ h := h
  encode t lo hi den h := by
    refine Run.ends_bind (checkMode_ends t _ (fun _ => trivial) h) fun _ _ => onCoder_ends ?_
    exact Run.ends_mono (encode64_encodes t.cfgTmax.isLt lo hi den t.coder) (fun _ hc => h.trans ⟨rfl, hc⟩)
      fun _ _ hc => h.trans ⟨rfl, hc⟩

theorem rcfinBody_encodesTo (s t : State) (h : s.encodesTo t) :
    Run.ends s.encodesTo (fun _ => s.encodesTo) (rcfinBody t) := by
  unfold rcfinBody
  split
  · exact h
  · exact h
  · exact h
  · refine Run.ends_bind (ok := s.encodesTo) (onCoder_ends ?_) fun _ hu => hu
    exact Run.ends_mono (finish64_encodes t.cfgTmax.isLt t.coder) (fun _ hc => h.trans ⟨rfl, hc⟩)
      fun _ _ hc => h.trans ⟨rfl, hc⟩

theorem encoder_commandBody_encodesTo (i : Instr) (s : State) (hi : i = .rcenc ∨ i = .rcfin ∨ i = .hdre ∨ i = .syme) :
    Run.ends s.encodesTo (fun _ => s.encodesTo) (commandBody i s) := by
  rcases hi with rfl | rfl | rfl | rfl
  · exact (encodesTo_keptByEncode s).encode s _ _ _ (.refl s)
  · exact rcfinBody_encodesTo s s (.refl s)
  · exact (encodesTo_keptByEncode s).hdreBody s (.refl s)
  · exact (encodesTo_keptByEncode s).symeBody s (.refl s)

/-- From `s` to `t` no element of `TEXT` at or above the new `TLEN` was stored. -/
def State.keepsTextAbove (s t : State) : Prop := ∀ k, t.coder.tlen.toNat ≤ k → t.holds .text k = s.holds .text k

theorem State.keepsTextAbove_of_encodesTo {s t u : State} (h : t.coder.text = s.coder.text) (h' : t.encodesTo u) :
    s.keepsTextAbove u := fun k hk => by
  rw [h'.text.2 k (.inr hk), State.holds, State.holds, h]

/-- A stage outside the encoder's row keeps the text. -/
theorem State.storesIn.keepsText {s : State} {x : Run State State} (hx : s.storesIn W x) (hW : W .text = false) :
    Run.ends (fun t => t.coder.text = s.coder.text) (fun _ t => t.coder.text = s.coder.text) x := by
  have hno : ∀ k, ¬ (W .text = true ∧ s.canStore .text k) := fun k hk => absurd (hW.symm.trans hk.1) (by decide)
  exact Run.ends_mono hx (fun _ ht => (ht.mem .text).eq_of_none hno) fun _ _ ht => (ht.mem .text).eq_of_none hno

/-- `COMP` keeps the text up to its `RCEI`, which sets `TLEN` to 0; from there the encoder's stages run (R209). -/
theorem compBody_keepsTextAbove (s : State) :
    Run.ends s.keepsTextAbove (fun _ => s.keepsTextAbove) (compBody s) := by
  have hstage {t : State} {x : Run State State} (ht : t.coder.text = s.coder.text)
      (hx : Run.ends (fun u => u.coder.text = t.coder.text) (fun _ u => u.coder.text = t.coder.text) x) :
      Run.ends (fun u => u.coder.text = s.coder.text) (fun _ => s.keepsTextAbove) x :=
    Run.ends_mono hx (fun _ hu => hu.trans ht) fun _ u hu => State.keepsTextAbove_of_encodesTo (hu.trans ht) (.refl u)
  refine Run.ends_bind (hstage rfl ((bwtfBody_storesIn s).keepsText rfl)) fun t ht => ?_
  refine Run.ends_bind (hstage ht ((mtfeBody_storesIn t).keepsText rfl)) fun t ht => ?_
  refine Run.ends_bind (hstage ht ((freqBody_storesIn t).keepsText rfl)) fun t ht => ?_
  refine Run.ends_bind (hstage ht ((rceiBody_storesIn t).keepsText rfl)) fun t ht => ?_
  have habove {u : State} (hu : t.encodesTo u) : s.keepsTextAbove u := State.keepsTextAbove_of_encodesTo ht hu
  have htail : Run.ends t.encodesTo (fun _ => t.encodesTo)
      (do let u ← hdreBody t; let u ← symeBody u; rcfinBody u) :=
    Run.ends_bind ((encodesTo_keptByEncode t).hdreBody t (.refl t)) fun u hu =>
      Run.ends_bind ((encodesTo_keptByEncode t).symeBody u hu) fun v hv => rcfinBody_encodesTo t v hv
  exact Run.ends_mono htail (fun _ => habove) fun _ _ => habove

theorem exec_encoder_encodesTo (i : Instr) (s t : State) (hi : i = .rcenc ∨ i = .rcfin ∨ i = .hdre ∨ i = .syme)
    (h : exec i s = .next t) : s.encodesTo t := by
  have hne : i ≠ .reset := by rintro rfl; simp at hi
  rcases exec_next_cases hne h fun _ => encoder_commandBody_encodesTo i s.startCommand hi with
    ⟨-, rfl⟩ | ⟨-, u, hu, -, rfl⟩ | ⟨-, code, info, u, hu, rfl⟩
  · exact .refl t
  · exact hu
  · exact hu

theorem exec_comp_keepsTextAbove (s t : State) (h : exec .comp s = .next t) : s.keepsTextAbove t := by
  rcases exec_next_cases (by decide) h fun _ => compBody_keepsTextAbove s.startCommand with
    ⟨-, rfl⟩ | ⟨-, u, hu, -, rfl⟩ | ⟨-, code, info, u, hu, rfl⟩
  · exact fun _ _ => rfl
  · exact hu
  · exact hu

end Sys2Proof.Machine

open Sys2Proof Sys2Proof.Machine

/-- Settles O57: a step stores inside the element counts only, since with legal registers `QPOS` names a slot of the ring, and
stores keep the canonical form. -/
theorem stepKeepsMemoryCanonicalAndInside : Obligations.StepKeepsMemoryCanonicalAndInside := by
  intro s t h
  have hreach := step_reaches s t h
  refine ⟨fun hwf => ?_, fun hwithin hlegal => ?_⟩
  · rw [State.memWf_iff_forall] at hwf ⊢
    exact fun sp => (hreach.mem sp).wf (hwf sp)
  · obtain ⟨-, -, -, -, hpos, -⟩ := hlegal
    rw [State.memWithin_iff_forall] at hwithin ⊢
    rw [hreach.nmax, hreach.tmax]
    exact fun sp => (hreach.mem sp).within (fun _ hk => hk.2.lt_spaceCount hpos) (hwithin sp)

/-- Settles O14: a space outside the command's row has no index the command may store at. -/
theorem commandsWriteOnlyTheirSpaces : Obligations.CommandsWriteOnlyTheirSpaces := by
  intro i s t sp k h hW
  obtain ⟨-, -, -, hpower⟩ := commandsChangeOnlyTheirResultRegisters i s t h
  have hmem : t.mem sp = s.mem sp := ((exec_reaches i s t h).mem sp).eq_of_none fun _ hk =>
    absurd (hW.symm.trans hk.1) (by decide)
  exact sameElem_of_holds hpower (by rw [State.holds_eq_peek, State.holds_eq_peek, hmem])

/-- Settles O16: the encoder stores at the cursor, which only moves up; the stages of `COMP` before its `RCEI` keep the text. -/
theorem encoderStoresOnlyBetweenOldAndNewTlen : Obligations.EncoderStoresOnlyBetweenOldAndNewTlen := by
  intro i s t h
  obtain ⟨-, -, -, hpower⟩ := commandsChangeOnlyTheirResultRegisters i s t h
  refine ⟨fun hi => ?_, ?_⟩
  · obtain ⟨hlen, hkeep⟩ := (exec_encoder_encodesTo i s t hi h).text
    exact ⟨hlen, fun k hk => sameElem_of_holds hpower (hkeep k hk)⟩
  · rintro rfl k hk
    exact sameElem_of_holds hpower (exec_comp_keepsTextAbove s t h k hk)
end

section
/-! PROOFS. Decoding and encoding of command words (R80, R81, R84). Settles O1 and O2. -/

namespace Sys2Proof

/-! ### The opcode map (R81) -/

theorem opcodeMap_find?_opcode (i : Instr) :
    opcodeMap.find? (fun row => row.1 == i.opcode) = some (i.opcode, i) := by cases i <;> rfl

/-- A row of the map pairs a command with its own opcode. -/
theorem opcodeMap_row_opcode : ∀ row ∈ opcodeMap, row.1 = row.2.opcode := by decide

theorem opcode_of_opcodeMap_find? {k : Nat} {row : Nat × Instr} (h : opcodeMap.find? (fun row => row.1 == k) = some row) :
    k = row.2.opcode := by
  have hk : row.1 = k := by simpa using List.find?_some h
  exact hk ▸ opcodeMap_row_opcode row (List.mem_of_find?_eq_some h)

theorem Instr.opcode_lt (i : Instr) : i.opcode < 256 := by cases i <;> decide

/-- The opcodes outside the unassigned ranges of R84 are those of the twenty commands. -/
theorem opcodeAssigned_iff (w : CommandWord) : w.opcodeAssigned = true ↔ ∃ i : Instr, opcField w = i.opcode := by
  constructor
  · intro h
    have hrow : ∃ row ∈ opcodeMap, row.1 = opcField w := by
      simp only [CommandWord.opcodeAssigned, Bool.not_eq_true', Bool.or_eq_false_iff, Bool.and_eq_false_iff,
        decide_eq_false_iff_not] at h
      simp only [opcodeMap, List.cons_append, List.nil_append, List.mem_cons, List.not_mem_nil, exists_eq_or_imp, or_false,
        exists_eq_left, opcField]
      omega
    obtain ⟨row, hmem, hk⟩ := hrow
    exact ⟨row.2, hk ▸ opcodeMap_row_opcode row hmem⟩
  · rintro ⟨i, hi⟩
    have hi : w.toNat % 256 = i.opcode := hi
    simp only [CommandWord.opcodeAssigned, hi]
    cases i <;> rfl

theorem reservedClear_iff (w : CommandWord) : w.reservedClear = true ↔ rsvField w = 0 := beq_iff_eq

/-! ### The decoder (R80, R84) -/

/-- A word decodes to a command exactly when its reserved field is 0 and its opcode is the command's. -/
theorem decode_eq_ok_iff (w : CommandWord) (i : Instr) :
    decode w = .ok i ↔ rsvField w = 0 ∧ opcField w = i.opcode := by
  unfold decode
  constructor
  · intro h
    split at h
    · rename_i hrsv
      split at h
      · rename_i row hrow
        cases h
        exact ⟨hrsv, opcode_of_opcodeMap_find? hrow⟩
      · cases h
    · cases h
  · rintro ⟨hrsv, hopc⟩
    rw [if_pos hrsv, hopc, opcodeMap_find?_opcode]

theorem decode_eq_reservedBits_iff (w : CommandWord) : decode w = .error .reservedBits ↔ rsvField w ≠ 0 := by
  unfold decode
  split
  · rename_i hrsv
    split <;> simp [hrsv]
  · rename_i hrsv
    simp [hrsv]

theorem encode_toNat (i : Instr) : (encode i).toNat = i.opcode := by
  have hlt := i.opcode_lt
  rw [encode, BitVec.toNat_ofNat, Nat.mod_eq_of_lt (by omega)]

/-- The fields of a word make the word up, so a command has one word only. -/
theorem eq_encode_iff (w : CommandWord) (i : Instr) : w = encode i ↔ rsvField w = 0 ∧ opcField w = i.opcode := by
  have hlt := i.opcode_lt
  rw [← BitVec.toNat_inj, encode_toNat, rsvField, opcField]
  omega

theorem decode_encode (i : Instr) : decode (encode i) = .ok i :=
  (decode_eq_ok_iff _ i).mpr ((eq_encode_iff _ i).mp rfl)

theorem wellFormed_iff_decodes (w : CommandWord) : w.wellFormed = true ↔ ∃ i, decode w = .ok i := by
  simp only [CommandWord.wellFormed, Bool.and_eq_true, reservedClear_iff, opcodeAssigned_iff, decode_eq_ok_iff,
    exists_and_left]

end Sys2Proof

open Sys2Proof

/-- Settles O1: decoding and encoding both say that the reserved field is 0 and the opcode is the command's. -/
theorem decodeAndEncodeAgree : Obligations.DecodeAndEncodeAgree := by
  refine ⟨fun i _ => decode_encode i, fun w => ⟨wellFormed_iff_decodes w, fun i h => ?_, ?_⟩⟩
  · exact (eq_encode_iff w i).mpr ((decode_eq_ok_iff w i).mp h)
  · rw [decode_eq_reservedBits_iff, ← Bool.not_eq_true, reservedClear_iff]

/-- Settles O2: twenty of the words are the commands' encodings. -/
theorem decodeOfTableWords : Obligations.DecodeOfTableWords :=
  ⟨decode_encode .nop, decode_encode .reset, decode_encode .sort, decode_encode .bwtf, decode_encode .bwti,
    decode_encode .mtfe, decode_encode .mtfd, decode_encode .rcei, decode_encode .rcdi, decode_encode .rcenc,
    decode_encode .rcdec, decode_encode .rcscl, decode_encode .rcfin, decode_encode .freq, decode_encode .hdre,
    decode_encode .syme, decode_encode .hdrd, decode_encode .symd, decode_encode .comp, decode_encode .decomp,
    rfl, rfl, (decode_eq_reservedBits_iff _).mpr (by decide)⟩
end

section
/-! PROOFS. Issuing a command: the host's write to `CMD` (R80, R82, R236). Settles O3 and O4. -/

namespace Sys2Proof.Machine

/-- A host write to `CMD` starts the acceptance sequence (R80). -/
theorem step_command_write {s : State} {v : Reg64} {rest : List HostAction} (hbusy : s.status.busy = false)
    (hqueue : s.queue = .wr 0x00 v :: rest) : step s = acceptCommand v { s with queue := rest } :=
  step_of_not_busy hbusy hqueue

theorem acceptCommand_of_decode_ok {v : Reg64} {i : Instr} (s : State) (h : decode (BitVec.ofNat 32 v.toNat) = .ok i) :
    acceptCommand v s = exec i { s with cmd := reg64 (v.toNat % 2 ^ 32) } := by
  simp only [acceptCommand, h, writeReg]

/-- R82 steps 2 and 4 for a word that is no command. -/
theorem acceptCommand_of_decode_error {v : Reg64} {e : DecodeError} (s : State)
    (h : decode (BitVec.ofNat 32 v.toNat) = .error e) :
    acceptCommand v s =
      if s.status.faulted then .next { s with cmd := reg64 (v.toNat % 2 ^ 32) }
      else .next (({ s with cmd := reg64 (v.toNat % 2 ^ 32) } : State).startCommand.takeFault .illegalCmd
        (reg64 (v.toNat % 2 ^ 32))) := by
  simp only [acceptCommand, h, writeReg, BitVec.toNat_ofNat]

/-- A command word survives its way through the 64-bit port. -/
theorem encode_through_port (i : Instr) : (reg64 ((encode i).toNat % 2 ^ 32)).toNat = (encode i).toNat := by
  have hlt := (encode i).isLt
  rw [Nat.mod_eq_of_lt hlt, reg64_toNat _ (by omega)]

end Sys2Proof.Machine

open Sys2Proof Sys2Proof.Machine

/-- Settles O3: the step is the acceptance sequence, which runs the command its word decodes to. -/
theorem stepRunsTheDecodedCommand : Obligations.StepRunsTheDecodedCommand := by
  have hwrite : ∀ (s : State) (v : Reg64) (rest : List HostAction) (i : Instr), s.status.busy = false →
      s.queue = .wr 0x00 v :: rest → decode (BitVec.ofNat 32 v.toNat) = .ok i →
      step s = exec i { s with queue := rest, cmd := reg64 (v.toNat % 2 ^ 32) } := fun s v rest i hbusy hqueue hdecode => by
    rw [step_command_write hbusy hqueue, acceptCommand_of_decode_ok _ hdecode]
  refine ⟨hwrite, fun s i hbusy => ?_⟩
  have hdecode : decode (BitVec.ofNat 32 (reg64 ((encode i).toNat % 2 ^ 32)).toNat) = .ok i := by
    rw [encode_through_port, BitVec.ofNat_toNat, BitVec.setWidth_eq, decode_encode]
  rw [hwrite (s.withFetchWord 32 (encode i).toNat) _ s.queue i hbusy rfl hdecode, encode_through_port,
    Nat.mod_eq_of_lt (encode i).isLt]
  rfl

/-- Settles O4: while no fault is recorded the acceptance sequence takes `ILLEGAL_CMD` for a word that is no command. -/
theorem illegalWordTakesIllegalCmd : Obligations.IllegalWordTakesIllegalCmd := by
  intro s v rest e hbusy hgood hqueue hdecode
  rw [step_command_write hbusy hqueue, acceptCommand_of_decode_error _ hdecode, if_neg (by simp [hgood])]
  rfl
end

section
/-! PROOFS. Every fault a command takes has a code other than 0, and until a command ends nothing touches the fault record and the
command count (R24, R82, R250, R252). Settles O6. -/

namespace Sys2Proof.Machine

/-! ### Fault codes of the encoder (R250) -/

/-- Every fault that may end the run has a code other than 0. -/
abbrev Run.raisesCodes {σ α : Type} (x : Run σ α) : Prop := Run.ends (fun _ => True) (fun code _ => code ≠ .none) x

section Codes

variable {σ α β : Type}

theorem Run.raisesCodes_bind {x : Run σ α} {f : α → Run σ β} (hx : x.raisesCodes) (hf : ∀ a, (f a).raisesCodes) :
    (x >>= f).raisesCodes := Run.ends_bind hx fun a _ => hf a

theorem pushBit_raisesCodes (b : Bool) (c : Coder) : (pushBit b c).raisesCodes := by
  rcases hrun : pushBit b c with e | d
  · obtain ⟨-, rfl⟩ := pushBit_error b c e hrun
    exact (by decide : FaultCode.rcQueue ≠ .none)
  · exact trivial

theorem carry_raisesCodes (c : Coder) : (carry c).raisesCodes := by
  have hcode : FaultCode.rcQueue ≠ .none := by decide
  unfold carry
  split
  · exact hcode
  · split
    · split
      · exact hcode
      · exact trivial
    · split
      · exact hcode
      · exact trivial

theorem encNormTurns_raisesCodes (fuel : Nat) (c : Coder) : (encNormTurns fuel c).raisesCodes := by
  induction fuel generalizing c with
  | zero => exact trivial
  | succ fuel ih =>
    unfold encNormTurns
    split
    · exact Run.raisesCodes_bind (pushBit_raisesCodes _ c) fun d => ih _
    · exact trivial

theorem encNorm_raisesCodes (c : Coder) : (encNorm c).raisesCodes := by
  unfold encNorm
  split
  · exact trivial
  · exact encNormTurns_raisesCodes _ c

theorem narrow_raisesCodes (lo hi den : Nat) (c : Coder) : (narrow lo hi den c).raisesCodes := by
  unfold narrow
  dsimp only
  split
  · exact carry_raisesCodes _
  · exact trivial

theorem putByte_raisesCodes (tmax : Nat) (v : Byte) (c : Coder) : (putByte tmax v c).raisesCodes :=
  putByte_ends tmax v c (fun _ => trivial) (by decide)

theorem putChar_raisesCodes (tmax : Nat) (c : Coder) : (putChar tmax c).raisesCodes := by
  refine Run.raisesCodes_bind (putByte_raisesCodes tmax _ c) fun d => ?_
  dsimp only
  split
  · exact putByte_raisesCodes tmax _ _
  · exact trivial

theorem outBit_raisesCodes (tmax : Nat) (b : Bool) (c : Coder) : (outBit tmax b c).raisesCodes := by
  unfold outBit
  dsimp only
  split
  · exact putChar_raisesCodes tmax _
  · exact trivial

theorem drain_raisesCodes (tmax keep : Nat) (c : Coder) : (drain tmax keep c).raisesCodes :=
  drainRuns_ends (I := fun _ _ => True) tmax
    (fun _ d _ => Run.raisesCodes_bind (outBits_ends tmax _ (fun e _ => outBit_raisesCodes tmax _ e) _ d trivial)
      fun _ => trivial) _ 0 c trivial

theorem pad_raisesCodes (tmax : Nat) (c : Coder) : (pad tmax c).raisesCodes :=
  Run.ends_mono (padTurns_ends tmax (fun d _ => outBit_raisesCodes tmax true d) 5 c trivial) (fun _ _ => trivial)
    fun _ _ h => h

theorem encode64_raisesCodes (tmax lo hi den : Nat) (c : Coder) : (encode64 tmax lo hi den c).raisesCodes := by
  unfold encode64
  split
  · split
    · exact (by decide : FaultCode.rcQueue ≠ .none)
    · exact Run.raisesCodes_bind (encNorm_raisesCodes c) fun d =>
        Run.raisesCodes_bind (narrow_raisesCodes lo hi den d) fun e => drain_raisesCodes tmax 2 e
  · exact (by decide : FaultCode.rcInterval ≠ .none)

theorem flushBits_raisesCodes (tmax : Nat) (b1 b0 : Bool) (c : Coder) : (flushBits tmax b1 b0 c).raisesCodes :=
  Run.raisesCodes_bind (pushBit_raisesCodes b1 c) fun d => Run.raisesCodes_bind (pushBit_raisesCodes b0 d) fun e =>
    Run.raisesCodes_bind (drain_raisesCodes tmax 0 e) (pad_raisesCodes tmax)

theorem finish64_raisesCodes (tmax : Nat) (c : Coder) : (finish64 tmax c).raisesCodes := by
  refine Run.raisesCodes_bind (encNorm_raisesCodes c) fun d => ?_
  rw [flush_eq]
  split
  · exact Run.raisesCodes_bind (carry_raisesCodes d) (flushBits_raisesCodes tmax _ _)
  · exact flushBits_raisesCodes tmax _ _ d

end Codes

/-! ### What a command touches at its end only (R82, R252) -/

/-- `FAULTED`, `FAULT`, `FINFO` and `CMDCNT` are as they were. -/
def State.sameRecord (s t : State) : Prop :=
  t.status.faulted = s.status.faulted ∧ t.fault = s.fault ∧ t.finfo = s.finfo ∧ t.cmdcnt = s.cmdcnt

/-- A fault with a code other than 0 has been raised and is not yet recorded. -/
def State.raisedFrom (s : State) (code : FaultCode) (t : State) : Prop := code ≠ .none ∧ s.sameRecord t

section Record

variable {s t : State}

/-- Encoder pseudocode inside the machine. -/
theorem State.sameRecord.onCoder (h : s.sameRecord t) {x : Run Coder Coder} (hx : x.raisesCodes) :
    Run.ends s.sameRecord s.raisedFrom (onCoder t x) :=
  onCoder_ends (Run.ends_mono hx (fun _ _ => h) fun _ _ hcode => ⟨hcode, h⟩)

theorem State.sameRecord.checkMode (h : s.sameRecord t) (m : RcMode) :
    Run.ends (fun _ => True) s.raisedFrom (checkMode t m) :=
  checkMode_ends t m (fun _ => trivial) ⟨by decide, h⟩

theorem State.sameRecord.decodeValueOf (h : s.sameRecord t) (den : Nat) :
    Run.ends (fun r => s.sameRecord r.2) s.raisedFrom (decodeValueOf t den) :=
  Run.ends_bind (h.checkMode _) fun _ _ => onCoderValue_ends <|
    Run.ends_mono (decode64_ends t.port den t.coder) (fun _ _ => h) fun _ _ hbad => ⟨hbad.1, h⟩

theorem State.sameRecord.scaleInterval (h : s.sameRecord t) (lo hi den : Nat) :
    Run.ends s.sameRecord s.raisedFrom (scaleInterval t lo hi den) :=
  Run.ends_bind (h.checkMode _) fun _ _ => onCoder_ends <|
    Run.ends_mono (scale64_ends t.port lo hi den t.coder) (fun _ _ => h) fun _ _ hbad => ⟨hbad.1, h⟩

theorem State.sameRecord.sortBody (h : s.sameRecord t) : Run.ends s.sameRecord s.raisedFrom (sortBody t) := by
  refine Run.ends_bind (checkLength_ends t _ (fun _ => trivial) ⟨by decide, h⟩) fun _ _ => ?_
  dsimp only
  split <;> exact h

theorem State.sameRecord.rcdiBody (h : s.sameRecord t) : Run.ends s.sameRecord s.raisedFrom (rcdiBody t) := by
  unfold Machine.rcdiBody
  split
  · exact ⟨by decide, h⟩
  · exact h

theorem State.sameRecord.rcfinBody (h : s.sameRecord t) : Run.ends s.sameRecord s.raisedFrom (rcfinBody t) := by
  unfold Machine.rcfinBody
  split
  · exact ⟨by decide, h⟩
  · exact h
  · exact h
  · exact Run.ends_bind (h.onCoder (finish64_raisesCodes _ _)) fun _ hu => hu

/-- No part of a command touches the fault record or the count. -/
theorem sameRecord_keptByParts (s : State) : KeptByParts s.sameRecord s.raisedFrom where
  fault _ _ hcode h := ⟨hcode, h⟩
  encode _ lo hi den h := Run.ends_bind (h.checkMode _) fun _ _ => h.onCoder (encode64_raisesCodes _ lo hi den _)
  decode _ den h := h.decodeValueOf den
  scale _ lo hi den h := h.scaleInterval lo hi den
  bufs _ _ h := h
  n _ _ h := h
  bidx _ _ h := h
  sort _ h := h.sortBody
  rcei _ h := h
  rcdi _ h := h.rcdiBody
  rcdec _ h := Run.ends_bind (h.decodeValueOf _) fun _ hr => hr
  rcfin _ h := h.rcfinBody

/-- R82 step 6 from a good state. -/
theorem State.sameRecord.complete (h : s.sameRecord t) (hg : s.good) : completedFrom s t.complete := by
  obtain ⟨hfaulted, hfault, hfinfo, hcount⟩ := h
  exact ⟨rfl, rfl, hfaulted.trans hg, by rw [State.complete_cmdcnt, hcount], hfault, hfinfo⟩

/-- Fault entry (R252). -/
theorem State.raisedFrom.takeFault {code : FaultCode} (h : s.raisedFrom code t) (info : Reg64) :
    faultedFrom s (t.takeFault code info) code info.toNat := by
  obtain ⟨-, -, -, -, hcount⟩ := h
  exact ⟨rfl, rfl, rfl, hcount, rfl, (reg64_of_toNat info).symm⟩

end Record

end Sys2Proof.Machine

open Sys2Proof Sys2Proof.Machine

/-- Settles O6: the pseudocode leaves the record as it was, so the command's end alone decides the flags. -/
theorem commandCompletesOrTakesOneFault : Obligations.CommandCompletesOrTakesOneFault := by
  intro i s t hi hg h
  have hstart : s.sameRecord s.startCommand := ⟨rfl, rfl, rfl, rfl⟩
  rcases exec_next_cases hi h fun _ => (sameRecord_keptByParts s).body i hi _ hstart with
    ⟨hf, -⟩ | ⟨-, u, hu, -, rfl⟩ | ⟨-, code, info, u, hu, rfl⟩
  · exact absurd (hf.symm.trans hg) (by decide)
  · exact .inl (hu.complete hg)
  · exact .inr ⟨code, info.toNat, hu.1, hu.takeFault info⟩
end

section
/-! PROOFS. Stable sorting by key (R104 to R106): only one list is sorted by key with the items of each key in their previous order,
and both sorts give it. Settles O22. -/

namespace Sys2Proof.Machine

/-- `l` has the items of `items` in ascending order of their key, those of one key in their previous order. -/
structure StableSort (items l : List (Nat × Nat)) : Prop where
  sorted : l.Pairwise fun x y => x.1 ≤ y.1
  stable : ∀ k, l.filter (fun x => x.1 == k) = items.filter fun x => x.1 == k

variable {items l l' : List (Nat × Nat)}

/-! ### What a stable sort determines -/

theorem StableSort.nil : StableSort [] [] := ⟨.nil, fun _ => rfl⟩

theorem eq_of_sorted_of_filter_eq (hl : l.Pairwise fun x y => x.1 ≤ y.1) (hl' : l'.Pairwise fun x y => x.1 ≤ y.1)
    (h : ∀ k, l.filter (fun x => x.1 == k) = l'.filter fun x => x.1 == k) : l = l' := by
  induction l generalizing l' with
  | nil =>
    cases l' with
    | nil => rfl
    | cons y l' => simpa using h y.1
  | cons x l ih =>
    cases l' with
    | nil => simpa using h x.1
    | cons y l' =>
      obtain ⟨hx, hrest⟩ := List.pairwise_cons.mp hl
      obtain ⟨hy, hrest'⟩ := List.pairwise_cons.mp hl'
      have hmemx : x ∈ y :: l' := List.mem_of_mem_filter (p := fun z => z.1 == x.1) (h x.1 ▸ by simp)
      have hmemy : y ∈ x :: l := List.mem_of_mem_filter (p := fun z => z.1 == y.1) (h y.1 ▸ by simp)
      have hkey : x.1 = y.1 := by
        rcases List.mem_cons.mp hmemx with rfl | hmemx
        · rfl
        · rcases List.mem_cons.mp hmemy with rfl | hmemy
          · rfl
          · exact le_antisymm (hx y hmemy) (hy x hmemx)
      have hxy : x = y := by
        have := h x.1
        simp only [hkey, List.filter_cons, beq_self_eq_true, if_true] at this
        exact (List.cons.inj this).1
      subst hxy
      refine congrArg (x :: ·) (ih hrest hrest' fun k => ?_)
      have := h k
      simp only [List.filter_cons] at this
      split at this
      · exact (List.cons.inj this).2
      · exact this

theorem StableSort.unique (h : StableSort items l) (h' : StableSort items l') : l = l' :=
  eq_of_sorted_of_filter_eq h.sorted h'.sorted fun k => (h.stable k).trans (h'.stable k).symm

theorem StableSort.perm (h : StableSort items l) : l.Perm items := by
  refine List.perm_iff_count.mpr fun x => ?_
  have hcount (m : List (Nat × Nat)) : (m.filter fun y => y.1 == x.1).count x = m.count x :=
    List.count_filter (by simp)
  rw [← hcount l, ← hcount items, h.stable]

/-- An order of the items is kept among those of one key. -/
theorem StableSort.pairwise {S : Nat × Nat → Nat × Nat → Prop} (h : StableSort items l) (hS : items.Pairwise S) :
    l.Pairwise fun x y => x.1 < y.1 ∨ x.1 = y.1 ∧ S x y := by
  refine List.pairwise_iff_forall_sublist.mpr fun {x y} hxy => ?_
  rcases (List.pairwise_iff_forall_sublist.mp h.sorted hxy).lt_or_eq with hlt | heq
  · exact .inl hlt
  · have hsub := hxy.filter fun z => z.1 == x.1
    rw [h.stable] at hsub
    have hpair : [x, y].filter (fun z => z.1 == x.1) = [x, y] := by simp [heq]
    exact .inr ⟨heq, List.pairwise_iff_forall_sublist.mp hS ((hpair ▸ hsub).trans List.filter_sublist)⟩

/-! ### The insertion sort (R105) -/

theorem insertPair_sorted (x : Nat × Nat) (h : l.Pairwise fun x y => x.1 ≤ y.1) :
    (insertPair x l).Pairwise fun x y => x.1 ≤ y.1 := by
  induction l with
  | nil => exact List.pairwise_singleton _ _
  | cons y rest ih =>
    obtain ⟨hy, hrest⟩ := List.pairwise_cons.mp h
    simp only [insertPair]
    split
    · rename_i hlt
      refine List.pairwise_cons.mpr ⟨fun z hz => ?_, h⟩
      rcases List.mem_cons.mp hz with rfl | hz
      · exact hlt.le
      · exact hlt.le.trans (hy z hz)
    · rename_i hle
      refine List.pairwise_cons.mpr ⟨fun z hz => ?_, ih hrest⟩
      rcases List.mem_cons.mp ((insertPair_perm x rest).mem_iff.mp hz) with rfl | hz
      · omega
      · exact hy z hz

/-- The inserted pair stands behind the pairs of its own key. -/
theorem filter_insertPair (x : Nat × Nat) (h : l.Pairwise fun x y => x.1 ≤ y.1) (k : Nat) :
    (insertPair x l).filter (fun y => y.1 == k) = (l ++ [x]).filter fun y => y.1 == k := by
  induction l with
  | nil => rfl
  | cons y rest ih =>
    obtain ⟨hy, hrest⟩ := List.pairwise_cons.mp h
    simp only [insertPair]
    split
    · rename_i hlt
      by_cases hk : x.1 = k
      · have hnone : (y :: rest).filter (fun y => y.1 == k) = [] := by
          refine List.filter_eq_nil_iff.mpr fun z hz => ?_
          have : y.1 ≤ z.1 := by
            rcases List.mem_cons.mp hz with rfl | hz
            · exact le_rfl
            · exact hy z hz
          simp only [beq_iff_eq]
          omega
        rw [List.filter_append, hnone, List.filter_cons, hnone, List.filter_cons]
        rfl
      · simp [List.filter_append, List.filter_cons, hk]
    · rw [List.cons_append, List.filter_cons, List.filter_cons, ih hrest]

theorem StableSort.insertPair (h : StableSort items l) (x : Nat × Nat) : StableSort (items ++ [x]) (insertPair x l) where
  sorted := insertPair_sorted x h.sorted
  stable k := by rw [filter_insertPair x h.sorted, List.filter_append, List.filter_append, h.stable]

/-- The insertion sort is a stable sort by key. -/
theorem insertionSort_stableSort (pairs : List (Nat × Nat)) : StableSort pairs (insertionSort pairs) := by
  have hfold (done acc : List (Nat × Nat)) (h : StableSort done acc) :
      StableSort (done ++ pairs) (pairs.foldl (fun acc x => Machine.insertPair x acc) acc) := by
    induction pairs generalizing done acc with
    | nil => simpa using h
    | cons x rest ih => simpa using ih _ _ (h.insertPair x)
  exact hfold [] [] .nil

/-! ### The radix sort (R106) -/

/-- A bucket pass orders by bucket, and the items of a bucket as they were. -/
theorem countingPass_pairwise {α : Type} {S : α → α → Prop} (bucket : α → Nat) {items : List α} (h : items.Pairwise S) :
    (countingPass bucket items).Pairwise fun x y => bucket x < bucket y ∨ bucket x = bucket y ∧ S x y := by
  refine List.pairwise_flatMap.mpr ⟨fun d _ => ?_, List.pairwise_lt_range.imp fun hlt x hx y hy => .inl ?_⟩
  · refine (h.filter _).imp_of_mem fun hx hy hS => .inr ⟨?_, hS⟩
    simp only [List.mem_filter, beq_iff_eq] at hx hy
    exact hx.2.trans hy.2.symm
  · simp only [List.mem_filter, beq_iff_eq] at hx hy
    omega

/-- Items that all belong to one bucket keep their order in a bucket pass. -/
theorem filter_countingPass {α : Type} (bucket : α → Nat) (items : List α) (P : α → Bool) {c : Nat} (hc : c < Config.nsym)
    (hP : ∀ x, P x = true → bucket x = c) : (countingPass bucket items).filter P = items.filter P := by
  have hbucket (d : Nat) : (items.filter fun x => bucket x == d).filter P = if d = c then items.filter P else [] := by
    rw [List.filter_filter]
    split
    · refine List.filter_congr fun x _ => ?_
      cases hx : P x <;> simp_all
    · refine List.filter_eq_nil_iff.mpr fun x _ hx => ?_
      simp only [Bool.and_eq_true, beq_iff_eq] at hx
      have := hP x hx.1
      omega
  have hbuckets (m : Nat) : ((List.range m).flatMap fun d => items.filter fun x => bucket x == d).filter P =
      if c < m then items.filter P else [] := by
    induction m with
    | zero => rfl
    | succ m ih =>
      rw [List.range_succ, List.flatMap_append, List.filter_append, ih, List.flatMap_singleton, hbucket]
      rcases lt_trichotomy c m with hlt | rfl | hgt
      · rw [if_pos hlt, if_neg (by omega), if_pos (by omega), List.append_nil]
      · rw [if_neg (by omega), if_pos rfl, if_pos (by omega), List.nil_append]
      · rw [if_neg (by omega), if_neg (by omega), if_neg (by omega), List.append_nil]
  exact (hbuckets _).trans (if_pos hc)

/-- Passes `t, t + 1, ...` turn an order by the digits below `t` into one by all digits they have seen. -/
theorem radixPasses_sorted (passes t : Nat) (pairs : List (Nat × Nat))
    (h : pairs.Pairwise fun x y => x.1 % 2 ^ (8 * t) ≤ y.1 % 2 ^ (8 * t)) :
    (radixPasses passes t pairs).Pairwise fun x y => x.1 % 2 ^ (8 * (t + passes)) ≤ y.1 % 2 ^ (8 * (t + passes)) := by
  induction passes generalizing t pairs with
  | zero => exact h
  | succ passes ih =>
    have hdigit (k : Nat) : k % 2 ^ (8 * (t + 1)) = k % 2 ^ (8 * t) + 2 ^ (8 * t) * (k / 2 ^ (8 * t) % 256) := by
      rw [show 2 ^ (8 * (t + 1)) = 2 ^ (8 * t) * 256 by rw [Nat.mul_succ, Nat.pow_add], Nat.mod_mul]
    rw [show t + (passes + 1) = t + 1 + passes by omega]
    refine ih (t + 1) _ ((countingPass_pairwise _ h).imp fun {x y} hxy => ?_)
    simp only [Config.radixDigitBits, Config.nsym] at hxy
    rw [hdigit, hdigit]
    rcases hxy with hlt | ⟨heq, hle⟩
    · have hmod := Nat.mod_lt x.1 (Nat.two_pow_pos (8 * t))
      have hmul := Nat.mul_le_mul_left (2 ^ (8 * t)) (Nat.succ_le_of_lt hlt)
      rw [Nat.mul_succ] at hmul
      omega
    · rw [heq]
      omega

theorem filter_radixPasses (passes t : Nat) (pairs : List (Nat × Nat)) (k : Nat) :
    (radixPasses passes t pairs).filter (fun x => x.1 == k) = pairs.filter fun x => x.1 == k := by
  induction passes generalizing t pairs with
  | zero => rfl
  | succ passes ih =>
    refine (ih _ _).trans (filter_countingPass _ _ _ (Nat.mod_lt (k / 2 ^ (Config.radixDigitBits * t)) (by decide))
      fun x hx => ?_)
    rw [beq_iff_eq.mp hx]

theorem le_two_pow_ceilLog2From (n fuel b : Nat) (h : n ≤ 2 ^ (b + fuel)) : n ≤ 2 ^ ceilLog2From n fuel b := by
  induction fuel generalizing b with
  | zero => exact h
  | succ fuel ih =>
    unfold ceilLog2From
    split
    · assumption
    · exact ih (b + 1) (by rwa [show b + 1 + fuel = b + (fuel + 1) by omega])

/-- `ceil_log2(n)` is large enough (R9). -/
theorem le_two_pow_ceilLog2 (n : Nat) : n ≤ 2 ^ ceilLog2 n :=
  le_two_pow_ceilLog2From n n 0 (by simpa using Nat.lt_two_pow_self.le)

/-- The radix sort is a stable sort by key, since its passes cover every bit of a key below `n`. -/
theorem radixSort_stableSort (n : Nat) (pairs : List (Nat × Nat)) (h : ∀ x ∈ pairs, x.1 < n) :
    StableSort pairs (radixSort n pairs) where
  sorted := by
    have hmod {x : Nat × Nat} (hx : x ∈ radixSort n pairs) :
        x.1 % 2 ^ (8 * (0 + (ceilLog2 n + 7) / Config.radixDigitBits)) = x.1 := by
      refine Nat.mod_eq_of_lt ((h x ((radixPasses_perm _ _ _).mem_iff.mp hx)).trans_le ?_)
      refine (le_two_pow_ceilLog2 n).trans (Nat.pow_le_pow_right (by omega) ?_)
      simp only [Config.radixDigitBits]
      omega
    refine (radixPasses_sorted _ 0 pairs ?_).imp_of_mem fun hx hy hle => ?_
    · exact List.pairwise_of_forall fun x y => by simp [Nat.mod_one]
    · rwa [hmod hx, hmod hy] at hle
  stable k := filter_radixPasses _ _ _ k

end Sys2Proof.Machine

open Sys2Proof.Machine

/-- Settles O22: both sorts are stable by key, and only one list is. -/
theorem radixSortAgreesWithInsertionSort : Obligations.RadixSortAgreesWithInsertionSort := fun n pairs h =>
  (radixSort_stableSort n pairs h).unique (insertionSort_stableSort pairs)
end

section
/-! PROOFS. The first slot of a key in a sorted list (R101, R102), and the sub-blocks of `refine` in its terms (R104). -/

namespace Sys2Proof.Machine

/-! ### Elements with the default 0 -/

theorem getD_map_of_lt (f : Nat → Nat) {l : List Nat} {k : Nat} (hk : k < l.length) : (l.map f).getD k 0 = f (l.getD k 0) := by
  rw [List.getD_eq_getElem _ _ (by rwa [List.length_map]), List.getElem_map, List.getD_eq_getElem _ _ hk]

theorem getD_mem {l : List Nat} {k : Nat} (hk : k < l.length) : l.getD k 0 ∈ l := by
  rw [List.getD_eq_getElem _ _ hk]
  exact List.getElem_mem hk

theorem getD_lt_of_perm_range {n : Nat} {l : List Nat} (hl : l.Perm (List.range n)) {k : Nat} (hk : k < n) : l.getD k 0 < n :=
  List.mem_range.mp (hl.mem_iff.mp (getD_mem (by rwa [hl.length_eq, List.length_range])))

theorem map_getD_range (d : List Nat) : (List.range d.length).map (fun p => d.getD p 0) = d :=
  List.ext_getElem (by simp) fun p hp hp' => by simp [hp']

/-! ### The first slot of a key -/

theorem bucketStart_eq_countP (l : List Nat) (c : Nat) : bucketStart l c = l.countP fun x => decide (x < c) :=
  List.countP_eq_length_filter.symm

theorem bucketStart_perm {l l' : List Nat} (h : l.Perm l') (c : Nat) : bucketStart l c = bucketStart l' c :=
  (h.filter _).length_eq

theorem bucketStart_cons_lt {x c : Nat} (l : List Nat) (h : x < c) : bucketStart (x :: l) c = bucketStart l c + 1 := by
  simp [bucketStart, h]

theorem bucketStart_eq_zero {l : List Nat} {c : Nat} (h : ∀ x ∈ l, c ≤ x) : bucketStart l c = 0 := by
  simpa [bucketStart, List.filter_eq_nil_iff] using h

theorem bucketStart_mono (l : List Nat) {c c' : Nat} (h : c ≤ c') : bucketStart l c ≤ bucketStart l c' := by
  rw [bucketStart_eq_countP, bucketStart_eq_countP]
  refine List.countP_mono_left fun x _ hx => ?_
  rw [decide_eq_true_eq] at hx ⊢
  omega

/-- The listed values keep their order when each is replaced by its first slot. -/
theorem bucketStart_lt_iff {l : List Nat} {c : Nat} (hc : c ∈ l) (c' : Nat) : bucketStart l c < bucketStart l c' ↔ c < c' := by
  refine ⟨fun h => ?_, fun h => ?_⟩
  · by_contra hle
    exact absurd (bucketStart_mono l (not_lt.mp hle)) (not_le.mpr h)
  · obtain ⟨front, rest, rfl⟩ := List.append_of_mem hc
    have hmid := bucketStart_perm (List.perm_middle (a := c) (l₁ := front) (l₂ := rest))
    rw [hmid, hmid, bucketStart_cons_lt _ h]
    have hle := bucketStart_mono (front ++ rest) h.le
    have hself : bucketStart (c :: (front ++ rest)) c = bucketStart (front ++ rest) c := by simp [bucketStart]
    omega

theorem bucketStart_inj {l : List Nat} {c c' : Nat} (hc : c ∈ l) (hc' : c' ∈ l) :
    bucketStart l c = bucketStart l c' ↔ c = c' := by
  have h := bucketStart_lt_iff hc c'
  have h' := bucketStart_lt_iff hc' c
  omega

/-- In a sorted list the values below `c` are the first `bucketStart l c` ones. -/
theorem lt_bucketStart_iff {l : List Nat} (hl : l.Pairwise (· ≤ ·)) (c : Nat) {i : Nat} (hi : i < l.length) :
    i < bucketStart l c ↔ l.getD i 0 < c := by
  induction l generalizing i with
  | nil => simp at hi
  | cons x l ih =>
    obtain ⟨hx, hl⟩ := List.pairwise_cons.mp hl
    rcases lt_or_ge x c with hlt | hge
    · rw [bucketStart_cons_lt l hlt]
      cases i with
      | zero => simpa using hlt
      | succ i => simpa using ih hl (by simpa using hi)
    · have hall : ∀ y ∈ x :: l, c ≤ y := by
        simpa [hge] using fun y hy => hge.trans (hx y hy)
      rw [bucketStart_eq_zero hall, List.getD_eq_getElem _ _ hi]
      have := hall _ (List.getElem_mem hi)
      omega

/-- The first slot of a value in a sorted list: from there to the value's own slot the list holds that value, before it a smaller
one. -/
theorem bucketStart_spec {l : List Nat} (hl : l.Pairwise (· ≤ ·)) {i : Nat} (hi : i < l.length) :
    bucketStart l (l.getD i 0) ≤ i ∧ (∀ j ≤ i, bucketStart l (l.getD i 0) ≤ j → l.getD j 0 = l.getD i 0) ∧
      (0 < bucketStart l (l.getD i 0) → l.getD (bucketStart l (l.getD i 0) - 1) 0 < l.getD i 0) := by
  have hstart : bucketStart l (l.getD i 0) ≤ i := by
    have := lt_bucketStart_iff hl (l.getD i 0) hi
    omega
  refine ⟨hstart, fun j hj hle => ?_, fun hpos => ?_⟩
  · have hbelow := lt_bucketStart_iff hl (l.getD i 0) (i := j) (by omega)
    have hsorted : l.getD j 0 ≤ l.getD i 0 := by
      rw [List.getD_eq_getElem _ _ hi, List.getD_eq_getElem _ _ (hj.trans_lt hi)]
      exact hl.rel_get_of_le (a := ⟨j, hj.trans_lt hi⟩) (b := ⟨i, hi⟩) hj
    omega
  · exact (lt_bucketStart_iff hl _ (by omega)).mp (by omega)

theorem bucketStart_lt_length {l : List Nat} {c : Nat} (hc : c ∈ l) : bucketStart l c < l.length := by
  rw [bucketStart_eq_countP]
  refine lt_of_le_of_ne List.countP_le_length fun h => ?_
  have := List.countP_eq_length.mp h c hc
  simp at this

/-! ### The lists that `refine` writes -/

/-- Behind a pair of key `k`, whose sub-block is `sub`, the pairs of key `k` are in that sub-block and each other key starts its
own. -/
theorem subBlocks_some (l : List (Nat × Nat)) (slot sub k : Nat) (hl : l.Pairwise fun x y => x.1 ≤ y.1)
    (hk : ∀ x ∈ l, k ≤ x.1) :
    subBlocks slot sub (some k) l =
      l.map fun x => if x.1 = k then sub else slot + bucketStart (l.map Prod.fst) x.1 := by
  induction l generalizing slot sub k with
  | nil => rfl
  | cons x l ih =>
    obtain ⟨hx, hl⟩ := List.pairwise_cons.mp hl
    have hhead : bucketStart ((x :: l).map Prod.fst) x.1 = 0 := bucketStart_eq_zero (by simpa using hx)
    simp only [subBlocks]
    rw [ih _ _ _ hl hx, List.map_cons (l := l), hhead]
    refine congrArg _ (List.map_congr_left fun y hy => ?_)
    have hkx := hk x (by simp)
    rcases (hx y hy).eq_or_lt with heq | hlt
    · rw [if_pos heq.symm, ← heq, hhead, Nat.add_zero]
    · rw [if_neg (by omega), if_neg (by omega), List.map_cons, bucketStart_cons_lt _ hlt]
      omega

/-- In sorted pairs each key's sub-block starts at the key's first slot. -/
theorem subBlocks_eq (l : List (Nat × Nat)) (start : Nat) (hl : l.Pairwise fun x y => x.1 ≤ y.1) :
    subBlocks start start none l = l.map fun x => start + bucketStart (l.map Prod.fst) x.1 := by
  cases l with
  | nil => rfl
  | cons x l =>
    obtain ⟨hx, -⟩ := List.pairwise_cons.mp hl
    have hhead : bucketStart ((x :: l).map Prod.fst) x.1 = 0 := bucketStart_eq_zero (by simpa using hx)
    have hfirst : subBlocks start start none (x :: l) = subBlocks start start (some x.1) (x :: l) := by simp [subBlocks]
    rw [hfirst, subBlocks_some _ _ _ _ hl (by simpa using hx)]
    refine List.map_congr_left fun y _ => ?_
    split
    · rename_i heq
      rw [heq, hhead, Nat.add_zero]
    · rfl

/-- The members get their values, every other position keeps its rank. -/
theorem getD_setRanks (rank members : List Nat) (f : Nat → Nat) {p : Nat} (hp : p < rank.length) :
    (setRanks rank members (members.map f)).getD p 0 = if p ∈ members then f p else rank.getD p 0 := by
  induction members generalizing rank with
  | nil => rfl
  | cons q members ih =>
    have hset : setRanks rank (q :: members) ((q :: members).map f) = setRanks (rank.set q (f q)) members (members.map f) := rfl
    rw [hset, ih _ (by simpa using hp)]
    by_cases hmem : p ∈ members
    · simp [hmem]
    · by_cases hq : q = p
      · simp [hq, hp]
      · simp [hmem, hq, Ne.symm hq]

theorem getD_replaceFrom (l vs : List Nat) (start k : Nat) (h : start + vs.length ≤ l.length) :
    (replaceFrom l start vs).getD k 0 =
      if start ≤ k ∧ k < start + vs.length then vs.getD (k - start) 0 else l.getD k 0 := by
  simp only [replaceFrom, List.getD_eq_getElem?_getD, List.append_assoc, List.getElem?_append, List.length_take,
    List.getElem?_take, List.getElem?_drop, Nat.min_eq_left (show start ≤ l.length by omega)]
  by_cases hlow : k < start
  · simp [hlow]
  · by_cases hhigh : k < start + vs.length
    · rw [if_neg hlow, if_pos (by omega), if_pos (by omega)]
    · rw [if_neg hlow, if_neg (by omega), if_neg (by omega), show start + vs.length + (k - start - vs.length) = k by omega]

end Sys2Proof.Machine
end

section
/-! PROOFS. The sorter's arrays (R101) and what refining a block does to them (R104). -/

namespace Sys2Proof.Machine

/-! ### Proper arrays (R101) -/

section Proper

variable {n : Nat} {a : SortArrays}

theorem SortArrays.proper.suf_perm (ha : a.proper n) : a.suf.Perm (List.range n) := by
  obtain ⟨hperm, -⟩ := ha
  exact hperm

theorem SortArrays.proper.group_end (ha : a.proper n) : a.group.getD n 0 = n := by
  obtain ⟨-, -, -, hsentinel, -⟩ := ha
  exact hsentinel

theorem SortArrays.proper.group_eq_rank (ha : a.proper n) {k : Nat} (hk : k < n) :
    a.group.getD k 0 = a.rank.getD (a.suf.getD k 0) 0 := by
  obtain ⟨-, -, -, -, hslots⟩ := ha
  obtain ⟨hrank, -, -⟩ := hslots k hk
  exact hrank

theorem SortArrays.proper.group_le (ha : a.proper n) {k : Nat} (hk : k < n) : a.group.getD k 0 ≤ k := by
  obtain ⟨-, -, -, -, hslots⟩ := ha
  obtain ⟨-, hle, -⟩ := hslots k hk
  exact hle

theorem SortArrays.proper.group_between (ha : a.proper n) {j k : Nat} (hk : k < n) (hjk : j ≤ k)
    (hj : a.group.getD k 0 ≤ j) : a.group.getD j 0 = a.group.getD k 0 := by
  obtain ⟨-, -, -, -, hslots⟩ := ha
  obtain ⟨-, -, hbetween⟩ := hslots k hk
  exact hbetween j hjk hj

theorem SortArrays.proper.suf_length (ha : a.proper n) : a.suf.length = n := by
  simpa using ha.suf_perm.length_eq

theorem SortArrays.proper.sized (ha : a.proper n) : a.sized n := by
  obtain ⟨-, hrank, hgroup, -⟩ := id ha
  exact ⟨ha.suf_length, hrank, hgroup⟩

theorem SortArrays.proper.suf_nodup (ha : a.proper n) : a.suf.Nodup := ha.suf_perm.nodup_iff.mpr List.nodup_range

theorem SortArrays.proper.mem_suf_iff (ha : a.proper n) (p : Nat) : p ∈ a.suf ↔ p < n :=
  ha.suf_perm.mem_iff.trans List.mem_range

theorem SortArrays.proper.suf_lt (ha : a.proper n) {k : Nat} (hk : k < n) : a.suf.getD k 0 < n :=
  getD_lt_of_perm_range ha.suf_perm hk

theorem SortArrays.proper.group_mono (ha : a.proper n) {j k : Nat} (hk : k < n) (hjk : j ≤ k) :
    a.group.getD j 0 ≤ a.group.getD k 0 := by
  have hj := ha.group_le (hjk.trans_lt hk)
  have hbetween := ha.group_between hk hjk
  omega

/-- A position stands in a slot, and its rank is that slot's `GROUP` entry. -/
theorem SortArrays.proper.exists_slot (ha : a.proper n) {p : Nat} (hp : p < n) :
    ∃ k < n, a.suf.getD k 0 = p ∧ a.rank.getD p 0 = a.group.getD k 0 := by
  obtain ⟨k, hk, hkp⟩ := List.mem_iff_getElem.mp ((ha.mem_suf_iff p).mpr hp)
  have hslot : a.suf.getD k 0 = p := (List.getD_eq_getElem _ _ hk).trans hkp
  have hkn : k < n := ha.suf_length ▸ hk
  exact ⟨k, hkn, hslot, by rw [ha.group_eq_rank hkn, hslot]⟩

theorem SortArrays.proper.rank_lt (ha : a.proper n) {p : Nat} (hp : p < n) : a.rank.getD p 0 < n := by
  obtain ⟨k, hk, -, hrank⟩ := ha.exists_slot hp
  rw [hrank]
  exact (ha.group_le hk).trans_lt hk

theorem SortArrays.proper.key_lt (ha : a.proper n) (hn : 0 < n) (h p : Nat) : a.key n h p < n :=
  ha.rank_lt (Nat.mod_lt _ hn)

end Proper

/-! ### Blocks -/

/-- The slots `[start, stop)` are a block (R101). -/
structure SortArrays.isBlock (n start stop : Nat) (a : SortArrays) : Prop where
  lt : start < stop
  le : stop ≤ n
  inside : ∀ k < stop, start ≤ k → a.group.getD k 0 = start
  ends : a.group.getD stop 0 ≠ start

/-- `MEM` of R104 before it is sorted: the positions in the slots `[start, stop)`. -/
def SortArrays.members (start stop : Nat) (a : SortArrays) : List Nat := (a.suf.drop start).take (stop - start)

/-- `MEM` of R104 after it is sorted. -/
def SortArrays.sortedMembers (n start stop h : Nat) (a : SortArrays) : List Nat :=
  (insertionSort ((a.members start stop).map fun p => (a.key n h p, p))).map Prod.snd

/-- The first slot of the sub-block that `refine` puts a member in (R104). -/
def SortArrays.subStart (n start stop h : Nat) (a : SortArrays) (p : Nat) : Nat :=
  start + bucketStart ((a.members start stop).map (a.key n h)) (a.key n h p)

section Block

variable {n start stop h : Nat} {a : SortArrays}

theorem SortArrays.isBlock.le_group (hb : a.isBlock n start stop) (ha : a.proper n) {k : Nat} (hk : k < n) (hstop : stop ≤ k) :
    stop ≤ a.group.getD k 0 := by
  by_contra hlt
  have hlast := ha.group_between (j := stop - 1) hk (by omega) (by omega)
  have hnext := ha.group_between (j := stop) hk hstop (by omega)
  have := hb.inside (stop - 1) (by have := hb.lt; omega) (by have := hb.lt; omega)
  exact hb.ends (by omega)

theorem SortArrays.isBlock.group_stop (hb : a.isBlock n start stop) (ha : a.proper n) : a.group.getD stop 0 = stop := by
  rcases hb.le.lt_or_eq with hlt | rfl
  · exact le_antisymm (ha.group_le hlt) (hb.le_group ha hlt le_rfl)
  · exact ha.group_end

theorem SortArrays.isBlock.members_length (hb : a.isBlock n start stop) (ha : a.proper n) :
    (a.members start stop).length = stop - start := by
  have := hb.le
  simp only [SortArrays.members, List.length_take, List.length_drop, ha.suf_length]
  omega

theorem SortArrays.isBlock.mem_members_iff (hb : a.isBlock n start stop) (ha : a.proper n) (p : Nat) :
    p ∈ a.members start stop ↔ ∃ k, start ≤ k ∧ k < stop ∧ a.suf.getD k 0 = p := by
  have hle := hb.le
  have hlen := hb.members_length ha
  have hget (i : Nat) (hi : i < stop - start) : (a.members start stop)[i]? = some (a.suf.getD (start + i) 0) := by
    rw [SortArrays.members, List.getElem?_take_of_lt hi, List.getElem?_drop, List.getD_eq_getElem _ _
      (by rw [ha.suf_length]; omega), List.getElem?_eq_getElem]
  rw [List.mem_iff_getElem?]
  constructor
  · rintro ⟨i, hi⟩
    have hlt : i < stop - start := hlen ▸ (List.getElem?_eq_some_iff.mp hi).1
    exact ⟨start + i, by omega, by omega, Option.some.inj ((hget i hlt).symm.trans hi)⟩
  · rintro ⟨k, hstart, hstop, hk⟩
    refine ⟨k - start, ?_⟩
    rw [hget _ (by omega), show start + (k - start) = k by omega, hk]

theorem SortArrays.isBlock.rank_of_mem (hb : a.isBlock n start stop) (ha : a.proper n) {p : Nat}
    (hp : p ∈ a.members start stop) : a.rank.getD p 0 = start := by
  obtain ⟨k, hstart, hstop, rfl⟩ := (hb.mem_members_iff ha p).mp hp
  rw [← ha.group_eq_rank (hstop.trans_le hb.le), hb.inside k hstop hstart]

theorem SortArrays.isBlock.suf_mem_members_iff (hb : a.isBlock n start stop) (ha : a.proper n) {k : Nat} (hk : k < n) :
    a.suf.getD k 0 ∈ a.members start stop ↔ start ≤ k ∧ k < stop := by
  refine ⟨fun hmem => ?_, fun hin => (hb.mem_members_iff ha _).mpr ⟨k, hin.1, hin.2, rfl⟩⟩
  have hgroup : a.group.getD k 0 = start := by rw [ha.group_eq_rank hk, hb.rank_of_mem ha hmem]
  have hle := ha.group_le hk
  have hge := hb.le_group ha hk
  have hlt := hb.lt
  omega

theorem SortArrays.isBlock.member_lt (hb : a.isBlock n start stop) (ha : a.proper n) {p : Nat}
    (hp : p ∈ a.members start stop) : p < n := by
  obtain ⟨k, -, hstop, rfl⟩ := (hb.mem_members_iff ha p).mp hp
  exact ha.suf_lt (hstop.trans_le hb.le)

/-- A position outside the block has a rank outside the block's slots. -/
theorem SortArrays.isBlock.rank_of_not_mem (hb : a.isBlock n start stop) (ha : a.proper n) {p : Nat} (hp : p < n)
    (hout : p ∉ a.members start stop) : a.rank.getD p 0 < start ∨ stop ≤ a.rank.getD p 0 := by
  obtain ⟨k, hk, hslot, hrank⟩ := ha.exists_slot hp
  rw [hrank]
  have hslots : k < start ∨ stop ≤ k := by
    by_contra hin
    exact hout ((hb.mem_members_iff ha p).mpr ⟨k, by omega, by omega, hslot⟩)
  rcases hslots with hlow | hhigh
  · exact .inl ((ha.group_le hk).trans_lt hlow)
  · exact .inr (hb.le_group ha hk hhigh)

/-! ### The sorted members -/

theorem SortArrays.sortedMembers_perm (n start stop h : Nat) (a : SortArrays) :
    (a.sortedMembers n start stop h).Perm (a.members start stop) := by
  have hperm := (insertionSort_perm ((a.members start stop).map fun p => (a.key n h p, p))).map Prod.snd
  rwa [List.map_map, show Prod.snd ∘ (fun p => (a.key n h p, p)) = id from rfl, List.map_id] at hperm

/-- Sorting the pairs is sorting the members: each pair keeps its key. -/
theorem SortArrays.insertionSort_pairs (n start stop h : Nat) (a : SortArrays) :
    insertionSort ((a.members start stop).map fun p => (a.key n h p, p)) =
      (a.sortedMembers n start stop h).map fun p => (a.key n h p, p) := by
  rw [SortArrays.sortedMembers, List.map_map]
  refine ((List.map_congr_left fun x hx => ?_).trans (List.map_id _)).symm
  obtain ⟨p, -, rfl⟩ := List.mem_map.mp ((insertionSort_perm _).mem_iff.mp hx)
  rfl

/-- The sorted members rise by key, and those of one key are in their previous order. -/
theorem SortArrays.sortedMembers_pairwise {S : Nat → Nat → Prop} (hS : (a.members start stop).Pairwise S) :
    (a.sortedMembers n start stop h).Pairwise fun p q => a.key n h p < a.key n h q ∨ a.key n h p = a.key n h q ∧ S p q := by
  have hpairs := (insertionSort_stableSort ((a.members start stop).map fun p => (a.key n h p, p))).pairwise
    (S := fun x y => S x.2 y.2) (List.pairwise_map.mpr hS)
  rwa [SortArrays.insertionSort_pairs, List.pairwise_map] at hpairs

theorem SortArrays.sortedMembers_keys_sorted (n start stop h : Nat) (a : SortArrays) :
    ((a.sortedMembers n start stop h).map (a.key n h)).Pairwise (· ≤ ·) := by
  refine List.pairwise_map.mpr ((SortArrays.sortedMembers_pairwise (S := fun _ _ => True) ?_).imp fun hpq => ?_)
  · exact List.pairwise_of_forall fun _ _ => trivial
  · omega

theorem SortArrays.subStart_eq (n start stop h : Nat) (a : SortArrays) (p : Nat) :
    a.subStart n start stop h p = start + bucketStart ((a.sortedMembers n start stop h).map (a.key n h)) (a.key n h p) := by
  rw [SortArrays.subStart, bucketStart_perm ((SortArrays.sortedMembers_perm n start stop h a).map _)]

/-- `refine` in these terms, whichever sort it takes. -/
theorem refine_eq (ha : a.proper n) (hn : 0 < n) :
    refine n start stop h a =
      { suf := replaceFrom a.suf start (a.sortedMembers n start stop h)
        rank := setRanks a.rank (a.sortedMembers n start stop h)
          ((a.sortedMembers n start stop h).map (a.subStart n start stop h))
        group := replaceFrom a.group start ((a.sortedMembers n start stop h).map (a.subStart n start stop h)) } := by
  have hkeys : ∀ x ∈ (a.members start stop).map fun p => (a.key n h p, p), x.1 < n := by
    intro x hx
    obtain ⟨p, -, rfl⟩ := List.mem_map.mp hx
    exact ha.key_lt hn h p
  have hsorted : (if stop - start < Config.insertionThreshold
      then insertionSort ((a.members start stop).map fun p => (a.key n h p, p))
      else radixSort n ((a.members start stop).map fun p => (a.key n h p, p))) =
      insertionSort ((a.members start stop).map fun p => (a.key n h p, p)) := by
    rw [radixSortAgreesWithInsertionSort n _ hkeys, ite_self]
  have hsubs : subBlocks start start none (insertionSort ((a.members start stop).map fun p => (a.key n h p, p))) =
      (a.sortedMembers n start stop h).map (a.subStart n start stop h) := by
    rw [subBlocks_eq _ _ (insertionSort_stableSort _).sorted, SortArrays.insertionSort_pairs, List.map_map, List.map_map]
    exact List.map_congr_left fun p _ => (a.subStart_eq n start stop h p).symm
  rw [← hsubs, SortArrays.sortedMembers, ← hsorted]
  rfl

/-! ### What `refine` does, array by array -/

theorem SortArrays.isBlock.sortedMembers_length (hb : a.isBlock n start stop) (ha : a.proper n) :
    (a.sortedMembers n start stop h).length = stop - start :=
  (SortArrays.sortedMembers_perm n start stop h a).length_eq.trans (hb.members_length ha)

theorem SortArrays.isBlock.pos (hb : a.isBlock n start stop) : 0 < n := (Nat.zero_le start).trans_lt (hb.lt.trans_le hb.le)

theorem SortArrays.isBlock.refine_suf_getD (hb : a.isBlock n start stop) (ha : a.proper n) (k : Nat) :
    (refine n start stop h a).suf.getD k 0 =
      if start ≤ k ∧ k < stop then (a.sortedMembers n start stop h).getD (k - start) 0 else a.suf.getD k 0 := by
  have hstop : start + (stop - start) = stop := Nat.add_sub_cancel' hb.lt.le
  rw [refine_eq ha hb.pos, getD_replaceFrom, hb.sortedMembers_length ha, hstop]
  rw [hb.sortedMembers_length ha, hstop, ha.suf_length]
  exact hb.le

/-- Refining a block keeps its members in its slots. -/
theorem SortArrays.isBlock.refine_suf_mem_members_iff (hb : a.isBlock n start stop) (ha : a.proper n) {k : Nat} (hk : k < n) :
    (refine n start stop h a).suf.getD k 0 ∈ a.members start stop ↔ start ≤ k ∧ k < stop := by
  rw [hb.refine_suf_getD ha]
  split
  · rename_i hin
    have hlt : k - start < (a.sortedMembers n start stop h).length := by
      rw [hb.sortedMembers_length ha]
      omega
    exact iff_of_true ((SortArrays.sortedMembers_perm n start stop h a).mem_iff.mp (getD_mem hlt)) hin
  · exact hb.suf_mem_members_iff ha hk

theorem SortArrays.isBlock.refine_group_getD (hb : a.isBlock n start stop) (ha : a.proper n) (k : Nat) :
    (refine n start stop h a).group.getD k 0 =
      if start ≤ k ∧ k < stop then a.subStart n start stop h ((refine n start stop h a).suf.getD k 0)
      else a.group.getD k 0 := by
  have hlen := hb.sortedMembers_length (h := h) ha
  have hstop : start + (stop - start) = stop := Nat.add_sub_cancel' hb.lt.le
  rw [hb.refine_suf_getD ha, refine_eq ha hb.pos, getD_replaceFrom, List.length_map, hlen, hstop]
  · split
    · exact getD_map_of_lt _ (by omega)
    · rfl
  · rw [List.length_map, hlen, hstop, ha.sized.group]
    exact hb.le.trans n.le_succ

theorem SortArrays.isBlock.refine_rank_getD (hb : a.isBlock n start stop) (ha : a.proper n) {p : Nat} (hp : p < n) :
    (refine n start stop h a).rank.getD p 0 =
      if p ∈ a.members start stop then a.subStart n start stop h p else a.rank.getD p 0 := by
  rw [refine_eq ha hb.pos, getD_setRanks _ _ _ (by rwa [ha.sized.rank])]
  exact if_congr (SortArrays.sortedMembers_perm n start stop h a).mem_iff rfl rfl

theorem SortArrays.isBlock.suf_eq (hb : a.isBlock n start stop) :
    a.suf = a.suf.take start ++ a.members start stop ++ a.suf.drop stop := by
  have hrest := (List.take_append_drop (stop - start) (a.suf.drop start)).symm
  rw [List.drop_drop, Nat.add_sub_cancel' hb.lt.le] at hrest
  rw [SortArrays.members, List.append_assoc, ← hrest, List.take_append_drop]

theorem SortArrays.isBlock.refine_suf_eq (hb : a.isBlock n start stop) (ha : a.proper n) :
    (refine n start stop h a).suf = a.suf.take start ++ a.sortedMembers n start stop h ++ a.suf.drop stop := by
  rw [refine_eq ha hb.pos, replaceFrom, hb.sortedMembers_length ha, Nat.add_sub_cancel' hb.lt.le]

theorem SortArrays.isBlock.refine_suf_perm (hb : a.isBlock n start stop) (ha : a.proper n) :
    (refine n start stop h a).suf.Perm a.suf := by
  conv_rhs => rw [hb.suf_eq]
  rw [hb.refine_suf_eq ha]
  exact ((SortArrays.sortedMembers_perm n start stop h a).append_left _).append_right _

theorem SortArrays.isBlock.refine_members (hb : a.isBlock n start stop) (ha : a.proper n) :
    (refine n start stop h a).members start stop = a.sortedMembers n start stop h := by
  have hfront : (a.suf.take start).length = start := by
    rw [List.length_take, ha.suf_length]
    exact Nat.min_eq_left (hb.lt.le.trans hb.le)
  rw [SortArrays.members, hb.refine_suf_eq ha, List.append_assoc, List.drop_left' hfront,
    List.take_left' (hb.sortedMembers_length ha)]

theorem SortArrays.isBlock.subStart_bounds (hb : a.isBlock n start stop) (ha : a.proper n) {p : Nat}
    (hp : p ∈ a.members start stop) : start ≤ a.subStart n start stop h p ∧ a.subStart n start stop h p < stop := by
  have hlt := bucketStart_lt_length (List.mem_map_of_mem (f := a.key n h) hp)
  rw [List.length_map, hb.members_length ha] at hlt
  rw [SortArrays.subStart]
  omega

/-- The sub-block of a slot: it starts in the block, at or before the slot; from its start to the slot the keys are the slot's, and
the key before it in the block is smaller. -/
theorem SortArrays.isBlock.subStart_spec (hb : a.isBlock n start stop) (ha : a.proper n) {k g : Nat} (hstart : start ≤ k)
    (hstop : k < stop) (hg : a.subStart n start stop h ((refine n start stop h a).suf.getD k 0) = g) :
    start ≤ g ∧ g ≤ k ∧
      (∀ j ≤ k, g ≤ j →
        a.key n h ((refine n start stop h a).suf.getD j 0) = a.key n h ((refine n start stop h a).suf.getD k 0)) ∧
      (start < g →
        a.key n h ((refine n start stop h a).suf.getD (g - 1) 0) < a.key n h ((refine n start stop h a).suf.getD k 0)) := by
  have hlen := hb.sortedMembers_length (h := h) ha
  have hkey (j : Nat) (hj : start ≤ j) (hj' : j < stop) : a.key n h ((refine n start stop h a).suf.getD j 0) =
      ((a.sortedMembers n start stop h).map (a.key n h)).getD (j - start) 0 := by
    rw [hb.refine_suf_getD ha, if_pos ⟨hj, hj'⟩, getD_map_of_lt _ (by omega)]
  obtain ⟨hle, hbetween, hbefore⟩ := bucketStart_spec (SortArrays.sortedMembers_keys_sorted n start stop h a)
    (i := k - start) (by rw [List.length_map, hlen]; omega)
  rw [SortArrays.subStart_eq, hkey k hstart hstop] at hg
  rw [hkey k hstart hstop]
  refine ⟨by omega, by omega, fun j hj hgj => ?_, fun hlt => ?_⟩
  · rw [hkey j (by omega) (by omega)]
    exact hbetween _ (by omega) (by omega)
  · rw [hkey _ (by omega) (by omega), show g - 1 - start = g - start - 1 by omega, ← hg, Nat.add_sub_cancel_left]
    exact hbefore (by omega)

/-- Refining a block leaves proper arrays. -/
theorem SortArrays.isBlock.refine_proper (hb : a.isBlock n start stop) (ha : a.proper n) :
    (refine n start stop h a).proper n := by
  have hle := hb.le
  obtain ⟨-, hrank, hgroup⟩ := ha.sized.refine start stop h
  have hgroup_getD := fun k => hb.refine_group_getD (h := h) ha k
  have hperm := (hb.refine_suf_perm (h := h) ha).trans ha.suf_perm
  refine ⟨hperm, hrank, hgroup, ?_, fun k hk => ?_⟩
  · rw [hgroup_getD, if_neg (by omega), ha.group_end]
  · have hsuf := getD_lt_of_perm_range hperm hk
    refine ⟨?_, ?_⟩
    · rw [hgroup_getD, hb.refine_rank_getD ha hsuf]
      simp only [hb.refine_suf_mem_members_iff ha hk]
      split
      · rfl
      · rename_i hout
        rw [hb.refine_suf_getD ha, if_neg hout, ha.group_eq_rank hk]
    · by_cases hin : start ≤ k ∧ k < stop
      · obtain ⟨hstart, hgk, hbetween, -⟩ := hb.subStart_spec (h := h) ha hin.1 hin.2 rfl
        rw [hgroup_getD, if_pos hin]
        refine ⟨hgk, fun j hjk hj => ?_⟩
        rw [hgroup_getD, if_pos (by omega), SortArrays.subStart, hbetween j hjk hj, SortArrays.subStart]
      · rw [hgroup_getD, if_neg hin]
        refine ⟨ha.group_le hk, fun j hjk hj => ?_⟩
        have hout : ¬ (start ≤ j ∧ j < stop) := by
          have := hb.le_group ha hk
          omega
        rw [hgroup_getD, if_neg hout, ha.group_between hk hjk hj]

/-- R104: the members stand in the order of their keys, those of one key in the order they had. -/
theorem SortArrays.isBlock.refine_orders (hb : a.isBlock n start stop) (ha : a.proper n) {k l : Nat} (hk : start ≤ k)
    (hkl : k < l) (hl : l < stop) :
    a.key n h ((refine n start stop h a).suf.getD k 0) < a.key n h ((refine n start stop h a).suf.getD l 0) ∨
      a.key n h ((refine n start stop h a).suf.getD k 0) = a.key n h ((refine n start stop h a).suf.getD l 0) ∧
      a.suf.idxOf ((refine n start stop h a).suf.getD k 0) < a.suf.idxOf ((refine n start stop h a).suf.getD l 0) := by
  have hlen := hb.sortedMembers_length (h := h) ha
  have hslots : a.suf.Pairwise fun p q => a.suf.idxOf p < a.suf.idxOf q := by
    refine List.pairwise_iff_getElem.mpr fun i j hi hj hij => ?_
    rwa [ha.suf_nodup.idxOf_getElem i hi, ha.suf_nodup.idxOf_getElem j hj]
  have hmembers := hslots.sublist ((List.take_sublist (stop - start) _).trans (List.drop_sublist start _))
  have hsorted := List.pairwise_iff_getElem.mp (SortArrays.sortedMembers_pairwise (n := n) (h := h) hmembers)
    (k - start) (l - start) (by omega) (by omega) (by omega)
  rw [hb.refine_suf_getD ha, hb.refine_suf_getD ha, if_pos (by omega), if_pos (by omega),
    List.getD_eq_getElem _ _ (by omega), List.getD_eq_getElem _ _ (by omega)]
  exact hsorted

end Block

end Sys2Proof.Machine
end

section
/-! PROOFS. Rotations (R13) by their bytes, and what the rounds of the sorter keep (R102, R103, R107). -/

namespace Sys2Proof.Machine

/-! ### Rotations -/

theorem rotation_eq_rotate (d : List Nat) {p : Nat} (hp : p < d.length) : rotation d p = d.rotate p :=
  (List.rotate_eq_drop_append_take hp.le).symm

theorem rotation_length (d : List Nat) {p : Nat} (hp : p < d.length) : (rotation d p).length = d.length := by
  rw [rotation_eq_rotate d hp, List.length_rotate]

/-- Byte `k` of the rotation at `p`, the rotation repeated without end. -/
def rotationByte (d : List Nat) (p k : Nat) : Nat := d.getD ((p + k) % d.length) 0

theorem rotation_getElem (d : List Nat) {p k : Nat} (hp : p < d.length) (hk : k < (rotation d p).length) :
    (rotation d p)[k] = rotationByte d p k := by
  have hlt : (p + k) % d.length < d.length := Nat.mod_lt _ (by omega)
  simp only [rotation_eq_rotate d hp, List.getElem_rotate, rotationByte, List.getD_eq_getElem _ _ hlt, Nat.add_comm]

/-- Equal rotations stay equal when both go on by `h` positions. -/
theorem rotation_shift_eq {d : List Nat} {p q : Nat} (h : Nat) (hp : p < d.length) (hq : q < d.length)
    (heq : rotation d p = rotation d q) : rotation d ((p + h) % d.length) = rotation d ((q + h) % d.length) := by
  have hn : 0 < d.length := by omega
  rw [rotation_eq_rotate d hp, rotation_eq_rotate d hq] at heq
  rw [rotation_eq_rotate d (Nat.mod_lt _ hn), rotation_eq_rotate d (Nat.mod_lt _ hn), List.rotate_mod, List.rotate_mod,
    ← List.rotate_rotate, ← List.rotate_rotate, heq]

theorem rotationByte_shift (d : List Nat) (p h k : Nat) :
    rotationByte d ((p + h) % d.length) k = rotationByte d p (h + k) := by
  rw [rotationByte, rotationByte, Nat.mod_add_mod, Nat.add_assoc]

theorem rotationByte_mod (d : List Nat) (p k : Nat) : rotationByte d p (k % d.length) = rotationByte d p k := by
  rw [rotationByte, rotationByte, Nat.add_mod_mod]

/-- The rotations agree on their first `m` bytes. -/
def agreeOn (d : List Nat) (m p q : Nat) : Prop := ∀ k < m, rotationByte d p k = rotationByte d q k

/-- At the first byte where the rotations differ, that of `p` is smaller. -/
def precedes (d : List Nat) (p q : Nat) : Prop := ∃ m, agreeOn d m p q ∧ rotationByte d p m < rotationByte d q m

variable {d : List Nat} {p q m h : Nat}

theorem agreeOn.append (hpq : agreeOn d h p q) (hshift : agreeOn d m ((p + h) % d.length) ((q + h) % d.length)) :
    agreeOn d (h + m) p q := by
  intro k hk
  rcases lt_or_ge k h with hlt | hge
  · exact hpq k hlt
  · have hbyte := hshift (k - h) (by omega)
    rwa [rotationByte_shift, rotationByte_shift, Nat.add_sub_cancel' hge] at hbyte

theorem precedes.shift (hpq : agreeOn d h p q) (hshift : precedes d ((p + h) % d.length) ((q + h) % d.length)) :
    precedes d p q := by
  obtain ⟨m, hagree, hlt⟩ := hshift
  rw [rotationByte_shift, rotationByte_shift] at hlt
  exact ⟨h + m, hpq.append hagree, hlt⟩

theorem take_rotation_eq (hp : p < d.length) (hq : q < d.length) (hpq : agreeOn d m p q) :
    (rotation d p).take m = (rotation d q).take m := by
  refine List.ext_getElem (by simp [rotation_length d hp, rotation_length d hq]) fun k hk hk' => ?_
  rw [List.getElem_take, List.getElem_take, rotation_getElem d hp, rotation_getElem d hq]
  rw [List.length_take] at hk
  exact hpq k (by omega)

/-- Rotations that agree on `n` bytes are equal. -/
theorem rotation_eq_of_agreeOn (hp : p < d.length) (hq : q < d.length) (hm : d.length ≤ m) (hpq : agreeOn d m p q) :
    rotation d p = rotation d q := by
  have htake := take_rotation_eq hp hq hpq
  rwa [List.take_of_length_le (by rwa [rotation_length d hp]), List.take_of_length_le (by rwa [rotation_length d hq])] at htake

theorem rotation_lt_of_precedes (hp : p < d.length) (hq : q < d.length) (hpq : precedes d p q) : rotation d p < rotation d q := by
  obtain ⟨m, hagree, hlt⟩ := hpq
  have hm : m < d.length := by
    by_contra hge
    have hsame := hagree (m % d.length) ((Nat.mod_lt m (by omega)).trans_le (not_lt.mp hge))
    rw [rotationByte_mod, rotationByte_mod] at hsame
    omega
  have hmp : m < (rotation d p).length := by rwa [rotation_length d hp]
  have hmq : m < (rotation d q).length := by rwa [rotation_length d hq]
  refine List.lt_iff_exists.mpr (.inr ⟨m, hmp, hmq, fun k hk => ?_, ?_⟩)
  · rw [rotation_getElem d hp, rotation_getElem d hq]
    exact hagree k hk
  · rwa [rotation_getElem d hp, rotation_getElem d hq]

/-! ### The invariant of the rounds (R107) -/

/-- The arrays are proper and tell rotations apart as R107 says: (a) a smaller rank is a smaller rotation, (b) equal ranks agree on
`h` bytes, (c) equal rotations share a rank and stand in ascending position. -/
structure SortArrays.sortedTo (d : List Nat) (h : Nat) (a : SortArrays) : Prop where
  proper : a.proper d.length
  smaller : ∀ p < d.length, ∀ q < d.length, a.rank.getD p 0 < a.rank.getD q 0 → precedes d p q
  tied : ∀ p < d.length, ∀ q < d.length, a.rank.getD p 0 = a.rank.getD q 0 → agreeOn d h p q
  equal : ∀ p < d.length, ∀ q < d.length, rotation d p = rotation d q → a.rank.getD p 0 = a.rank.getD q 0
  ascending : a.suf.Pairwise fun p q => rotation d p = rotation d q → p < q

section Refine

variable {start stop : Nat} {a : SortArrays}

/-- A member of the refined block has moved to its sub-block, inside the block; every other position keeps its rank, outside it. -/
theorem SortArrays.isBlock.refine_rank_cases (hb : a.isBlock d.length start stop) (ha : a.proper d.length) (h : Nat)
    (hp : p < d.length) :
    (p ∈ a.members start stop ∧ a.rank.getD p 0 = start ∧ start ≤ (refine d.length start stop h a).rank.getD p 0 ∧
        (refine d.length start stop h a).rank.getD p 0 < stop ∧
        (refine d.length start stop h a).rank.getD p 0 = a.subStart d.length start stop h p) ∨
      (p ∉ a.members start stop ∧ (refine d.length start stop h a).rank.getD p 0 = a.rank.getD p 0 ∧
        (a.rank.getD p 0 < start ∨ stop ≤ a.rank.getD p 0)) := by
  rw [hb.refine_rank_getD ha hp]
  by_cases hmem : p ∈ a.members start stop
  · obtain ⟨hge, hlt⟩ := hb.subStart_bounds (h := h) ha hmem
    rw [if_pos hmem]
    exact .inl ⟨hmem, hb.rank_of_mem ha hmem, hge, hlt, rfl⟩
  · rw [if_neg hmem]
    exact .inr ⟨hmem, rfl, hb.rank_of_not_mem ha hp hmem⟩

/-- Members that share a block after `refine` agree on twice as many bytes (R107). -/
theorem SortArrays.sortedTo.refine_tied_members (ha : a.sortedTo d h) (hb : a.isBlock d.length start stop)
    (hp : p ∈ a.members start stop) (hq : q ∈ a.members start stop)
    (heq : a.subStart d.length start stop h p = a.subStart d.length start stop h q) : agreeOn d (h + h) p q := by
  have hn := hb.pos
  have hkeys : a.key d.length h p = a.key d.length h q :=
    (bucketStart_inj (List.mem_map_of_mem hp) (List.mem_map_of_mem hq)).mp (Nat.add_left_cancel heq)
  have hrank := (hb.rank_of_mem ha.proper hp).trans (hb.rank_of_mem ha.proper hq).symm
  exact (ha.tied p (hb.member_lt ha.proper hp) q (hb.member_lt ha.proper hq) hrank).append
    (ha.tied _ (Nat.mod_lt _ hn) _ (Nat.mod_lt _ hn) hkeys)

/-- A member put in an earlier sub-block has a smaller rotation (R107). -/
theorem SortArrays.sortedTo.refine_smaller_members (ha : a.sortedTo d h) (hb : a.isBlock d.length start stop)
    (hp : p ∈ a.members start stop) (hq : q ∈ a.members start stop)
    (hlt : a.subStart d.length start stop h p < a.subStart d.length start stop h q) : precedes d p q := by
  have hn := hb.pos
  have hkeys : a.key d.length h p < a.key d.length h q :=
    (bucketStart_lt_iff (List.mem_map_of_mem hp) _).mp (Nat.lt_of_add_lt_add_left hlt)
  have hrank := (hb.rank_of_mem ha.proper hp).trans (hb.rank_of_mem ha.proper hq).symm
  exact .shift (ha.tied p (hb.member_lt ha.proper hp) q (hb.member_lt ha.proper hq) hrank)
    (ha.smaller _ (Nat.mod_lt _ hn) _ (Nat.mod_lt _ hn) hkeys)

/-- Equal rotations have equal keys at every depth. -/
theorem SortArrays.sortedTo.key_eq {k : Nat} (ha : a.sortedTo d k) (h : Nat) (hp : p < d.length) (hq : q < d.length)
    (heq : rotation d p = rotation d q) : a.key d.length h p = a.key d.length h q :=
  ha.equal _ (Nat.mod_lt _ (by omega)) _ (Nat.mod_lt _ (by omega)) (rotation_shift_eq h hp hq heq)

/-- Positions that share a rank after `refine` shared one before, so they agree on `h` bytes; if that rank is in the refined block
they agree on twice as many (R107). -/
theorem SortArrays.sortedTo.refine_tied (ha : a.sortedTo d h) (hb : a.isBlock d.length start stop) (hp : p < d.length)
    (hq : q < d.length)
    (heq : (refine d.length start stop h a).rank.getD p 0 = (refine d.length start stop h a).rank.getD q 0) :
    a.rank.getD p 0 = a.rank.getD q 0 ∧
      (start ≤ (refine d.length start stop h a).rank.getD p 0 → (refine d.length start stop h a).rank.getD p 0 < stop →
        agreeOn d (h + h) p q) := by
  rcases hb.refine_rank_cases ha.proper h hp with ⟨hpm, hpr, hpge, hplt, hpsub⟩ | ⟨-, hpr, hpout⟩ <;>
    rcases hb.refine_rank_cases ha.proper h hq with ⟨hqm, hqr, hqge, hqlt, hqsub⟩ | ⟨-, hqr, hqout⟩
  · exact ⟨hpr.trans hqr.symm, fun _ _ => ha.refine_tied_members hb hpm hqm (by omega)⟩
  all_goals omega

/-- `refine` keeps the invariant (R107). -/
theorem SortArrays.sortedTo.refine (ha : a.sortedTo d h) (hb : a.isBlock d.length start stop) :
    (refine d.length start stop h a).sortedTo d h where
  proper := hb.refine_proper ha.proper
  smaller p hp q hq hlt := by
    rcases hb.refine_rank_cases ha.proper h hp with ⟨hpm, hpr, hpge, hplt, hpsub⟩ | ⟨-, hpr, hpout⟩ <;>
      rcases hb.refine_rank_cases ha.proper h hq with ⟨hqm, hqr, hqge, hqlt, hqsub⟩ | ⟨-, hqr, hqout⟩
    · exact ha.refine_smaller_members hb hpm hqm (by omega)
    all_goals exact ha.smaller p hp q hq (by omega)
  tied p hp q hq heq := ha.tied p hp q hq (ha.refine_tied hb hp hq heq).1
  equal p hp q hq heq := by
    have hrank := ha.equal p hp q hq heq
    have hkey := ha.key_eq h hp hq heq
    have hlt := hb.lt
    rcases hb.refine_rank_cases ha.proper h hp with ⟨hpm, hpr, -, -, hpsub⟩ | ⟨-, hpr, hpout⟩ <;>
      rcases hb.refine_rank_cases ha.proper h hq with ⟨hqm, hqr, -, -, hqsub⟩ | ⟨-, hqr, hqout⟩
    · rw [hpsub, hqsub, SortArrays.subStart, SortArrays.subStart, hkey]
    all_goals omega
  ascending := by
    have hasc := ha.ascending
    rw [hb.suf_eq] at hasc
    obtain ⟨hleft, hright, hlast⟩ := List.pairwise_append.mp hasc
    obtain ⟨hfront, hmembers, hfirst⟩ := List.pairwise_append.mp hleft
    have hsorted : (a.sortedMembers d.length start stop h).Pairwise fun p q => rotation d p = rotation d q → p < q := by
      refine (SortArrays.sortedMembers_pairwise hmembers).imp_of_mem fun hpm hqm hpq heq => ?_
      rw [(SortArrays.sortedMembers_perm ..).mem_iff] at hpm hqm
      have hkey := ha.key_eq h (hb.member_lt ha.proper hpm) (hb.member_lt ha.proper hqm) heq
      rcases hpq with hlt | ⟨-, hpq⟩
      · omega
      · exact hpq heq
    have hmem (p : Nat) : p ∈ a.sortedMembers d.length start stop h ↔ p ∈ a.members start stop :=
      (SortArrays.sortedMembers_perm ..).mem_iff
    rw [hb.refine_suf_eq ha.proper]
    refine List.pairwise_append.mpr ⟨List.pairwise_append.mpr ⟨hfront, hsorted, ?_⟩, hright, ?_⟩
    · simpa only [hmem] using hfirst
    · simpa only [hmem, List.mem_append] using hlast

end Refine

/-! ### The end of a block (R103) -/

theorem blockEnd_eq (group : List Nat) (start fuel : Nat) {k stop : Nat} (hk : k ≤ stop) (hfuel : stop ≤ k + fuel)
    (hlen : stop < group.length) (hinside : ∀ j < stop, k ≤ j → group.getD j 0 = start)
    (hends : group.getD stop 0 ≠ start) : blockEnd group start fuel k = stop := by
  have hdefault (j : Nat) (hj : j ≤ stop) : group.getD j group.length = group.getD j 0 := by
    rw [List.getD_eq_getElem _ _ (hj.trans_lt hlen), List.getD_eq_getElem _ _ (hj.trans_lt hlen)]
  induction fuel generalizing k with
  | zero => exact le_antisymm hk hfuel
  | succ fuel ih =>
    rw [blockEnd, hdefault k hk]
    rcases hk.eq_or_lt with rfl | hlt
    · rw [if_neg hends]
    · rw [if_pos (hinside k hlt le_rfl)]
      exact ih hlt (by omega) fun j hj hkj => hinside j hj (by omega)

/-- R103: a round at the first slot of a block refines the block and goes on at its end. -/
theorem sortRound_block {n start stop : Nat} {a : SortArrays} (h fuel : Nat) (hlen : a.group.length = n + 1) (hlt : start < stop)
    (hle : stop ≤ n) (hinside : ∀ k < stop, start < k → a.group.getD k 0 = start) (hends : a.group.getD stop 0 ≠ start) :
    sortRound n h (fuel + 1) start a =
      sortRound n h fuel stop (if 1 < stop - start then refine n start stop h a else a) := by
  have hend : blockEnd a.group start n (start + 1) = stop := blockEnd_eq _ _ _ hlt (by omega) (by omega) hinside hends
  simp only [sortRound, if_pos (hlt.trans_le hle), hend]

theorem sortRound_end (n h fuel : Nat) (a : SortArrays) : sortRound n h fuel n a = a := by
  cases fuel with
  | zero => rfl
  | succ fuel => rw [sortRound, if_neg (lt_irrefl n)]

/-- A slot that is its own `GROUP` entry starts a block (R101). -/
theorem SortArrays.proper.exists_block {n k : Nat} {a : SortArrays} (ha : a.proper n) (hk : k < n)
    (hgroup : a.group.getD k 0 = k) : ∃ stop, a.isBlock n k stop := by
  have hsentinel : k < n ∧ a.group.getD n 0 ≠ k := ⟨hk, by rw [ha.group_end]; exact hk.ne'⟩
  have hex : ∃ stop, k < stop ∧ a.group.getD stop 0 ≠ k := ⟨n, hsentinel⟩
  obtain ⟨hlt, hends⟩ := Nat.find_spec hex
  refine ⟨Nat.find hex, hlt, Nat.find_min' hex hsentinel, fun j hj hkj => ?_, hends⟩
  have hmin := Nat.find_min hex hj
  rcases hkj.eq_or_lt with rfl | hkj
  · exact hgroup
  · exact not_not.mp fun hne => hmin ⟨hkj, hne⟩

/-! ### A round (R103, R107) -/

/-- A round with depth `h` that has reached slot `k`: positions that share a rank below `k` agree on `2 h` bytes already. -/
structure SortArrays.roundAt (d : List Nat) (h k : Nat) (a : SortArrays) : Prop where
  sorted : a.sortedTo d h
  le : k ≤ d.length
  boundary : a.group.getD k 0 = k
  done : ∀ p < d.length, ∀ q < d.length, a.rank.getD p 0 = a.rank.getD q 0 → a.rank.getD p 0 < k → agreeOn d (h + h) p q

theorem SortArrays.roundAt.refine {a : SortArrays} {start stop : Nat} (ha : a.roundAt d h start)
    (hb : a.isBlock d.length start stop) : (refine d.length start stop h a).roundAt d h stop where
  sorted := ha.sorted.refine hb
  le := hb.le
  boundary := by rw [hb.refine_group_getD ha.sorted.proper, if_neg (by omega), hb.group_stop ha.sorted.proper]
  done p hp q hq heq hlt := by
    obtain ⟨hrank, hinside⟩ := ha.sorted.refine_tied hb hp hq heq
    rcases hb.refine_rank_cases ha.sorted.proper h hp with ⟨-, -, hge, -, -⟩ | ⟨-, hkept, hout⟩
    · exact hinside hge hlt
    · exact ha.done p hp q hq hrank (by omega)

/-- A block of one slot needs no refinement. -/
theorem SortArrays.roundAt.skip {a : SortArrays} {start : Nat} (ha : a.roundAt d h start)
    (hb : a.isBlock d.length start (start + 1)) : a.roundAt d h (start + 1) where
  sorted := ha.sorted
  le := hb.le
  boundary := hb.group_stop ha.sorted.proper
  done p hp q hq heq hlt := by
    have hone {r : Nat} (hr : r < d.length) (hrank : a.rank.getD r 0 = start) : a.suf.getD start 0 = r := by
      have hmem : r ∈ a.members start (start + 1) := by
        by_contra hout
        have := hb.rank_of_not_mem ha.sorted.proper hr hout
        omega
      obtain ⟨k, hk, hk', hslot⟩ := (hb.mem_members_iff ha.sorted.proper r).mp hmem
      rwa [show k = start by omega] at hslot
    rcases Nat.lt_succ_iff_lt_or_eq.mp hlt with hlt | hstart
    · exact ha.done p hp q hq heq hlt
    · have hpq : p = q := (hone hp hstart).symm.trans (hone hq (heq.symm.trans hstart))
      exact fun k _ => by rw [hpq]

theorem SortArrays.roundAt.finish {a : SortArrays} (ha : a.roundAt d h d.length) : a.sortedTo d (h + h) :=
  { ha.sorted with tied := fun p hp q hq heq => ha.done p hp q hq heq (ha.sorted.proper.rank_lt hp) }

theorem SortArrays.roundAt.sortRound {a : SortArrays} {k : Nat} (ha : a.roundAt d h k) (fuel : Nat)
    (hfuel : d.length ≤ k + fuel) : (sortRound d.length h fuel k a).sortedTo d (h + h) := by
  induction fuel generalizing k a with
  | zero =>
    obtain rfl : k = d.length := le_antisymm ha.le hfuel
    exact ha.finish
  | succ fuel ih =>
    rcases ha.le.eq_or_lt with rfl | hlt
    · rw [sortRound_end]
      exact ha.finish
    · obtain ⟨stop, hb⟩ := ha.sorted.proper.exists_block hlt ha.boundary
      rw [sortRound_block h fuel ha.sorted.proper.sized.group hb.lt hb.le (fun j hj hkj => hb.inside j hj hkj.le) hb.ends]
      refine ih ?_ (by have := hb.lt; omega)
      split
      · exact ha.refine hb
      · obtain rfl : stop = k + 1 := by
          have := hb.lt
          omega
        exact ha.skip hb

/-- R107: a round with depth `h` leaves arrays that tell rotations apart on `2 h` bytes. -/
theorem SortArrays.sortedTo.sortRound {a : SortArrays} (ha : a.sortedTo d h) :
    (sortRound d.length h d.length 0 a).sortedTo d (h + h) := by
  have hboundary : a.group.getD 0 0 = 0 := by
    rcases d.length.eq_zero_or_pos with hzero | hpos
    · have hsentinel := ha.proper.group_end
      rwa [hzero] at hsentinel
    · exact Nat.le_zero.mp (ha.proper.group_le hpos)
  exact SortArrays.roundAt.sortRound ⟨ha, Nat.zero_le _, hboundary, fun _ _ _ _ _ hlt => absurd hlt (Nat.not_lt_zero _)⟩ _
    (Nat.zero_add _).ge

/-! ### The initial order (R102) -/

theorem initialOrder_suf_perm (hd : ∀ b ∈ d, b < Config.nsym) : (initialOrder d).suf.Perm (List.range d.length) := by
  refine countingPass_perm _ _ fun p hp => ?_
  exact hd _ (getD_mem (List.mem_range.mp hp))

theorem initialOrder_suf_pairwise (d : List Nat) :
    (initialOrder d).suf.Pairwise fun p q => d.getD p 0 < d.getD q 0 ∨ d.getD p 0 = d.getD q 0 ∧ p < q :=
  countingPass_pairwise _ List.pairwise_lt_range

theorem initialOrder_rank_getD (d : List Nat) (hp : p < d.length) :
    (initialOrder d).rank.getD p 0 = bucketStart d (d.getD p 0) := by
  simp [initialOrder, hp]

theorem initialOrder_group_getD (hd : ∀ b ∈ d, b < Config.nsym) {k : Nat} (hk : k < d.length) :
    (initialOrder d).group.getD k 0 = bucketStart d (((initialOrder d).suf.map fun p => d.getD p 0).getD k 0) := by
  have hlen : k < (initialOrder d).suf.length := by rwa [(initialOrder_suf_perm hd).length_eq, List.length_range]
  change (((initialOrder d).suf.map fun p => bucketStart d (d.getD p 0)) ++ [d.length]).getD k 0 = _
  rw [List.getD_append _ _ _ _ (by rwa [List.length_map]), getD_map_of_lt _ hlen, getD_map_of_lt _ hlen]

theorem initialOrder_proper (hd : ∀ b ∈ d, b < Config.nsym) : (initialOrder d).proper d.length := by
  have hperm := initialOrder_suf_perm hd
  obtain ⟨hlen, hrank, hgroup⟩ := initialOrder_sized d hd
  have hsorted : ((initialOrder d).suf.map fun p => d.getD p 0).Pairwise (· ≤ ·) :=
    List.pairwise_map.mpr ((initialOrder_suf_pairwise d).imp fun hpq => by omega)
  have hbytes : ((initialOrder d).suf.map fun p => d.getD p 0).Perm d := by
    have := hperm.map fun p => d.getD p 0
    rwa [map_getD_range] at this
  refine ⟨hperm, hrank, hgroup, ?_, fun k hk => ?_⟩
  · change (((initialOrder d).suf.map fun p => bucketStart d (d.getD p 0)) ++ [d.length]).getD d.length 0 = _
    rw [List.getD_append_right _ _ _ _ (by rw [List.length_map, hlen]), List.length_map, hlen, Nat.sub_self]
    rfl
  · obtain ⟨hle, hbetween, -⟩ := bucketStart_spec hsorted (i := k) (by rwa [List.length_map, hlen])
    rw [bucketStart_perm hbytes] at hle hbetween
    rw [initialOrder_group_getD hd hk]
    refine ⟨?_, hle, fun j hj hstart => ?_⟩
    · rw [initialOrder_rank_getD d (getD_lt_of_perm_range hperm hk), getD_map_of_lt _ (by rwa [hlen])]
    · rw [initialOrder_group_getD hd (hj.trans_lt hk), hbetween j hj hstart]

/-- The initial order tells rotations apart by their first byte. -/
theorem initialOrder_sortedTo (hd : ∀ b ∈ d, b < Config.nsym) : (initialOrder d).sortedTo d 1 := by
  have hfirst {p : Nat} (hp : p < d.length) : rotationByte d p 0 = d.getD p 0 := by
    rw [rotationByte, Nat.add_zero, Nat.mod_eq_of_lt hp]
  have hequal {p q : Nat} (hp : p < d.length) (hq : q < d.length) (heq : rotation d p = rotation d q) :
      d.getD p 0 = d.getD q 0 := by
    rw [← hfirst hp, ← hfirst hq, ← rotation_getElem d hp (by rw [rotation_length d hp]; omega),
      ← rotation_getElem d hq (by rw [rotation_length d hq]; omega)]
    simp only [heq]
  refine ⟨initialOrder_proper hd, fun p hp q hq hlt => ?_, fun p hp q hq heq => ?_, fun p hp q hq heq => ?_, ?_⟩
  · rw [initialOrder_rank_getD d hp, initialOrder_rank_getD d hq, bucketStart_lt_iff (getD_mem hp)] at hlt
    exact ⟨0, fun _ hk => absurd hk (Nat.not_lt_zero _), by rwa [hfirst hp, hfirst hq]⟩
  · rw [initialOrder_rank_getD d hp, initialOrder_rank_getD d hq, bucketStart_inj (getD_mem hp) (getD_mem hq)] at heq
    intro k hk
    rw [Nat.lt_one_iff.mp hk, hfirst hp, hfirst hq, heq]
  · rw [initialOrder_rank_getD d hp, initialOrder_rank_getD d hq, hequal hp hq heq]
  · refine (initialOrder_suf_pairwise d).imp_of_mem fun hp hq hpq heq => ?_
    rw [(initialOrder_suf_perm hd).mem_iff, List.mem_range] at hp hq
    have := hequal hp hq heq
    omega

/-- R107, after any number of rounds. -/
theorem sortAfter_sortedTo (hd : ∀ b ∈ d, b < Config.nsym) (j : Nat) : (sortAfter d j).sortedTo d (2 ^ j) := by
  induction j with
  | zero => exact initialOrder_sortedTo hd
  | succ j ih =>
    have := ih.sortRound
    rwa [← two_mul, ← Nat.pow_succ'] at this

end Sys2Proof.Machine
end

section
/-! PROOFS. The sort as a whole (R100, R108, R109): the loop stops after the first sufficient number of rounds, and `SORT` leaves
the arrays of those rounds. Settles O20 and O21. -/

namespace Sys2Proof.Machine

/-! ### The doubling loop (R108) -/

/-- The loop, entered after `i` rounds, stops after the first number of rounds that passes its test, or when its fuel is used up. -/
theorem sortLoop_eq (d : List Nat) (fuel i : Nat) :
    ∃ j ≤ i + fuel, sortLoop d.length fuel (2 ^ i) (sortAfter d i) = (2 ^ j, sortAfter d j) ∧
      (j = i + fuel ∨ d.length ≤ 2 ^ j ∨ unresolved d.length (sortAfter d j).group = false) ∧
      ∀ j' < j, i ≤ j' → 2 ^ j' < d.length ∧ unresolved d.length (sortAfter d j').group = true := by
  induction fuel generalizing i with
  | zero => exact ⟨i, le_rfl, rfl, .inl rfl, fun j' hj' hij => absurd hij (by omega)⟩
  | succ fuel ih =>
    rw [sortLoop]
    split
    · rename_i hgo
      rw [Bool.and_eq_true, decide_eq_true_eq] at hgo
      obtain ⟨j, hj, hloop, hstop, hbefore⟩ := ih (i + 1)
      rw [Nat.pow_succ', sortAfter] at hloop
      refine ⟨j, by omega, hloop, hstop.imp_left (by omega), fun j' hj' hij => ?_⟩
      rcases hij.eq_or_lt with rfl | hij
      · exact hgo
      · exact hbefore j' hj' hij
    · rename_i hstop
      rw [Bool.and_eq_true, decide_eq_true_eq, not_and_or, not_lt, Bool.not_eq_true] at hstop
      exact ⟨i, by omega, rfl, .inr hstop, fun j' hj' hij => absurd hij (by omega)⟩

/-- R108: the sort is the first number of rounds after which the depth has reached `n` or no block has more than one slot. -/
theorem sortBytes_eq (d : List Nat) :
    ∃ j ≤ ceilLog2 d.length, sortBytes d = (2 ^ j, sortAfter d j) ∧
      (d.length ≤ 2 ^ j ∨ unresolved d.length (sortAfter d j).group = false) ∧
      ∀ j' < j, 2 ^ j' < d.length ∧ unresolved d.length (sortAfter d j').group = true := by
  obtain ⟨j, hj, hloop, hstop, hbefore⟩ := sortLoop_eq d (ceilLog2 d.length) 0
  refine ⟨j, by omega, hloop, ?_, fun j' hj' => hbefore j' hj' (Nat.zero_le _)⟩
  rcases hstop with rfl | hstop
  · rw [Nat.zero_add]
    exact .inl (le_two_pow_ceilLog2 _)
  · exact hstop

theorem unresolved_eq_false_iff (n : Nat) (group : List Nat) :
    unresolved n group = false ↔ ∀ k < n, group.getD k k = k := by
  simp [unresolved, List.any_eq_false]

/-! ### Sorted arrays (R109) -/

section Sorted

variable {d : List Nat} {h : Nat} {a : SortArrays}

/-- When the loop stops, positions of one rank have equal rotations. -/
theorem SortArrays.sortedTo.rotation_eq (ha : a.sortedTo d h)
    (hstop : d.length ≤ h ∨ unresolved d.length a.group = false) {p q : Nat} (hp : p < d.length) (hq : q < d.length)
    (heq : a.rank.getD p 0 = a.rank.getD q 0) : rotation d p = rotation d q := by
  rcases hstop with hdepth | hresolved
  · exact rotation_eq_of_agreeOn hp hq hdepth (ha.tied p hp q hq heq)
  · have hown {k : Nat} (hk : k < d.length) : a.group.getD k 0 = k := by
      have hlt : k < a.group.length := by
        rw [ha.proper.sized.group]
        omega
      rw [List.getD_eq_getElem _ _ hlt, ← List.getD_eq_getElem _ k hlt]
      exact (unresolved_eq_false_iff _ _).mp hresolved k hk
    obtain ⟨k, hk, hkp, hrankp⟩ := ha.proper.exists_slot hp
    obtain ⟨l, hl, hlq, hrankq⟩ := ha.proper.exists_slot hq
    rw [hrankp, hrankq, hown hk, hown hl] at heq
    rw [← hkp, ← hlq, heq]

/-- R109: the slots are in ascending order of rotation, equal rotations in ascending order of position. -/
theorem SortArrays.sortedTo.suf_ordered (ha : a.sortedTo d h)
    (hstop : d.length ≤ h ∨ unresolved d.length a.group = false) {k l : Nat} (hkl : k < l) (hl : l < d.length) :
    rotation d (a.suf.getD k 0) < rotation d (a.suf.getD l 0) ∨
      rotation d (a.suf.getD k 0) = rotation d (a.suf.getD l 0) ∧ a.suf.getD k 0 < a.suf.getD l 0 := by
  have hk := hkl.trans hl
  have hkn := ha.proper.suf_lt hk
  have hln := ha.proper.suf_lt hl
  have hmono := ha.proper.group_mono hl hkl.le
  rw [ha.proper.group_eq_rank hk, ha.proper.group_eq_rank hl] at hmono
  rcases hmono.lt_or_eq with hlt | heq
  · exact .inl (rotation_lt_of_precedes hkn hln (ha.smaller _ hkn _ hln hlt))
  · have hrot := ha.rotation_eq hstop hkn hln heq
    refine .inr ⟨hrot, ?_⟩
    have hks : k < a.suf.length := by rwa [ha.proper.suf_length]
    have hls : l < a.suf.length := by rwa [ha.proper.suf_length]
    rw [List.getD_eq_getElem _ _ hks, List.getD_eq_getElem _ _ hls] at hrot ⊢
    exact List.pairwise_iff_getElem.mp ha.ascending k l hks hls hkl hrot

/-- R109: a rank is a slot of an equal rotation. -/
theorem SortArrays.sortedTo.rotation_suf_rank (ha : a.sortedTo d h)
    (hstop : d.length ≤ h ∨ unresolved d.length a.group = false) {p : Nat} (hp : p < d.length) :
    rotation d (a.suf.getD (a.rank.getD p 0) 0) = rotation d p := by
  have hrank := ha.proper.rank_lt hp
  obtain ⟨k, hk, -, hpk⟩ := ha.proper.exists_slot hp
  refine ha.rotation_eq hstop (ha.proper.suf_lt hrank) hp ?_
  rw [← ha.proper.group_eq_rank hrank, hpk]
  exact ha.proper.group_between hk (ha.proper.group_le hk) le_rfl

/-- R109: no slot before a position's rank has its rotation. -/
theorem SortArrays.sortedTo.rotation_ne_of_lt_rank (ha : a.sortedTo d h) {k p : Nat} (hp : p < d.length)
    (hk : k < a.rank.getD p 0) : rotation d (a.suf.getD k 0) ≠ rotation d p := by
  intro heq
  have hkn := hk.trans (ha.proper.rank_lt hp)
  have hrank := ha.equal _ (ha.proper.suf_lt hkn) p hp heq
  rw [← ha.proper.group_eq_rank hkn] at hrank
  have := ha.proper.group_le hkn
  omega

/-- R107 (c): equal rotations stand in ascending position. -/
theorem SortArrays.sortedTo.idxOf_lt (ha : a.sortedTo d h) {p q : Nat} (hpq : p < q) (hq : q < d.length)
    (heq : rotation d p = rotation d q) : a.suf.idxOf p < a.suf.idxOf q := by
  have hpmem := (ha.proper.mem_suf_iff p).mpr (hpq.trans hq)
  have hqmem := (ha.proper.mem_suf_iff q).mpr hq
  by_contra hle
  rcases (not_lt.mp hle).eq_or_lt with hsame | hlt
  · have := List.idxOf_inj hqmem |>.mp hsame
    omega
  · have hback := List.pairwise_iff_getElem.mp ha.ascending _ _ (List.idxOf_lt_length_of_mem hqmem)
      (List.idxOf_lt_length_of_mem hpmem) hlt
    rw [List.getElem_idxOf, List.getElem_idxOf] at hback
    exact absurd (hback heq.symm) (by omega)

end Sorted

/-! ### The command (R100) -/

theorem reg64_bitVec_toNat {w : Nat} (hw : w ≤ 64) (x : BitVec w) : (reg64 x.toNat).toNat = x.toNat :=
  reg64_toNat _ (x.isLt.trans_le (Nat.pow_le_pow_right (by decide) hw))

/-- An element that holds a value reads as it (R60). -/
theorem elem_of_holds {s : State} {sp : Space} {k v : Nat} (h : s.holds sp k = some v) : s.elem sp k = v := by
  cases sp <;>
  · simp only [State.holds, Option.map_eq_some_iff] at h
    obtain ⟨x, hx, rfl⟩ := h
    simp only [State.elem, readElem, fetch, hx, Option.getD_some]
    exact reg64_bitVec_toNat (by decide) x

/-- The input of `SORT`, `DATA[0..N)`. -/
def State.input (s : State) : List Nat := (List.range s.n.toNat).map (s.elem .data)

theorem State.input_eq_fetchPrefix (s : State) : s.input = fetchPrefix .data s.powerUp s.bufs.data s.n.toNat :=
  List.map_congr_left fun _ _ => reg64_bitVec_toNat (by decide) _

theorem State.input_length (s : State) : s.input.length = s.n.toNat := by simp [State.input]

theorem State.input_lt (s : State) : ∀ b ∈ s.input, b < Config.nsym := by
  rw [s.input_eq_fetchPrefix]
  exact fetchPrefix_lt_nsym _ _ _ _

/-- The machine with the sorter's arrays stored. -/
def State.withSortArrays (s : State) (a : SortArrays) : State :=
  s.withBufs { s.bufs with
    suf := storeFrom .suf 0 a.suf s.bufs.suf
    rank := storeFrom .rank 0 a.rank s.bufs.rank
    group := storeFrom .group 0 a.group s.bufs.group }

/-- What a stored list leaves in its space, as `State.holds` reads it. -/
theorem map_peek_storeFrom {w : Nat} {sp : Space} (hsp : sp ≠ .qcount) (vs : List Nat) (m : Memory w) {k : Nat}
    (hk : k < vs.length) (hfit : vs.getD k 0 < 2 ^ w) :
    ((storeFrom sp 0 vs m).peek (unlisted sp w) k).map BitVec.toNat = some (vs.getD k 0) := by
  have hpeek := peek_storeFrom_of_ne_qcount hsp 0 k vs m hk
  rw [Nat.zero_add] at hpeek
  rw [hpeek, Option.map_some, BitVec.toNat_ofNat, Nat.mod_eq_of_lt hfit]

/-- The stored arrays are what the host reads, when `N` and the slots fit in an element. -/
theorem elem_of_withSortArrays {n : Nat} {s t : State} {a : SortArrays} (hn : n < 2 ^ 32) (ha : a.proper n)
    (hbufs : t.bufs = (s.withSortArrays a).bufs) :
    (∀ k < n, t.elem .suf k = a.suf.getD k 0) ∧ (∀ p < n, t.elem .rank p = a.rank.getD p 0) ∧
      ∀ k ≤ n, t.elem .group k = a.group.getD k 0 := by
  obtain ⟨hsuf, hrank, hgroup⟩ := ha.sized
  refine ⟨fun k hk => elem_of_holds ?_, fun p hp => elem_of_holds ?_, fun k hk => elem_of_holds ?_⟩ <;>
    rw [State.holds, hbufs]
  · exact map_peek_storeFrom (by decide) _ _ (hsuf.symm ▸ hk) ((ha.suf_lt hk).trans hn)
  · exact map_peek_storeFrom (by decide) _ _ (hrank.symm ▸ hp) ((ha.rank_lt hp).trans hn)
  · refine map_peek_storeFrom (by decide) _ _ (hgroup.symm ▸ Nat.lt_succ_of_le hk) ?_
    rcases hk.lt_or_eq with hlt | rfl
    · exact ((ha.group_le hlt).trans_lt hlt).trans hn
    · rwa [ha.group_end]

theorem sortBody_of_zero {s : State} (hzero : s.n.toNat = 0) : sortBody s = .ok { s with sortStep := 1 } := by
  have hcheck := (checkLength_ok_iff s s.n.toNat).mpr (by omega)
  simp only [sortBody, hcheck, Run.ok_bind]
  exact if_pos hzero

theorem sortBody_of_pos {s : State} (hpos : 0 < s.n.toNat) (hn : s.n.toNat ≤ s.cfgNmax.toNat) :
    sortBody s =
      .ok (({ s with sortStep := reg64 (sortBytes s.input).1 } : State).withSortArrays (sortBytes s.input).2) := by
  have hcheck := (checkLength_ok_iff s s.n.toNat).mpr hn
  simp only [sortBody, hcheck, Run.ok_bind, ← s.input_eq_fetchPrefix]
  exact if_neg hpos.ne'

/-- `SORT` from a good state with `N <= NMAX` completes; it leaves in `STEP` the depth of the sort of its input, and its arrays. -/
theorem exec_sort_completes {s : State} (hg : s.good) (hn : s.n.toNat ≤ s.cfgNmax.toNat) :
    ∃ t, exec .sort s = .next t ∧ completedFrom s t ∧ t.sortStep = reg64 (sortBytes s.input).1 ∧
      (1 ≤ s.n.toNat → t.bufs = (s.withSortArrays (sortBytes s.input).2).bufs) := by
  have hrecord : ∀ u, s.sameRecord u → completedFrom s u.complete := fun _ hu => hu.complete hg
  rcases Nat.eq_zero_or_pos s.n.toNat with hzero | hpos
  · refine ⟨_, runCommand_of_ok sortBody s _ hg (sortBody_of_zero hzero), hrecord _ ⟨rfl, rfl, rfl, rfl⟩, ?_,
      fun hpos => by omega⟩
    rw [State.input, hzero]
    rfl
  · exact ⟨_, runCommand_of_ok sortBody s _ hg (sortBody_of_pos hpos hn), hrecord _ ⟨rfl, rfl, rfl, rfl⟩, rfl, fun _ => rfl⟩

/-- The depths that the loop passes fit in `STEP` (R21). -/
theorem reg64_two_pow_toNat {n j : Nat} (hn : n ≤ Config.nmaxBound) (hbefore : ∀ j' < j, 2 ^ j' < n) :
    (reg64 (2 ^ j)).toNat = 2 ^ j := by
  refine reg64_toNat _ ?_
  cases j with
  | zero => decide
  | succ j =>
    have := hbefore j j.lt_succ_self
    simp only [Config.nmaxBound] at hn
    rw [Nat.pow_succ]
    omega

/-- R100, R108: `SORT` leaves the arrays and the depth of the first sufficient number of rounds. -/
theorem exec_sort_eq_rounds {s : State} (hg : s.good) (hparams : s.paramsLegal) (hn : s.n.toNat ≤ s.cfgNmax.toNat) :
    ∃ t j, exec .sort s = .next t ∧ completedFrom s t ∧ t.sortStep.toNat = 2 ^ j ∧ j ≤ ceilLog2 s.n.toNat ∧
      (s.n.toNat ≤ 2 ^ j ∨ unresolved s.n.toNat (sortAfter s.input j).group = false) ∧
      (∀ j' < j, 2 ^ j' < s.n.toNat ∧ unresolved s.n.toNat (sortAfter s.input j').group = true) ∧
      (1 ≤ s.n.toNat → (∀ k < s.n.toNat, t.elem .suf k = (sortAfter s.input j).suf.getD k 0) ∧
        (∀ p < s.n.toNat, t.elem .rank p = (sortAfter s.input j).rank.getD p 0) ∧
        ∀ k ≤ s.n.toNat, t.elem .group k = (sortAfter s.input j).group.getD k 0) := by
  obtain ⟨t, ht, hdone, hstep, hbufs⟩ := exec_sort_completes hg hn
  obtain ⟨j, hj, hsort, hstop, hbefore⟩ := sortBytes_eq s.input
  have hproper := (sortAfter_sortedTo s.input_lt j).proper
  rw [hsort] at hstep hbufs
  rw [s.input_length] at hj hstop hbefore hproper
  have hbound : s.n.toNat ≤ Config.nmaxBound := hn.trans hparams.1
  refine ⟨t, j, ht, hdone, ?_, hj, hstop, hbefore, fun hpos => elem_of_withSortArrays ?_ hproper (hbufs hpos)⟩
  · rw [hstep]
    exact reg64_two_pow_toNat hbound fun j' hj' => (hbefore j' hj').1
  · simp only [Config.nmaxBound] at hbound
    omega

end Sys2Proof.Machine

open Sys2Proof Sys2Proof.Machine

/-- Settles O20: the loop stops with arrays in which ranks tell exactly the rotations apart. -/
theorem sortOrdersAllRotations : Obligations.SortOrdersAllRotations := by
  intro s hg hparams hpos hn
  obtain ⟨t, j, ht, hdone, -, -, hstop, -, harrays⟩ := exec_sort_eq_rounds hg hparams hn
  obtain ⟨hsuf, hrank, hgroup⟩ := harrays hpos
  have ha := sortAfter_sortedTo s.input_lt j
  have hlen := s.input_length
  have hproper := ha.proper
  rw [hlen] at hproper
  rw [← hlen] at hstop
  have hlt {k : Nat} (hk : k < s.n.toNat) : k < s.input.length := by rwa [hlen]
  refine ⟨t, ht, hdone, ?_, fun k l hkl hl => ?_, fun p hp => ?_, fun k hk => ?_, ?_⟩
  · have hall : (List.range s.n.toNat).map (t.elem .suf) = (sortAfter s.input j).suf := by
      rw [List.map_congr_left fun k hk => hsuf k (List.mem_range.mp hk), ← hproper.suf_length, map_getD_range]
    rw [hall]
    exact hproper.suf_perm
  · rw [hsuf k (hkl.trans hl), hsuf l hl]
    exact ha.suf_ordered hstop hkl (hlt hl)
  · have hrankp := hproper.rank_lt hp
    rw [hrank p hp, hsuf _ hrankp]
    refine ⟨hrankp, ha.rotation_suf_rank hstop (hlt hp), fun k hk => ?_⟩
    rw [hsuf k (hk.trans hrankp)]
    exact ha.rotation_ne_of_lt_rank (hlt hp) hk
  · rw [hgroup k hk.le, hsuf k hk, hrank _ (hproper.suf_lt hk), hproper.group_eq_rank hk]
  · rw [hgroup _ le_rfl, hproper.group_end]

/-- Settles O21: `refine` and a round by their rules, the invariant of the rounds, and the loop's first sufficient depth. -/
theorem sortStopsAtTheFirstSufficientDepth : Obligations.SortStopsAtTheFirstSufficientDepth := by
  refine ⟨fun n h start stop a ha hlt hle hinside hends => ?_, fun n h fuel start stop a hlen hlt hle hinside hends => ?_,
    fun d j _ hd => ?_, fun s hg hparams hn => ?_⟩
  · have hb : a.isBlock n start stop := ⟨hlt, hle, hinside, hends⟩
    refine ⟨hb.refine_proper ha, fun k _ hout => ?_, ?_, fun k l hk hkl hl => hb.refine_orders ha hk hkl hl,
      fun k g hk hkstop hg => ?_⟩
    · rw [hb.refine_suf_getD ha, hb.refine_group_getD ha, if_neg (by omega), if_neg (by omega)]
      exact ⟨rfl, rfl⟩
    · have hmembers := hb.refine_members (h := h) ha
      rw [SortArrays.members] at hmembers
      rw [hmembers]
      exact SortArrays.sortedMembers_perm n start stop h a
    · rw [hb.refine_group_getD ha, if_pos ⟨hk, hkstop⟩] at hg
      obtain ⟨hstart, hgk, hbetween, hbefore⟩ := hb.subStart_spec ha hk hkstop hg
      exact ⟨hstart, hbetween g hgk le_rfl, hbefore⟩
  · exact ⟨sortRound_block h fuel hlen hlt hle hinside hends, sortRound_end n h fuel a⟩
  · have ha := sortAfter_sortedTo hd j
    refine ⟨ha.proper, fun p q hp hq =>
      ⟨fun hlt => ?_, fun heq => ?_, fun heq => ⟨ha.equal p hp q hq heq, fun hpq => ?_⟩⟩⟩
    · exact rotation_lt_of_precedes hp hq (ha.smaller p hp q hq hlt)
    · exact take_rotation_eq hp hq (ha.tied p hp q hq heq)
    · exact ha.idxOf_lt hpq hq heq
  · obtain ⟨t, j, ht, hdone, hstep, hj, hstop, hbefore, -⟩ := exec_sort_eq_rounds hg hparams hn
    exact ⟨t, j, ht, hdone, hstep, hj, hstop, hbefore⟩
end

section
/-! PROOFS. The transform and its inverse on lists: the index slot (R120, R126), the stable order (R123), the walk (R124), and why
the walk restores the input (R125). -/

namespace Sys2Proof.Machine

/-! ### The index slot (R120) -/

/-- Slots that do not hold 0 leave the index as it was. -/
theorem foldl_index_of_not_mem (l : List Nat) (start b : Nat) (h : 0 ∉ l) :
    (l.zipIdx start).foldl (fun b pi => if pi.1 = 0 then pi.2 else b) b = b := by
  induction l generalizing start with
  | nil => rfl
  | cons x l ih =>
    obtain ⟨hx, hl⟩ := not_or.mp (List.mem_cons.not.mp h)
    rw [List.zipIdx_cons, List.foldl_cons, if_neg (Ne.symm hx), ih _ hl]

theorem bwtIndex_eq_idxOf {suf : List Nat} (hnodup : suf.Nodup) (hmem : 0 ∈ suf) : bwtIndex suf = suf.idxOf 0 := by
  obtain ⟨front, rest, rfl, hfront⟩ := List.eq_append_cons_of_mem hmem
  have hrest : 0 ∉ rest := (List.nodup_cons.mp (List.nodup_append.mp hnodup).2.1).1
  rw [bwtIndex, List.zipIdx_append, List.zipIdx_cons, List.foldl_append, List.foldl_cons, if_pos rfl,
    foldl_index_of_not_mem _ _ _ hrest, List.idxOf_append_of_notMem hfront, List.idxOf_cons_self, Nat.zero_add, Nat.add_zero]

/-- The index slot of a permutation of `0..n` is the one slot that holds 0. -/
theorem getD_eq_zero_iff_bwtIndex {n : Nat} {suf : List Nat} (hsuf : suf.Perm (List.range n)) {k : Nat} (hk : k < n) :
    suf.getD k 0 = 0 ↔ k = bwtIndex suf := by
  have hmem : 0 ∈ suf := hsuf.mem_iff.mpr (List.mem_range.mpr (by omega))
  have hnodup : suf.Nodup := hsuf.nodup_iff.mpr List.nodup_range
  have hlen : k < suf.length := by rwa [hsuf.length_eq, List.length_range]
  rw [bwtIndex_eq_idxOf hnodup hmem, List.getD_eq_getElem _ _ hlen]
  refine ⟨fun h => ?_, ?_⟩
  · rw [← h, hnodup.idxOf_getElem]
  · rintro rfl
    exact List.getElem_idxOf _

theorem bwtIndex_lt {n : Nat} {suf : List Nat} (hsuf : suf.Perm (List.range n)) (hn : 0 < n) : bwtIndex suf < n := by
  have hmem : 0 ∈ suf := hsuf.mem_iff.mpr (List.mem_range.mpr hn)
  rw [bwtIndex_eq_idxOf (hsuf.nodup_iff.mpr List.nodup_range) hmem]
  simpa [hsuf.length_eq] using List.idxOf_lt_length_of_mem hmem

/-! ### The stable order of the bytes (R123) -/

/-- Slot `i` comes before slot `j` in the stable order of the bytes `xf`. -/
abbrev slotBefore (xf : List Nat) (i j : Nat) : Prop := xf.getD i 0 < xf.getD j 0 ∨ xf.getD i 0 = xf.getD j 0 ∧ i < j

theorem buildNext_pairwise (xf : List Nat) : (buildNext xf).Pairwise (slotBefore xf) :=
  countingPass_pairwise _ List.pairwise_lt_range

theorem buildNext_perm {xf : List Nat} (h : ∀ b ∈ xf, b < Config.nsym) : (buildNext xf).Perm (List.range xf.length) :=
  countingPass_perm _ _ fun _ hj => h _ (getD_mem (List.mem_range.mp hj))

/-- In a list in a strict order a member stands at the number of the members before it. -/
theorem getD_countP_of_pairwise {R : Nat → Nat → Prop} [DecidableRel R] (hirrefl : ∀ x, ¬ R x x)
    (hasymm : ∀ x y, R x y → ¬ R y x) {l : List Nat} (hl : l.Pairwise R) {x : Nat} (hx : x ∈ l) :
    (l.countP fun y => decide (R y x)) < l.length ∧ l.getD (l.countP fun y => decide (R y x)) 0 = x := by
  obtain ⟨front, rest, rfl⟩ := List.append_of_mem hx
  obtain ⟨-, hcons, hcross⟩ := List.pairwise_append.mp hl
  have hfront : (front.countP fun y => decide (R y x)) = front.length :=
    List.countP_eq_length.mpr fun y hy => decide_eq_true (hcross y hy x (by simp))
  have hrest : ((x :: rest).countP fun y => decide (R y x)) = 0 := by
    refine List.countP_eq_zero.mpr fun y hy => ?_
    rw [decide_eq_true_eq]
    rcases List.mem_cons.mp hy with rfl | hy
    · exact hirrefl y
    · exact hasymm x y ((List.pairwise_cons.mp hcons).1 y hy)
  rw [List.countP_append, hfront, hrest, Nat.add_zero, List.getD_append_right _ _ _ _ le_rfl, Nat.sub_self]
  exact ⟨by simp, rfl⟩

/-- Before slot `j` come the smaller bytes, and the equal ones in earlier slots. -/
theorem countP_slotBefore (xf : List Nat) {n j : Nat} (hj : j < n) :
    ((List.range n).countP fun i => decide (slotBefore xf i j)) =
      ((List.range n).countP fun i => decide (xf.getD i 0 < xf.getD j 0)) +
        (List.range j).countP fun i => decide (xf.getD i 0 = xf.getD j 0) := by
  obtain ⟨m, rfl⟩ := Nat.exists_eq_add_of_le hj.le
  have hearlier : ∀ l : List Nat, (∀ i ∈ l, i < j) → (l.countP fun i => decide (slotBefore xf i j)) =
      (l.countP fun i => decide (xf.getD i 0 < xf.getD j 0)) + l.countP fun i => decide (xf.getD i 0 = xf.getD j 0) := by
    intro l hl
    induction l with
    | nil => rfl
    | cons i l ih =>
      obtain ⟨hi, hl⟩ := List.forall_mem_cons.mp hl
      simp only [List.countP_cons, ih hl, decide_eq_true_eq, slotBefore]
      split_ifs <;> omega
  have hlater : ((List.range m).map (j + ·)).countP (fun i => decide (slotBefore xf i j)) =
      ((List.range m).map (j + ·)).countP fun i => decide (xf.getD i 0 < xf.getD j 0) := by
    refine List.countP_congr fun i hi => ?_
    obtain ⟨k, -, rfl⟩ := List.mem_map.mp hi
    simp only [decide_eq_true_eq, slotBefore]
    omega
  rw [List.range_add, List.countP_append, List.countP_append, hlater, hearlier _ fun i => List.mem_range.mp]
  omega

/-- The number of slots before slot `j` in the stable order of the bytes `xf`: the smaller bytes, and the equal ones before `j`
(R123). -/
def stableRank (xf : List Nat) (j : Nat) : Nat :=
  ((List.range xf.length).countP fun i => decide (xf.getD i 0 < xf.getD j 0)) +
    (List.range j).countP fun i => decide (xf.getD i 0 = xf.getD j 0)

/-- R123: `NEXT` at a slot's stable rank is the slot. -/
theorem buildNext_stableRank {xf : List Nat} (h : ∀ b ∈ xf, b < Config.nsym) {j : Nat} (hj : j < xf.length) :
    stableRank xf j < xf.length ∧ (buildNext xf).getD (stableRank xf j) 0 = j := by
  have hmem : j ∈ buildNext xf := (buildNext_perm h).mem_iff.mpr (List.mem_range.mpr hj)
  rw [stableRank, ← countP_slotBefore xf hj, ← (buildNext_perm h).countP_eq, ← buildNext_length xf h]
  exact getD_countP_of_pairwise (fun _ => by unfold slotBefore; omega) (fun _ _ => by unfold slotBefore; omega)
    (buildNext_pairwise xf) hmem

/-! ### The walk (R124) -/

/-- The slot the walk has reached after `k` steps. -/
def walkSlot (next : List Nat) (p k : Nat) : Nat := (fun r => next.getD r 0)^[k] p

@[simp] theorem walkSlot_zero (next : List Nat) (p : Nat) : walkSlot next p 0 = p := rfl

theorem walkSlot_succ (next : List Nat) (p k : Nat) : walkSlot next p (k + 1) = next.getD (walkSlot next p k) 0 :=
  Function.iterate_succ_apply' ..

theorem walkSlot_lt {n p : Nat} {next : List Nat} (hnext : next.Perm (List.range n)) (hp : p < n) (k : Nat) :
    walkSlot next p k < n := by
  induction k with
  | zero => exact hp
  | succ k ih =>
    rw [walkSlot_succ]
    exact getD_lt_of_perm_range hnext ih

theorem bwtWalk_getD (xf next : List Nat) {steps k : Nat} (p : Nat) (hk : k < steps) :
    (bwtWalk xf next steps p).getD k 0 = xf.getD (walkSlot next p (k + 1)) 0 := by
  induction steps generalizing k p with
  | zero => omega
  | succ steps ih =>
    cases k with
    | zero => rfl
    | succ k =>
      rw [bwtWalk, List.getD_cons_succ, ih _ (Nat.lt_of_succ_lt_succ hk)]
      rfl

/-! ### The walk follows the rotations (R124, R125) -/

section Inverse

variable {d suf : List Nat} {p q : Nat}

theorem rotationByte_congr (hp : p < d.length) (hq : q < d.length) (heq : rotation d p = rotation d q) (k : Nat) :
    rotationByte d p k = rotationByte d q k := by
  have hk := Nat.mod_lt k (Nat.zero_lt_of_lt hp)
  rw [← rotationByte_mod d p, ← rotationByte_mod d q, ← rotation_getElem d hp (by rwa [rotation_length d hp]),
    ← rotation_getElem d hq (by rwa [rotation_length d hq])]
  simp only [heq]

theorem precedes_of_rotation_lt (hp : p < d.length) (hq : q < d.length) (hlt : rotation d p < rotation d q) :
    precedes d p q := by
  rcases List.lt_iff_exists.mp hlt with ⟨-, hlen⟩ | ⟨m, hmp, hmq, hagree, hbyte⟩
  · rw [rotation_length d hp, rotation_length d hq] at hlen
    omega
  · simp only [rotation_getElem d hp, rotation_getElem d hq] at hagree hbyte
    exact ⟨m, hagree, hbyte⟩

theorem cyclicPred_lt (hp : p < d.length) : cyclicPred d.length p < d.length := Nat.mod_lt _ (Nat.zero_lt_of_lt hp)

theorem cyclicPred_eq_add (hp : p < d.length) : cyclicPred d.length p = (p + (d.length - 1)) % d.length := by
  rw [cyclicPred, Nat.add_sub_assoc (Nat.zero_lt_of_lt hp)]

theorem cyclicPred_succ (hp : p < d.length) : (cyclicPred d.length p + 1) % d.length = p := by
  rw [cyclicPred, Nat.mod_add_mod, Nat.sub_add_cancel (by omega), Nat.add_mod_right, Nat.mod_eq_of_lt hp]

theorem map_cyclicPred_perm (n : Nat) : ((List.range n).map (cyclicPred n)).Perm (List.range n) := by
  have hrotate : (List.range n).map (cyclicPred n) = (List.range n).rotate (n - 1) := by
    refine List.ext_getElem (by simp) fun k hk _ => ?_
    have hk : k < n := by simpa using hk
    simp only [List.getElem_map, List.getElem_range, List.getElem_rotate, List.length_range, cyclicPred]
    rw [Nat.add_sub_assoc (by omega)]
  rw [hrotate]
  exact List.rotate_perm _ _

/-- Rotations that start one position earlier compare by their first bytes, then as before. -/
theorem rotation_cyclicPred_le (hp : p < d.length) (hq : q < d.length)
    (h : d.getD (cyclicPred d.length p) 0 < d.getD (cyclicPred d.length q) 0 ∨
      d.getD (cyclicPred d.length p) 0 = d.getD (cyclicPred d.length q) 0 ∧ rotation d p ≤ rotation d q) :
    rotation d (cyclicPred d.length p) ≤ rotation d (cyclicPred d.length q) := by
  have hp' := cyclicPred_lt hp
  have hq' := cyclicPred_lt hq
  have hfirst {r : Nat} (hr : r < d.length) : rotationByte d r 0 = d.getD r 0 := by
    rw [rotationByte, Nat.add_zero, Nat.mod_eq_of_lt hr]
  rw [← hfirst hp', ← hfirst hq'] at h
  rcases h with hlt | ⟨heq, hle⟩
  · exact (rotation_lt_of_precedes hp' hq' ⟨0, fun _ hk => absurd hk (Nat.not_lt_zero _), hlt⟩).le
  · rcases hle.lt_or_eq with hlt | hrot
    · have hshift := precedes_of_rotation_lt hp hq hlt
      rw [← cyclicPred_succ hp, ← cyclicPred_succ hq] at hshift
      refine (rotation_lt_of_precedes hp' hq' (.shift (fun k hk => ?_) hshift)).le
      rwa [Nat.lt_one_iff.mp hk]
    · rw [cyclicPred_eq_add hp, cyclicPred_eq_add hq, rotation_shift_eq _ hp hq hrot]

/-- The slots hold every position once, in ascending order of rotation (R109). -/
structure SortsRotations (d suf : List Nat) : Prop where
  perm : suf.Perm (List.range d.length)
  sorted : suf.Pairwise fun p q => rotation d p ≤ rotation d q

theorem SortsRotations.length (hs : SortsRotations d suf) : suf.length = d.length := by
  rw [hs.perm.length_eq, List.length_range]

theorem SortsRotations.lt (hs : SortsRotations d suf) {k : Nat} (hk : k < d.length) : suf.getD k 0 < d.length :=
  getD_lt_of_perm_range hs.perm hk

theorem SortsRotations.le (hs : SortsRotations d suf) {k l : Nat} (hkl : k < l) (hl : l < d.length) :
    rotation d (suf.getD k 0) ≤ rotation d (suf.getD l 0) := by
  have hl : l < suf.length := by rwa [hs.length]
  rw [List.getD_eq_getElem _ _ hl, List.getD_eq_getElem _ _ (hkl.trans hl)]
  exact List.pairwise_iff_getElem.mp hs.sorted k l _ _ hkl

theorem bwtForward_length (d suf : List Nat) : (bwtForward d suf).length = suf.length := List.length_map _

theorem SortsRotations.bwtForward_getD (hs : SortsRotations d suf) {k : Nat} (hk : k < d.length) :
    (bwtForward d suf).getD k 0 = d.getD (cyclicPred d.length (suf.getD k 0)) 0 :=
  getD_map_of_lt (fun p => d.getD (cyclicPred d.length p) 0) (by rwa [hs.length])

theorem SortsRotations.bwtForward_lt (hs : SortsRotations d suf) (hd : ∀ b ∈ d, b < Config.nsym) :
    ∀ b ∈ bwtForward d suf, b < Config.nsym := by
  intro b hb
  obtain ⟨p, hp, rfl⟩ := List.mem_map.mp hb
  exact hd _ (getD_mem (cyclicPred_lt (List.mem_range.mp (hs.perm.mem_iff.mp hp))))

theorem SortsRotations.buildNext_perm (hs : SortsRotations d suf) (hd : ∀ b ∈ d, b < Config.nsym) :
    (buildNext (bwtForward d suf)).Perm (List.range d.length) := by
  rw [← hs.length, ← bwtForward_length d suf]
  exact Machine.buildNext_perm (hs.bwtForward_lt hd)

/-- The slots in the stable order of their bytes list the rotations one position earlier, and this list too is sorted: a slot's
byte is the first one of that rotation. Both lists hold all rotations in ascending order, so they are equal. -/
theorem SortsRotations.map_rotation_buildNext (hs : SortsRotations d suf) (hd : ∀ b ∈ d, b < Config.nsym) :
    (buildNext (bwtForward d suf)).map (fun i => rotation d (cyclicPred d.length (suf.getD i 0))) = suf.map (rotation d) := by
  have hperm := hs.buildNext_perm hd
  have hslots : ((buildNext (bwtForward d suf)).map fun i => suf.getD i 0).Perm suf := by
    have := hperm.map fun i => suf.getD i 0
    rwa [← hs.length, map_getD_range] at this
  have hpositions : ((buildNext (bwtForward d suf)).map fun i => cyclicPred d.length (suf.getD i 0)).Perm suf := by
    have := (hslots.trans hs.perm).map (cyclicPred d.length)
    rw [List.map_map] at this
    exact this.trans ((map_cyclicPred_perm _).trans hs.perm.symm)
  have hrotations := hpositions.map (rotation d)
  rw [List.map_map] at hrotations
  refine hrotations.eq_of_pairwise' (List.pairwise_map.mpr ?_) (List.pairwise_map.mpr hs.sorted)
  refine (buildNext_pairwise _).imp_of_mem fun {i j} hi hj hij => ?_
  rw [hperm.mem_iff, List.mem_range] at hi hj
  rw [slotBefore, hs.bwtForward_getD hi, hs.bwtForward_getD hj] at hij
  exact rotation_cyclicPred_le (hs.lt hi) (hs.lt hj) (hij.imp_right (And.imp_right fun hlt => hs.le hlt hj))

/-- R124: `NEXT` leads from a slot to one whose rotation starts one position later. -/
theorem SortsRotations.rotation_next (hs : SortsRotations d suf) (hd : ∀ b ∈ d, b < Config.nsym) {r : Nat}
    (hr : r < d.length) :
    rotation d (suf.getD ((buildNext (bwtForward d suf)).getD r 0) 0) = rotation d ((suf.getD r 0 + 1) % d.length) := by
  have hperm := hs.buildNext_perm hd
  have hnext := hs.lt (getD_lt_of_perm_range hperm hr)
  have hr' : r < (buildNext (bwtForward d suf)).length := by rwa [hperm.length_eq, List.length_range]
  have hsuf : r < suf.length := by rwa [hs.length]
  have hslot := congrArg (·[r]?) (hs.map_rotation_buildNext hd)
  simp only [List.getElem?_map, List.getElem?_eq_getElem hr', List.getElem?_eq_getElem hsuf, Option.map_some,
    Option.some.injEq, ← List.getD_eq_getElem _ 0 hr', ← List.getD_eq_getElem _ 0 hsuf] at hslot
  have hshift := rotation_shift_eq 1 (cyclicPred_lt hnext) (hs.lt hr) hslot
  rwa [cyclicPred_succ hnext] at hshift

/-- After `k` steps from the index slot the walk stands at a slot of the rotation at `k`. -/
theorem SortsRotations.rotation_walkSlot (hs : SortsRotations d suf) (hd : ∀ b ∈ d, b < Config.nsym) {r : Nat}
    (hr : r < d.length) (hindex : suf.getD r 0 = 0) (k : Nat) :
    walkSlot (buildNext (bwtForward d suf)) r k < d.length ∧
      rotation d (suf.getD (walkSlot (buildNext (bwtForward d suf)) r k) 0) = rotation d (k % d.length) := by
  have hperm := hs.buildNext_perm hd
  refine ⟨walkSlot_lt hperm hr k, ?_⟩
  induction k with
  | zero => rw [walkSlot_zero, hindex, Nat.zero_mod]
  | succ k ih =>
    have hslot := walkSlot_lt hperm hr k
    rw [walkSlot_succ, hs.rotation_next hd hslot,
      rotation_shift_eq 1 (hs.lt hslot) (Nat.mod_lt _ (Nat.zero_lt_of_lt hr)) ih, Nat.mod_add_mod]

/-- R125: the walk from the index slot emits the input, since a slot's byte is the last one of its rotation. -/
theorem SortsRotations.bwtForward_walkSlot (hs : SortsRotations d suf) (hd : ∀ b ∈ d, b < Config.nsym) {r k : Nat}
    (hr : r < d.length) (hindex : suf.getD r 0 = 0) (hk : k < d.length) :
    (bwtForward d suf).getD (walkSlot (buildNext (bwtForward d suf)) r (k + 1)) 0 = d.getD k 0 := by
  obtain ⟨hslot, hrot⟩ := hs.rotation_walkSlot hd hr hindex (k + 1)
  have hn := Nat.zero_lt_of_lt hk
  have hbyte := rotationByte_congr (hs.lt hslot) (Nat.mod_lt _ hn) hrot (d.length - 1)
  rw [rotationByte, ← cyclicPred_eq_add (hs.lt hslot), rotationByte_shift, rotationByte] at hbyte
  rw [hs.bwtForward_getD hslot, hbyte, show k + (1 + (d.length - 1)) = k + d.length by omega, Nat.add_mod_right,
    Nat.mod_eq_of_lt hk]

end Inverse

end Sys2Proof.Machine
end

section
/-! PROOFS. `BWTF` and `BWTI` in the machine (R120, R122, R127): what they leave in their spaces and in `BIDX`. Settles O23, O24
and O25. -/

namespace Sys2Proof.Machine

/-! ### The lists the commands read -/

/-- The slots that `BWTF` reads back, `SUF[0..N)`. -/
def State.slots (s : State) : List Nat := (List.range s.n.toNat).map (s.elem .suf)

theorem State.slots_eq_fetchPrefix (s : State) : s.slots = fetchPrefix .suf s.powerUp s.bufs.suf s.n.toNat :=
  List.map_congr_left fun _ _ => reg64_bitVec_toNat (by decide) _

/-- The input of `BWTI`, `XF[0..N)`. -/
def State.transform (s : State) : List Nat := (List.range s.n.toNat).map (s.elem .xf)

theorem State.transform_eq_fetchPrefix (s : State) : s.transform = fetchPrefix .xf s.powerUp s.bufs.xf s.n.toNat :=
  List.map_congr_left fun _ _ => reg64_bitVec_toNat (by decide) _

theorem State.transform_length (s : State) : s.transform.length = s.n.toNat := by simp [State.transform]

theorem State.transform_lt (s : State) : ∀ b ∈ s.transform, b < Config.nsym := by
  rw [s.transform_eq_fetchPrefix]
  exact fetchPrefix_lt_nsym _ _ _ _

/-- Element `k` of a list of the first elements of a space. -/
theorem getD_map_elem (s : State) (sp : Space) {n k : Nat} (hk : k < n) :
    ((List.range n).map (s.elem sp)).getD k 0 = s.elem sp k := by
  rw [getD_map_of_lt _ (by rwa [List.length_range]), List.getD_eq_getElem _ _ (by rwa [List.length_range]), List.getElem_range]

/-! ### `BWTF` (R120) -/

/-- The machine with the index register and the transform of `N` bytes by the slots `suf` stored. -/
def State.withTransform (s : State) (suf : List Nat) : State :=
  { s with
    bidx := reg64 (bwtIndex suf)
    bufs := { s.bufs with xf := storeFrom .xf 0 (bwtForward s.input suf) s.bufs.xf } }

/-- The sort ends in a state with the same input. -/
theorem sortBody_keeps_input {s : State} (hn : s.n.toNat ≤ s.cfgNmax.toNat) :
    ∃ u, sortBody s = .ok u ∧ u.n = s.n ∧ u.input = s.input := by
  rcases Nat.eq_zero_or_pos s.n.toNat with hzero | hpos
  · exact ⟨_, sortBody_of_zero hzero, rfl, rfl⟩
  · exact ⟨_, sortBody_of_pos hpos hn, rfl, rfl⟩

theorem bwtfBody_of_sort {s u : State} (hn : s.n.toNat ≤ s.cfgNmax.toNat) (hsort : sortBody s = .ok u) (hkeep : u.n = s.n) :
    bwtfBody s = .ok (u.withTransform u.slots) := by
  rw [← hkeep] at hn
  have hcheck := (checkLength_ok_iff s u.n.toNat).mpr hn
  simp only [bwtfBody, hcheck, hsort, Run.ok_bind, ← hkeep, ← u.slots_eq_fetchPrefix, ← u.input_eq_fetchPrefix]
  rfl

/-- The arrays `SORT` leaves are sorted (R109). -/
theorem sortsRotations_of_sort {s u : State} (hg : s.good) (hparams : s.paramsLegal) (hn : s.n.toNat ≤ s.cfgNmax.toNat)
    (hsort : exec .sort s = .next u) (hkeep : u.n = s.n) : SortsRotations s.input u.slots := by
  rw [State.slots, hkeep]
  rcases Nat.eq_zero_or_pos s.n.toNat with hzero | hpos
  · rw [hzero]
    exact ⟨by rw [s.input_length, hzero]; rfl, .nil⟩
  · obtain ⟨t, ht, -, hperm, hordered, -⟩ := sortOrdersAllRotations s hg hparams hpos hn
    cases hsort.symm.trans ht
    refine ⟨by rwa [s.input_length], List.pairwise_map.mpr ?_⟩
    refine List.pairwise_lt_range.imp_of_mem fun {k l} _ hl hkl => ?_
    rcases hordered k l hkl (List.mem_range.mp hl) with hlt | ⟨heq, -⟩
    · exact hlt.le
    · exact heq.le

/-- `BWTF` is `SORT` and then the transform, in one command. -/
theorem exec_bwtf_completes {s : State} (hg : s.good) (hparams : s.paramsLegal) (hn : s.n.toNat ≤ s.cfgNmax.toNat) :
    ∃ u, exec .sort s = .next u ∧ exec .bwtf s = .next (u.withTransform u.slots) ∧
      completedFrom s (u.withTransform u.slots) ∧ u.n = s.n ∧ u.input = s.input ∧ SortsRotations s.input u.slots := by
  obtain ⟨u, hbody, hkeep, hinput⟩ := sortBody_keeps_input (s := s.startCommand) hn
  have hsort : exec .sort s = .next u.complete := runCommand_of_ok sortBody s _ hg hbody
  obtain ⟨t, ht, hdone, -⟩ := exec_sort_completes hg hn
  cases hsort.symm.trans ht
  exact ⟨u.complete, hsort, runCommand_of_ok bwtfBody s _ hg (bwtfBody_of_sort hn hbody hkeep), hdone, hkeep, hinput,
    sortsRotations_of_sort hg hparams hn hsort hkeep⟩

/-- `XF` holds the transform (R121). -/
theorem State.withTransform_elem_xf {s : State} {suf : List Nat} (hs : SortsRotations s.input suf) {i : Nat}
    (hi : i < s.n.toNat) : (s.withTransform suf).elem .xf i = (bwtForward s.input suf).getD i 0 := by
  have hlen : i < (bwtForward s.input suf).length := by rwa [bwtForward_length, hs.length, s.input_length]
  exact elem_of_holds (map_peek_storeFrom (by decide) _ _ hlen (hs.bwtForward_lt s.input_lt _ (getD_mem hlen)))

theorem State.withTransform_bidx_toNat {s : State} {suf : List Nat} (hs : SortsRotations s.input suf)
    (hn : 0 < s.n.toNat) : (s.withTransform suf).bidx.toNat = bwtIndex suf := by
  have hlt := bwtIndex_lt hs.perm (by rwa [s.input_length])
  rw [s.input_length] at hlt
  exact reg64_toNat _ (hlt.trans s.n.isLt)

/-! ### `BWTI` (R122) -/

/-- The machine with the stable order of the bytes of `XF` and the walk through it stored. -/
def State.withWalk (s : State) : State :=
  s.withBufs { s.bufs with
    next := storeFrom .next 0 (buildNext s.transform) s.bufs.next
    data := storeFrom .data 0 (bwtWalk s.transform (buildNext s.transform) s.n.toNat s.bidx.toNat) s.bufs.data }

theorem bwtiBody_of_zero {s : State} (hzero : s.n.toNat = 0) : bwtiBody s = .ok s := by
  have hcheck := (checkLength_ok_iff s s.n.toNat).mpr (by omega)
  simp only [bwtiBody, hcheck, Run.ok_bind]
  exact if_pos hzero

theorem bwtiBody_of_index {s : State} (hindex : s.bidx.toNat < s.n.toNat) (hn : s.n.toNat ≤ s.cfgNmax.toNat) :
    bwtiBody s = .ok s.withWalk := by
  have hcheck := (checkLength_ok_iff s s.n.toNat).mpr hn
  simp only [bwtiBody, hcheck, Run.ok_bind, ← s.transform_eq_fetchPrefix]
  rw [if_neg (by omega), if_neg (by omega)]
  rfl

theorem State.withWalk_elem_next {s : State} (hn : s.n.toNat < 2 ^ 32) {r : Nat} (hr : r < s.n.toNat) :
    s.withWalk.elem .next r = (buildNext s.transform).getD r 0 := by
  have hperm := buildNext_perm s.transform_lt
  rw [s.transform_length] at hperm
  refine elem_of_holds (map_peek_storeFrom (by decide) _ _ ?_ ((getD_lt_of_perm_range hperm hr).trans hn))
  rwa [hperm.length_eq, List.length_range]

theorem State.withWalk_elem_data {s : State} (hindex : s.bidx.toNat < s.n.toNat) {k : Nat} (hk : k < s.n.toNat) :
    s.withWalk.elem .data k = s.transform.getD (walkSlot (buildNext s.transform) s.bidx.toNat (k + 1)) 0 := by
  have hperm := buildNext_perm s.transform_lt
  have hslot := walkSlot_lt hperm (p := s.bidx.toNat) (by rwa [s.transform_length]) (k + 1)
  rw [← bwtWalk_getD _ _ _ hk]
  refine elem_of_holds (map_peek_storeFrom (by decide) _ _ (by rwa [bwtWalk_length]) ?_)
  rw [bwtWalk_getD _ _ _ hk]
  exact s.transform_lt _ (getD_mem hslot)

/-- `BWTI` completes and leaves the stable order and the walk, the buffers as they were for `N = 0` (R127). -/
theorem exec_bwti_completes {s : State} (hg : s.good) (hparams : s.cfgNmax.toNat ≤ Config.nmaxBound)
    (hn : s.n.toNat ≤ s.cfgNmax.toNat) (hindex : 0 < s.n.toNat → s.bidx.toNat < s.n.toNat) :
    ∃ t, exec .bwti s = .next t ∧ completedFrom s t ∧ (s.n.toNat = 0 → t.bufs = s.bufs) ∧
      (∀ r < s.n.toNat, t.elem .next r = (buildNext s.transform).getD r 0) ∧
      ∀ k < s.n.toNat,
        t.elem .data k = s.transform.getD (walkSlot (buildNext s.transform) s.bidx.toNat (k + 1)) 0 := by
  have hrecord : ∀ u, s.sameRecord u → completedFrom s u.complete := fun _ hu => hu.complete hg
  rcases Nat.eq_zero_or_pos s.n.toNat with hzero | hpos
  · refine ⟨_, runCommand_of_ok bwtiBody s _ hg (bwtiBody_of_zero hzero), hrecord _ ⟨rfl, rfl, rfl, rfl⟩, fun _ => rfl,
      fun r hr => ?_, fun k hk => ?_⟩ <;> omega
  · have hbits : s.n.toNat < 2 ^ 32 := by
      simp only [Config.nmaxBound] at hparams
      omega
    exact ⟨_, runCommand_of_ok bwtiBody s _ hg (bwtiBody_of_index (s := s.startCommand) (hindex hpos) hn),
      hrecord _ ⟨rfl, rfl, rfl, rfl⟩, fun hzero => by omega, fun r hr => State.withWalk_elem_next hbits hr,
      fun k hk => State.withWalk_elem_data (hindex hpos) hk⟩

/-- The stable rank in the terms the host reads `XF` in. -/
theorem State.stableRank_transform (s : State) {j : Nat} (hj : j < s.n.toNat) :
    stableRank s.transform j =
      ((List.range s.n.toNat).countP fun k => decide (s.elem .xf k < s.elem .xf j)) +
        (List.range j).countP fun k => decide (s.elem .xf k = s.elem .xf j) := by
  have hget {k : Nat} (hk : k < s.n.toNat) : s.transform.getD k 0 = s.elem .xf k := getD_map_elem s .xf hk
  rw [stableRank, s.transform_length, hget hj]
  refine congrArg₂ (· + ·) (List.countP_congr fun k hk => ?_) (List.countP_congr fun k hk => ?_)
  · rw [hget (List.mem_range.mp hk)]
  · rw [hget ((List.mem_range.mp hk).trans hj)]

end Sys2Proof.Machine

open Sys2Proof Sys2Proof.Machine

/-- Settles O23: `BWTF` stores the transform of the sort's slots, of which one holds position 0. -/
theorem bwtForwardTransforms : Obligations.BwtForwardTransforms := by
  intro s hg hparams hn
  obtain ⟨u, hsort, hbwtf, hdone, hkeep, hinput, hs⟩ := exec_bwtf_completes hg hparams hn
  have hslot {i : Nat} (hi : i < s.n.toNat) : u.slots.getD i 0 = u.elem .suf i := getD_map_elem u .suf (by rwa [hkeep])
  have hxf (i : Nat) (hi : i < s.n.toNat) :
      (u.withTransform u.slots).elem .xf i = s.elem .data ((u.elem .suf i + s.n.toNat - 1) % s.n.toNat) := by
    rw [State.withTransform_elem_xf (by rwa [hinput]) (by rwa [hkeep]), hinput, hs.bwtForward_getD (by rwa [s.input_length]),
      hslot hi, s.input_length]
    exact getD_map_elem s .data (Nat.mod_lt _ (Nat.zero_lt_of_lt hi))
  refine ⟨_, u, hbwtf, hdone, hsort, rfl, ?_, hxf, fun hzero => ?_, fun hpos => ?_⟩
  · rintro sp k (rfl | rfl | rfl) <;> exact ⟨rfl, rfl⟩
  · have hnil : u.slots = [] := by rw [State.slots, hkeep, hzero]; rfl
    rw [hnil]
    rfl
  · have hindex := State.withTransform_bidx_toNat (s := u) (by rwa [hinput]) (by rwa [hkeep])
    have hperm := hs.perm
    rw [s.input_length] at hperm
    have hlt := bwtIndex_lt hperm hpos
    have hzero (i : Nat) (hi : i < s.n.toNat) : u.elem .suf i = 0 ↔ i = bwtIndex u.slots := by
      rw [← hslot hi]
      exact getD_eq_zero_iff_bwtIndex hperm hi
    rw [hindex]
    refine ⟨hlt, ?_, hzero⟩
    rw [hxf _ hlt, (hzero _ hlt).mpr rfl, Nat.zero_add, Nat.mod_eq_of_lt (by omega)]

/-- Settles O24: `NEXT` is the stable order, and the walk is the iteration of `NEXT` from `BIDX`. -/
theorem bwtInverseWalksTheStableOrder : Obligations.BwtInverseWalksTheStableOrder := by
  intro s hg hparams hn hindex
  obtain ⟨t, ht, hdone, hzero, hnext, hdata⟩ := exec_bwti_completes hg hparams.1 hn hindex
  have hlen := s.transform_length
  refine ⟨t, ht, hdone, hzero, fun j hj => ?_, walkSlot (buildNext s.transform) s.bidx.toNat, walkSlot_zero _ _,
    fun k hk => ?_⟩
  · obtain ⟨hrank, hslot⟩ := buildNext_stableRank s.transform_lt (j := j) (by rwa [hlen])
    rw [hlen] at hrank
    rw [← s.stableRank_transform hj, hnext _ hrank, hslot]
  · have hslot := walkSlot_lt (buildNext_perm s.transform_lt) (p := s.bidx.toNat)
      (by rw [hlen]; exact hindex (Nat.zero_lt_of_lt hk))
    rw [hlen] at hslot
    refine ⟨?_, ?_⟩
    · rw [hnext _ (hslot k), walkSlot_succ]
    · rw [hdata k hk]
      exact getD_map_elem s .xf (hslot (k + 1))

/-- Settles O25: the walk from the index slot visits the rotations in order of position and emits the last byte of each. -/
theorem bwtInverseRestoresTheInput : Obligations.BwtInverseRestoresTheInput := by
  intro s hg hparams hn
  obtain ⟨u, -, hbwtf, hdone, hkeep, hinput, hs⟩ := exec_bwtf_completes hg hparams hn
  refine ⟨_, hbwtf, hdone, fun t' hg' hnmax hn' hbidx hxf => ?_⟩
  have htransform : t'.transform = bwtForward s.input u.slots := by
    have hlen : (bwtForward s.input u.slots).length = s.n.toNat := by rw [bwtForward_length, hs.length, s.input_length]
    rw [← map_getD_range (bwtForward s.input u.slots), hlen, State.transform, hn']
    refine List.map_congr_left fun k hk => ?_
    have hk : k < s.n.toNat := List.mem_range.mp hk
    rw [hxf k hk, State.withTransform_elem_xf (by rwa [hinput]) (by rwa [hkeep]), hinput]
  have hindex (hpos : 0 < s.n.toNat) : t'.bidx.toNat = bwtIndex u.slots := by
    rw [hbidx, State.withTransform_bidx_toNat (by rwa [hinput]) (by rwa [hkeep])]
  have hlt (hpos : 0 < s.n.toNat) : bwtIndex u.slots < s.input.length := bwtIndex_lt hs.perm (by rwa [s.input_length])
  obtain ⟨v, hv, hdone', -, -, hdata⟩ := exec_bwti_completes hg' (hnmax ▸ hparams.1) (by rwa [hn', hnmax])
    fun hpos => by
      rw [hn'] at hpos ⊢
      rw [hindex hpos, ← s.input_length]
      exact hlt hpos
  refine ⟨v, hv, hdone', fun k hk => ?_⟩
  have hpos := Nat.zero_lt_of_lt hk
  have hzero := (getD_eq_zero_iff_bwtIndex hs.perm (hlt hpos)).mpr rfl
  rw [hdata k (by rwa [hn']), htransform, hindex hpos,
    hs.bwtForward_walkSlot s.input_lt (hlt hpos) hzero (by rwa [s.input_length])]
  exact getD_map_elem s .data hk
end

section
/-! PROOFS. The recency list of move to front (R135): what one step does to it, what the two loops (R136, R137) have in common,
and why bytes and codes determine each other (R138). -/

namespace Sys2Proof.Machine

/-! ### The run the two loops share -/

/-- A run of move to front from the list `l` to the list `final`: each code is a place in the list of its step, the byte is the
one at that place, and the byte then goes to the front (R135). Neither the bytes nor the codes are singled out as the input. -/
inductive MtfTrace : (l bytes codes final : List Nat) → Prop
  | nil (l : List Nat) : MtfTrace l [] [] l
  | cons {l bytes codes final : List Nat} {b p : Nat} (hplace : l[p]? = some b)
      (hrest : MtfTrace (b :: l.erase b) bytes codes final) : MtfTrace l (b :: bytes) (p :: codes) final

section Lists

variable {l bytes codes final : List Nat} {b p : Nat}

theorem cons_erase_perm (hplace : l[p]? = some b) : (b :: l.erase b).Perm l :=
  (List.perm_cons_erase (List.mem_of_getElem? hplace)).symm

/-- In a list without repetitions, moving a place to the front is moving the byte at that place. -/
theorem moveToFront_eq_cons_erase (hl : l.Nodup) (hplace : l[p]? = some b) : moveToFront l p = b :: l.erase b := by
  obtain ⟨hp, rfl⟩ := List.getElem?_eq_some_iff.mp hplace
  rw [moveToFront, List.getD_eq_getElem _ _ hp, hl.erase_getElem p hp]

theorem nodup_of_perm_mtfIdentity (hl : l.Perm mtfIdentity) : l.Nodup := hl.nodup_iff.mpr List.nodup_range

theorem mem_iff_of_perm_mtfIdentity (hl : l.Perm mtfIdentity) : b ∈ l ↔ b < Config.nsym := hl.mem_iff.trans List.mem_range

theorem length_of_perm_mtfIdentity (hl : l.Perm mtfIdentity) : l.length = Config.nsym := hl.length_eq.trans List.length_range

/-- The encoder's loop is a run over its bytes (R136). -/
theorem mtfEncode_trace (hl : l.Perm mtfIdentity) (hbytes : ∀ b ∈ bytes, b < Config.nsym) :
    MtfTrace l bytes (mtfEncode l bytes).1 (mtfEncode l bytes).2 := by
  induction bytes generalizing l with
  | nil => exact .nil l
  | cons b rest ih =>
    have hplace : l[l.idxOf b]? = some b :=
      List.getElem?_idxOf ((mem_iff_of_perm_mtfIdentity hl).mpr (hbytes b List.mem_cons_self))
    simp only [mtfEncode, moveToFront_eq_cons_erase (nodup_of_perm_mtfIdentity hl) hplace]
    exact .cons hplace (ih ((cons_erase_perm hplace).trans hl) fun c hc => hbytes c (List.mem_cons_of_mem b hc))

/-- The decoder's loop is a run over its codes (R137). -/
theorem mtfDecode_trace (hl : l.Perm mtfIdentity) (hcodes : ∀ p ∈ codes, p < Config.nsym) :
    MtfTrace l (mtfDecode l codes).1 codes (mtfDecode l codes).2 := by
  induction codes generalizing l with
  | nil => exact .nil l
  | cons p rest ih =>
    have hp : p < l.length := length_of_perm_mtfIdentity hl ▸ hcodes p List.mem_cons_self
    have hplace : l[p]? = some (l.getD p 0) := by rw [List.getD_eq_getElem _ _ hp, List.getElem?_eq_getElem hp]
    simp only [mtfDecode, moveToFront_eq_cons_erase (nodup_of_perm_mtfIdentity hl) hplace]
    exact .cons hplace (ih ((cons_erase_perm hplace).trans hl) fun c hc => hcodes c (List.mem_cons_of_mem p hc))

namespace MtfTrace

theorem length_eq (h : MtfTrace l bytes codes final) : bytes.length = codes.length := by
  induction h with
  | nil => rfl
  | cons _ _ ih => rw [List.length_cons, ih, List.length_cons]

theorem final_perm (h : MtfTrace l bytes codes final) : final.Perm l := by
  induction h with
  | nil => exact .refl _
  | cons hplace _ ih => exact ih.trans (cons_erase_perm hplace)

theorem bytes_mem (h : MtfTrace l bytes codes final) : ∀ b ∈ bytes, b ∈ l := by
  induction h with
  | nil => exact fun _ hb => absurd hb List.not_mem_nil
  | cons hplace _ ih =>
    exact List.forall_mem_cons.mpr ⟨List.mem_of_getElem? hplace, fun b hb => (cons_erase_perm hplace).mem_iff.mp (ih b hb)⟩

theorem codes_lt (h : MtfTrace l bytes codes final) : ∀ p ∈ codes, p < l.length := by
  induction h with
  | nil => exact fun _ hp => absurd hp List.not_mem_nil
  | cons hplace _ ih =>
    exact List.forall_mem_cons.mpr
      ⟨(List.getElem?_eq_some_iff.mp hplace).1, fun p hp => (ih p hp).trans_eq (cons_erase_perm hplace).length_eq⟩

/-- The codes determine the bytes: a place holds one byte. -/
theorem bytes_unique {bytes' final' : List Nat} (h : MtfTrace l bytes codes final) (h' : MtfTrace l bytes' codes final') :
    bytes = bytes' := by
  induction h generalizing bytes' with
  | nil => cases h'; rfl
  | cons hplace _ ih =>
    obtain _ | ⟨hplace', hrest'⟩ := h'
    obtain rfl := Option.some.inj (hplace.symm.trans hplace')
    rw [ih hrest']

/-- The bytes determine the codes: in a list without repetitions a byte has one place. -/
theorem codes_unique {codes' final' : List Nat} (hl : l.Nodup) (h : MtfTrace l bytes codes final)
    (h' : MtfTrace l bytes codes' final') : codes = codes' := by
  induction h generalizing codes' with
  | nil => cases h'; rfl
  | cons hplace _ ih =>
    obtain _ | ⟨hplace', hrest'⟩ := h'
    have hsame := (List.getElem?_inj (List.getElem?_eq_some_iff.mp hplace).1 hl).mp (hplace.trans hplace'.symm)
    rw [hsame, ih ((cons_erase_perm hplace).nodup_iff.mpr hl) hrest']

end MtfTrace

/-! ### The list of each step -/

/-- The list before step `i` of a run over `bytes` from `l`: each byte before `i` has gone to the front. -/
def recencyList (l bytes : List Nat) (i : Nat) : List Nat := (bytes.take i).foldl (fun l b => b :: l.erase b) l

@[simp] theorem recencyList_zero (l bytes : List Nat) : recencyList l bytes 0 = l := rfl

theorem recencyList_succ (l : List Nat) {i : Nat} (hi : i < bytes.length) :
    recencyList l bytes (i + 1) = bytes.getD i 0 :: (recencyList l bytes i).erase (bytes.getD i 0) := by
  rw [recencyList, List.take_succ_eq_append_getElem hi, List.foldl_append, List.getD_eq_getElem _ _ hi]
  rfl

namespace MtfTrace

theorem recencyList_perm (h : MtfTrace l bytes codes final) (i : Nat) : (recencyList l bytes i).Perm l := by
  induction h generalizing i with
  | nil => rw [recencyList, List.take_nil]; exact .refl _
  | cons hplace _ ih =>
    cases i with
    | zero => exact .refl _
    | succ i => exact (ih i).trans (cons_erase_perm hplace)

/-- The byte of step `i` is at the place of its code. -/
theorem place_recencyList (h : MtfTrace l bytes codes final) {i : Nat} (hi : i < bytes.length) :
    (recencyList l bytes i)[codes.getD i 0]? = some (bytes.getD i 0) := by
  induction h generalizing i with
  | nil => exact absurd hi (Nat.not_lt_zero i)
  | cons hplace _ ih =>
    cases i with
    | zero => exact hplace
    | succ i => exact ih (Nat.lt_of_succ_lt_succ hi)

theorem recencyList_final (h : MtfTrace l bytes codes final) : recencyList l bytes bytes.length = final := by
  induction h with
  | nil => rfl
  | cons _ _ ih => exact ih

end MtfTrace

end Lists

end Sys2Proof.Machine
end

section
/-! PROOFS. `MTFE` and `MTFD` in the machine (R136, R137): what they leave in `SYM`, `XF` and `MTFL`. Settles O26 and O27. -/

namespace Sys2Proof.Machine

/-- The elements of a space below `n`, as the host reads them. -/
def State.elemsBelow (s : State) (sp : Space) (n : Nat) : List Nat := (List.range n).map (s.elem sp)

theorem State.elemsBelow_getD (s : State) (sp : Space) {n k : Nat} (hk : k < n) : (s.elemsBelow sp n).getD k 0 = s.elem sp k :=
  getD_map_elem s sp hk

theorem State.elemsBelow_length (s : State) (sp : Space) (n : Nat) : (s.elemsBelow sp n).length = n := by simp [State.elemsBelow]

theorem State.elemsBelow_eq_iff {s t : State} {sp : Space} {n : Nat} :
    s.elemsBelow sp n = t.elemsBelow sp n ↔ ∀ k < n, s.elem sp k = t.elem sp k := by
  simp only [State.elemsBelow, List.map_inj_left, List.mem_range]

/-- The bytes `MTFE` reads. -/
theorem fetchPrefix_xf (s : State) (n : Nat) : fetchPrefix .xf s.powerUp s.bufs.xf n = s.elemsBelow .xf n :=
  List.map_congr_left fun _ _ => (reg64_bitVec_toNat (by decide) _).symm

/-- The codes `MTFD` reads. -/
theorem fetchPrefix_sym (s : State) (n : Nat) : fetchPrefix .sym s.powerUp s.bufs.sym n = s.elemsBelow .sym n :=
  List.map_congr_left fun _ _ => (reg64_bitVec_toNat (by decide) _).symm

theorem State.elemsBelow_xf_lt (s : State) (n : Nat) : ∀ b ∈ s.elemsBelow .xf n, b < Config.nsym := by
  rw [← fetchPrefix_xf]
  exact fetchPrefix_lt_nsym _ _ _ _

theorem State.elemsBelow_sym_lt (s : State) (n : Nat) : ∀ p ∈ s.elemsBelow .sym n, p < Config.nsym := by
  rw [← fetchPrefix_sym]
  exact fetchPrefix_lt_nsym _ _ _ _

/-- A stored list of bytes is what the host reads. -/
theorem State.elemsBelow_of_stored {t : State} {sp : Space} (hsp : sp ≠ .qcount) {vs : List Nat} (m : Memory 8) {n : Nat}
    (hlen : vs.length = n) (hbytes : ∀ v ∈ vs, v < Config.nsym)
    (hstored : ∀ k, t.holds sp k = ((storeFrom sp 0 vs m).peek (unlisted sp 8) k).map BitVec.toNat) :
    t.elemsBelow sp n = vs := by
  rw [← map_getD_range vs, hlen]
  refine List.map_congr_left fun k hk => elem_of_holds ?_
  have hk : k < vs.length := hlen ▸ List.mem_range.mp hk
  rw [hstored, map_peek_storeFrom hsp vs m hk (hbytes _ (getD_mem hk))]

/-- A stored MTF list, whatever its order, is what the host reads (R135). -/
theorem State.elemsBelow_of_stored_mtfl {t : State} {l : List Nat} {m : Memory 8} (hl : l.Perm mtfIdentity)
    (hstored : ∀ k, t.holds .mtfl k = ((storeFrom .mtfl 0 l m).peek (unlisted .mtfl 8) k).map BitVec.toNat) :
    t.elemsBelow .mtfl Config.nsym = l :=
  State.elemsBelow_of_stored (by decide) m (length_of_perm_mtfIdentity hl) (fun _ => (mem_iff_of_perm_mtfIdentity hl).mp) hstored

/-! ### The commands -/

/-- The machine with a list of codes and an MTF list stored, as `MTFE` leaves it. -/
def State.withCodes (s : State) (coded : List Nat × List Nat) : State :=
  s.withBufs { s.bufs with sym := storeFrom .sym 0 coded.1 s.bufs.sym, mtfl := storeFrom .mtfl 0 coded.2 s.bufs.mtfl }

/-- The machine with a list of bytes and an MTF list stored, as `MTFD` leaves it. -/
def State.withBytes (s : State) (decoded : List Nat × List Nat) : State :=
  s.withBufs { s.bufs with xf := storeFrom .xf 0 decoded.1 s.bufs.xf, mtfl := storeFrom .mtfl 0 decoded.2 s.bufs.mtfl }

theorem mtfeBody_of_length {s : State} (hn : s.n.toNat ≤ s.cfgNmax.toNat) :
    mtfeBody s = .ok (s.withCodes (mtfEncode mtfIdentity (s.elemsBelow .xf s.n.toNat))) := by
  simp only [mtfeBody, (checkLength_ok_iff s s.n.toNat).mpr hn, Run.ok_bind, fetchPrefix_xf]
  rfl

theorem mtfdBody_of_length {s : State} (hn : s.n.toNat ≤ s.cfgNmax.toNat) :
    mtfdBody s = .ok (s.withBytes (mtfDecode mtfIdentity (s.elemsBelow .sym s.n.toNat))) := by
  simp only [mtfdBody, (checkLength_ok_iff s s.n.toNat).mpr hn, Run.ok_bind, fetchPrefix_sym]
  rfl

/-- `MTFE` completes, and the codes it leaves are those of the bytes it found (R136). -/
theorem exec_mtfe_completes {s : State} (hg : s.good) (hn : s.n.toNat ≤ s.cfgNmax.toNat) :
    ∃ t, exec .mtfe s = .next t ∧ completedFrom s t ∧
      MtfTrace mtfIdentity (s.elemsBelow .xf s.n.toNat) (t.elemsBelow .sym s.n.toNat) (t.elemsBelow .mtfl Config.nsym) := by
  have htrace := mtfEncode_trace (.refl _) (s.elemsBelow_xf_lt s.n.toNat)
  have hcodes : ∀ p ∈ (mtfEncode mtfIdentity (s.elemsBelow .xf s.n.toNat)).1, p < Config.nsym := fun p hp =>
    (htrace.codes_lt p hp).trans_eq List.length_range
  refine ⟨_, runCommand_of_ok mtfeBody s _ hg (mtfeBody_of_length (s := s.startCommand) hn),
    State.sameRecord.complete ⟨rfl, rfl, rfl, rfl⟩ hg, ?_⟩
  rwa [State.elemsBelow_of_stored (sp := .sym) (by decide) s.bufs.sym
      (htrace.length_eq.symm.trans (s.elemsBelow_length ..)) hcodes fun _ => rfl,
    State.elemsBelow_of_stored_mtfl (m := s.bufs.mtfl) htrace.final_perm fun _ => rfl]

/-- `MTFD` completes, and the bytes it leaves are those of the codes it found (R137). -/
theorem exec_mtfd_completes {s : State} (hg : s.good) (hn : s.n.toNat ≤ s.cfgNmax.toNat) :
    ∃ t, exec .mtfd s = .next t ∧ completedFrom s t ∧
      MtfTrace mtfIdentity (t.elemsBelow .xf s.n.toNat) (s.elemsBelow .sym s.n.toNat) (t.elemsBelow .mtfl Config.nsym) := by
  have htrace := mtfDecode_trace (.refl _) (s.elemsBelow_sym_lt s.n.toNat)
  have hbytes : ∀ b ∈ (mtfDecode mtfIdentity (s.elemsBelow .sym s.n.toNat)).1, b < Config.nsym := fun b hb =>
    List.mem_range.mp (htrace.bytes_mem b hb)
  refine ⟨_, runCommand_of_ok mtfdBody s _ hg (mtfdBody_of_length (s := s.startCommand) hn),
    State.sameRecord.complete ⟨rfl, rfl, rfl, rfl⟩ hg, ?_⟩
  rwa [State.elemsBelow_of_stored (sp := .xf) (by decide) s.bufs.xf
      (htrace.length_eq.trans (s.elemsBelow_length ..)) hbytes fun _ => rfl,
    State.elemsBelow_of_stored_mtfl (m := s.bufs.mtfl) htrace.final_perm fun _ => rfl]

/-- The lists of a run over `n` steps, in the terms the host reads the bytes, the codes and the last list in. -/
theorem MtfTrace.exists_lists {s t u : State} {n : Nat}
    (h : MtfTrace mtfIdentity (s.elemsBelow .xf n) (t.elemsBelow .sym n) (u.elemsBelow .mtfl Config.nsym)) :
    ∃ l : Nat → List Nat, l 0 = List.range 256 ∧ (∀ i ≤ n, (l i).Perm (List.range 256)) ∧
      (∀ i < n, (l i)[t.elem .sym i]? = some (s.elem .xf i) ∧ l (i + 1) = s.elem .xf i :: (l i).erase (s.elem .xf i)) ∧
      ∀ k < 256, (l n)[k]? = some (u.elem .mtfl k) := by
  have hlen := s.elemsBelow_length .xf n
  refine ⟨recencyList mtfIdentity (s.elemsBelow .xf n), recencyList_zero _ _, fun i _ => h.recencyList_perm i,
    fun i hi => ⟨?_, ?_⟩, fun k hk => ?_⟩
  · rw [← s.elemsBelow_getD .xf hi, ← t.elemsBelow_getD .sym hi]
    exact h.place_recencyList (hlen.symm ▸ hi)
  · rw [← s.elemsBelow_getD .xf hi]
    exact recencyList_succ _ (hlen.symm ▸ hi)
  · have hfinal := h.recencyList_final
    rw [hlen] at hfinal
    rw [hfinal, ← u.elemsBelow_getD .mtfl (n := Config.nsym) hk, List.getD_eq_getElem _ _ (by rwa [u.elemsBelow_length]),
      List.getElem?_eq_getElem]

end Sys2Proof.Machine

open Sys2Proof Sys2Proof.Machine

/-- Settles O26: either command leaves a run of move to front from the identity. -/
theorem mtfCodesPlacesInTheRecencyList : Obligations.MtfCodesPlacesInTheRecencyList := by
  intro s hg hn
  obtain ⟨t, ht, hdone, htrace⟩ := exec_mtfe_completes hg hn
  obtain ⟨u, hu, hdone', htrace'⟩ := exec_mtfd_completes hg hn
  exact ⟨⟨t, ht, hdone, htrace.exists_lists⟩, ⟨u, hu, hdone', htrace'.exists_lists⟩⟩

/-- Settles O27: of two runs from the identity, equal codes mean equal bytes, and equal bytes mean equal codes. -/
theorem mtfIsInvertibleBothWays : Obligations.MtfIsInvertibleBothWays := by
  intro s hg hn
  refine ⟨?_, ?_⟩
  · obtain ⟨t, ht, hdone, htrace⟩ := exec_mtfe_completes hg hn
    refine ⟨t, ht, hdone, fun t' hg' hnmax hn' hsym => ?_⟩
    obtain ⟨u, hu, hdone', htrace'⟩ := exec_mtfd_completes hg' (by rwa [hn', hnmax])
    rw [hn', State.elemsBelow_eq_iff.mpr hsym] at htrace'
    exact ⟨u, hu, hdone', State.elemsBelow_eq_iff.mp (htrace'.bytes_unique htrace)⟩
  · obtain ⟨t, ht, hdone, htrace⟩ := exec_mtfd_completes hg hn
    refine ⟨t, ht, hdone, fun t' hg' hnmax hn' hxf => ?_⟩
    obtain ⟨u, hu, hdone', htrace'⟩ := exec_mtfe_completes hg' (by rwa [hn', hnmax])
    rw [hn', State.elemsBelow_eq_iff.mpr hxf] at htrace'
    exact ⟨u, hu, hdone', State.elemsBelow_eq_iff.mp (htrace'.codes_unique List.nodup_range htrace)⟩
end

section
/-! PROOFS. The entry checks of the coder commands (R150, R156, R251), and the constructors `RCEI` and `RCDI` (R155, R168).
Settles O19, O28 and O29. -/

namespace Sys2Proof.Machine

variable {s : State} {c : Coder} {port : TextPort} {m : RcMode} {tmax lo hi den : Nat}

/-! ### Faults before any other effect -/

/-- A command whose pseudocode raises a fault before its first assignment changes only the fault registers and the flags. -/
theorem exec_of_raise_at_entry {i : Instr} {code : FaultCode} {info : Nat} (hi : i ≠ .reset) (hg : s.good)
    (h : commandBody i s.startCommand = raise code info s.startCommand) :
    exec i s = .next { s with
      fault := code, finfo := reg64 info,
      status := { busy := false, done := false, faulted := true, rcmode := s.status.rcmode } } := by
  rw [exec_of_ne_reset i s hi, runCommand_of_raised _ s _ _ _ hg h]
  rfl

theorem checkMode_of_ne (h : s.status.rcmode ≠ m) : checkMode s m = raise .rcMode (modeNumber s.status.rcmode) s :=
  if_neg h

theorem checkMode_of_eq (h : s.status.rcmode = m) : checkMode s m = .ok () := if_pos h

/-- The coder commands of Encoding mode check the mode first (R150). -/
theorem encoder_body_of_wrong_mode {i : Instr} (hi : i = .rcenc ∨ i = .hdre ∨ i = .syme) (h : s.status.rcmode ≠ .encoding) :
    commandBody i s = raise .rcMode (modeNumber s.status.rcmode) s := by
  rcases hi with rfl | rfl | rfl
  · simp only [commandBody, rcencBody, encodeInterval, checkMode_of_ne h, raise, Run.error_bind]
  · simp only [commandBody, hdreBody, checkMode_of_ne h, raise, Run.error_bind]
  · simp only [commandBody, symeBody, checkMode_of_ne h, raise, Run.error_bind]

/-- The coder commands of Decoding mode check the mode first (R150). -/
theorem decoder_body_of_wrong_mode {i : Instr} (hi : i = .rcdec ∨ i = .rcscl ∨ i = .hdrd ∨ i = .symd)
    (h : s.status.rcmode ≠ .decoding) : commandBody i s = raise .rcMode (modeNumber s.status.rcmode) s := by
  rcases hi with rfl | rfl | rfl | rfl
  · simp only [commandBody, rcdecBody, decodeValueOf, checkMode_of_ne h, raise, Run.error_bind]
  · simp only [commandBody, rcsclBody, scaleInterval, checkMode_of_ne h, raise, Run.error_bind]
  · simp only [commandBody, hdrdBody, checkMode_of_ne h, raise, Run.error_bind]
  · simp only [commandBody, symdBody, checkMode_of_ne h, raise, Run.error_bind]

theorem rcfinBody_of_idle (h : s.status.rcmode = .idle) : rcfinBody s = raise .rcMode (modeNumber s.status.rcmode) s := by
  rw [rcfinBody, h]
  rfl

theorem encode64_of_illegal (h : legalInterval lo hi den = false) : encode64 tmax lo hi den c = raise .rcInterval 0 c := by
  rw [encode64, h]
  rfl

theorem scale64_of_illegal (h : legalInterval lo hi den = false) : scale64 port lo hi den c = raise .rcInterval 0 c := by
  rw [scale64, h]
  rfl

theorem decode64_of_illegal (h : legalDenom den = false) : decode64 port den c = raise .rcInterval 0 c := by
  rw [decode64, h]
  rfl

theorem rcencBody_of_illegal (hmode : s.status.rcmode = .encoding)
    (h : legalInterval s.arg0.toNat s.arg1.toNat s.arg2.toNat = false) : rcencBody s = raise .rcInterval 0 s := by
  rw [rcencBody, encodeInterval, checkMode_of_eq hmode, Run.ok_bind, encode64_of_illegal h]
  rfl

theorem rcsclBody_of_illegal (hmode : s.status.rcmode = .decoding)
    (h : legalInterval s.arg0.toNat s.arg1.toNat s.arg2.toNat = false) : rcsclBody s = raise .rcInterval 0 s := by
  rw [rcsclBody, scaleInterval, checkMode_of_eq hmode, Run.ok_bind, scale64_of_illegal h]
  rfl

theorem rcdecBody_of_illegal (hmode : s.status.rcmode = .decoding) (h : legalDenom s.arg2.toNat = false) :
    rcdecBody s = raise .rcInterval 0 s := by
  rw [rcdecBody, decodeValueOf, checkMode_of_eq hmode, Run.ok_bind, decode64_of_illegal h]
  rfl

/-! ### The constructors -/

/-- Over an empty list every slot of `QCOUNT` reads 0 (R280, assumption 4). -/
theorem elem_qcount_of_nil (h : s.coder.qcount = []) (slot : Nat) : s.elem .qcount slot = 0 := by
  rw [State.elem, readElem, h]
  rfl

theorem rcdiBody_of_room (h : s.coder.tlen.toNat ≤ s.cfgTmax.toNat) :
    rcdiBody s =
      .ok ((s.withCoder { Coder.atReset s.coder.text with range := 1, tlen := s.coder.tlen }).withMode .decoding) :=
  if_neg (by omega)

theorem rcdiBody_of_tlen (h : s.cfgTmax.toNat < s.coder.tlen.toNat) : rcdiBody s = raise .badLength s.coder.tlen.toNat s :=
  if_pos h

end Sys2Proof.Machine

open Sys2Proof Sys2Proof.Machine

/-- Settles O19: the mode check comes first in every coder command, the interval check second. -/
theorem wrongModeThenIllegalIntervalFaultsAtEntry : Obligations.WrongModeThenIllegalIntervalFaultsAtEntry := by
  refine ⟨fun i s hg hmode => ?_, fun i s hg hargs => ?_⟩
  · rcases hmode with ⟨hi, hmode⟩ | ⟨hi, hmode⟩ | ⟨rfl, hmode⟩
    · exact exec_of_raise_at_entry (by rintro rfl; simp at hi) hg (encoder_body_of_wrong_mode hi hmode)
    · exact exec_of_raise_at_entry (by rintro rfl; simp at hi) hg (decoder_body_of_wrong_mode hi hmode)
    · exact exec_of_raise_at_entry (by decide) hg (rcfinBody_of_idle hmode)
  · rcases hargs with ⟨⟨rfl, hmode⟩ | ⟨rfl, hmode⟩, hint⟩ | ⟨rfl, hmode, hden⟩
    · rw [← legalInterval_iff, Bool.not_eq_true] at hint
      exact exec_of_raise_at_entry (by decide) hg (rcencBody_of_illegal hmode hint)
    · rw [← legalInterval_iff, Bool.not_eq_true] at hint
      exact exec_of_raise_at_entry (by decide) hg (rcsclBody_of_illegal hmode hint)
    · rw [← legalDenom_iff, Bool.not_eq_true] at hden
      exact exec_of_raise_at_entry (by decide) hg (rcdecBody_of_illegal hmode hden)

/-- Settles O28: `RCEI` checks nothing and builds its coder anew but for the text. -/
theorem encoderConstruction : Obligations.EncoderConstruction := fun s hg =>
  ⟨_, runCommand_of_ok rceiBody s _ hg rfl, State.sameRecord.complete ⟨rfl, rfl, rfl, rfl⟩ hg, rfl, rfl, rfl,
    elem_qcount_of_nil rfl, rfl, rfl, rfl, rfl, rfl, rfl, rfl, rfl, rfl, rfl⟩

/-- Settles O29: `RCDI` checks `TLEN` and builds its coder anew but for `TLEN` and the text. -/
theorem decoderConstruction : Obligations.DecoderConstruction := by
  refine fun s hg => ⟨fun hlen => ?_, fun hroom => ?_⟩
  · rw [exec_of_raise_at_entry (i := .rcdi) (by decide) hg (rcdiBody_of_tlen (s := s.startCommand) hlen), State.startCommand_coder,
      reg64_of_toNat]
  · exact ⟨_, runCommand_of_ok rcdiBody s _ hg (rcdiBody_of_room (s := s.startCommand) hroom),
      State.sameRecord.complete ⟨rfl, rfl, rfl, rfl⟩ hg, rfl, rfl, rfl, elem_qcount_of_nil rfl, rfl, rfl, rfl, rfl, rfl, rfl,
      rfl, rfl, rfl, rfl⟩
end

section
/-! PROOFS. Bit strings as binary numbers (R159, R163), the alphabet (R167), and the serialiser (R166): what it writes, in bits, and
how much room it takes. Settles O33 and O34. -/

namespace Sys2Proof.Machine

variable {port : TextPort} {tmax : Nat} {b : Bool} {bits : List Bool} {c d e : Coder}

/-! ### Bit strings as binary numbers -/

@[simp] theorem bitsValue_nil : bitsValue [] = 0 := rfl

theorem bitsValue_concat (bits : List Bool) (b : Bool) : bitsValue (bits ++ [b]) = 2 * bitsValue bits + b.toNat := by
  simp [bitsValue]

theorem bitsValue_append (xs ys : List Bool) : bitsValue (xs ++ ys) = bitsValue xs * 2 ^ ys.length + bitsValue ys := by
  induction ys using List.reverseRecOn with
  | nil => simp
  | append_singleton ys y ih =>
    rw [← List.append_assoc, bitsValue_concat, bitsValue_concat, ih, List.length_append, List.length_singleton]
    ring

theorem bitsValue_lt (bits : List Bool) : bitsValue bits < 2 ^ bits.length := by
  induction bits using List.reverseRecOn with
  | nil => simp
  | append_singleton bits b ih =>
    have hb := Bool.toNat_le b
    rw [bitsValue_concat, List.length_append, List.length_singleton, Nat.pow_succ]
    omega

/-- A last 0-bit turned into a 1, and the 1-bits after it into 0-bits, add one (R163). -/
theorem bitsValue_carry (front : List Bool) (n : Nat) :
    bitsValue (front ++ true :: List.replicate n false) = bitsValue (front ++ false :: List.replicate n true) + 1 := by
  have hones (n : Nat) : bitsValue (true :: List.replicate n false) = bitsValue (false :: List.replicate n true) + 1 := by
    induction n with
    | zero => rfl
    | succ n ih =>
      rw [List.replicate_succ', List.replicate_succ', ← List.cons_append, ← List.cons_append, bitsValue_concat,
        bitsValue_concat, ih]
      simp only [Bool.toNat_false, Bool.toNat_true]
      omega
  simp only [bitsValue_append, hones, List.length_cons, List.length_replicate]
  omega

/-! ### The alphabet -/

theorem alphabetValue_alphabetByte : ∀ v : BitVec 6, alphabetValue (alphabetByte v) = some v := by decide

theorem alphabetByte_of_alphabetValue : ∀ b : Byte, ∀ v ∈ alphabetValue b, b = alphabetByte v := by decide

theorem alphabetValue_eq_some_iff (b : Byte) (v : BitVec 6) : alphabetValue b = some v ↔ b = alphabetByte v :=
  ⟨alphabetByte_of_alphabetValue b v, fun h => h ▸ alphabetValue_alphabetByte v⟩

theorem alphabetValue_newline : alphabetValue newline = none := by decide

/-! ### Elements of the text -/

/-- The element stored holds the byte, in any list. -/
theorem fetch_store_text_same (powerUp i : Nat) (v : Byte) (m : Memory 8) : fetch .text powerUp (store .text i v m) i = v := by
  rw [fetch, store, Memory.peek_put_same_of_ne _ _ _ _ (by simp [unlisted]), Option.getD_some]

/-- The bits a byte of the text stands for: six for an alphabet byte, none for any other (R169). -/
def byteBits (v : Byte) : List Bool := (alphabetValue v).elim [] charBits

theorem Coder.textBits_self (c : Coder) (i : Nat) : c.textBits port i i = [] := by simp [Coder.textBits, textChars]

theorem textChars_succ (port : TextPort) (c : Coder) (i len : Nat) :
    textChars port c i (len + 1) =
      textChars port c i len ++ (alphabetValue (fetch .text port.powerUp c.text (i + len))).toList := by
  rw [textChars, List.range_succ, List.filterMap_append, ← textChars]
  cases h : alphabetValue (fetch .text port.powerUp c.text (i + len)) <;> simp [h]

theorem Coder.textBits_succ (c : Coder) {i j : Nat} (h : i ≤ j) :
    c.textBits port i (j + 1) = c.textBits port i j ++ byteBits (fetch .text port.powerUp c.text j) := by
  rw [Coder.textBits, show j + 1 - i = j - i + 1 by omega, textChars_succ, List.flatMap_append, ← Coder.textBits,
    Nat.add_sub_cancel' h, byteBits]
  cases alphabetValue (fetch .text port.powerUp c.text j) <;> simp

theorem textChars_congr {i len : Nat}
    (h : ∀ k, i ≤ k → k < i + len → fetch .text port.powerUp d.text k = fetch .text port.powerUp c.text k) :
    textChars port d i len = textChars port c i len := by
  refine List.filterMap_congr fun k hk => ?_
  have hk := List.mem_range.mp hk
  rw [h (i + k) (by omega) (by omega)]

theorem Coder.textBits_congr {i j : Nat}
    (h : ∀ k < j, fetch .text port.powerUp d.text k = fetch .text port.powerUp c.text k) :
    d.textBits port i j = c.textBits port i j := by
  rw [Coder.textBits, textChars_congr fun k _ hk => h k (by omega), ← Coder.textBits]

/-! ### The steps of `out_bit` (R166) -/

/-- A bit shifted into the unfinished character. -/
def Coder.shifted (b : Bool) (c : Coder) : Coder :=
  { c with oacc := reg64 (2 * c.oacc.toNat + b.toNat), ocnt := c.ocnt + 1 }

/-- A byte stored at the cursor. -/
def Coder.withByte (v : Byte) (c : Coder) : Coder :=
  { c with text := store .text c.tlen.toNat v c.text, tlen := c.tlen + 1 }

/-- The finished character stored and counted. -/
def Coder.withChar (c : Coder) : Coder :=
  { c.withByte (alphabetByte (BitVec.ofNat 6 c.oacc.toNat)) with ochars := c.ochars + 1, oacc := 0, ocnt := 0 }

@[simp] theorem Coder.shifted_tlen (b : Bool) (c : Coder) : (c.shifted b).tlen = c.tlen := rfl

@[simp] theorem Coder.shifted_ochars (b : Bool) (c : Coder) : (c.shifted b).ochars = c.ochars := rfl

@[simp] theorem Coder.withByte_ochars (v : Byte) (c : Coder) : (c.withByte v).ochars = c.ochars := rfl

/-- `OCHARS` counts the character, and wraps after `2^64 - 1` (R21). -/
theorem Coder.withChar_ochars_cases (c : Coder) :
    c.withChar.ochars.toNat = c.ochars.toNat + 1 ∨ c.withChar.ochars.toNat = 0 ∧ c.ochars.toNat = 2 ^ 64 - 1 := by
  have h : c.withChar.ochars.toNat = (c.ochars.toNat + 1) % 2 ^ 64 := BitVec.toNat_add c.ochars 1
  omega

@[simp] theorem Coder.withByte_ocnt (v : Byte) (c : Coder) : (c.withByte v).ocnt = c.ocnt := rfl

@[simp] theorem Coder.withChar_ocnt (c : Coder) : c.withChar.ocnt = 0 := rfl

theorem putByte_of_room (v : Byte) (h : c.tlen.toNat < tmax) : putByte tmax v c = .ok (c.withByte v) := if_neg (by omega)

theorem putByte_of_full (v : Byte) (h : tmax ≤ c.tlen.toNat) :
    putByte tmax v c = .error (.raised .textOverflow c.tlen c) := by
  rw [putByte, if_pos h, raise, reg64_of_toNat]

theorem putChar_of_full (h : tmax ≤ c.tlen.toNat) : putChar tmax c = .error (.raised .textOverflow c.tlen c) := by
  rw [putChar, putByte_of_full _ h, Run.error_bind]

theorem putChar_of_room (h : c.tlen.toNat < tmax) :
    putChar tmax c = if c.withChar.ochars.toNat % 80 = 0 then putByte tmax newline c.withChar else .ok c.withChar := by
  rw [putChar, putByte_of_room _ h]
  rfl

theorem outBit_of_lt (h : c.ocnt.toNat < 5) : outBit tmax b c = .ok (c.shifted b) := by
  have hne : c.ocnt + 1 ≠ 6 := fun h6 => by
    have := congrArg BitVec.toNat h6
    simp at this
    omega
  exact if_neg hne

theorem Coder.shifted_ocnt_of_five (h : c.ocnt.toNat = 5) : (c.shifted b).ocnt = 6 := by
  rw [Coder.shifted, show c.ocnt = 5 from BitVec.eq_of_toNat_eq h]
  rfl

theorem outBit_of_five (h : c.ocnt.toNat = 5) : outBit tmax b c = putChar tmax (c.shifted b) :=
  if_pos (Coder.shifted_ocnt_of_five h)

theorem Coder.shifted_oacc_toNat (h : c.serialOk) : (c.shifted b).oacc.toNat = 2 * c.oacc.toNat + b.toNat := by
  obtain ⟨hcnt, hacc⟩ := h
  have hpow : 2 ^ c.ocnt.toNat ≤ 2 ^ 5 := Nat.pow_le_pow_right (by omega) hcnt
  have hb := Bool.toNat_le b
  exact reg64_toNat _ (by omega)

theorem Coder.shifted_ocnt_toNat (h : c.serialOk) : (c.shifted b).ocnt.toNat = c.ocnt.toNat + 1 := by
  have hcnt := h.1
  show (c.ocnt + 1).toNat = _
  bv_omega

/-! ### What is handed to the serialiser, as bits -/

/-- The low `n` bits of a number, most significant first. -/
theorem lowBits_succ (x n : Nat) (b : Bool) :
    (List.range (n + 1)).map (fun k => (2 * x + b.toNat).testBit (n + 1 - 1 - k)) =
      (List.range n).map (fun k => x.testBit (n - 1 - k)) ++ [b] := by
  rw [List.range_succ, List.map_append, List.map_singleton]
  congr 1
  · refine List.map_congr_left fun k hk => ?_
    have hk := List.mem_range.mp hk
    rw [show n + 1 - 1 - k = n - 1 - k + 1 by omega, Nat.testBit_succ, show (2 * x + b.toNat) / 2 = x by
      have := Bool.toNat_le b
      omega]
  · cases b <;> simp

theorem Coder.partialBits_eq (c : Coder) :
    c.partialBits = (List.range c.ocnt.toNat).map fun k => c.oacc.toNat.testBit (c.ocnt.toNat - 1 - k) := rfl

theorem Coder.partialBits_shifted (h : c.serialOk) : (c.shifted b).partialBits = c.partialBits ++ [b] := by
  rw [Coder.partialBits_eq, Coder.partialBits_eq, Coder.shifted_ocnt_toNat h, Coder.shifted_oacc_toNat h, lowBits_succ]

theorem Coder.partialBits_of_ocnt_zero (h : c.ocnt.toNat = 0) : c.partialBits = [] := by
  rw [Coder.partialBits, h]
  rfl

/-- Six bits in: they are those of the character. -/
theorem Coder.charBits_oacc (h : c.ocnt = 6) : charBits (BitVec.ofNat 6 c.oacc.toNat) = c.partialBits := by
  rw [charBits, Coder.partialBits_eq, h]
  refine List.map_congr_left fun k hk => ?_
  simp only [BitVec.getLsbD_ofNat, decide_eq_true (show 5 - k < 6 by omega), Bool.true_and]
  rfl

/-- Every bit handed to the serialiser since the cursor stood at `i`: those of the characters stored from there on, then those of
the unfinished one. -/
def Coder.output (port : TextPort) (i : Nat) (c : Coder) : List Bool := c.textBits port i c.tlen.toNat ++ c.partialBits

theorem Coder.output_self (c : Coder) : c.output port c.tlen.toNat = c.partialBits := by
  rw [Coder.output, Coder.textBits_self, List.nil_append]

theorem Coder.output_congr {i : Nat} (htlen : d.tlen = c.tlen) (htext : d.text = c.text) (hacc : d.oacc = c.oacc)
    (hcnt : d.ocnt = c.ocnt) : d.output port i = c.output port i := by
  simp only [Coder.output, Coder.textBits, textChars, Coder.partialBits, htlen, htext, hacc, hcnt]

/-- How far `TEXT` is filled, in parts of 480 to the byte. A bit is worth 82: a sixth of a character, 80; a newline after 80
characters of six bits, 1 more; and 1 more for the wrap of `OCHARS` at 2^64, where a newline may follow earlier than that. -/
def Coder.fill (c : Coder) : Nat :=
  480 * c.tlen.toNat + 82 * c.ocnt.toNat + 6 * (c.ochars.toNat % 80) + 6 * min c.ochars.toNat 64

theorem Coder.le_fill (c : Coder) : 480 * c.tlen.toNat ≤ c.fill := by
  unfold Coder.fill
  omega

theorem Coder.fill_le (h : c.serialOk) : c.fill ≤ 480 * c.tlen.toNat + 1268 := by
  have := h.1
  unfold Coder.fill
  omega

/-- From `c` to `d` the serialiser was handed `bits`. -/
structure Coder.emits (port : TextPort) (bits : List Bool) (c d : Coder) : Prop where
  tlen : c.tlen.toNat ≤ d.tlen.toNat
  output : ∀ i ≤ c.tlen.toNat, d.output port i = c.output port i ++ bits
  ocnt : d.ocnt.toNat = (c.ocnt.toNat + bits.length) % 6
  oacc : d.oacc.toNat < 2 ^ d.ocnt.toNat
  fill : d.fill ≤ c.fill + 82 * bits.length

theorem Coder.emits.refl (h : c.serialOk) : c.emits port [] c where
  tlen := le_rfl
  output _ _ := (List.append_nil _).symm
  ocnt := (Nat.mod_eq_of_lt (Nat.lt_succ_of_le h.1)).symm
  oacc := h.2
  fill := le_rfl

theorem Coder.emits.trans {bits' : List Bool} (h : c.emits port bits d) (h' : d.emits port bits' e) :
    c.emits port (bits ++ bits') e where
  tlen := h.tlen.trans h'.tlen
  output i hi := by rw [h'.output i (hi.trans h.tlen), h.output i hi, List.append_assoc]
  ocnt := by
    rw [h'.ocnt, h.ocnt, List.length_append]
    omega
  oacc := h'.oacc
  fill := by
    have := h.fill
    have := h'.fill
    rw [List.length_append]
    omega

theorem Coder.emits.serialOk (h : c.emits port bits d) : d.serialOk :=
  ⟨by rw [h.ocnt]; omega, h.oacc⟩

/-- An operation that leaves the serialiser and the text alone may come after. -/
theorem Coder.emits.congr (h : c.emits port bits d) (htlen : e.tlen = d.tlen) (htext : e.text = d.text) (hacc : e.oacc = d.oacc)
    (hcnt : e.ocnt = d.ocnt) (hchars : e.ochars = d.ochars) : c.emits port bits e where
  tlen := htlen ▸ h.tlen
  output i hi := by rw [Coder.output_congr htlen htext hacc hcnt, h.output i hi]
  ocnt := hcnt ▸ h.ocnt
  oacc := by rw [hacc, hcnt]; exact h.oacc
  fill := by rw [Coder.fill, htlen, hcnt, hchars]; exact h.fill

/-! ### Runs that only a full text ends -/

/-- A run ends by its last line, with `P` of what it yields, or by `TEXT_OVERFLOW`, and the latter only under `full`. -/
def Run.unlessFull {σ α : Type} (full : Prop) (P : α → Prop) : Run σ α → Prop
  | .ok a => P a
  | .error (.raised code _ _) => full ∧ code = .textOverflow
  | .error (.stuck _) => False
  | .error (.refused _) => False

section Ends

variable {σ α β : Type} {full full' : Prop} {P Q : α → Prop} {x : Run σ α}

theorem Run.unlessFull_mono (hx : x.unlessFull full P) (hfull : full → full') (hP : ∀ a, P a → Q a) : x.unlessFull full' Q := by
  rcases x with e | a
  · cases e with
    | raised code info s => exact ⟨hfull hx.1, hx.2⟩
    | stuck => exact hx
    | refused => exact hx
  · exact hP a hx

theorem Run.unlessFull_bind {f : α → Run σ β} {R : β → Prop} (hx : x.unlessFull full P)
    (hf : ∀ a, P a → (f a).unlessFull full R) : (x >>= f).unlessFull full R := by
  rcases x with e | a
  · cases e <;> exact hx
  · exact hf a hx

/-- Such a run together with a frame that holds wherever it ends. -/
theorem Run.unlessFull_and_leaves {P R : σ → Prop} {x : Run σ σ} (hx : x.unlessFull full P) (hR : Run.leaves id R x) :
    x.unlessFull full fun a => P a ∧ R a := by
  rcases x with e | a
  · cases e <;> exact hx
  · exact ⟨hx, hR⟩

theorem Run.unlessFull_ok {a : α} (hx : x.unlessFull full P) (h : x = .ok a) : P a := by
  subst h
  exact hx

theorem Run.unlessFull_completes (hx : x.unlessFull full P) (h : ¬ full) : ∃ a, x = .ok a ∧ P a := by
  rcases x with e | a
  · cases e with
    | raised code info s => exact absurd hx.1 h
    | stuck => exact hx.elim
    | refused => exact hx.elim
  · exact ⟨a, rfl, hx⟩

theorem Run.unlessFull_cases (hx : x.unlessFull full P) :
    (∃ a, x = .ok a ∧ P a) ∨ ∃ info s, x = .error (.raised .textOverflow info s) := by
  rcases x with e | a
  · cases e with
    | raised code info s =>
      obtain ⟨-, rfl⟩ := hx
      exact .inr ⟨info, s, rfl⟩
    | stuck => exact hx.elim
    | refused => exact hx.elim
  · exact .inl ⟨a, rfl, hx⟩

end Ends

/-! ### What `out_bit` hands over -/

theorem Coder.withByte_tlen {v : Byte} (h : c.tlen.toNat + 1 < 2 ^ 64) : (c.withByte v).tlen.toNat = c.tlen.toNat + 1 := by
  show (c.tlen + 1).toNat = _
  bv_omega

theorem Coder.textBits_withByte {v : Byte} {i : Nat} (h : c.tlen.toNat + 1 < 2 ^ 64) (hi : i ≤ c.tlen.toNat) :
    (c.withByte v).textBits port i (c.withByte v).tlen.toNat = c.textBits port i c.tlen.toNat ++ byteBits v := by
  rw [Coder.withByte_tlen h, Coder.textBits_succ _ hi,
    Coder.textBits_congr fun k hk => fetch_store_other _ _ _ _ _ _ (show k ≠ c.tlen.toNat by omega)]
  exact congrArg _ (congrArg _ (fetch_store_text_same ..))

/-- A newline carries no bit. -/
theorem Coder.output_newline {i : Nat} (h : c.tlen.toNat + 1 < 2 ^ 64) (hi : i ≤ c.tlen.toNat) :
    (c.withByte newline).output port i = c.output port i := by
  have hnone : byteBits newline = [] := by rw [byteBits, alphabetValue_newline, Option.elim_none]
  rw [Coder.output, Coder.textBits_withByte h hi, hnone, List.append_nil]
  rfl

/-- The finished character carries the six bits shifted in. -/
theorem Coder.output_withChar {i : Nat} (h : c.tlen.toNat + 1 < 2 ^ 64) (hi : i ≤ c.tlen.toNat) (h6 : c.ocnt = 6) :
    c.withChar.output port i = c.output port i := by
  have hchar : c.withChar.textBits port i c.withChar.tlen.toNat = _ := Coder.textBits_withByte (c := c) h hi
  rw [Coder.output, hchar, Coder.partialBits_of_ocnt_zero (c := c.withChar) rfl, byteBits, alphabetValue_alphabetByte,
    Option.elim_some, Coder.charBits_oacc h6, List.append_nil, Coder.output]

theorem Coder.output_shifted {i : Nat} (h : c.serialOk) : (c.shifted b).output port i = c.output port i ++ [b] := by
  rw [Coder.output, Coder.partialBits_shifted h, ← List.append_assoc]
  rfl

theorem Coder.withChar_tlen (h : c.tlen.toNat + 1 < 2 ^ 64) : c.withChar.tlen.toNat = c.tlen.toNat + 1 :=
  Coder.withByte_tlen (v := alphabetByte (BitVec.ofNat 6 c.oacc.toNat)) h

theorem Coder.emits_shifted (h : c.serialOk) (hlt : c.ocnt.toNat < 5) : c.emits port [b] (c.shifted b) := by
  have hcnt := Coder.shifted_ocnt_toNat (b := b) h
  refine ⟨le_rfl, fun _ _ => Coder.output_shifted h, ?_, ?_, ?_⟩
  · rw [hcnt, List.length_singleton, Nat.mod_eq_of_lt (by omega)]
  · have := h.2
    have := Bool.toNat_le b
    rw [hcnt, Coder.shifted_oacc_toNat h, Nat.pow_succ]
    omega
  · rw [Coder.fill, hcnt, Coder.shifted_tlen, Coder.shifted_ochars, Coder.fill, List.length_singleton]
    omega

section SixthBit

variable (h : c.serialOk) (hfive : c.ocnt.toNat = 5)

include h hfive

theorem Coder.output_sixth {i : Nat} (hlen : c.tlen.toNat + 1 < 2 ^ 64) (hi : i ≤ c.tlen.toNat) :
    (c.shifted b).withChar.output port i = c.output port i ++ [b] := by
  rw [Coder.output_withChar (c := c.shifted b) hlen hi (Coder.shifted_ocnt_of_five hfive), Coder.output_shifted h]

/-- The sixth bit, where no newline follows. -/
theorem Coder.emits_withChar (hlen : c.tlen.toNat + 1 < 2 ^ 64) : c.emits port [b] (c.shifted b).withChar := by
  have hdlen := Coder.withChar_tlen (c := c.shifted b) hlen
  rw [Coder.shifted_tlen] at hdlen
  refine ⟨by omega, fun i hi => Coder.output_sixth h hfive hlen hi, ?_, Nat.one_pos, ?_⟩
  · rw [hfive, Coder.withChar_ocnt, List.length_singleton]
    rfl
  · have hchars := (c.shifted b).withChar_ochars_cases
    simp only [Coder.shifted_ochars] at hchars
    simp only [Coder.fill, hdlen, hfive, Coder.withChar_ocnt, List.length_singleton, BitVec.ofNat_eq_ofNat, BitVec.toNat_ofNat]
    omega

/-- The sixth bit, where a newline follows. -/
theorem Coder.emits_newline (hlen : c.tlen.toNat + 2 < 2 ^ 64) (h80 : (c.shifted b).withChar.ochars.toNat % 80 = 0) :
    c.emits port [b] ((c.shifted b).withChar.withByte newline) := by
  have hclen := Coder.withChar_tlen (c := c.shifted b) (show c.tlen.toNat + 1 < 2 ^ 64 by omega)
  rw [Coder.shifted_tlen] at hclen
  have hdlen := Coder.withByte_tlen (c := (c.shifted b).withChar) (v := newline) (by omega)
  refine ⟨by omega, fun i hi => ?_, ?_, Nat.one_pos, ?_⟩
  · rw [Coder.output_newline (by omega) (by omega), Coder.output_sixth h hfive (by omega) hi]
  · rw [hfive, Coder.withByte_ocnt, Coder.withChar_ocnt, List.length_singleton]
    rfl
  · simp only [Coder.fill, hdlen, hclen, hfive, h80, Coder.withByte_ocnt, Coder.withByte_ochars, Coder.withChar_ocnt,
      List.length_singleton, BitVec.ofNat_eq_ofNat, BitVec.toNat_ofNat]
    obtain hchars | ⟨hchars, hwrap⟩ := (c.shifted b).withChar_ochars_cases
    · rw [Coder.shifted_ochars] at hchars
      omega
    · rw [Coder.shifted_ochars] at hwrap
      rw [hchars, hwrap]
      omega

end SixthBit

/-- `out_bit` hands over its bit, unless it needs room that is not there (R166). -/
theorem outBit_emits (port : TextPort) (htmax : tmax < 2 ^ 64) (b : Bool) (h : c.serialOk) :
    (outBit tmax b c).unlessFull (480 * tmax < c.fill + 82) (c.emits port [b]) := by
  have hfill := c.le_fill
  obtain hlt | hfive : c.ocnt.toNat < 5 ∨ c.ocnt.toNat = 5 := by
    have := h.1
    omega
  · rw [outBit_of_lt hlt]
    exact Coder.emits_shifted h hlt
  rw [outBit_of_five hfive]
  obtain hfull | hroom : tmax ≤ c.tlen.toNat ∨ c.tlen.toNat < tmax := by omega
  · rw [putChar_of_full (c := c.shifted b) hfull]
    exact ⟨by omega, rfl⟩
  have hlen := Coder.withChar_tlen (c := c.shifted b) (show c.tlen.toNat + 1 < 2 ^ 64 by omega)
  rw [Coder.shifted_tlen] at hlen
  rw [putChar_of_room (c := c.shifted b) hroom]
  split
  · rename_i h80
    obtain hfull | hroom : tmax ≤ (c.shifted b).withChar.tlen.toNat ∨ (c.shifted b).withChar.tlen.toNat < tmax := by omega
    · rw [putByte_of_full _ hfull]
      exact ⟨by unfold Coder.fill; omega, rfl⟩
    · rw [putByte_of_room _ hroom]
      exact Coder.emits_newline h hfive (by omega) h80
  · exact Coder.emits_withChar h hfive (by omega)

theorem outBits_emits (port : TextPort) (htmax : tmax < 2 ^ 64) (b : Bool) (k : Nat) (h : c.serialOk) :
    (outBits tmax b k c).unlessFull (480 * tmax < c.fill + 82 * k) (c.emits port (List.replicate k b)) := by
  induction k generalizing c with
  | zero => exact .refl h
  | succ k ih =>
    refine Run.unlessFull_bind (Run.unlessFull_mono (outBit_emits port htmax b h) (by omega) fun _ hd => hd) fun d hd => ?_
    refine Run.unlessFull_mono (ih hd.serialOk) (fun hfull => ?_) fun e he => hd.trans he
    have := hd.fill
    rw [List.length_singleton] at this
    omega

theorem Coder.emits_nothing (h : c.serialOk) (h0 : c.ocnt.toNat = 0) (fuel : Nat) :
    c.ocnt.toNat = 0 ∧ ∃ n ≤ fuel, c.emits port (List.replicate n true) c :=
  ⟨h0, 0, Nat.zero_le _, .refl h⟩

/-- The padding: 1-bits up to a character boundary (R165). -/
theorem padTurns_emits (port : TextPort) (htmax : tmax < 2 ^ 64) (fuel : Nat) (h : c.serialOk)
    (hfuel : c.ocnt.toNat = 0 ∨ 6 ≤ c.ocnt.toNat + fuel) :
    (padTurns tmax fuel c).unlessFull (480 * tmax < c.fill + 82 * fuel)
      (fun d => d.ocnt.toNat = 0 ∧ ∃ n ≤ fuel, c.emits port (List.replicate n true) d) := by
  induction fuel generalizing c with
  | zero =>
    have h0 : c.ocnt.toNat = 0 := by
      have := h.1
      omega
    rw [padTurns, if_pos (BitVec.eq_of_toNat_eq h0)]
    exact Coder.emits_nothing h h0 0
  | succ fuel ih =>
    rw [padTurns]
    split
    · rename_i h0
      exact Coder.emits_nothing h (congrArg BitVec.toNat h0) _
    · rename_i hne
      have hne : c.ocnt.toNat ≠ 0 := fun hz => hne (BitVec.eq_of_toNat_eq hz)
      refine Run.unlessFull_bind (Run.unlessFull_mono (outBit_emits port htmax true h) (by omega) fun _ hd => hd) fun d hd => ?_
      have hcnt := h.1
      have hdcnt := hd.ocnt
      have hdfill := hd.fill
      rw [List.length_singleton] at hdcnt hdfill
      refine Run.unlessFull_mono (ih hd.serialOk (by omega)) (by omega) ?_
      rintro e ⟨h0, n, hn, he⟩
      exact ⟨h0, n + 1, by omega, by rw [List.replicate_succ]; exact hd.trans he⟩

theorem pad_emits (port : TextPort) (htmax : tmax < 2 ^ 64) (h : c.serialOk) :
    (pad tmax c).unlessFull (480 * tmax < c.fill + 410)
      (fun d => d.ocnt.toNat = 0 ∧ ∃ n ≤ 5, c.emits port (List.replicate n true) d) :=
  padTurns_emits port htmax 5 h (by omega)

end Sys2Proof.Machine

open Sys2Proof Sys2Proof.Machine

/-- Settles O34: 64 bytes, each the inverse image of its value; the inverse table is checked on all 256 bytes. -/
theorem alphabetIsTheStringAsWritten : Obligations.AlphabetIsTheStringAsWritten :=
  ⟨by decide, alphabetValue_eq_some_iff, alphabetValue_newline⟩

/-- Settles O33: a bit is shifted in; the sixth stores the character, and a newline where 80 divides the new `OCHARS`. -/
theorem outBitPacksSixBitsToACharacter : Obligations.OutBitPacksSixBitsToACharacter := by
  intro port b c htmax hcnt hacc
  have hserial : c.serialOk := ⟨hcnt, hacc⟩
  have hchar : alphabetByte (BitVec.ofNat 6 (c.shifted b).oacc.toNat) =
      alphabetByte (BitVec.ofNat 6 (2 * c.oacc.toNat + b.toNat)) := by
    rw [Coder.shifted_oacc_toNat hserial]
  refine ⟨fun hlt => outBit_of_lt hlt, fun hfive hfull => ?_, fun hfive hroom => ?_⟩
  · rw [outBit_of_five hfive, putChar_of_full (c := c.shifted b) hfull, ← Coder.shifted_ocnt_of_five (b := b) hfive]
    rfl
  · have hlen : (c.shifted b).withChar.tlen.toNat = c.tlen.toNat + 1 :=
      Coder.withChar_tlen (c := c.shifted b) (show c.tlen.toNat + 1 < 2 ^ 64 by omega)
    rw [outBit_of_five hfive, putChar_of_room (c := c.shifted b) hroom]
    refine ⟨(c.shifted b).withChar, rfl, ?_, fun k hk => fetch_store_other _ _ _ _ _ _ hk, fun h80 => if_neg h80,
      fun h80 hfull => ?_, fun h80 hmore => ?_⟩
    · rw [← hchar]
      exact fetch_store_text_same ..
    · rw [if_pos h80, putByte_of_full _ (by omega)]
    · rw [if_pos h80, putByte_of_room _ (by omega), ← hlen]
      exact ⟨_, rfl, rfl, fetch_store_text_same .., fun k hk => fetch_store_other _ _ _ _ _ _ hk⟩
end

section
/-! PROOFS. The pending bits (R151): what `push_bit` (R153), `carry` (R163) and `drain` (R164) do to them. Settles O30, O31 and
O32. -/

namespace Sys2Proof.Machine

variable {port : TextPort} {tmax : Nat} {b : Bool} {c d e : Coder}

/-! ### Slots of the ring -/

theorem ringSlot_of_lt {x : Nat} (h : x < 128) : ringSlot x = x := Nat.mod_eq_of_lt h

theorem ringSlot_ne {x i j : Nat} (hi : i < 128) (hj : j < 128) (h : i ≠ j) : ringSlot (x + i) ≠ ringSlot (x + j) := by
  simp only [ringSlot, Config.qcap]
  omega

theorem ringSlot_ringSlot_add (x j : Nat) : ringSlot (ringSlot x + j) = ringSlot (x + j) := by
  simp only [ringSlot, Config.qcap]
  omega

/-- The bit value of a run is the parity of its slot (R151). -/
theorem slotBit_eq {slot : Nat} (h : slot % 2 = b.toNat) : (slot % 2 == 1) = b := by
  rw [h]
  cases b <;> rfl

/-- The `j`-th slot from the oldest on. -/
def Coder.slotAt (c : Coder) (j : Nat) : Nat := ringSlot (c.qpos.toNat + j)

theorem Coder.slotAt_zero (h : c.qpos.toNat < 128) : c.slotAt 0 = c.qpos.toNat := ringSlot_of_lt h

theorem Coder.slotAt_ne (c : Coder) {i j : Nat} (hi : i < 128) (hj : j < 128) (h : i ≠ j) : c.slotAt i ≠ c.slotAt j :=
  ringSlot_ne hi hj h

theorem Coder.tail_eq_slotAt {m : Nat} (h : c.qlen.toNat = m + 1) : c.tail = c.slotAt m := by
  rw [Coder.tail, h]
  rfl

theorem Coder.prev_eq_slotAt {m : Nat} (h : c.qlen.toNat = m + 2) : c.prev = c.slotAt m := by
  rw [Coder.prev, Coder.tail, h]
  simp only [Coder.slotAt, ringSlot, Config.qcap, Config.qmask]
  omega

theorem Coder.fresh_eq_slotAt {m : Nat} (h : c.qlen.toNat = m + 1) : c.fresh = c.slotAt (m + 1) := by
  rw [Coder.fresh, Coder.tail, h]
  simp only [Coder.slotAt, ringSlot, Config.qcap]
  omega

theorem Coder.prev_parity (c : Coder) : c.prev % 2 ≠ c.tail % 2 := by
  simp only [Coder.prev, ringSlot, Config.qcap, Config.qmask]
  omega

theorem Coder.fresh_parity (c : Coder) : c.fresh % 2 ≠ c.tail % 2 := by
  simp only [Coder.fresh, ringSlot, Config.qcap]
  omega

/-! ### Runs -/

/-- The bits of the run in a slot (R151). -/
def Coder.run (c : Coder) (slot : Nat) : List Bool := List.replicate (c.count slot) (slot % 2 == 1)

theorem Coder.run_of_parity {slot n : Nat} (hcount : c.count slot = n) (hslot : slot % 2 = b.toNat) :
    c.run slot = List.replicate n b := by rw [Coder.run, hcount, slotBit_eq hslot]

theorem runBits_succ (c : Coder) (len slot : Nat) : runBits c (len + 1) slot = c.run (ringSlot slot) ++ runBits c len (slot + 1) :=
  rfl

theorem runBits_succ_last (c : Coder) (len slot : Nat) :
    runBits c (len + 1) slot = runBits c len slot ++ c.run (ringSlot (slot + len)) := by
  induction len generalizing slot with
  | zero => rw [runBits_succ, Nat.add_zero]; exact List.append_nil _
  | succ len ih => rw [runBits_succ, ih, runBits_succ, List.append_assoc, Nat.add_assoc slot, Nat.add_comm 1]

theorem runBits_congr {len slot : Nat} (h : ∀ j < len, d.count (ringSlot (slot + j)) = c.count (ringSlot (slot + j))) :
    runBits d len slot = runBits c len slot := by
  induction len with
  | zero => rfl
  | succ len ih =>
    rw [runBits_succ_last, runBits_succ_last, ih fun j hj => h j (by omega), Coder.run, h len (by omega), ← Coder.run]

theorem runBits_ringSlot (c : Coder) (len slot : Nat) : runBits c len (ringSlot slot) = runBits c len slot := by
  induction len with
  | zero => rfl
  | succ len ih => rw [runBits_succ_last, runBits_succ_last, ih, ringSlot_ringSlot_add]

theorem Coder.pend_eq {n : Nat} (h : c.qlen.toNat = n) : c.pend = runBits c n c.qpos.toNat := by rw [Coder.pend, h]

theorem Coder.pend_snoc {m : Nat} (h : c.qlen.toNat = m + 1) :
    c.pend = runBits c m c.qpos.toNat ++ c.run (c.slotAt m) := by
  rw [Coder.pend_eq h, runBits_succ_last, Coder.slotAt]

/-- Two coders with the same queue. -/
theorem Coder.pend_congr (hpos : d.qpos = c.qpos) (hlen : d.qlen = c.qlen) (hcount : d.qcount = c.qcount) :
    d.pend = c.pend := by
  rw [Coder.pend, Coder.pend, hpos, hlen]
  exact runBits_congr fun j _ => by rw [Coder.count, Coder.count, hcount]

@[simp] theorem Coder.setCount_tail (c : Coder) (slot v : Nat) : (c.setCount slot v).tail = c.tail := rfl

@[simp] theorem Coder.setCount_prev (c : Coder) (slot v : Nat) : (c.setCount slot v).prev = c.prev := rfl

/-- A slot reads what is stored there, in any list, where that is not 0. -/
theorem Coder.count_setCount_of_pos (c : Coder) (slot : Nat) {v : Nat} (hpos : 0 < v) (hv : v < 2 ^ 64) :
    (c.setCount slot v).count slot = v := by
  have hne : unlisted .qcount 64 ≠ some (reg64 v) := fun h => by
    have := congrArg BitVec.toNat (Option.some.inj h)
    rw [reg64_toNat v hv] at this
    simp at this
    omega
  rw [Coder.count, Coder.setCount_qcount, fetch, store, Memory.peek_put_same_of_ne _ _ _ _ hne, Option.getD_some,
    reg64_toNat v hv]

/-- A slot reads what is stored there, in the canonical form. -/
theorem Coder.count_setCount_same {slot v : Nat} (h : c.qcount.wf (unlisted .qcount 64) = true) (hv : v < 2 ^ 64) :
    (c.setCount slot v).count slot = v := by
  rw [Coder.count, Coder.setCount_qcount, fetch_store_same _ _ _ _ _ h, reg64_toNat v hv]

theorem Coder.setCount_wf {slot v : Nat} (h : c.qcount.wf (unlisted .qcount 64) = true) :
    (c.setCount slot v).qcount.wf (unlisted .qcount 64) = true := store_wf _ _ _ _ h

theorem Coder.count_lt (c : Coder) (slot : Nat) : c.count slot < 2 ^ 64 := BitVec.isLt _

@[simp] theorem Coder.grown_qpos (c : Coder) : c.grown.qpos = c.qpos := rfl


@[simp] theorem Coder.grown_count (c : Coder) (slot : Nat) : c.grown.count slot = c.count slot := rfl

theorem Coder.qlen_eq_zero_iff : c.qlen = 0 ↔ c.qlen.toNat = 0 :=
  ⟨fun h => congrArg BitVec.toNat h, fun h => BitVec.eq_of_toNat_eq h⟩

/-! ### `push_bit` (R153) -/

/-- The first run of an empty queue. -/
def Coder.startRun (slot : Nat) (c : Coder) : Coder := { c with qpos := reg64 slot, qlen := 1 }.setCount slot 1

theorem pushBit_of_empty (h : c.qlen.toNat = 0) :
    pushBit b c = .ok (c.startRun (if c.qpos.toNat % 2 = b.toNat then c.qpos.toNat else ringSlot (c.qpos.toNat + 1))) :=
  if_pos (Coder.qlen_eq_zero_iff.mpr h)

theorem pushBit_of_tail (h : c.qlen.toNat ≠ 0) (hb : c.tail % 2 = b.toNat) :
    pushBit b c = .ok (c.setCount c.tail (c.count c.tail + 1)) := by
  rw [pushBit, if_neg (mt Coder.qlen_eq_zero_iff.mp h), if_pos hb]

theorem pushBit_of_fresh (h : c.qlen.toNat ≠ 0) (hb : c.tail % 2 ≠ b.toNat) (hlen : c.qlen.toNat < 128) :
    pushBit b c = .ok (c.grown.setCount c.fresh 1) := by
  rw [pushBit, if_neg (mt Coder.qlen_eq_zero_iff.mp h), if_neg hb, if_neg (by simp only [Config.qcap]; omega)]
  rfl

/-- What a pushed bit leaves: one more pending bit, at most one more slot, and a 0-bit to carry into where the bit is 0 or there was
one before. -/
structure Coder.pushes (b : Bool) (c d : Coder) : Prop where
  pend : d.pend = c.pend ++ [b]
  qlen : d.qlen.toNat ≤ c.qlen.toNat + 1
  qpos : d.qpos.toNat < 128
  carry : b = false ∨ c.canCarry → d.canCarry

theorem Coder.startRun_pushes {slot : Nat} (h0 : c.qlen.toNat = 0) (hslot : slot < 128) (hb : slot % 2 = b.toNat) :
    c.pushes b (c.startRun slot) := by
  have hpos : (c.startRun slot).qpos.toNat = slot := reg64_toNat slot (by omega)
  have hlen : (c.startRun slot).qlen.toNat = 0 + 1 := rfl
  have hcount : (c.startRun slot).count slot = 1 := Coder.count_setCount_of_pos _ _ (by omega) (by omega)
  have hat : (c.startRun slot).slotAt 0 = slot := by rw [Coder.slotAt, hpos, Nat.add_zero, ringSlot_of_lt hslot]
  refine ⟨?_, by omega, by omega, fun hcarry => ?_⟩
  · rw [Coder.pend_snoc hlen, hat, Coder.run_of_parity hcount hb, Coder.pend_eq h0]
    rfl
  · have hzero : b = false := hcarry.resolve_right fun hc => hc.1 h0
    rw [hzero] at hb
    refine ⟨by omega, fun hodd => ?_, fun _ => ?_⟩
    · rw [Coder.tail_eq_slotAt hlen, hat, hb] at hodd
      cases hodd
    · rw [Coder.tail_eq_slotAt hlen, hat, hcount]
      omega

theorem Coder.lengthen_pushes (h : c.qlen.toNat ≠ 0) (hlen : c.qlen.toNat ≤ 128) (hpos : c.qpos.toNat < 128)
    (hb : c.tail % 2 = b.toNat) (hcount : c.count c.tail + 1 < 2 ^ 64) :
    c.pushes b (c.setCount c.tail (c.count c.tail + 1)) := by
  obtain ⟨m, hm⟩ : ∃ m, c.qlen.toNat = m + 1 := ⟨c.qlen.toNat - 1, by omega⟩
  have htail := Coder.tail_eq_slotAt hm
  have hnew : (c.setCount c.tail (c.count c.tail + 1)).count c.tail = c.count c.tail + 1 :=
    Coder.count_setCount_of_pos _ _ (by omega) hcount
  have hother {slot : Nat} (hne : slot ≠ c.tail) : (c.setCount c.tail (c.count c.tail + 1)).count slot = c.count slot :=
    Coder.count_setCount_other _ _ hne
  have hfront : runBits (c.setCount c.tail (c.count c.tail + 1)) m c.qpos.toNat = runBits c m c.qpos.toNat :=
    runBits_congr fun j hj => hother (htail ▸ c.slotAt_ne (by omega) (by omega) (by omega))
  refine ⟨?_, Nat.le_succ _, hpos, fun hcarry => ⟨h, fun hodd => ?_, fun _ => ?_⟩⟩
  · rw [Coder.pend_snoc (c := c.setCount _ _) hm, Coder.pend_snoc hm, Coder.setCount_qpos, hfront]
    show _ ++ Coder.run _ (c.slotAt m) = _
    rw [← htail, Coder.run_of_parity hnew hb, Coder.run_of_parity rfl hb, List.replicate_succ', List.append_assoc]
  · have hone : b ≠ false := by
      rintro rfl
      exact absurd (hodd.symm.trans hb) (by decide)
    obtain ⟨-, hcarry, -⟩ := hcarry.resolve_left hone
    obtain ⟨htwo, hprev⟩ := hcarry hodd
    exact ⟨htwo, by rwa [Coder.setCount_prev, hother fun he => c.prev_parity (congrArg (· % 2) he)]⟩
  · rw [Coder.setCount_tail, hnew]
    omega

theorem Coder.extend_pushes (h : c.qlen.toNat ≠ 0) (hlen : c.qlen.toNat < 128) (hpos : c.qpos.toNat < 128)
    (hb : c.tail % 2 ≠ b.toNat) : c.pushes b (c.grown.setCount c.fresh 1) := by
  obtain ⟨m, hm⟩ : ∃ m, c.qlen.toNat = m + 1 := ⟨c.qlen.toNat - 1, by omega⟩
  have htail := Coder.tail_eq_slotAt hm
  have hfresh := Coder.fresh_eq_slotAt hm
  have hm' : (c.grown.setCount c.fresh 1).qlen.toNat = m + 2 := by rw [Coder.setCount_qlen, c.grown_qlen (by omega), hm]
  have hnew : (c.grown.setCount c.fresh 1).count c.fresh = 1 := Coder.count_setCount_of_pos _ _ (by omega) (by omega)
  have hother {j : Nat} (hj : j < m + 1) : (c.grown.setCount c.fresh 1).count (c.slotAt j) = c.count (c.slotAt j) :=
    Coder.count_setCount_other _ _ (hfresh ▸ c.slotAt_ne (by omega) (by omega) (by omega))
  have hfront : runBits (c.grown.setCount c.fresh 1) (m + 1) c.qpos.toNat = runBits c (m + 1) c.qpos.toNat :=
    runBits_congr fun j hj => hother hj
  have hbit : c.fresh % 2 = b.toNat := by
    have := c.fresh_parity
    have := Bool.toNat_lt b
    omega
  have htail' : (c.grown.setCount c.fresh 1).tail = c.fresh := (Coder.tail_eq_slotAt hm').trans hfresh.symm
  have hprev' : (c.grown.setCount c.fresh 1).prev = c.tail := (Coder.prev_eq_slotAt hm').trans htail.symm
  refine ⟨?_, by omega, hpos, fun hcarry => ⟨by omega, fun hodd => ⟨by omega, ?_⟩, fun _ => ?_⟩⟩
  · rw [Coder.pend_snoc (m := m + 1) hm', Coder.setCount_qpos, Coder.grown_qpos, hfront, Coder.pend_eq hm]
    show _ ++ Coder.run _ (c.slotAt (m + 1)) = _
    rw [← hfresh, Coder.run_of_parity hnew hbit]
    rfl
  · rw [htail'] at hodd
    have hone : b ≠ false := by
      rintro rfl
      exact absurd (hodd.symm.trans hbit) (by decide)
    obtain ⟨-, -, heven⟩ := hcarry.resolve_left hone
    rw [hprev', htail, hother (Nat.lt_succ_self m), ← htail]
    refine heven ?_
    have := c.fresh_parity
    omega
  · rw [htail', hnew]
    omega

/-- `push_bit` appends its bit while a slot is free and the tail run's count can rise (R153). -/
theorem pushBit_pushes (b : Bool) (hpos : c.qpos.toNat < 128) (hlen : c.qlen.toNat < 128) (hpend : c.pend.length + 1 < 2 ^ 64) :
    ∃ d, pushBit b c = .ok d ∧ c.pushes b d := by
  by_cases h0 : c.qlen.toNat = 0
  · refine ⟨_, pushBit_of_empty h0, Coder.startRun_pushes h0 ?_ ?_⟩
    · split
      · exact hpos
      · exact ringSlot_lt _
    · split
      · assumption
      · have := Bool.toNat_lt b
        simp only [ringSlot, Config.qcap]
        omega
  · by_cases hb : c.tail % 2 = b.toNat
    · refine ⟨_, pushBit_of_tail h0 hb, Coder.lengthen_pushes h0 hlen.le hpos hb ?_⟩
      obtain ⟨m, hm⟩ : ∃ m, c.qlen.toNat = m + 1 := ⟨c.qlen.toNat - 1, by omega⟩
      rw [Coder.pend_snoc hm, ← Coder.tail_eq_slotAt hm, List.length_append, Coder.run, List.length_replicate] at hpend
      omega
    · exact ⟨_, pushBit_of_fresh h0 hb hlen, Coder.extend_pushes h0 hlen hpos hb⟩

/-! ### `carry` (R163) -/

theorem Coder.not_canCarry_of_empty (h : c.qlen.toNat = 0) : ¬ c.canCarry := fun hc => hc.1 h

theorem Coder.canCarry_iff_of_odd (h : c.qlen.toNat ≠ 0) (hodd : c.tail % 2 = 1) :
    c.canCarry ↔ ¬ (c.qlen.toNat < 2 ∨ c.count c.prev = 0) := by
  simp only [Coder.canCarry, ne_eq, h, hodd, not_false_eq_true, forall_const, true_and]
  omega

theorem Coder.canCarry_iff_of_even (h : c.qlen.toNat ≠ 0) (heven : c.tail % 2 = 0) : c.canCarry ↔ ¬ c.count c.tail = 0 := by
  simp [Coder.canCarry, h, heven]

/-- The queue after a carry over a tail run of 1-bits. -/
def Coder.carriedOver (c : Coder) : Coder :=
  ((c.grown.setCount c.prev (c.count c.prev - 1)).setCount c.tail 1).setCount c.fresh (c.count c.tail)

/-- The queue after a carry into a tail run of 0-bits. -/
def Coder.carriedInto (c : Coder) : Coder := (c.grown.setCount c.tail (c.count c.tail - 1)).setCount c.fresh 1

theorem carry_eq (c : Coder) :
    carry c =
      if c.canCarry then .ok (if c.tail % 2 = 1 then c.carriedOver else c.carriedInto)
      else .error (.raised .rcQueue c.qlen c) := by
  by_cases h0 : c.qlen.toNat = 0
  · rw [if_neg (Coder.not_canCarry_of_empty h0), carry, if_pos (Coder.qlen_eq_zero_iff.mpr h0), Coder.qlen_eq_zero_iff.mpr h0]
    rfl
  rw [carry, if_neg (mt Coder.qlen_eq_zero_iff.mp h0), raise, reg64_of_toNat]
  by_cases hodd : c.tail % 2 = 1
  · rw [if_pos hodd, if_pos hodd, if_congr (Coder.canCarry_iff_of_odd h0 hodd) rfl rfl, ite_not]
    rfl
  · rw [if_neg hodd, if_neg hodd, if_congr (Coder.canCarry_iff_of_even h0 (by omega)) rfl rfl, ite_not]
    rfl

/-- What a carry leaves: the last 0-bit a 1, the 1-bits after it 0-bits, one more slot. -/
structure Coder.carries (c d : Coder) : Prop where
  pend : ∃ front n, c.pend = front ++ false :: List.replicate n true ∧ d.pend = front ++ true :: List.replicate n false
  qlen : d.qlen.toNat = c.qlen.toNat + 1
  qpos : d.qpos = c.qpos

theorem Coder.carriedOver_carries (hwf : c.qcount.wf (unlisted .qcount 64) = true) (hlen : c.qlen.toNat < 128)
    (hodd : c.tail % 2 = 1) (h : c.canCarry) : c.carries c.carriedOver := by
  obtain ⟨-, hcarry, -⟩ := h
  obtain ⟨htwo, hz⟩ := hcarry hodd
  obtain ⟨m, hm⟩ : ∃ m, c.qlen.toNat = m + 2 := ⟨c.qlen.toNat - 2, by omega⟩
  obtain ⟨z, hz⟩ : ∃ z, c.count c.prev = z + 1 := ⟨c.count c.prev - 1, by omega⟩
  have hm' : c.carriedOver.qlen.toNat = m + 2 + 1 := by
    simp only [Coder.carriedOver, Coder.setCount_qlen]
    rw [c.grown_qlen (by omega), hm]
  have hprev := Coder.prev_eq_slotAt hm
  have htail := Coder.tail_eq_slotAt hm
  have hfresh := Coder.fresh_eq_slotAt hm
  have hpf : c.prev ≠ c.fresh := by rw [hprev, hfresh]; exact c.slotAt_ne (by omega) (by omega) (by omega)
  have hpt : c.prev ≠ c.tail := by rw [hprev, htail]; exact c.slotAt_ne (by omega) (by omega) (by omega)
  have htf : c.tail ≠ c.fresh := by rw [htail, hfresh]; exact c.slotAt_ne (by omega) (by omega) (by omega)
  have hfront : runBits c.carriedOver m c.carriedOver.qpos.toNat = runBits c m c.qpos.toNat := runBits_congr fun j hj => by
    change c.carriedOver.count (c.slotAt j) = c.count (c.slotAt j)
    rw [Coder.carriedOver, Coder.count_setCount_other _ _ (hfresh ▸ c.slotAt_ne (by omega) (by omega) (by omega)),
      Coder.count_setCount_other _ _ (htail ▸ c.slotAt_ne (by omega) (by omega) (by omega)),
      Coder.count_setCount_other _ _ (hprev ▸ c.slotAt_ne (by omega) (by omega) (by omega)), Coder.grown_count]
  have hcprev : c.carriedOver.count c.prev = z := by
    rw [Coder.carriedOver, Coder.count_setCount_other _ _ hpf, Coder.count_setCount_other _ _ hpt,
      Coder.count_setCount_same (c := c.grown) hwf (by have := c.count_lt c.prev; omega), hz, Nat.add_sub_cancel]
  have hctail : c.carriedOver.count c.tail = 1 := by
    rw [Coder.carriedOver, Coder.count_setCount_other _ _ htf, Coder.count_setCount_of_pos _ _ (by omega) (by omega)]
  have hcfresh : c.carriedOver.count c.fresh = c.count c.tail := by
    rw [Coder.carriedOver, Coder.count_setCount_same (Coder.setCount_wf (Coder.setCount_wf (c := c.grown) hwf)) (c.count_lt _)]
  have hzero : c.prev % 2 = false.toNat := by
    have := c.prev_parity
    simp only [Bool.toNat_false]
    omega
  have hzero' : c.fresh % 2 = false.toNat := by
    have := c.fresh_parity
    simp only [Bool.toNat_false]
    omega
  refine ⟨⟨runBits c m c.qpos.toNat ++ List.replicate z false, c.count c.tail, ?_, ?_⟩, by rw [hm', hm], rfl⟩
  · rw [Coder.pend_snoc hm, runBits_succ_last, ← Coder.slotAt, ← hprev, ← htail, Coder.run_of_parity hz hzero,
      Coder.run_of_parity (b := true) rfl hodd, List.replicate_succ']
    simp only [List.append_assoc, List.cons_append, List.nil_append]
  · have hat : c.carriedOver.slotAt = c.slotAt := rfl
    rw [Coder.pend_snoc hm', runBits_succ_last, runBits_succ_last, hfront, ← Coder.slotAt,
      ← Coder.slotAt, hat, ← hprev, ← htail, ← hfresh, Coder.run_of_parity hcprev hzero,
      Coder.run_of_parity (b := true) hctail hodd, Coder.run_of_parity hcfresh hzero']
    simp only [List.append_assoc, List.replicate_one, List.cons_append, List.nil_append]

theorem Coder.carriedInto_carries (hwf : c.qcount.wf (unlisted .qcount 64) = true) (hlen : c.qlen.toNat < 128)
    (heven : c.tail % 2 = 0) (h : c.canCarry) : c.carries c.carriedInto := by
  obtain ⟨h0, -, hcarry⟩ := h
  obtain ⟨m, hm⟩ : ∃ m, c.qlen.toNat = m + 1 := ⟨c.qlen.toNat - 1, by omega⟩
  obtain ⟨z, hz⟩ : ∃ z, c.count c.tail = z + 1 := ⟨c.count c.tail - 1, by have := hcarry heven; omega⟩
  have hm' : c.carriedInto.qlen.toNat = m + 1 + 1 := by
    simp only [Coder.carriedInto, Coder.setCount_qlen]
    rw [c.grown_qlen (by omega), hm]
  have htail := Coder.tail_eq_slotAt hm
  have hfresh := Coder.fresh_eq_slotAt hm
  have htf : c.tail ≠ c.fresh := by rw [htail, hfresh]; exact c.slotAt_ne (by omega) (by omega) (by omega)
  have hfront : runBits c.carriedInto m c.carriedInto.qpos.toNat = runBits c m c.qpos.toNat := runBits_congr fun j hj => by
    change c.carriedInto.count (c.slotAt j) = c.count (c.slotAt j)
    rw [Coder.carriedInto, Coder.count_setCount_other _ _ (hfresh ▸ c.slotAt_ne (by omega) (by omega) (by omega)),
      Coder.count_setCount_other _ _ (htail ▸ c.slotAt_ne (by omega) (by omega) (by omega)), Coder.grown_count]
  have hctail : c.carriedInto.count c.tail = z := by
    rw [Coder.carriedInto, Coder.count_setCount_other _ _ htf,
      Coder.count_setCount_same (c := c.grown) hwf (by have := c.count_lt c.tail; omega), hz, Nat.add_sub_cancel]
  have hcfresh : c.carriedInto.count c.fresh = 1 := Coder.count_setCount_of_pos _ _ (by omega) (by omega)
  have hone : c.fresh % 2 = true.toNat := by
    have := c.fresh_parity
    simp only [Bool.toNat_true]
    omega
  refine ⟨⟨runBits c m c.qpos.toNat ++ List.replicate z false, 0, ?_, ?_⟩, by rw [hm', hm], rfl⟩
  · rw [Coder.pend_snoc hm, ← htail, Coder.run_of_parity (b := false) hz heven, List.replicate_succ', List.append_assoc]
    rfl
  · have hat : c.carriedInto.slotAt = c.slotAt := rfl
    rw [Coder.pend_snoc hm', runBits_succ_last, hfront, ← Coder.slotAt, hat, ← htail, ← hfresh,
      Coder.run_of_parity (b := false) hctail heven, Coder.run_of_parity hcfresh hone, List.replicate_zero]
    rfl

theorem carry_carries (hwf : c.qcount.wf (unlisted .qcount 64) = true) (hlen : c.qlen.toNat < 128) (h : c.canCarry) :
    ∃ d, carry c = .ok d ∧ c.carries d := by
  rw [carry_eq, if_pos h]
  refine ⟨_, rfl, ?_⟩
  split
  · rename_i hodd
    exact Coder.carriedOver_carries hwf hlen hodd h
  · exact Coder.carriedInto_carries hwf hlen (by omega) h

theorem Coder.carries.length_eq (h : c.carries d) : d.pend.length = c.pend.length := by
  obtain ⟨front, n, hc, hd⟩ := h.pend
  rw [hc, hd]
  simp

theorem Coder.carries.bitsValue_eq (h : c.carries d) : bitsValue d.pend = bitsValue c.pend + 1 := by
  obtain ⟨front, n, hc, hd⟩ := h.pend
  rw [hc, hd, bitsValue_carry]

/-! ### `drain` (R164) -/

/-- From `c` to `d` the oldest runs went to the serialiser: every bit is where it was in the order of the output, the slots that
remain are as they were. -/
structure Coder.drains (port : TextPort) (c d : Coder) : Prop where
  tlen : c.tlen.toNat ≤ d.tlen.toNat
  bits : ∀ i ≤ c.tlen.toNat, d.output port i ++ d.pend = c.output port i ++ c.pend
  serial : d.serialOk
  fill : d.fill + 82 * d.pend.length ≤ c.fill + 82 * c.pend.length
  qpos : d.qpos.toNat < 128
  tail : d.qlen.toNat ≠ 0 → d.tail = c.tail
  counts : ∀ slot, d.occupied slot → c.occupied slot ∧ d.count slot = c.count slot

theorem Coder.drains.refl (hserial : c.serialOk) (hpos : c.qpos.toNat < 128) : c.drains port c :=
  ⟨le_rfl, fun _ _ => rfl, hserial, le_rfl, hpos, fun _ => rfl, fun _ h => ⟨h, rfl⟩⟩

theorem Coder.drains.trans (h : c.drains port d) (h' : d.drains port e) (hlen : e.qlen.toNat ≤ d.qlen.toNat) :
    c.drains port e where
  tlen := h.tlen.trans h'.tlen
  bits i hi := (h'.bits i (hi.trans h.tlen)).trans (h.bits i hi)
  serial := h'.serial
  fill := h'.fill.trans h.fill
  qpos := h'.qpos
  tail he := (h'.tail he).trans (h.tail (by omega))
  counts slot he := by
    obtain ⟨hd, hcount⟩ := h'.counts slot he
    obtain ⟨hc, hcount'⟩ := h.counts slot hd
    exact ⟨hc, hcount.trans hcount'⟩

/-- The oldest run taken off, its slot cleared. -/
def Coder.popped (c : Coder) : Coder :=
  { c with qpos := reg64 (ringSlot (c.qpos.toNat + 1)), qlen := c.qlen - 1 }.setCount c.qpos.toNat 0

theorem Coder.popped_qpos (c : Coder) : c.popped.qpos.toNat = ringSlot (c.qpos.toNat + 1) := by
  have := ringSlot_lt (c.qpos.toNat + 1)
  exact reg64_toNat _ (by simp only [Config.qcap] at this; omega)

theorem Coder.popped_qlen {m : Nat} (h : c.qlen.toNat = m + 1) : c.popped.qlen.toNat = m := by
  show (c.qlen - 1).toNat = m
  bv_omega

theorem Coder.popped_slotAt (c : Coder) (j : Nat) : c.popped.slotAt j = c.slotAt (j + 1) := by
  rw [Coder.slotAt, Coder.popped_qpos, ringSlot_ringSlot_add, Nat.add_assoc, Nat.add_comm 1]
  rfl

theorem Coder.popped_count {j : Nat} (hpos : c.qpos.toNat < 128) (hj : j + 1 < 128) :
    c.popped.count (c.slotAt (j + 1)) = c.count (c.slotAt (j + 1)) := by
  refine Coder.count_setCount_other _ 0 ?_
  have hne := c.slotAt_ne hj (j := 0) (by omega) (by omega)
  rwa [Coder.slotAt_zero hpos] at hne

theorem Coder.popped_tail {m : Nat} (h : c.qlen.toNat = m + 1) (h0 : m ≠ 0) : c.popped.tail = c.tail := by
  obtain ⟨n, rfl⟩ := Nat.exists_eq_succ_of_ne_zero h0
  rw [Coder.tail_eq_slotAt (Coder.popped_qlen h), Coder.popped_slotAt, Coder.tail_eq_slotAt h]

/-- The slots that remain are as they were. -/
theorem Coder.popped_counts {m : Nat} (h : c.qlen.toNat = m + 1) (hlen : m < 128) (hpos : c.qpos.toNat < 128) {slot : Nat}
    (ho : c.popped.occupied slot) : c.occupied slot ∧ c.popped.count slot = c.count slot := by
  obtain ⟨j, hj, hslot⟩ := ho
  rw [Coder.popped_qlen h] at hj
  change c.popped.slotAt j = slot at hslot
  rw [Coder.popped_slotAt] at hslot
  subst hslot
  exact ⟨⟨j + 1, by omega, rfl⟩, Coder.popped_count hpos (by omega)⟩

theorem Coder.pend_popped {m : Nat} (h : c.qlen.toNat = m + 1) (hlen : m < 128) (hpos : c.qpos.toNat < 128) :
    c.pend = c.run c.qpos.toNat ++ c.popped.pend := by
  rw [Coder.pend_eq h, runBits_succ, ringSlot_of_lt hpos, Coder.pend_eq (Coder.popped_qlen h), Coder.popped_qpos,
    runBits_ringSlot]
  refine congrArg _ (runBits_congr fun j hj => ?_).symm
  have := Coder.popped_count (j := j) hpos (by omega)
  rwa [Coder.slotAt, ← Nat.add_assoc, Nat.add_right_comm] at this

/-- A serialiser step in between leaves the same queue to take the oldest run off. -/
theorem Coder.popped_sameQueue (h : c.serialiserOnly d) :
    d.popped.qpos = c.popped.qpos ∧ d.popped.qlen = c.popped.qlen ∧ d.popped.qcount = c.popped.qcount := by
  obtain ⟨-, -, hpos, hlen, hcount, -⟩ := h
  simp only [Coder.popped, Coder.setCount_qpos, Coder.setCount_qlen, Coder.setCount_qcount, hpos, hlen, hcount, and_self]

/-- One run handed over. -/
theorem drainRun_drains (port : TextPort) (htmax : tmax < 2 ^ 64) {m : Nat} (hm : c.qlen.toNat = m + 1) (hlen : m < 128)
    (hpos : c.qpos.toNat < 128) (hserial : c.serialOk) :
    (drainRun tmax c).unlessFull (480 * tmax < c.fill + 82 * c.pend.length) (fun d => c.drains port d ∧ d.qlen.toNat = m) := by
  have hpend := Coder.pend_popped hm hlen hpos
  have hlength : c.pend.length = (c.run c.qpos.toNat).length + c.popped.pend.length := by rw [hpend, List.length_append]
  have hcount : (c.run c.qpos.toNat).length = c.count c.qpos.toNat := List.length_replicate
  refine Run.unlessFull_bind (Run.unlessFull_mono (Run.unlessFull_and_leaves (outBits_emits port htmax _ _ hserial)
    (outBits_serialiserOnly ..)) (by omega) fun _ hd => hd) ?_
  rintro d ⟨hd, hsame⟩
  obtain ⟨hppos, hplen, hpcount⟩ := Coder.popped_sameQueue hsame
  have hdpend : d.popped.pend = c.popped.pend := Coder.pend_congr hppos hplen hpcount
  rw [← hsame.2.2.1]
  change c.drains port d.popped ∧ d.popped.qlen.toNat = m
  have hdout := hd.congr (e := d.popped) rfl rfl rfl rfl rfl
  rw [hplen]
  refine ⟨⟨hdout.tlen, fun i hi => ?_, hdout.serialOk, ?_, ?_, fun h0 => ?_, fun slot hocc => ?_⟩, Coder.popped_qlen hm⟩
  · rw [hdout.output i hi, hdpend, hpend, List.append_assoc]
    rfl
  · have := hdout.fill
    rw [List.length_replicate] at this
    rw [hdpend]
    omega
  · rw [hppos, Coder.popped_qpos]
    exact ringSlot_lt _
  · rw [hplen, Coder.popped_qlen hm] at h0
    rw [← Coder.popped_tail hm h0, Coder.tail, Coder.tail, hppos, hplen]
  · rw [Coder.occupied, hppos, hplen] at hocc
    rw [Coder.count, hpcount]
    exact Coder.popped_counts hm hlen hpos hocc

theorem drainRuns_drains (port : TextPort) (htmax : tmax < 2 ^ 64) (k : Nat) {m : Nat} (hm : c.qlen.toNat = m + k)
    (hlen : m + k ≤ 128) (hpos : c.qpos.toNat < 128) (hserial : c.serialOk) :
    (drainRuns tmax k c).unlessFull (480 * tmax < c.fill + 82 * c.pend.length) (fun d => c.drains port d ∧ d.qlen.toNat = m) := by
  induction k generalizing c with
  | zero => exact ⟨.refl hserial hpos, hm⟩
  | succ k ih =>
    refine Run.unlessFull_bind (drainRun_drains port htmax (m := m + k) hm (by omega) hpos hserial) ?_
    rintro d ⟨hd, hdlen⟩
    refine Run.unlessFull_mono (ih hdlen (by omega) hd.qpos hd.serial) (fun hfull => hfull.trans_le hd.fill) ?_
    rintro e ⟨he, helen⟩
    exact ⟨hd.trans he (by omega), helen⟩

/-- `drain` hands runs over until at most `keep` slots remain, unless the text is full (R164). -/
theorem drain_drains (port : TextPort) (htmax : tmax < 2 ^ 64) (keep : Nat) (hlen : c.qlen.toNat ≤ 128)
    (hpos : c.qpos.toNat < 128) (hserial : c.serialOk) :
    (drain tmax keep c).unlessFull (480 * tmax < c.fill + 82 * c.pend.length)
      (fun d => c.drains port d ∧ d.qlen.toNat = min keep c.qlen.toNat) :=
  drainRuns_drains port htmax _ (by omega) (by omega) hpos hserial

/-- Where two slots are kept, a carry still finds its 0-bit (R159). -/
theorem Coder.drains.canCarry (h : c.drains port d) (hlen : d.qlen.toNat = min 2 c.qlen.toNat) (hc : c.canCarry) :
    d.canCarry := by
  obtain ⟨h0, hodd, heven⟩ := hc
  have hd0 : d.qlen.toNat ≠ 0 := by omega
  have htail := h.tail hd0
  have hprev : d.prev = c.prev := by rw [Coder.prev, htail, ← Coder.prev]
  refine ⟨hd0, fun hb => ?_, fun hb => ?_⟩
  · obtain ⟨htwo, hcount⟩ := hodd (htail ▸ hb)
    have hdtwo : 2 ≤ d.qlen.toNat := by omega
    exact ⟨hdtwo, by rwa [(h.counts _ (d.occupied_prev hdtwo)).2, hprev]⟩
  · rw [(h.counts _ (d.occupied_tail hd0)).2, htail]
    exact heven (htail ▸ hb)

end Sys2Proof.Machine

open Sys2Proof Sys2Proof.Machine

/-- Settles O30: an empty queue gets a first run, a tail run of the same bit is lengthened, after another a new run begins. -/
theorem pushBitAppendsOneBit : Obligations.PushBitAppendsOneBit := by
  intro b c hpos hlen hpend
  obtain ⟨d, hd, hpushes⟩ := pushBit_pushes b hpos hlen (by omega)
  exact ⟨d, hd, hpushes.pend, hpushes.qlen, hpushes.qpos⟩

/-- Settles O31: a carry turns the last 0-bit into a 1 and the 1-bits after it into 0-bits. -/
theorem carryAddsOneToThePendingBits : Obligations.CarryAddsOneToThePendingBits := by
  refine fun c hwf hpos hlen => ⟨fun h => ?_, fun h => by rw [carry_eq, if_neg h]⟩
  obtain ⟨d, hd, hcarries⟩ := carry_carries hwf hlen h
  exact ⟨d, hd, hcarries.length_eq, hcarries.bitsValue_eq, hcarries.qlen, hcarries.qpos⟩

/-- Settles O32: run by run, the oldest bits go to the serialiser. -/
theorem drainLosesAndReordersNoBit : Obligations.DrainLosesAndReordersNoBit := by
  intro port keep c c' htmax hpos hlen hcnt hacc hdrain
  obtain ⟨hd, hdlen⟩ := Run.unlessFull_ok (drain_drains port htmax keep hlen hpos ⟨hcnt, hacc⟩) hdrain
  refine ⟨?_, by omega, by omega, hd.serial.1⟩
  rw [← Coder.output_self (port := port), ← hd.bits _ le_rfl, Coder.output]
end

section
/-! PROOFS. The encoder's window in units of the last place (R159): normalising (R154) scales it, narrowing (R157, R160) takes a part
of it, and a carry finds its 0-bit. Settles O35, O36 and O38. -/

namespace Sys2Proof.Machine

variable {c d e : Coder} {lo hi den range : Nat}

/-- While the window reaches beyond `NORM`, a carry can be absorbed (R159). -/
def Coder.carryReady (c : Coder) : Prop := Config.norm < c.low.toNat + c.range.toNat → c.canCarry

/-- The lower end of the window in units of the last place, with the pending bits above it (R159). -/
def Coder.pendLow (c : Coder) : Nat := bitsValue c.pend * 2 ^ 32 + c.low.toNat

/-! ### Normalising (R154) -/

/-- The `k` top bits of `LOW`, top bit first. -/
def Coder.topBits (c : Coder) (k : Nat) : List Bool := (List.range k).map fun j => c.low.getLsbD (31 - j)

theorem Coder.topBit_toNat (h : c.low.toNat < 2 ^ 32) : (c.low.getLsbD 31).toNat = c.low.toNat / 2 ^ 31 := by
  rw [BitVec.getLsbD, Nat.toNat_testBit]
  omega

/-- One turn of `enc_norm` after its bit is pushed. -/
def Coder.doubled (low : Nat) (c : Coder) : Coder := { c with low := reg64 low, range := reg64 (2 * c.range.toNat) }

theorem encNormTurns_of_low (fuel : Nat) (h : c.range.toNat ≤ 2 ^ 31) :
    encNormTurns (fuel + 1) c =
      (pushBit (c.low.getLsbD 31) c >>= fun d => encNormTurns fuel (d.doubled (2 * d.low.toNat % 2 ^ 32))) :=
  if_pos h

theorem encNormTurns_of_high (fuel : Nat) (h : 2 ^ 31 < c.range.toNat) : encNormTurns fuel c = .ok c := by
  cases fuel with
  | zero => rfl
  | succ fuel => exact if_neg (by simp only [Config.half]; omega)

/-- From `c` to `d` the window was doubled `k` times, the bits shifted out pushed. -/
structure Coder.normalisesTo (k : Nat) (c d : Coder) : Prop where
  range : d.range.toNat = 2 ^ k * c.range.toNat
  low : d.low.toNat = 2 ^ k * c.low.toNat % 2 ^ 32
  pend : d.pend = c.pend ++ c.topBits k
  pendLow : d.pendLow = 2 ^ k * c.pendLow
  qlen : d.qlen.toNat ≤ c.qlen.toNat + k
  qpos : d.qpos.toNat < 128
  carry : c.carryReady → d.carryReady

theorem Coder.normalisesTo.refl (hlow : c.low.toNat < 2 ^ 32) (hpos : c.qpos.toNat < 128) : c.normalisesTo 0 c where
  range := (Nat.one_mul _).symm
  low := by rw [Nat.pow_zero, Nat.one_mul, Nat.mod_eq_of_lt hlow]
  pend := (List.append_nil _).symm
  pendLow := (Nat.one_mul _).symm
  qlen := le_rfl
  qpos := hpos
  carry := id

theorem Coder.normalisesTo.pend_length {k : Nat} (h : c.normalisesTo k d) : d.pend.length = c.pend.length + k := by
  rw [h.pend, List.length_append, Coder.topBits, List.length_map, List.length_range]

/-- One turn: the top bit of `LOW` moves to the pending bits, and where it is 1 the carry it may meet was absorbable before. -/
theorem Coder.pushes.doubled (h : c.pushes (c.low.getLsbD 31) d) (hsame : c.queueOnly d) (hlow : c.low.toNat < 2 ^ 32)
    (hrange : c.range.toNat ≤ 2 ^ 31) : c.normalisesTo 1 (d.doubled (2 * d.low.toNat % 2 ^ 32)) := by
  obtain ⟨hdlow, hdrange, -⟩ := hsame
  have hbit := Coder.topBit_toNat hlow
  have hlow' : (d.doubled (2 * d.low.toNat % 2 ^ 32)).low.toNat = 2 * c.low.toNat % 2 ^ 32 := by
    rw [hdlow]
    exact reg64_toNat _ (by omega)
  have hrange' : (d.doubled (2 * d.low.toNat % 2 ^ 32)).range.toNat = 2 * c.range.toNat := by
    rw [← hdrange]
    exact reg64_toNat _ (by rw [hdrange]; omega)
  have hpend : (d.doubled (2 * d.low.toNat % 2 ^ 32)).pend = d.pend := Coder.pend_congr rfl rfl rfl
  refine ⟨hrange', hlow', by rw [hpend, h.pend]; rfl, ?_, h.qlen, h.qpos, fun hready hreach => h.carry ?_⟩
  · rw [Coder.pendLow, hpend, h.pend, bitsValue_concat, hlow', hbit, Coder.pendLow]
    omega
  · rw [hlow', hrange'] at hreach
    simp only [Config.norm] at hreach
    cases hb : c.low.getLsbD 31
    · exact .inl rfl
    · rw [hb, Bool.toNat_true] at hbit
      exact .inr (hready (by simp only [Config.norm]; omega))

theorem Coder.topBits_succ {k : Nat} (hlow : d.low.toNat = 2 * c.low.toNat % 2 ^ 32) (hk : k ≤ 31) :
    c.topBits (k + 1) = c.topBits 1 ++ d.topBits k := by
  rw [Coder.topBits, List.range_succ_eq_map, List.map_cons, List.map_map]
  refine congrArg _ (List.map_congr_left fun j hj => ?_)
  have hj := List.mem_range.mp hj
  simp only [Function.comp_apply, BitVec.getLsbD, hlow]
  rw [Nat.testBit_mod_two_pow, show 31 - j = 31 - j.succ + 1 by omega, Nat.testBit_succ]
  simp
  omega

theorem Coder.normalisesTo.trans {k : Nat} (h : c.normalisesTo 1 d) (h' : d.normalisesTo k e) (hk : k ≤ 31) :
    c.normalisesTo (k + 1) e where
  range := by rw [h'.range, h.range, ← Nat.mul_assoc, ← Nat.pow_add]
  low := by rw [h'.low, h.low, Nat.mul_mod_mod, ← Nat.mul_assoc, ← Nat.pow_add]
  pend := by rw [h'.pend, h.pend, List.append_assoc, Coder.topBits_succ (by rw [h.low, Nat.pow_one]) hk]
  pendLow := by rw [h'.pendLow, h.pendLow, ← Nat.mul_assoc, ← Nat.pow_add]
  qlen := by
    have := h.qlen
    have := h'.qlen
    omega
  qpos := h'.qpos
  carry hc := h'.carry (h.carry hc)

theorem encNormTurns_normalises (fuel : Nat) (hfuel : fuel ≤ 32) (hrange : c.range.toNat ≤ 2 ^ 32)
    (hreach : 2 ^ 31 < 2 ^ fuel * c.range.toNat) (hlow : c.low.toNat < 2 ^ 32) (hpos : c.qpos.toNat < 128)
    (hlen : c.qlen.toNat + fuel < 128) (hpend : c.pend.length + fuel < 2 ^ 64) :
    ∃ d k, encNormTurns fuel c = .ok d ∧ k ≤ fuel ∧ c.normalisesTo k d ∧ 2 ^ 31 < d.range.toNat ∧ d.range.toNat ≤ 2 ^ 32 := by
  induction fuel generalizing c with
  | zero => exact ⟨c, 0, rfl, le_rfl, .refl hlow hpos, by omega, hrange⟩
  | succ fuel ih =>
    by_cases hhigh : 2 ^ 31 < c.range.toNat
    · exact ⟨c, 0, encNormTurns_of_high _ hhigh, Nat.zero_le _, .refl hlow hpos, hhigh, hrange⟩
    obtain ⟨d, hd, hpushes⟩ := pushBit_pushes (c.low.getLsbD 31) hpos (by omega) (by omega)
    have hturn := hpushes.doubled (Run.leaves_of_ok id c.queueOnly _ _ (pushBit_queueOnly ..) hd) hlow (by omega)
    have hlength := hturn.pend_length
    have hqlen := hturn.qlen
    have hwidth := hturn.range
    obtain ⟨e, k, he, hk, hrest, hhigh', hnorm⟩ := ih (by omega) (by omega)
      (by rw [hwidth, Nat.pow_one, ← Nat.mul_assoc, ← Nat.pow_succ]; exact hreach)
      (by rw [hturn.low]; exact Nat.mod_lt _ (by omega)) hturn.qpos (by omega) (by omega)
    refine ⟨e, k + 1, ?_, by omega, hturn.trans hrest (by omega), hhigh', hnorm⟩
    rw [encNormTurns_of_low fuel (by omega), hd]
    exact he

theorem encNorm_of_zero (h : c.range = 0) : encNorm c = .error (.stuck .endlessLoop) := if_pos h

/-- `enc_norm` takes at most 32 turns and leaves `RANGE` above `HALF` (R154). -/
theorem encNorm_normalises (hpos : 1 ≤ c.range.toNat) (hrange : c.range.toNat ≤ 2 ^ 32) (hlow : c.low.toNat < 2 ^ 32)
    (hqpos : c.qpos.toNat < 128) (hlen : c.qlen.toNat + 32 < 128) (hpend : c.pend.length + 32 < 2 ^ 64) :
    ∃ d k, encNorm c = .ok d ∧ k ≤ 32 ∧ c.normalisesTo k d ∧ 2 ^ 31 < d.range.toNat ∧ d.range.toNat ≤ 2 ^ 32 := by
  have h0 : c.range ≠ 0 := by
    rintro h
    rw [h] at hpos
    cases hpos
  rw [encNorm, if_neg h0]
  exact encNormTurns_normalises 32 le_rfl hrange (by omega) hlow hqpos hlen hpend

/-! ### Scaling (R160, R161) -/

theorem scaled_mono {x y : Nat} (h : x ≤ y) : scaled range x den ≤ scaled range y den :=
  Nat.div_le_div_right (Nat.mul_le_mul_left _ h)

theorem scaled_zero (range den : Nat) : scaled range 0 den = 0 := by rw [scaled, Nat.mul_zero, Nat.zero_div]

theorem scaled_den (h : 0 < den) : scaled range den den = range := Nat.mul_div_cancel _ h

/-! ### Narrowing (R157) -/

/-- From `c` to `d` the window was narrowed to its part from `off` up to `top`, with or without a carry. -/
structure Coder.narrowsTo (off top : Nat) (c d : Coder) : Prop where
  range : d.range.toNat = top - off
  low : d.low.toNat = (c.low.toNat + off) % 2 ^ 32
  length : d.pend.length = c.pend.length
  pendLow : d.pendLow = c.pendLow + off
  qlen : d.qlen.toNat ≤ c.qlen.toNat + 1
  qpos : d.qpos = c.qpos
  carry : d.carryReady

/-- A window with the low end and the width replaced. -/
def Coder.withWindow (low width : Nat) (c : Coder) : Coder := { c with low := reg64 low, range := reg64 width }

theorem Coder.withWindow_pend (low width : Nat) (c : Coder) : (c.withWindow low width).pend = c.pend :=
  Coder.pend_congr rfl rfl rfl

/-- A carry leaves the new window alone. -/
theorem carry_withWindow (low width : Nat) (hwf : c.qcount.wf (unlisted .qcount 64) = true) (hlen : c.qlen.toNat < 128)
    (h : c.canCarry) : ∃ d, carry (c.withWindow low width) = .ok d ∧ c.carries d ∧ d.low = reg64 low ∧ d.range = reg64 width := by
  obtain ⟨d, hd, hcarries⟩ := carry_carries (c := c.withWindow low width) hwf hlen h
  obtain ⟨hlow, hrange, -⟩ := Run.leaves_of_ok id (c.withWindow low width).queueOnly _ _ (carry_queueOnly _) hd
  obtain ⟨hpend, hqlen, hqpos⟩ := hcarries
  rw [Coder.withWindow_pend] at hpend
  exact ⟨d, hd, ⟨hpend, hqlen, hqpos⟩, hlow, hrange⟩

theorem narrow_eq (lo hi den : Nat) (c : Coder) :
    narrow lo hi den c =
      if Config.norm ≤ c.low.toNat + scaled c.range.toNat lo den then
        carry (c.withWindow (c.low.toNat + scaled c.range.toNat lo den - Config.norm)
          (scaled c.range.toNat hi den - scaled c.range.toNat lo den))
      else .ok (c.withWindow (c.low.toNat + scaled c.range.toNat lo den)
          (scaled c.range.toNat hi den - scaled c.range.toNat lo den)) := rfl

theorem narrow_narrows (hwf : c.qcount.wf (unlisted .qcount 64) = true) (hlen : c.qlen.toNat < 128) (hlow : c.low.toNat < 2 ^ 32)
    (hhigh : 2 ^ 31 < c.range.toNat) (hrange : c.range.toNat ≤ 2 ^ 32) (hready : c.carryReady)
    (hint : legalInterval lo hi den = true) :
    ∃ d, narrow lo hi den c = .ok d ∧ c.narrowsTo (scaled c.range.toNat lo den) (scaled c.range.toNat hi den) d := by
  obtain ⟨hlo, hhi, hden⟩ := (legalInterval_iff ..).mp hint
  obtain ⟨hlt, hle⟩ := scaled_lt_scaled c.range.toNat lo hi den hlo hhi (by omega)
  rw [narrow_eq, show Config.norm = 2 ^ 32 from rfl]
  generalize scaled c.range.toNat lo den = off at *
  generalize scaled c.range.toNat hi den = top at *
  have hwidth (low : Nat) : (c.withWindow low (top - off)).range.toNat = top - off := reg64_toNat _ (by omega)
  have hbase {low : Nat} (h : low < 2 ^ 64) : (c.withWindow low (top - off)).low.toNat = low := reg64_toNat _ h
  split
  · obtain ⟨d, hd, hcarries, hdlow, hdrange⟩ := carry_withWindow (c.low.toNat + off - 2 ^ 32) (top - off) hwf hlen
      (hready (by simp only [Config.norm]; omega))
    have hdlow : d.low.toNat = c.low.toNat + off - 2 ^ 32 := by rw [hdlow, reg64_toNat _ (by omega)]
    have hdrange : d.range.toNat = top - off := by rw [hdrange, reg64_toNat _ (by omega)]
    refine ⟨d, hd, hdrange, by omega, hcarries.length_eq, ?_, hcarries.qlen.le, hcarries.qpos, fun hreach => ?_⟩
    · rw [Coder.pendLow, hcarries.bitsValue_eq, hdlow, Coder.pendLow]
      omega
    · simp only [Config.norm] at hreach
      omega
  · refine ⟨_, rfl, hwidth _, ?_, ?_, ?_, Nat.le_succ _, rfl, fun hreach => hready ?_⟩
    · rw [hbase (by omega), Nat.mod_eq_of_lt (by omega)]
    · rw [Coder.withWindow_pend]
    · rw [Coder.pendLow, Coder.withWindow_pend, hbase (by omega), Coder.pendLow, Nat.add_assoc]
    · rw [hbase (by omega), hwidth] at hreach
      omega

end Sys2Proof.Machine

open Sys2Proof Sys2Proof.Machine

/-- Settles O35: each turn doubles the window and moves the top bit of `LOW` to the pending bits. -/
theorem encoderNormalises : Obligations.EncoderNormalises := by
  refine ⟨fun c h => encNorm_of_zero h, fun c hpos hrange hlow hqpos hlen hpend => ?_⟩
  obtain ⟨d, k, hd, hk, hnorm, hhigh, hle⟩ := encNorm_normalises hpos hrange hlow hqpos (by omega) (by omega)
  exact ⟨d, k, hd, hk, hnorm.range, hhigh, hle, hnorm.low, hnorm.pend⟩

/-- Settles O36: floor division by `den` is monotone, and `RANGE` is not below `den`. -/
theorem scalingGivesDisjointSubWindows : Obligations.ScalingGivesDisjointSubWindows := by
  intro range lo hi den hhigh hrange hint
  obtain ⟨hlo, hhi, hden⟩ := (legalInterval_iff ..).mp hint
  obtain ⟨hlt, hle⟩ := scaled_lt_scaled range lo hi den hlo hhi (by omega)
  refine ⟨rfl, hlt, hle, scaled_zero .., scaled_den (by omega), ?_, fun lo2 h => scaled_mono h⟩
  calc range * hi ≤ 2 ^ 32 * (2 ^ 31 + 1) := Nat.mul_le_mul hrange (hhi.trans hden)
    _ < 2 ^ 64 := by norm_num

/-- Settles O38: a carry moves `NORM` from `LOW` to the pending bits, so the lower end rises by `off` either way. -/
theorem narrowedWindowLiesInsideTheOldOne : Obligations.NarrowedWindowLiesInsideTheOldOne := by
  intro c lo hi den hwf hpos hlen hlow hhigh hrange hready hint
  obtain ⟨hlo, hhi, hden⟩ := (legalInterval_iff ..).mp hint
  obtain ⟨hlt, hle⟩ := scaled_lt_scaled c.range.toNat lo hi den hlo hhi (by omega)
  obtain ⟨d, hd, hnarrows⟩ := narrow_narrows hwf hlen hlow hhigh hrange hready hint
  have hlow' : d.pendLow = c.pendLow + scaled c.range.toNat lo den := hnarrows.pendLow
  have hwidth := hnarrows.range
  refine ⟨d, hd, ?_, hlow', hwidth, ?_⟩
  · rw [hnarrows.low]
    exact Nat.mod_lt _ (by omega)
  · change d.pendLow + _ ≤ c.pendLow + _
    omega
end

section
/-! PROOFS. `encode` and `finish` on a ready encoder (R157, R159, R165): what they write, and that only a full text stops them.
Settles O37, O39 and O44. -/

namespace Sys2Proof.Machine

variable {port : TextPort} {tmax lo hi den k i : Nat} {b1 b0 : Bool} {s t : State} {c d e f : Coder}

/-- Such a run together with conditions that hold where it ends. -/
theorem Run.unlessFull_and_ends {σ α : Type} {full : Prop} {P ok : α → Prop} {bad : FaultCode → σ → Prop} {x : Run σ α}
    (hx : x.unlessFull full P) (h : Run.ends ok bad x) : x.unlessFull full fun a => P a ∧ ok a := by
  rcases x with e | a
  · cases e <;> exact hx
  · exact ⟨hx, h⟩

/-! ### Every bit of the encoder -/

/-- The bits the encoder has produced since the cursor stood at `i`: those of the serialiser, then the pending ones (R159). -/
def Coder.produced (port : TextPort) (i : Nat) (c : Coder) : List Bool := c.output port i ++ c.pend

/-- The lower end of the window in units of the last place (R159). -/
def Coder.lowEnd (port : TextPort) (i : Nat) (c : Coder) : Nat := bitsValue (c.produced port i) * 2 ^ 32 + c.low.toNat

theorem Coder.lowEnd_eq (port : TextPort) (i : Nat) (c : Coder) :
    c.lowEnd port i = bitsValue (c.output port i) * 2 ^ (c.pend.length + 32) + c.pendLow := by
  rw [Coder.lowEnd, Coder.produced, bitsValue_append, Coder.pendLow, Nat.pow_add]
  ring

theorem Coder.output_of_windowOnly (h : c.windowOnly d) : d.output port i = c.output port i := by
  obtain ⟨hacc, hcnt, -, htlen, htext, -⟩ := h
  exact Coder.output_congr htlen htext hacc hcnt

theorem Coder.fill_of_windowOnly (h : c.windowOnly d) : d.fill = c.fill := by
  obtain ⟨-, hcnt, hchars, htlen, -⟩ := h
  rw [Coder.fill, hcnt, hchars, htlen, ← Coder.fill]

theorem Coder.serialOk_of_windowOnly (hc : c.serialOk) (h : c.windowOnly d) : d.serialOk := by
  obtain ⟨hacc, hcnt, -⟩ := h
  rwa [Coder.serialOk, hacc, hcnt]

theorem Coder.queueOnly.windowOnly (h : c.queueOnly d) : c.windowOnly d := by
  obtain ⟨-, -, h⟩ := h
  exact h

/-! ### Normalising -/

/-- From `c` to `d` the encoder normalised, in `k` turns. -/
structure Coder.normalised (k : Nat) (c d : Coder) : Prop where
  turns : k ≤ 32
  steps : c.normalisesTo k d
  same : c.windowOnly d
  high : 2 ^ 31 < d.range.toNat
  encoder : d.encoderOk 34

theorem encNorm_normalised (h : c.sound .encoding) (hpend : c.pend.length + 32 < 2 ^ 64) :
    ∃ d k, encNorm c = .ok d ∧ c.normalised k d := by
  obtain ⟨hring, -, -, hlow, hpos, hrange, hlen⟩ := h
  obtain ⟨d, k, hd, hk, hsteps, hhigh, -⟩ := encNorm_normalises hpos hrange hlow hring.qpos (by omega) hpend
  obtain ⟨hencoder, -⟩ := Run.ends_of_ok (encNorm_ends c ⟨hring, hlen, hlow, hrange⟩) hd
  exact ⟨d, k, hd, hk, hsteps, Run.leaves_of_ok id c.windowOnly _ _ (encNorm_windowOnly c) hd, hhigh, hencoder⟩

theorem Coder.normalised.produced (h : c.normalised k d) : d.produced port i = c.produced port i ++ c.topBits k := by
  rw [Coder.produced, Coder.output_of_windowOnly h.same, h.steps.pend, ← List.append_assoc, ← Coder.produced]

theorem Coder.normalised.lowEnd (h : c.normalised k d) : d.lowEnd port i = 2 ^ k * c.lowEnd port i := by
  rw [Coder.lowEnd_eq, Coder.output_of_windowOnly h.same, h.steps.pend_length, h.steps.pendLow, Coder.lowEnd_eq]
  ring

/-! ### `encode` (R157) -/

/-- `encode` of a legal interval took a normalised coder `d` to `f`. -/
structure Coder.codesInterval (port : TextPort) (lo hi den : Nat) (d f : Coder) : Prop where
  sound : f.sound .encoding
  ready : f.carryReady
  low : f.low.toNat = (d.low.toNat + scaled d.range.toNat lo den) % 2 ^ 32
  range : f.range.toNat = scaled d.range.toNat hi den - scaled d.range.toNat lo den
  tlen : d.tlen.toNat ≤ f.tlen.toNat
  length : ∀ i ≤ d.tlen.toNat, (f.produced port i).length = (d.produced port i).length
  lowEnd : ∀ i ≤ d.tlen.toNat, f.lowEnd port i = d.lowEnd port i + scaled d.range.toNat lo den
  fill : f.fill + 82 * f.pend.length ≤ d.fill + 82 * d.pend.length

/-- Narrowing, then draining all but two runs. -/
theorem Coder.narrowsTo.codesInterval (he : d.narrowsTo (scaled d.range.toNat lo den) (scaled d.range.toNat hi den) e)
    (hsame : d.windowOnly e) (hf : e.drains port f) (hout : e.outputOnly f) (hlen : f.qlen.toNat = min 2 e.qlen.toNat)
    (hsound : f.sound .encoding) : d.codesInterval port lo hi den f := by
  obtain ⟨hlow, hrange, -⟩ := hout
  have htlen : e.tlen = d.tlen := hsame.2.2.2.1
  have houtput {i : Nat} : e.output port i = d.output port i := Coder.output_of_windowOnly hsame
  have hbits {i : Nat} (hi : i ≤ d.tlen.toNat) : f.produced port i = e.produced port i := hf.bits i (htlen ▸ hi)
  refine ⟨hsound, fun hreach => ?_, hlow ▸ he.low, hrange ▸ he.range, htlen ▸ hf.tlen, fun i hi => ?_, fun i hi => ?_, ?_⟩
  · exact hf.canCarry hlen (he.carry (by rwa [hlow, hrange] at hreach))
  · rw [hbits hi, Coder.produced, Coder.produced, List.length_append, List.length_append, houtput, he.length]
  · rw [Coder.lowEnd, hbits hi, hlow, ← Coder.lowEnd, Coder.lowEnd_eq, Coder.lowEnd_eq, houtput, he.length, he.pendLow,
      Nat.add_assoc]
  · rw [← Coder.fill_of_windowOnly hsame, ← he.length]
    exact hf.fill

theorem encode64_of_legal (hint : legalInterval lo hi den = true) (hlen : c.qlen.toNat ≤ 63) :
    encode64 tmax lo hi den c = (encNorm c >>= fun d => narrow lo hi den d >>= drain tmax 2) := by
  rw [encode64, if_pos hint, if_neg (by simp only [Config.qmask]; omega)]

/-- `encode` on a ready encoder goes wrong only where the text is full (R152, R159). -/
theorem encode64_codesInterval (port : TextPort) (htmax : tmax < 2 ^ 64) (h : c.sound .encoding) (hready : c.carryReady)
    (hpend : c.pend.length < 2 ^ 62) (hint : legalInterval lo hi den = true) :
    ∃ d k, encNorm c = .ok d ∧ c.normalised k d ∧
      (encode64 tmax lo hi den c).unlessFull (480 * tmax < c.fill + 82 * (c.pend.length + k)) (d.codesInterval port lo hi den) := by
  obtain ⟨d, k, hd, hnorm⟩ := encNorm_normalised h (by omega)
  have hclen := h.window.2.2.2
  have hdpos := hnorm.encoder.ring.qpos
  have hdlen := hnorm.encoder.qlen
  obtain ⟨e, he, hnarrows⟩ := narrow_narrows hnorm.encoder.ring.wf (by omega) hnorm.encoder.low hnorm.high hnorm.encoder.range
    (hnorm.steps.carry hready) hint
  have hesame : d.windowOnly e := Run.leaves_of_ok id d.windowOnly _ _ (narrow_windowOnly lo hi den d) he
  have heserial := Coder.serialOk_of_windowOnly (Coder.serialOk_of_windowOnly h.serial hnorm.same) hesame
  have helen := hnarrows.qlen
  have hrun : encode64 tmax lo hi den c = drain tmax 2 e := by
    rw [encode64_of_legal hint (by omega), hd, Run.ok_bind, he, Run.ok_bind]
  have hends := encode64_ends tmax lo hi den c h
  rw [hrun] at hends
  refine ⟨d, k, hd, hnorm, ?_⟩
  rw [hrun]
  refine Run.unlessFull_mono (Run.unlessFull_and_ends (Run.unlessFull_and_leaves
    (drain_drains port htmax 2 (by omega) (hnarrows.qpos ▸ hdpos) heserial) (drain_outputOnly ..)) hends) ?_ ?_
  · rw [Coder.fill_of_windowOnly hesame, Coder.fill_of_windowOnly hnorm.same, hnarrows.length, hnorm.steps.pend_length]
    exact id
  · rintro f ⟨⟨⟨hdrains, hflen⟩, hout⟩, hsound⟩
    exact hnarrows.codesInterval hesame hdrains hout hflen hsound

/-- A ready encoder over a canonical `QCOUNT` (R35, R159). -/
theorem Coder.encReady_iff (hwf : c.qcount.wf (unlisted .qcount 64) = true) :
    c.encReady ↔ c.sound .encoding ∧ c.carryReady := by
  rw [Coder.sound_iff]
  exact ⟨fun h => ⟨⟨hwf, h.1⟩, h.2⟩, fun h => ⟨h.1.2, h.2⟩⟩

theorem Coder.codesInterval.encReady (h : d.codesInterval port lo hi den f) : f.encReady :=
  (Coder.encReady_iff h.sound.ring.wf).mpr ⟨h.sound, h.ready⟩

/-! ### `finish` (R165) -/

/-- `ceil(LOW / 2^30)`. -/
def Coder.quarter (c : Coder) : Nat := (c.low.toNat + 2 ^ 30 - 1) / 2 ^ 30

theorem flush_of_quarter (h : c.quarter ≠ 4) :
    flush tmax c = flushBits tmax (c.quarter.testBit 1) (c.quarter.testBit 0) c := by
  rw [flush_eq]
  exact if_neg h

theorem flush_of_carry (h : c.quarter = 4) (hd : carry c = .ok d) :
    flush tmax c = flushBits tmax (Nat.testBit 0 1) (Nat.testBit 0 0) d := by
  rw [flush_eq]
  refine (if_pos h).trans ?_
  rw [hd, Run.ok_bind, Nat.zero_testBit, Nat.zero_testBit]

/-- After the flush: no queue, no unfinished character; the text holds every bit, the two flush bits and at most five 1-bits. -/
structure Coder.flushed (port : TextPort) (b1 b0 : Bool) (c f : Coder) : Prop where
  qlen : f.qlen.toNat = 0
  ocnt : f.ocnt.toNat = 0
  tlen : c.tlen.toNat ≤ f.tlen.toNat
  text : ∃ n ≤ 5, ∀ i ≤ c.tlen.toNat, f.textBits port i f.tlen.toNat = c.produced port i ++ [b1, b0] ++ List.replicate n true

/-- From `c` to `d` the queue took `bits`, the serialiser untouched. -/
structure Coder.queues (bits : List Bool) (c d : Coder) : Prop where
  same : c.windowOnly d
  pend : d.pend = c.pend ++ bits
  qlen : d.qlen.toNat ≤ c.qlen.toNat + bits.length
  qpos : d.qpos.toNat < 128

theorem Coder.queues.trans {bits bits' : List Bool} (h : c.queues bits d) (h' : d.queues bits' e) :
    c.queues (bits ++ bits') e where
  same := by simp_all only [h.same, h'.same, Coder.windowOnly, and_self]
  pend := by rw [h'.pend, h.pend, List.append_assoc]
  qlen := by
    have := h.qlen
    have := h'.qlen
    rw [List.length_append]
    omega
  qpos := h'.qpos

theorem Coder.queues.length {bits : List Bool} (h : c.queues bits d) : d.pend.length = c.pend.length + bits.length := by
  rw [h.pend, List.length_append]

theorem Coder.queues.produced {bits : List Bool} (h : c.queues bits d) : d.produced port i = c.produced port i ++ bits := by
  rw [Coder.produced, Coder.output_of_windowOnly h.same, h.pend, ← List.append_assoc, ← Coder.produced]

theorem pushBit_queues (b : Bool) (hpos : c.qpos.toNat < 128) (hlen : c.qlen.toNat < 128) (hpend : c.pend.length + 1 < 2 ^ 64) :
    ∃ d, pushBit b c = .ok d ∧ c.queues [b] d := by
  obtain ⟨d, hd, hpushes⟩ := pushBit_pushes b hpos hlen hpend
  have hsame : c.queueOnly d := Run.leaves_of_ok id c.queueOnly _ _ (pushBit_queueOnly b c) hd
  exact ⟨d, hd, hsame.windowOnly, hpushes.pend, hpushes.qlen, hpushes.qpos⟩

theorem pad_keeps_qlen (tmax : Nat) (c : Coder) : Run.leaves id (fun d => d.qlen = c.qlen) (pad tmax c) := by
  refine (Run.leaves_iff_ends ..).mpr (Run.ends_mono
    (padTurns_ends (P := fun d => d.qlen = c.qlen) (Q := fun _ d => d.qlen = c.qlen) tmax (fun d hd => ?_) 5 c rfl)
    (fun _ hd => hd.1) fun _ _ hd => hd)
  exact (Run.leaves_iff_ends id ..).mp (Run.leaves_mono _ _ _ _ (fun e he => he.2.2.2.1.trans hd) (outBit_serialiserOnly ..))

theorem flushBits_flushed (port : TextPort) (htmax : tmax < 2 ^ 64) (b1 b0 : Bool) (hpos : c.qpos.toNat < 128)
    (hlen : c.qlen.toNat + 2 ≤ 128) (hpend : c.pend.length + 2 < 2 ^ 64) (hserial : c.serialOk) :
    (flushBits tmax b1 b0 c).unlessFull (480 * tmax < c.fill + 82 * (c.pend.length + 7)) (c.flushed port b1 b0) := by
  obtain ⟨d, hd, hqueues⟩ := pushBit_queues b1 hpos (by omega) (by omega)
  have hdlen := hqueues.qlen
  have hdpend := hqueues.length
  rw [List.length_singleton] at hdlen hdpend
  obtain ⟨e, he, hqueues'⟩ := pushBit_queues b0 hqueues.qpos (by omega) (by omega)
  obtain ⟨hsame, hpend', hqlen, hqpos⟩ := hqueues.trans hqueues'
  have hproduced {i : Nat} := (hqueues.trans hqueues').produced (port := port) (i := i)
  have hepend := (hqueues.trans hqueues').length
  have hefill := Coder.fill_of_windowOnly hsame
  have hetlen : e.tlen.toNat = c.tlen.toNat := congrArg _ hsame.2.2.2.1
  simp only [List.length_append, List.length_singleton] at hqlen hepend
  rw [flushBits, hd, Run.ok_bind, he, Run.ok_bind]
  refine Run.unlessFull_bind (Run.unlessFull_mono
    (drain_drains port htmax 0 (by omega) hqpos (Coder.serialOk_of_windowOnly hserial hsame)) (by omega) fun _ hf => hf) ?_
  rintro f ⟨hf, hflen⟩
  have hffill := hf.fill
  have hftlen := hf.tlen
  refine Run.unlessFull_mono (Run.unlessFull_and_leaves (pad_emits port htmax hf.serial) (pad_keeps_qlen tmax f)) (by omega) ?_
  rintro g ⟨⟨h0, n, hn, hg⟩, hglen⟩
  have hgtlen := hg.tlen
  refine ⟨by rw [hglen]; omega, h0, by omega, n, hn, fun i hi => ?_⟩
  have hfpend : f.pend = [] := Coder.pend_eq (by omega)
  have hbits : f.output port i = e.produced port i := by
    rw [Coder.produced, ← hf.bits i (by omega), hfpend, List.append_nil]
  have hgout := hg.output i (by omega)
  rwa [Coder.output, Coder.partialBits_of_ocnt_zero h0, List.append_nil, hbits, hproduced] at hgout

theorem Coder.quarter_le (h : c.low.toNat < 2 ^ 32) : c.quarter ≤ 4 := by
  unfold Coder.quarter
  omega

/-- The quarter the flush names lies inside the window of a normalised coder (R174). -/
theorem Coder.quarter_inside (h : 2 ^ 31 < c.range.toNat) :
    c.low.toNat ≤ c.quarter * 2 ^ 30 ∧ (c.quarter + 1) * 2 ^ 30 < c.low.toNat + c.range.toNat := by
  unfold Coder.quarter
  omega

theorem bitsValue_testBits : ∀ p < 4, bitsValue [p.testBit 1, p.testBit 0] = p := by decide

/-- The flush of a normalised `c` starts from `d` with the quarter `p`: `d` is `c`, or `c` after a carry where the quarter is 4. -/
structure Coder.flushesFrom (c : Coder) (p : Nat) (d : Coder) : Prop where
  quarter : p < 4
  choice : d = c ∧ p = c.quarter ∨ carry c = .ok d ∧ p = 0 ∧ c.quarter = 4
  run : ∀ tmax, flush tmax c = flushBits tmax (p.testBit 1) (p.testBit 0) d
  same : c.windowOnly d
  length : d.pend.length = c.pend.length
  value : 4 * bitsValue d.pend + p = 4 * bitsValue c.pend + c.quarter
  qlen : d.qlen.toNat ≤ c.qlen.toNat + 1
  qpos : d.qpos = c.qpos

theorem Coder.exists_flushesFrom (hwf : c.qcount.wf (unlisted .qcount 64) = true) (hlen : c.qlen.toNat < 128)
    (hlow : c.low.toNat < 2 ^ 32) (hhigh : 2 ^ 31 < c.range.toNat) (hready : c.carryReady) : ∃ p d, c.flushesFrom p d := by
  have hle := Coder.quarter_le hlow
  have hinside := Coder.quarter_inside hhigh
  by_cases h4 : c.quarter = 4
  · rw [h4] at hinside
    obtain ⟨d, hd, hcarries⟩ := carry_carries hwf hlen (hready (by simp only [Config.norm]; omega))
    have hsame : c.queueOnly d := Run.leaves_of_ok id c.queueOnly _ _ (carry_queueOnly c) hd
    refine ⟨0, d, by omega, .inr ⟨hd, rfl, h4⟩, fun tmax => flush_of_carry h4 hd, hsame.windowOnly, hcarries.length_eq, ?_,
      hcarries.qlen.le, hcarries.qpos⟩
    rw [hcarries.bitsValue_eq, h4]
    omega
  · exact ⟨c.quarter, c, by omega, .inl ⟨rfl, rfl⟩, fun tmax => flush_of_quarter h4, ⟨rfl, rfl, rfl, rfl, rfl, rfl, rfl, rfl⟩,
      rfl, rfl, Nat.le_succ _, rfl⟩

theorem Coder.flushesFrom.produced_length {p : Nat} (h : c.flushesFrom p d) :
    (d.produced port i).length = (c.produced port i).length := by
  rw [Coder.produced, Coder.produced, List.length_append, List.length_append, Coder.output_of_windowOnly h.same, h.length]

/-- With the flush bits, what is produced is the number of the quarter. -/
theorem Coder.flushesFrom.bitsValue_eq {p : Nat} (h : c.flushesFrom p d) :
    bitsValue (d.produced port i ++ [p.testBit 1, p.testBit 0]) = 4 * bitsValue (c.produced port i) + c.quarter := by
  have hvalue := h.value
  rw [bitsValue_append, bitsValue_testBits p h.quarter, Coder.produced, Coder.produced, bitsValue_append, bitsValue_append,
    Coder.output_of_windowOnly h.same, h.length]
  simp only [List.length_cons, List.length_nil]
  omega

/-- `finish` on a ready encoder goes wrong only where the text is full (R165). -/
theorem finish64_flushed (port : TextPort) (htmax : tmax < 2 ^ 64) (h : c.sound .encoding) (hready : c.carryReady)
    (hpend : c.pend.length < 2 ^ 62) :
    ∃ d k p e, encNorm c = .ok d ∧ c.normalised k d ∧ d.flushesFrom p e ∧
      (finish64 tmax c).unlessFull (480 * tmax < c.fill + 82 * (c.pend.length + k + 7))
        (e.flushed port (p.testBit 1) (p.testBit 0)) := by
  obtain ⟨d, k, hd, hnorm⟩ := encNorm_normalised h (by omega)
  have hdlen := hnorm.encoder.qlen
  have hlength := hnorm.steps.pend_length
  have hk := hnorm.turns
  obtain ⟨p, e, hflush⟩ := Coder.exists_flushesFrom hnorm.encoder.ring.wf (by omega) hnorm.encoder.low hnorm.high
    (hnorm.steps.carry hready)
  have helen := hflush.qlen
  refine ⟨d, k, p, e, hd, hnorm, hflush, ?_⟩
  rw [finish64, hd, Run.ok_bind, hflush.run, ← hlength, ← hflush.length, ← Coder.fill_of_windowOnly hnorm.same,
    ← Coder.fill_of_windowOnly hflush.same]
  exact flushBits_flushed port htmax _ _ (hflush.qpos ▸ hnorm.encoder.ring.qpos) (by omega) (by rw [hflush.length]; omega)
    (Coder.serialOk_of_windowOnly (Coder.serialOk_of_windowOnly h.serial hnorm.same) hflush.same)

/-! ### The commands -/

theorem exec_keeps_memWf {i : Instr} (hmem : s.memWf = true) (h : exec i s = .next t) : t.memWf = true := by
  rw [State.memWf_iff_forall] at hmem ⊢
  exact fun sp => ((exec_reaches i s t h).mem sp).wf (hmem sp)

theorem exec_rcenc_of_ok (hg : s.good) (hmode : s.status.rcmode = .encoding)
    (h : encode64 s.cfgTmax.toNat s.arg0.toNat s.arg1.toNat s.arg2.toNat s.coder = .ok c) :
    exec .rcenc s = .next (s.startCommand.withCoder c).complete := by
  refine runCommand_of_ok rcencBody s _ hg ?_
  rw [rcencBody, encodeInterval, checkMode_of_eq (s := s.startCommand) hmode, Run.ok_bind]
  exact (onCoder_ok_iff ..).mpr ⟨c, h, rfl⟩

theorem rcfinBody_of_finished (h : s.status.rcmode = .finished) : rcfinBody s = .ok s := by
  rw [rcfinBody, h]

theorem State.withMode_self {m : RcMode} (h : s.status.rcmode = m) : s.withMode m = s := by
  subst h
  rfl

theorem exec_rcfin_of_decoding_or_finished (hg : s.good) (h : s.status.rcmode = .decoding ∨ s.status.rcmode = .finished) :
    exec .rcfin s = .next (s.startCommand.withMode .finished).complete := by
  refine runCommand_of_ok rcfinBody s _ hg ?_
  rcases h with h | h
  · exact rcfinBody_of_decoding (s := s.startCommand) h
  · rw [State.withMode_self (s := s.startCommand) h]
    exact rcfinBody_of_finished (s := s.startCommand) h

theorem exec_rcfin_of_ok (hg : s.good) (hmode : s.status.rcmode = .encoding)
    (h : finish64 s.cfgTmax.toNat s.coder = .ok c) :
    exec .rcfin s = .next ((s.startCommand.withCoder c).withMode .finished).complete := by
  refine runCommand_of_ok rcfinBody s _ hg ?_
  have hbody : rcfinBody s.startCommand =
      (onCoder s.startCommand (finish64 s.cfgTmax.toNat s.coder) >>= fun t => .ok (t.withMode .finished)) := by
    rw [rcfinBody, State.startCommand_status, hmode]
    rfl
  rw [hbody, h]
  rfl

end Sys2Proof.Machine

open Sys2Proof Sys2Proof.Machine

/-- Settles O37: with room for the pending bits and 32 more, the drain of `encode` does not meet the end of the text. -/
theorem encodeNarrowsTheWindow : Obligations.EncodeNarrowsTheWindow := by
  intro s hg hmem hparams hmode hready hint hpend hroom
  obtain ⟨-, -, -, -, -, -, -, -, -, -, -, hwf⟩ := (State.memWf_iff s).mp hmem
  obtain ⟨hsound, hcarry⟩ := (Coder.encReady_iff hwf).mp hready
  obtain ⟨d, k, hd, hnorm, hrun⟩ := encode64_codesInterval s.port s.cfgTmax.isLt hsound hcarry hpend hint
  have hfill := Coder.fill_le hsound.serial
  have hk := hnorm.turns
  obtain ⟨f, hf, hcodes⟩ := Run.unlessFull_completes hrun (by omega)
  have hexec := exec_rcenc_of_ok hg hmode hf
  exact ⟨_, d, hexec, State.sameRecord.complete ⟨rfl, rfl, rfl, rfl⟩ hg, hmode, hd, hcodes.range, hcodes.low,
    hcodes.sound.window.2.2.2, hcodes.encReady, exec_keeps_memWf hmem hexec⟩

/-- Settles O39: the queue bound holds, every carry finds its 0-bit, and the drain can only run out of text. -/
theorem readyEncoderNeverTakesAQueueFault : Obligations.ReadyEncoderNeverTakesAQueueFault := by
  intro tmax lo hi den c htmax hwf hready hpend hint
  obtain ⟨hsound, hcarry⟩ := (Coder.encReady_iff hwf).mp hready
  obtain ⟨d, k, -, -, hrun⟩ := encode64_codesInterval { tmax := tmax, powerUp := 0 } htmax hsound hcarry hpend hint
  rcases Run.unlessFull_cases hrun with ⟨f, hf, hcodes⟩ | hfull
  · exact .inl ⟨f, hf, hcodes.encReady, hcodes.sound.ring.wf⟩
  · exact .inr hfull

/-- Settles O44: the flush bits follow the pending bits, the whole queue is drained, and the last character is padded. -/
theorem finishFlushesTwoBitsAndPads : Obligations.FinishFlushesTwoBitsAndPads := by
  refine ⟨fun s hg hmode => ?_, fun s hg hmem hparams hmode hready hpend hroom => ?_⟩
  · have hfaulted : s.status.faulted = false := hg
    rw [exec_rcfin_of_decoding_or_finished hg hmode]
    simp only [State.complete, State.withMode, State.startCommand, hfaulted]
  · obtain ⟨-, -, -, -, -, -, -, -, -, -, -, hwf⟩ := (State.memWf_iff s).mp hmem
    obtain ⟨hsound, hcarry⟩ := (Coder.encReady_iff hwf).mp hready
    obtain ⟨d, k, p, e, hd, hnorm, hflush, hrun⟩ := finish64_flushed s.port s.cfgTmax.isLt hsound hcarry hpend
    have hfill := Coder.fill_le hsound.serial
    have hk := hnorm.turns
    obtain ⟨f, hf, hflushed⟩ := Run.unlessFull_completes hrun (by omega)
    obtain ⟨n, hn, htext⟩ := hflushed.text
    have htlen : e.tlen = s.coder.tlen := hflush.same.2.2.2.1.trans hnorm.same.2.2.2.1
    refine ⟨_, d, e, p, n, exec_rcfin_of_ok hg hmode hf, State.sameRecord.complete ⟨rfl, rfl, rfl, rfl⟩ hg, rfl, hflushed.qlen,
      hflushed.ocnt, hd, hflush.quarter, hn, hflush.choice, ?_⟩
    rw [htlen] at htext
    have houtput : e.output s.port s.coder.tlen.toNat = s.coder.partialBits := by
      rw [Coder.output_of_windowOnly hflush.same, Coder.output_of_windowOnly hnorm.same, Coder.output_self]
    rw [← houtput, ← Coder.produced]
    exact htext _ le_rfl
end

section
/-! PROOFS. The input bit stream (R169), and the decoder's operations on it (R170 to R172). Settles O40, O41 and O42. -/

namespace Sys2Proof.Machine

variable {port : TextPort} {b : Bool} {lo hi den fuel k m n : Nat} {s : State} {c d e : Coder} {v : Option (BitVec 6)}

/-! ### The characters ahead of the parser (R169) -/

theorem textChars_head (port : TextPort) (c : Coder) (i len : Nat) :
    textChars port c i (len + 1) =
      (alphabetValue (fetch .text port.powerUp c.text i)).toList ++ textChars port c (i + 1) len := by
  rw [textChars, List.range_succ_eq_map, List.filterMap_cons, List.filterMap_map, Nat.add_zero]
  have hrest : (List.range len).filterMap ((fun k => alphabetValue (fetch .text port.powerUp c.text (i + k))) ∘ Nat.succ) =
      textChars port c (i + 1) len := List.filterMap_congr fun k _ => by
    rw [Function.comp_apply, Nat.succ_eq_add_one, Nat.add_comm k, ← Nat.add_assoc]
  cases alphabetValue (fetch .text port.powerUp c.text i) <;> rw [hrest] <;> rfl

/-- The alphabet characters of `TEXT[TPOS..TLEN)`. -/
def Coder.ahead (port : TextPort) (c : Coder) : List (BitVec 6) :=
  textChars port c c.tpos.toNat (c.tlen.toNat - c.tpos.toNat)

/-- The parser with the cursor at another place. -/
def Coder.at (pos : Nat) (c : Coder) : Coder := { c with tpos := reg64 pos }

theorem Coder.at_tpos (c : Coder) {pos : Nat} (h : pos < 2 ^ 64) : (c.at pos).tpos.toNat = pos := reg64_toNat pos h

theorem Coder.at_succ (c : Coder) : { c with tpos := c.tpos + 1 } = c.at (c.tpos.toNat + 1) := by
  rw [Coder.at, reg64, BitVec.ofNat_add, BitVec.ofNat_toNat, BitVec.setWidth_eq]
  rfl

theorem Coder.ahead_at {pos : Nat} (h : pos < 2 ^ 64) :
    (c.at pos).ahead port = textChars port c pos (c.tlen.toNat - pos) := by
  rw [Coder.ahead, Coder.at_tpos c h]
  rfl

section Loop

variable (hpos : c.tpos.toNat < c.tlen.toNat) (hmax : c.tpos.toNat < port.tmax)

include hpos hmax

theorem fetchChar_of_char {x : BitVec 6} (h : alphabetValue (fetch .text port.powerUp c.text c.tpos.toNat) = some x) :
    fetchChar port (fuel + 1) c = .ok (some x, c.at (c.tpos.toNat + 1)) := by
  rw [fetchChar, if_pos hpos, if_neg (by omega), Coder.at_succ]
  dsimp only
  rw [h]

theorem fetchChar_of_skip (h : alphabetValue (fetch .text port.powerUp c.text c.tpos.toNat) = none) :
    fetchChar port (fuel + 1) c = fetchChar port fuel (c.at (c.tpos.toNat + 1)) := by
  rw [fetchChar, if_pos hpos, if_neg (by omega), Coder.at_succ]
  dsimp only
  rw [h]

end Loop

/-- The skipping loop answers the next alphabet character, and none only at `TLEN` (R169). -/
theorem fetchChar_reads (hlen : c.tlen.toNat ≤ port.tmax) (hfuel : fuel = c.tlen.toNat - c.tpos.toNat)
    (hpos : c.tpos.toNat ≤ c.tlen.toNat) :
    ∃ v pos, fetchChar port fuel c = .ok (v, c.at pos) ∧ c.tpos.toNat ≤ pos ∧ pos ≤ c.tlen.toNat ∧
      c.ahead port = v.toList ++ (c.at pos).ahead port ∧ (v = none → pos = c.tlen.toNat) := by
  have htlen := c.tlen.isLt
  induction fuel generalizing c with
  | zero =>
    have hself : c.at c.tpos.toNat = c := by rw [Coder.at, reg64_of_toNat]
    refine ⟨none, c.tpos.toNat, ?_, le_rfl, hpos, ?_, fun _ => by omega⟩
    · rw [fetchChar, hself]
    · rw [hself]
      rfl
  | succ fuel ih =>
    have hahead : c.ahead port =
        (alphabetValue (fetch .text port.powerUp c.text c.tpos.toNat)).toList ++ (c.at (c.tpos.toNat + 1)).ahead port := by
      rw [Coder.ahead_at (by omega), Coder.ahead, ← hfuel, textChars_head, show c.tlen.toNat - (c.tpos.toNat + 1) = fuel by omega]
    have hnext := Coder.at_tpos c (show c.tpos.toNat + 1 < 2 ^ 64 by omega)
    cases hchar : alphabetValue (fetch .text port.powerUp c.text c.tpos.toNat) with
    | some v =>
      rw [hchar] at hahead
      exact ⟨some v, c.tpos.toNat + 1, fetchChar_of_char (by omega) (by omega) hchar, Nat.le_succ _, by omega, hahead, fun h => by cases h⟩
    | none =>
      rw [hchar] at hahead
      obtain ⟨v, pos, hrun, hle, hpos', hrest, hend⟩ := ih (c := c.at (c.tpos.toNat + 1)) hlen
        (by rw [hnext]; show _ = c.tlen.toNat - _; omega) (by rw [hnext]; show _ ≤ c.tlen.toNat; omega) htlen
      exact ⟨v, pos, (fetchChar_of_skip (by omega) (by omega) hchar).trans hrun, by omega, hpos', hahead.trans hrest, hend⟩

/-! ### `next_bit` (R169) -/

/-- The unread bits of `IACC`. -/
def Coder.held (c : Coder) : List Bool := (List.range c.icnt.toNat).map fun k => c.iacc.getLsbD (c.icnt.toNat - 1 - k)

theorem Coder.unread_eq (port : TextPort) (c : Coder) : c.unread port = c.held ++ (c.ahead port).flatMap charBits := rfl

/-- The parser after a refill. -/
def Coder.refilled (v : BitVec 6) (c : Coder) : Coder := { c with iacc := reg64 v.toNat, icnt := 6 }

theorem Coder.held_refilled (v : BitVec 6) (c : Coder) : (c.refilled v).held = charBits v := by
  have hv : (reg64 v.toNat).toNat = v.toNat := reg64_toNat _ (by have := v.isLt; omega)
  refine List.map_congr_left fun k _ => ?_
  show (reg64 v.toNat).toNat.testBit (6 - 1 - k) = v.toNat.testBit (5 - k)
  rw [hv]

/-- A refill leaves the stream as it was: where the text is exhausted, six of its 1-bits are held now. -/
theorem refill_inputBit (h0 : c.icnt = 0) (hlen : c.tlen.toNat ≤ port.tmax) (hpos : c.tpos.toNat ≤ c.tlen.toNat) :
    ∃ v pos, refill port c = .ok ((c.at pos).refilled v) ∧ c.tpos.toNat ≤ pos ∧ pos ≤ c.tlen.toNat ∧
      ∀ k, ((c.at pos).refilled v).inputBit port k = c.inputBit port k := by
  obtain ⟨v, pos, hrun, hle, hpos', hahead, hend⟩ := fetchChar_reads hlen rfl hpos
  have hheld : c.held = [] := by rw [Coder.held, h0]; rfl
  have hcunread : c.unread port = v.toList.flatMap charBits ++ ((c.at pos).ahead port).flatMap charBits := by
    rw [Coder.unread_eq, hheld, hahead, List.flatMap_append, List.nil_append]
  have hdunread (x : BitVec 6) : ((c.at pos).refilled x).unread port = charBits x ++ ((c.at pos).ahead port).flatMap charBits := by
    rw [Coder.unread_eq, Coder.held_refilled]
    rfl
  refine ⟨v.getD 63, pos, ?_, hle, hpos', fun k => ?_⟩
  · rw [refill, hrun]
    rfl
  cases v with
  | some x =>
    rw [Coder.inputBit, Coder.inputBit, hdunread, hcunread]
    simp
  | none =>
    have hnone : (c.at pos).ahead port = [] := by
      rw [Coder.ahead_at (by have := c.tlen.isLt; omega), hend rfl, Nat.sub_self]
      rfl
    have hones : charBits 63 = List.replicate 6 true := by decide
    rw [Coder.inputBit, Coder.inputBit, hdunread, hcunread, hnone, Option.getD_none, hones,
      List.flatMap_nil, List.append_nil, List.getD_eq_getElem?_getD,
      List.getElem?_getD_replicate_default_eq]
    rfl

/-- From `c` to `d` the parser took the head `b` off its stream. -/
structure Coder.reads (port : TextPort) (b : Bool) (c d : Coder) : Prop where
  bit : b = c.inputBit port 0
  stream : ∀ k, d.inputBit port k = c.inputBit port (k + 1)
  icnt : d.icnt.toNat ≤ 5
  tpos : c.tpos.toNat ≤ d.tpos.toNat
  tlen : d.tpos.toNat ≤ c.tlen.toNat

/-- The parser with one held bit less. -/
def Coder.taken (c : Coder) : Coder := { c with icnt := c.icnt - 1 }

theorem Coder.held_eq_cons (h0 : c.icnt ≠ 0) : c.held = c.iacc.getLsbD (c.icnt.toNat - 1) :: c.taken.held := by
  obtain ⟨n, hn⟩ : ∃ n, c.icnt.toNat = n + 1 := ⟨c.icnt.toNat - 1, by bv_omega⟩
  have hn' : c.taken.icnt.toNat = n := by
    show (c.icnt - 1).toNat = n
    bv_omega
  rw [Coder.held, Coder.held, hn', hn, List.range_succ_eq_map, List.map_cons, List.map_map]
  refine congrArg _ (List.map_congr_left fun k _ => ?_)
  show c.iacc.getLsbD (n + 1 - 1 - (k + 1)) = c.iacc.getLsbD (n - 1 - k)
  rw [show n + 1 - 1 - (k + 1) = n - 1 - k by omega]

theorem Coder.taken_reads (h0 : c.icnt ≠ 0) (h6 : c.icnt.toNat ≤ 6) (hpos : c.tpos.toNat ≤ c.tlen.toNat) :
    c.reads port (c.iacc.getLsbD (c.icnt.toNat - 1)) c.taken := by
  have hunread : c.unread port = c.iacc.getLsbD (c.icnt.toNat - 1) :: c.taken.unread port := by
    rw [Coder.unread_eq, Coder.held_eq_cons h0]
    rfl
  refine ⟨?_, fun k => ?_, ?_, le_rfl, hpos⟩
  · rw [Coder.inputBit, hunread]
    rfl
  · rw [Coder.inputBit, Coder.inputBit, hunread, List.getD_cons_succ]
  · show (c.icnt - 1).toNat ≤ 5
    bv_omega

theorem nextBit_of_held (h0 : c.icnt ≠ 0) : nextBit port c = .ok (c.iacc.getLsbD (c.icnt.toNat - 1), c.taken) := by
  rw [nextBit, if_neg h0]
  rfl

theorem nextBit_of_refill (h0 : c.icnt = 0) (h : refill port c = .ok d) :
    nextBit port c = .ok (d.iacc.getLsbD (d.icnt.toNat - 1), d.taken) := by
  rw [nextBit, if_pos h0, h]
  rfl

/-- `next_bit` takes the head of the stream (R169). -/
theorem nextBit_reads (h6 : c.icnt.toNat ≤ 6) (h : c.cursorsOk port.tmax) :
    ∃ b d, nextBit port c = .ok (b, d) ∧ c.reads port b d := by
  obtain ⟨hpos, hlen⟩ := h
  by_cases h0 : c.icnt = 0
  · obtain ⟨v, pos, hrefill, hle, hpos', hstream⟩ := refill_inputBit h0 hlen hpos
    have hat : ((c.at pos).refilled v).tpos.toNat = pos := Coder.at_tpos c (by have := c.tlen.isLt; omega)
    obtain ⟨hbit, htail, hicnt, htpos, htlen⟩ := Coder.taken_reads (c := (c.at pos).refilled v) (port := port)
      (by decide : (6 : Reg64) ≠ 0) (by decide : (6 : Reg64).toNat ≤ 6) (by rw [hat]; exact hpos')
    exact ⟨_, _, nextBit_of_refill h0 hrefill, hbit.trans (hstream 0), fun k => (htail k).trans (hstream _), hicnt, by omega, htlen⟩
  · exact ⟨_, _, nextBit_of_held h0, Coder.taken_reads h0 h6 hpos⟩

/-- A read at or beyond `TMAX` has no defined result (R285). -/
theorem nextBit_of_outside (h0 : c.icnt = 0) (hpos : c.tpos.toNat < c.tlen.toNat) (hmax : port.tmax ≤ c.tpos.toNat) :
    nextBit port c = .error (.refused .textIndexOutside) := by
  have hfetch : fetchChar port (c.tlen.toNat - c.tpos.toNat) c = .error (.refused .textIndexOutside) := by
    rw [show c.tlen.toNat - c.tpos.toNat = c.tlen.toNat - c.tpos.toNat - 1 + 1 by omega, fetchChar, if_pos hpos, if_pos hmax]
  rw [nextBit, if_pos h0, refill, hfetch]
  rfl

/-! ### Normalising (R170) -/

/-- The first `k` bits of a stream as a binary number. -/
def streamValue (stream : Nat → Bool) (k : Nat) : Nat := bitsValue ((List.range k).map stream)

theorem streamValue_add (stream : Nat → Bool) (m n : Nat) :
    streamValue stream (m + n) = 2 ^ n * streamValue stream m + streamValue (fun j => stream (m + j)) n := by
  rw [streamValue, List.range_add, List.map_append, List.map_map, bitsValue_append, List.length_map, List.length_range,
    Nat.mul_comm]
  rfl

theorem streamValue_lt (stream : Nat → Bool) (k : Nat) : streamValue stream k < 2 ^ k := by
  have := bitsValue_lt ((List.range k).map stream)
  rwa [List.length_map, List.length_range] at this

/-- The decoder between two reads: the code value inside the window, the parser ready (R26, R35). -/
structure Coder.ready (port : TextPort) (c : Coder) : Prop where
  inside : c.low.toNat < c.range.toNat
  icnt : c.icnt.toNat ≤ 6
  cursors : c.cursorsOk port.tmax

/-- From `c` to `d` the decoder's window was doubled `k` times, the next `k` input bits shifted in. -/
structure Coder.shiftsIn (port : TextPort) (k : Nat) (c d : Coder) : Prop where
  range : d.range.toNat = 2 ^ k * c.range.toNat
  low : d.low.toNat = 2 ^ k * c.low.toNat + streamValue (c.inputBit port) k
  stream : ∀ j, d.inputBit port j = c.inputBit port (k + j)
  ready : d.ready port

theorem Coder.shiftsIn.refl (h : c.ready port) : c.shiftsIn port 0 c :=
  ⟨(Nat.one_mul _).symm, (Nat.one_mul _).symm, fun j => by rw [Nat.zero_add], h⟩

theorem Coder.shiftsIn.trans (h : c.shiftsIn port m d) (h' : d.shiftsIn port n e) : c.shiftsIn port (m + n) e where
  range := by
    rw [h'.range, h.range]
    ring
  low := by
    rw [h'.low, h.low, streamValue_add, ← funext h.stream]
    ring
  stream j := by rw [h'.stream, h.stream, Nat.add_assoc]
  ready := h'.ready

/-- One turn of `dec_norm`, from the bit read on. -/
def Coder.shiftedIn (b : Bool) (c : Coder) : Coder :=
  { c with low := reg64 (2 * c.low.toNat + b.toNat), range := reg64 (2 * c.range.toNat) }

theorem decNormTurns_of_low (fuel : Nat) (h : c.range.toNat ≤ 2 ^ 31) (hd : nextBit port c = .ok (b, d)) :
    decNormTurns port (fuel + 1) c = decNormTurns port fuel (d.shiftedIn b) := by
  rw [decNormTurns]
  refine (if_pos h).trans ?_
  rw [hd]
  rfl

theorem decNormTurns_of_high (fuel : Nat) (h : 2 ^ 31 < c.range.toNat) : decNormTurns port fuel c = .ok c := by
  cases fuel with
  | zero => rfl
  | succ fuel => exact if_neg (by simp only [Config.half]; omega)

theorem Coder.reads.shiftsIn (h : c.reads port b d) (hsame : c.parserOnly d) (hc : c.ready port)
    (hrange : c.range.toNat ≤ 2 ^ 31) : c.shiftsIn port 1 (d.shiftedIn b) := by
  obtain ⟨hinside, -, -, hlen⟩ := hc
  obtain ⟨⟨-, -, -, -, -, -, hdtlen, -⟩, hdlow, hdrange⟩ := hsame
  have hb := Bool.toNat_le b
  have hlow' : (d.shiftedIn b).low.toNat = 2 * c.low.toNat + b.toNat := by
    rw [← hdlow]
    exact reg64_toNat _ (by rw [hdlow]; omega)
  have hrange' : (d.shiftedIn b).range.toNat = 2 * c.range.toNat := by
    rw [← hdrange]
    exact reg64_toNat _ (by rw [hdrange]; omega)
  have hvalue : streamValue (c.inputBit port) 1 = b.toNat := by rw [h.bit]; exact Nat.zero_add _
  have htlen : (d.shiftedIn b).tlen = c.tlen := hdtlen
  have hicnt := h.icnt
  refine ⟨hrange', by rw [hlow', hvalue, Nat.pow_one], fun j => ?_, by omega, ?_, ?_⟩
  · rw [Nat.add_comm 1]
    exact h.stream j
  · show d.icnt.toNat ≤ 6
    omega
  · rw [Coder.cursorsOk, htlen]
    exact ⟨h.tlen, hlen⟩

theorem decNormTurns_shiftsIn (fuel : Nat) (hrange : c.range.toNat ≤ 2 ^ 32) (hreach : 2 ^ 31 < 2 ^ fuel * c.range.toNat)
    (hready : c.ready port) :
    ∃ d k, decNormTurns port fuel c = .ok d ∧ k ≤ fuel ∧ c.shiftsIn port k d ∧ 2 ^ 31 < d.range.toNat ∧
      d.range.toNat ≤ 2 ^ 32 := by
  induction fuel generalizing c with
  | zero => exact ⟨c, 0, rfl, le_rfl, .refl hready, by omega, hrange⟩
  | succ fuel ih =>
    by_cases hhigh : 2 ^ 31 < c.range.toNat
    · exact ⟨c, 0, decNormTurns_of_high _ hhigh, Nat.zero_le _, .refl hready, hhigh, hrange⟩
    obtain ⟨b, d, hd, hreads⟩ := nextBit_reads hready.icnt hready.cursors
    have hturn := hreads.shiftsIn (Run.leaves_of_ok Prod.snd c.parserOnly _ _ (nextBit_parserOnly ..) hd) hready (by omega)
    have hwidth := hturn.range
    obtain ⟨e, k, he, hk, hrest, hhigh', hnorm⟩ := ih (by omega)
      (by rw [hwidth, Nat.pow_one, ← Nat.mul_assoc, ← Nat.pow_succ]; exact hreach) hturn.ready
    refine ⟨e, 1 + k, ?_, by omega, hturn.trans hrest, hhigh', hnorm⟩
    rw [decNormTurns_of_low fuel (by omega) hd]
    exact he

/-- `dec_norm` shifts in at most 32 bits and leaves `RANGE` above `HALF` (R170). -/
theorem decNorm_shiftsIn (hrange : c.range.toNat ≤ 2 ^ 32) (hready : c.ready port) :
    ∃ d k, decNorm port c = .ok d ∧ k ≤ 32 ∧ c.shiftsIn port k d ∧ 2 ^ 31 < d.range.toNat ∧ d.range.toNat ≤ 2 ^ 32 := by
  have hpos := hready.inside
  have h0 : c.range ≠ 0 := by
    rintro h
    rw [h] at hpos
    cases hpos
  rw [decNorm, if_neg h0]
  exact decNormTurns_shiftsIn 32 hrange (by omega) hready

theorem decNorm_of_high (h : 2 ^ 31 < c.range.toNat) : decNorm port c = .ok c := by
  have h0 : c.range ≠ 0 := by
    rintro h0
    rw [h0] at h
    cases h
  rw [decNorm, if_neg h0, decNormTurns_of_high _ h]

/-! ### The code value (R171) -/

/-- The code value is the largest value whose sub-window does not start above `LOW` (R171). -/
theorem scaled_le_iff_le_codeValue (c : Coder) {x : Nat} (hden : 0 < den) (hrange : 0 < c.range.toNat) :
    scaled c.range.toNat x den ≤ c.low.toNat ↔ x ≤ codeValue c den := by
  have hpos : 0 < (c.low.toNat + 1) * den := Nat.mul_pos (Nat.succ_pos _) hden
  calc scaled c.range.toNat x den ≤ c.low.toNat ↔ c.range.toNat * x / den < c.low.toNat + 1 := Nat.lt_succ_iff.symm
    _ ↔ c.range.toNat * x < (c.low.toNat + 1) * den := Nat.div_lt_iff_lt_mul hden
    _ ↔ x * c.range.toNat ≤ (c.low.toNat + 1) * den - 1 := by
      rw [Nat.mul_comm x]
      omega
    _ ↔ x ≤ codeValue c den := (Nat.le_div_iff_mul_le hrange).symm

theorem lt_scaled_iff_codeValue_lt (c : Coder) {x : Nat} (hden : 0 < den) (hrange : 0 < c.range.toNat) :
    c.low.toNat < scaled c.range.toNat x den ↔ codeValue c den < x := by
  rw [← Nat.not_le, ← Nat.not_le, scaled_le_iff_le_codeValue c hden hrange]

theorem decode64_of_legal (hden : legalDenom den = true) (hd : decNorm port c = .ok d) :
    decode64 port den c = .ok (codeValue d den, d) := by
  rw [decode64, if_pos hden, hd]
  rfl

theorem scale64_of_legal (hint : legalInterval lo hi den = true) (hd : decNorm port c = .ok d) :
    scale64 port lo hi den c = decScale lo hi den d := by
  rw [scale64, if_pos hint, hd]
  rfl

/-- The coder after `RCSCL` of an interval that holds the code value. -/
def Coder.scaledTo (lo hi den : Nat) (c : Coder) : Coder :=
  { c with
    low := reg64 (c.low.toNat - scaled c.range.toNat lo den)
    range := reg64 (scaled c.range.toNat hi den - scaled c.range.toNat lo den) }

/-- The sub-window of the interval holds the code value (R172). -/
def Coder.inSubWindow (lo hi den : Nat) (c : Coder) : Prop :=
  scaled c.range.toNat lo den ≤ c.low.toNat ∧ c.low.toNat < scaled c.range.toNat hi den

theorem decScale_of_inside (h : c.inSubWindow lo hi den) : decScale lo hi den c = .ok (c.scaledTo lo hi den) := if_pos h

theorem decScale_of_outside (h : ¬ c.inSubWindow lo hi den) :
    decScale lo hi den c = .error (.raised .rcDesync (reg64 c.low.toNat) c) := if_neg h

theorem Coder.scaledTo_low (lo hi den : Nat) (c : Coder) :
    (c.scaledTo lo hi den).low.toNat = c.low.toNat - scaled c.range.toNat lo den :=
  reg64_toNat _ (by have := c.low.isLt; omega)

theorem Coder.scaledTo_range (hhi : hi ≤ den) :
    (c.scaledTo lo hi den).range.toNat = scaled c.range.toNat hi den - scaled c.range.toNat lo den := by
  have hle : scaled c.range.toNat hi den ≤ c.range.toNat :=
    Nat.div_le_of_le_mul (by rw [Nat.mul_comm den]; exact Nat.mul_le_mul_left _ hhi)
  exact reg64_toNat _ (by have := c.range.isLt; omega)

/-! ### The commands -/

theorem State.coder_ready (h : s.coder.legal .decoding) (hcursors : s.cursorsLegal) : s.coder.ready s.port := by
  obtain ⟨-, hdec, -, -, -, -, -, -, -, hicnt⟩ := h
  exact ⟨(hdec rfl).1, hicnt, hcursors⟩

theorem exec_rcdec_of_ok {v : Nat} (hg : s.good) (hmode : s.status.rcmode = .decoding)
    (h : decode64 s.port s.arg2.toNat s.coder = .ok (v, c)) :
    exec .rcdec s = .next (State.complete { s.startCommand.withCoder c with res := reg64 v }) := by
  refine runCommand_of_ok rcdecBody s _ hg ?_
  have hvalue : decodeValueOf s.startCommand s.startCommand.arg2.toNat = .ok (v, s.startCommand.withCoder c) := by
    rw [decodeValueOf, checkMode_of_eq (s := s.startCommand) hmode, Run.ok_bind]
    exact (onCoderValue_ok_iff ..).mpr ⟨c, h, rfl⟩
  rw [rcdecBody, hvalue]
  rfl

theorem rcsclBody_of_legal (hmode : s.status.rcmode = .decoding)
    (hint : legalInterval s.arg0.toNat s.arg1.toNat s.arg2.toNat = true) (hd : decNorm s.port s.coder = .ok d) :
    rcsclBody s = onCoder s (decScale s.arg0.toNat s.arg1.toNat s.arg2.toNat d) := by
  rw [rcsclBody, scaleInterval, checkMode_of_eq hmode, Run.ok_bind, scale64_of_legal hint hd]

end Sys2Proof.Machine

open Sys2Proof Sys2Proof.Machine

/-- Settles O40: a refill leaves the stream as it was, and a held bit is its head. -/
theorem nextBitReadsTheInputStream : Obligations.NextBitReadsTheInputStream := by
  refine ⟨fun port c => nextBit_of_outside, fun port c hcnt hlen hpos => ?_⟩
  obtain ⟨b, d, hd, hreads⟩ := nextBit_reads (port := port) hcnt ⟨hpos, hlen⟩
  obtain ⟨⟨-, -, -, -, -, -, htlen, htext⟩, hlow, hrange⟩ :=
    Run.leaves_of_ok Prod.snd c.parserOnly _ _ (nextBit_parserOnly ..) hd
  exact ⟨d, by rw [hd, hreads.bit], hreads.stream, hreads.icnt, hreads.tpos, hreads.tlen, hlow, hrange, htlen, htext⟩

/-- Settles O41: `RES` is the largest value whose sub-window does not start above the code point. -/
theorem decodeReturnsTheValueAtTheCodePoint : Obligations.DecodeReturnsTheValueAtTheCodePoint := by
  intro s hg hparams hmode hlegal hcursors hdenom
  obtain ⟨hpos, hden⟩ := (legalDenom_iff ..).mp hdenom
  obtain ⟨d, k, hd, hk, hshift, hhigh, hnorm⟩ :=
    decNorm_shiftsIn (hlegal.2.1 rfl).2 (State.coder_ready hlegal hcursors)
  have hlt := codeValue_lt d s.arg2.toNat hpos hshift.ready.inside
  have hres : (reg64 (codeValue d s.arg2.toNat)).toNat = codeValue d s.arg2.toNat := reg64_toNat _ (by omega)
  refine ⟨_, k, exec_rcdec_of_ok hg hmode (decode64_of_legal hdenom hd), State.sameRecord.complete ⟨rfl, rfl, rfl, rfl⟩ hg, hk,
    hshift.range, hhigh, hnorm, hshift.low, hshift.stream, hshift.ready.inside, hres, hres.trans_lt hlt, ?_, ?_⟩
  · exact (scaled_le_iff_le_codeValue d hpos (by omega)).mpr hres.le
  · exact (lt_scaled_iff_codeValue_lt d hpos (by omega)).mpr (Nat.lt_succ_of_le hres.ge)

/-- Settles O42: the offset is subtracted where the sub-window holds the code value. -/
theorem scaleSubtractsTheOffsetOrDesyncs : Obligations.ScaleSubtractsTheOffsetOrDesyncs := by
  intro s hg hparams hmode hlegal hcursors hint
  obtain ⟨-, hhi, -⟩ := (legalInterval_iff ..).mp hint
  obtain ⟨d, k, hd, -, -, -, -⟩ := decNorm_shiftsIn (hlegal.2.1 rfl).2 (State.coder_ready hlegal hcursors)
  have hbody := rcsclBody_of_legal (s := s.startCommand) hmode hint hd
  by_cases hin : d.inSubWindow s.arg0.toNat s.arg1.toNat s.arg2.toNat
  · refine ⟨_, d, runCommand_of_ok rcsclBody s
      (s.startCommand.withCoder (d.scaledTo s.arg0.toNat s.arg1.toNat s.arg2.toNat)) hg ?_, hd, fun _ => ?_,
      fun h => absurd hin h⟩
    · rw [hbody]
      exact (onCoder_ok_iff ..).mpr ⟨_, decScale_of_inside hin, rfl⟩
    · have hlow := Coder.scaledTo_low s.arg0.toNat s.arg1.toNat s.arg2.toNat d
      have hrange := Coder.scaledTo_range (c := d) (lo := s.arg0.toNat) hhi
      obtain ⟨hoff, htop⟩ := hin
      refine ⟨State.sameRecord.complete ⟨rfl, rfl, rfl, rfl⟩ hg, hlow, hrange, ?_⟩
      exact hlow.trans_lt (hrange ▸ by omega)
  · refine ⟨_, d, runCommand_of_raised rcsclBody s (s.startCommand.withCoder d) .rcDesync (reg64 d.low.toNat) hg ?_, hd,
      fun h => absurd h hin, fun _ => ⟨⟨rfl, rfl, rfl, rfl, rfl, rfl⟩, rfl⟩⟩
    rw [hbody]
    exact (onCoder_raised_iff ..).mpr ⟨_, decScale_of_outside hin, rfl⟩
end

section
/-! PROOFS. The decoder mirrors the encoder (R173, R174): the flush puts the bit stream inside the encoder's last window, hence inside
every window before it, and a decoder keeps the distance of the stream from the window's lower end. Settles O43. -/

namespace Sys2Proof.Machine

variable {port : TextPort} {tmax lo hi den k : Nat} {stream : Nat → Bool} {intervals : List (Nat × Nat × Nat)} {c d e f : Coder}

/-! ### The point of a stream in the encoder's window -/

/-- The number of bits a decoder at the encoder's place has read: those produced, and `RC_BITS` more. -/
def Coder.place (port : TextPort) (c : Coder) : Nat := (c.produced port 0).length + 32

/-- The stream, read as a binary fraction, lies inside the window of the encoder (R159). -/
def Coder.encloses (port : TextPort) (stream : Nat → Bool) (c : Coder) : Prop :=
  c.lowEnd port 0 ≤ streamValue stream (c.place port) ∧
    streamValue stream (c.place port) < c.lowEnd port 0 + c.range.toNat

theorem Coder.normalised.place (h : c.normalised k d) : d.place port = c.place port + k := by
  rw [Coder.place, h.produced, List.length_append, Coder.topBits, List.length_map, List.length_range, Coder.place]
  omega

/-- Normalising scales the window and the point alike. -/
theorem Coder.encloses.of_normalised (h : d.encloses port stream) (hnorm : c.normalised k d) : c.encloses port stream := by
  obtain ⟨hlow, hhigh⟩ := h
  have hrest := streamValue_lt (fun j => stream (c.place port + j)) k
  rw [hnorm.place, streamValue_add, hnorm.lowEnd] at hlow hhigh
  rw [hnorm.steps.range, ← Nat.mul_add] at hhigh
  constructor
  · refine Nat.lt_succ_iff.mp (Nat.lt_of_mul_lt_mul_left (a := 2 ^ k) ?_)
    rw [Nat.mul_succ]
    omega
  · exact Nat.lt_of_mul_lt_mul_left (a := 2 ^ k) (by omega)

theorem Coder.codesInterval.place (h : d.codesInterval port lo hi den f) : f.place port = d.place port := by
  rw [Coder.place, h.length 0 (Nat.zero_le _), Coder.place]

/-- The narrowed window is a part of the one before (R158). -/
theorem Coder.encloses.of_codesInterval (h : f.encloses port stream) (hcodes : d.codesInterval port lo hi den f)
    (hle : scaled d.range.toNat hi den ≤ d.range.toNat) : d.encloses port stream := by
  obtain ⟨hlow, hhigh⟩ := h
  rw [hcodes.place, hcodes.lowEnd 0 (Nat.zero_le _)] at hlow hhigh
  rw [hcodes.range] at hhigh
  exact ⟨by omega, by omega⟩

/-- The flush names a quarter inside the window, so every stream that begins with what is produced and the flush bits lies inside
(R174). -/
theorem Coder.flushesFrom.encloses {p : Nat} {rest : Nat → Bool} (h : c.flushesFrom p d) (hhigh : 2 ^ 31 < c.range.toNat)
    (hstream : streamValue stream (c.place port) =
      2 ^ 30 * bitsValue (d.produced port 0 ++ [p.testBit 1, p.testBit 0]) + streamValue rest 30) : c.encloses port stream := by
  have hrest := streamValue_lt rest 30
  have hinside := Coder.quarter_inside hhigh
  rw [h.bitsValue_eq] at hstream
  rw [Coder.encloses, hstream, Coder.lowEnd]
  omega

/-! ### A list of `encode` calls -/

theorem encodeAll_cons (tmax lo hi den : Nat) (rest : List (Nat × Nat × Nat)) (c : Coder) :
    encodeAll tmax ((lo, hi, den) :: rest) c = (encode64 tmax lo hi den c >>= encodeAll tmax rest) := rfl

theorem encodeAll_append (tmax : Nat) (front rest : List (Nat × Nat × Nat)) (c : Coder) :
    encodeAll tmax (front ++ rest) c = (encodeAll tmax front c >>= encodeAll tmax rest) := by
  induction front generalizing c with
  | nil => rfl
  | cons interval front ih =>
    rw [List.cons_append, encodeAll_cons, encodeAll_cons]
    cases encode64 tmax interval.1 interval.2.1 interval.2.2 c with
    | error e => rfl
    | ok d => exact ih d

/-- A ready encoder that can produce `n` more bits without a 64-bit run count near its end. -/
structure Coder.canCode (port : TextPort) (n : Nat) (c : Coder) : Prop where
  sound : c.sound .encoding
  ready : c.carryReady
  length : (c.produced port 0).length + n < 2 ^ 62

theorem Coder.canCode.pend {n : Nat} (h : c.canCode port n) : c.pend.length + n < 2 ^ 62 := by
  have := h.length
  rw [Coder.produced, List.length_append] at this
  omega

theorem Coder.canCode.mono {m n : Nat} (h : c.canCode port n) (hmn : m ≤ n) : c.canCode port m :=
  ⟨h.sound, h.ready, by have := h.length; omega⟩

/-- An `encode` that completed had a legal interval and narrowed the normalised window. -/
theorem encode64_of_ok {n : Nat} (htmax : tmax < 2 ^ 64) (hc : c.canCode port (n + 32)) (h : encode64 tmax lo hi den c = .ok f) :
    legalInterval lo hi den = true ∧ ∃ d k, encNorm c = .ok d ∧ c.normalised k d ∧ d.codesInterval port lo hi den f ∧
      f.canCode port n := by
  have hint : legalInterval lo hi den = true := by
    by_contra hnot
    rw [encode64_of_illegal (Bool.not_eq_true _ ▸ hnot)] at h
    exact raise_ne_ok _ _ _ _ h
  have hpend := hc.pend
  obtain ⟨d, k, hd, hnorm, hrun⟩ := encode64_codesInterval port htmax hc.sound hc.ready (by omega) hint
  have hcodes := Run.unlessFull_ok hrun h
  refine ⟨hint, d, k, hd, hnorm, hcodes, hcodes.sound, hcodes.ready, ?_⟩
  have hplace : f.place port = c.place port + k := hcodes.place.trans hnorm.place
  have hk := hnorm.turns
  have hlength := hc.length
  rw [Coder.place, Coder.place] at hplace
  omega

theorem encodeAll_of_ok {n : Nat} (htmax : tmax < 2 ^ 64) (hc : c.canCode port (n + 32 * intervals.length))
    (h : encodeAll tmax intervals c = .ok f) :
    f.canCode port n ∧ ∀ stream, f.encloses port stream → c.encloses port stream := by
  induction intervals generalizing c with
  | nil =>
    cases h
    exact ⟨hc, fun _ => id⟩
  | cons interval rest ih =>
    obtain ⟨lo, hi, den⟩ := interval
    obtain ⟨e, he, hrest⟩ := (Run.bind_ok_iff ..).mp h
    obtain ⟨hint, d, k, -, hnorm, hcodes, hecan⟩ :=
      encode64_of_ok (n := n + 32 * rest.length) htmax (hc.mono (by rw [List.length_cons]; omega)) he
    obtain ⟨hlo, hhi, hden⟩ := (legalInterval_iff ..).mp hint
    obtain ⟨hfcan, hback⟩ := ih hecan hrest
    have hle := (scaled_lt_scaled d.range.toNat lo hi den hlo hhi (by have := hnorm.high; omega)).2
    exact ⟨hfcan, fun stream hf => ((hback stream hf).of_codesInterval hcodes hle).of_normalised hnorm⟩

/-! ### A decoder at the encoder's place -/

/-- The decoder `d` stands where the encoder `c` does: it has read as many bits and `RC_BITS` more, `LOW` is the distance of the
point from the lower end of the same window. -/
structure Coder.mirrors (port : TextPort) (stream : Nat → Bool) (c d : Coder) : Prop where
  range : d.range.toNat = c.range.toNat
  low : streamValue stream (c.place port) = c.lowEnd port 0 + d.low.toNat
  stream : ∀ j, d.inputBit port j = stream (c.place port + j)
  ready : d.ready port

/-- Both normalise in the same number of turns, since their ranges agree. -/
theorem doublings_unique {r m n : Nat} (hm : 2 ^ 31 < 2 ^ m * r) (hm' : 2 ^ m * r ≤ 2 ^ 32) (hn : 2 ^ 31 < 2 ^ n * r)
    (hn' : 2 ^ n * r ≤ 2 ^ 32) : m = n := by
  have hlt {m n : Nat} (hm : 2 ^ 31 < 2 ^ m * r) (hn' : 2 ^ n * r ≤ 2 ^ 32) : ¬ m < n := fun hmn => by
    have hdouble : 2 ^ (m + 1) * r ≤ 2 ^ n * r := Nat.mul_le_mul_right _ (Nat.pow_le_pow_right (by omega) hmn)
    rw [Nat.pow_succ, Nat.mul_right_comm] at hdouble
    omega
  have := hlt hm hn'
  have := hlt hn hm'
  omega

theorem Coder.mirrors.normalised (h : c.mirrors port stream d) (hnorm : c.normalised k e) :
    ∃ d', decNorm port d = .ok d' ∧ e.mirrors port stream d' := by
  have hwidth := hnorm.steps.range
  have hhigh := hnorm.high
  have hle : e.range.toNat ≤ 2 ^ 32 := hnorm.encoder.range
  have hcle : c.range.toNat ≤ 2 ^ k * c.range.toNat := Nat.le_mul_of_pos_left _ (Nat.two_pow_pos k)
  obtain ⟨d', k', hd', -, hshift, hhigh', hle'⟩ := decNorm_shiftsIn (by rw [h.range]; omega) h.ready
  have hwidth' := hshift.range
  rw [h.range] at hwidth'
  obtain rfl : k = k' := doublings_unique (r := c.range.toNat) (by omega) (by omega) (by omega) (by omega)
  refine ⟨d', hd', by rw [hwidth', hwidth], ?_, fun j => ?_, hshift.ready⟩
  · rw [hnorm.place, streamValue_add, h.low, hnorm.lowEnd, hshift.low, ← funext h.stream]
    ring
  · rw [hshift.stream, h.stream, hnorm.place, Nat.add_assoc]

/-- `scale` of the interval just coded finds the point inside the sub-window and follows the encoder (R172, R173). -/
theorem Coder.mirrors.scaled (h : c.mirrors port stream d) (hcodes : c.codesInterval port lo hi den f) (hhi : hi ≤ den)
    (hf : f.encloses port stream) : d.inSubWindow lo hi den ∧ f.mirrors port stream (d.scaledTo lo hi den) := by
  have hlow' := Coder.scaledTo_low lo hi den d
  have hrange' := Coder.scaledTo_range (c := d) (lo := lo) hhi
  obtain ⟨hlow, hhigh⟩ := hf
  rw [hcodes.place, hcodes.lowEnd 0 (Nat.zero_le _), h.low, ← h.range] at hlow hhigh
  rw [hcodes.range, ← h.range] at hhigh
  refine ⟨⟨by omega, by omega⟩, ?_, ?_, fun j => ?_, ?_, h.ready.icnt, h.ready.cursors⟩
  · rw [hrange', hcodes.range, h.range]
  · rw [hcodes.place, hcodes.lowEnd 0 (Nat.zero_le _), h.low, hlow', ← h.range]
    omega
  · rw [hcodes.place, ← h.stream]
    rfl
  · rw [hlow', hrange']
    omega

/-- Normalised, the decoder `d` stands where the encoder `c` does. -/
def Coder.mirroredBy (port : TextPort) (stream : Nat → Bool) (c d : Coder) : Prop :=
  ∃ c' k d', encNorm c = .ok c' ∧ c.normalised k c' ∧ decNorm port d = .ok d' ∧ c'.mirrors port stream d'

/-- One `decode`, `scale` pair follows one `encode`: the value lies in its interval. -/
theorem Coder.mirroredBy.step {n : Nat} (h : c.mirroredBy port stream d) (htmax : tmax < 2 ^ 64)
    (hc : c.canCode port (n + 32 + 32)) (hrun : encode64 tmax lo hi den c = .ok f) (hf : f.encloses port stream) :
    ∃ v d' e, decode64 port den d = .ok (v, d') ∧ scale64 port lo hi den d' = .ok e ∧ lo ≤ v ∧ v < hi ∧
      e.range = f.range ∧ f.mirroredBy port stream e := by
  obtain ⟨c', k, d', hnormc, hnorm, hnormd, hmirrors⟩ := h
  obtain ⟨hint, c'', k', hnormc', -, hcodes, hfcan⟩ := encode64_of_ok htmax hc hrun
  obtain rfl : c' = c'' := Except.ok.inj (hnormc.symm.trans hnormc')
  obtain ⟨hlo, hhi, hden⟩ := (legalInterval_iff ..).mp hint
  obtain ⟨hinside, hmirrors'⟩ := hmirrors.scaled hcodes hhi hf
  have hhigh := hnorm.high
  rw [← hmirrors.range] at hhigh
  obtain ⟨g, j, hg, hgnorm⟩ := encNorm_normalised hfcan.sound (by have := hfcan.pend; omega)
  obtain ⟨e', he', hmirrors''⟩ := hmirrors'.normalised hgnorm
  refine ⟨codeValue d' den, d', d'.scaledTo lo hi den, decode64_of_legal ((legalDenom_iff _).mpr ⟨by omega, hden⟩) hnormd, ?_,
    (scaled_le_iff_le_codeValue d' (by omega) (by omega)).mp hinside.1,
    (lt_scaled_iff_codeValue_lt d' (by omega) (by omega)).mp hinside.2, BitVec.eq_of_toNat_eq hmirrors'.range,
    g, j, e', hg, hgnorm, he', hmirrors''⟩
  rw [scale64_of_legal hint (decNorm_of_high hhigh), decScale_of_inside hinside]

/-- Every value of a mirrored list lies in its interval, and the ranges agree after it. -/
theorem Coder.mirroredBy.decodeAll {n : Nat} (h : c.mirroredBy port stream d) (htmax : tmax < 2 ^ 64)
    (hc : c.canCode port (n + 32 + 32 * intervals.length)) (hrun : encodeAll tmax intervals c = .ok f)
    (hf : f.encloses port stream) :
    ∃ vs e, decodeAll port intervals d = .ok (vs, e) ∧ (0 < intervals.length → e.range = f.range) ∧
      f.mirroredBy port stream e ∧ List.Forall₂ (fun v (i : Nat × Nat × Nat) => i.1 ≤ v ∧ v < i.2.1) vs intervals := by
  induction intervals generalizing c d with
  | nil =>
    cases hrun
    exact ⟨[], d, rfl, fun h0 => absurd h0 (Nat.lt_irrefl _), h, .nil⟩
  | cons interval rest ih =>
    obtain ⟨lo, hi, den⟩ := interval
    obtain ⟨g, hg, hrest⟩ := (Run.bind_ok_iff ..).mp hrun
    have hc' : c.canCode port (n + 32 * rest.length + 32 + 32) := hc.mono (by rw [List.length_cons]; omega)
    obtain ⟨-, -, -, -, -, -, hgcan⟩ := encode64_of_ok htmax hc' hg
    have hgcan : g.canCode port (n + 32 + 32 * rest.length) := hgcan.mono (by omega)
    obtain ⟨v, d', d'', hdecode, hscale, hlo, hhi, hrange, hmirrored⟩ :=
      h.step htmax hc' hg ((encodeAll_of_ok htmax hgcan hrest).2 stream hf)
    obtain ⟨vs, e, hall, hranges, hfinal, hvalues⟩ := ih hmirrored hgcan hrest
    refine ⟨v :: vs, e, ?_, fun _ => ?_, hfinal, .cons ⟨hlo, hhi⟩ hvalues⟩
    · rw [Machine.decodeAll, hdecode, Run.ok_bind]
      dsimp only
      rw [hscale, Run.ok_bind, hall]
      rfl
    · cases rest with
      | nil =>
        cases hrest
        cases hall
        exact hrange
      | cons _ _ => exact hranges (Nat.succ_pos _)

/-! ### From the start to the end of a text -/

/-- The coder `RCEI` constructs. -/
def Coder.encoderStart (text : Memory 8) : Coder := { Coder.atReset text with range := reg64 Config.norm }

theorem Coder.encoderStart_produced (text : Memory 8) : (Coder.encoderStart text).produced port 0 = [] := by
  have htext : (Coder.encoderStart text).textBits port 0 (Coder.encoderStart text).tlen.toNat = [] :=
    Coder.textBits_self _ _
  rw [Coder.produced, Coder.output, htext]
  rfl

theorem Coder.encoderStart_canCode {text : Memory 8} {n : Nat} (hn : n < 2 ^ 62) : (Coder.encoderStart text).canCode port n := by
  have hnotReady : ¬ (Config.norm < 0 + 2 ^ 32) := by decide
  refine ⟨Coder.sound_encoderStart text, fun h => absurd h hnotReady, ?_⟩
  rw [Coder.encoderStart_produced, List.length_nil]
  omega

/-- A decoder just constructed shifts in 32 bits, and stands where `RCEI`'s coder does (R168). -/
theorem Coder.encoderStart_mirroredBy {text : Memory 8} (hlow : d.low = 0) (hrange : d.range = 1) (hicnt : d.icnt = 0)
    (hcursors : d.cursorsOk port.tmax) : (Coder.encoderStart text).mirroredBy port (d.inputBit port) d := by
  have hdlow : d.low.toNat = 0 := congrArg BitVec.toNat hlow
  have hdrange : d.range.toNat = 1 := congrArg BitVec.toNat hrange
  have hcanCode : (Coder.encoderStart text).canCode port 0 := Coder.encoderStart_canCode (by omega)
  have hproduced := Coder.encoderStart_produced (port := port) text
  have hplace : (Coder.encoderStart text).place port = 32 := by rw [Coder.place, hproduced]; rfl
  have hwidth : (Coder.encoderStart text).range.toNat = 2 ^ 32 := rfl
  have hlowEnd : (Coder.encoderStart text).lowEnd port 0 = 0 := by rw [Coder.lowEnd, hproduced]; rfl
  obtain ⟨c', k, hc', hnorm⟩ := encNorm_normalised hcanCode.sound (by have := hcanCode.pend; omega)
  obtain ⟨d', j, hd', -, hshift, hhigh, hle⟩ := decNorm_shiftsIn (c := d) (port := port) (by omega)
    ⟨by omega, by rw [hicnt]; decide, hcursors⟩
  have hwidth' := hshift.range
  rw [hdrange] at hwidth'
  obtain rfl : j = 32 := doublings_unique (r := 1) (by omega) (by omega) (by omega) (by omega)
  have hmirrors : (Coder.encoderStart text).mirrors port (d.inputBit port) d' := by
    refine ⟨by rw [hwidth', hwidth, Nat.mul_one], ?_, fun i => by rw [hshift.stream, hplace], hshift.ready⟩
    rw [hplace, hlowEnd, hshift.low, hdlow]
    omega
  obtain ⟨d'', hd'', hmirrors'⟩ := hmirrors.normalised hnorm
  rw [decNorm_of_high hhigh] at hd''
  cases hd''
  exact ⟨c', k, d', hc', hnorm, hd', hmirrors'⟩

/-- The first bits of a stream that begins with a given list. -/
theorem streamValue_of_prefix {bits rest : List Bool} (h : ∀ j, stream j = (bits ++ rest).getD j true) :
    streamValue stream bits.length = bitsValue bits := by
  refine congrArg bitsValue (List.ext_getElem (by simp) fun j hj hj' => ?_)
  simp [h, List.getElem?_append_left hj', List.getElem?_eq_getElem hj']

/-- The text that `finish` leaves encloses every stream that begins with its bits in the encoder's last window (R174). -/
theorem finish64_encloses (htmax : tmax < 2 ^ 64) (hc : c.canCode port 0) (h : finish64 tmax c = .ok e) {rest : List Bool}
    (hstream : ∀ j, stream j = (e.textBits port 0 e.tlen.toNat ++ rest).getD j true) : c.encloses port stream := by
  obtain ⟨d, k, p, g, -, hnorm, hflush, hrun⟩ := finish64_flushed port htmax hc.sound hc.ready (by have := hc.pend; omega)
  obtain ⟨n, -, htext⟩ := (Run.unlessFull_ok hrun h).text
  rw [htext 0 (Nat.zero_le _)] at hstream
  simp only [List.append_assoc] at hstream
  simp only [← List.append_assoc (g.produced port 0)] at hstream
  have hlength : (g.produced port 0 ++ [p.testBit 1, p.testBit 0]).length + 30 = d.place port := by
    rw [List.length_append, hflush.produced_length]
    rfl
  refine (hflush.encloses hnorm.high
    (rest := fun j => stream ((g.produced port 0 ++ [p.testBit 1, p.testBit 0]).length + j)) ?_).of_normalised hnorm
  rw [← hlength, streamValue_add, streamValue_of_prefix hstream]

/-- The stream of a decoder that has read nothing yet. -/
theorem Coder.inputBit_of_start (hicnt : c.icnt = 0) (htpos : c.tpos = 0) (j : Nat) :
    c.inputBit port j = ((textChars port c 0 c.tlen.toNat).flatMap charBits).getD j true := by
  have hheld : c.held = [] := by rw [Coder.held, hicnt]; rfl
  rw [Coder.inputBit, Coder.unread_eq, hheld, Coder.ahead, htpos]
  rfl

end Sys2Proof.Machine

open Sys2Proof Sys2Proof.Machine

/-- Settles O43: the decoder's stream begins with the encoder's text, so it lies in every window the encoder passed. -/
theorem decoderMirrorsTheEncoder : Obligations.DecoderMirrorsTheEncoder := by
  intro port intervals text c e d0 extra htmax hcount hencode hfinish hlow hrange hicnt htpos htlen hchars k hk
  have hcan : (Coder.encoderStart text).canCode port (0 + 32 + 32 * intervals.length) := Coder.encoderStart_canCode (by omega)
  have hstream (j : Nat) : d0.inputBit port j = (e.textBits port 0 e.tlen.toNat ++ extra.flatMap charBits).getD j true := by
    rw [Coder.inputBit_of_start hicnt htpos, hchars, List.flatMap_append]
    rfl
  have hsplit : encodeAll port.tmax (intervals.take k ++ intervals.drop k) (Coder.encoderStart text) = .ok c := by
    rwa [List.take_append_drop]
  rw [encodeAll_append] at hsplit
  obtain ⟨ck, hfront, hback⟩ := (Run.bind_ok_iff ..).mp hsplit
  have hlength : (intervals.take k).length = k := by rw [List.length_take]; omega
  have hlength' : (intervals.drop k).length = intervals.length - k := List.length_drop
  obtain ⟨hckcan, -⟩ := encodeAll_of_ok (n := 0 + 32 * (intervals.drop k).length) htmax (hcan.mono (by omega)) hfront
  obtain ⟨hccan, hckencloses⟩ := encodeAll_of_ok (n := 0) htmax hckcan hback
  obtain ⟨vs, d, hdecode, hranges, -, hvalues⟩ :=
    (Coder.encoderStart_mirroredBy (text := text) hlow hrange hicnt ⟨by rw [htpos]; exact Nat.zero_le _, htlen⟩).decodeAll htmax
      (n := 0) (hcan.mono (by omega)) hfront (hckencloses _ (finish64_encloses htmax hccan hfinish hstream))
  exact ⟨ck, vs, d, hfront, hdecode, fun h0 => hranges (by omega), hvalues⟩
end

section
/-! PROOFS. The encoder's stages (R202 to R205, R212): `HDRE` and `SYME` are one list of `encode` calls each, and such a list on a
ready encoder goes wrong only where the text is full. Settles O46 and O47. -/

namespace Sys2Proof.Machine

variable {tmax lo hi den n : Nat} {intervals : List (Nat × Nat × Nat)} {s t : State} {c d : Coder}

/-! ### Coder pseudocode inside the machine -/

theorem onCoder_withCoder (s : State) (c : Coder) (x : Run Coder Coder) : onCoder (s.withCoder c) x = onCoder s x := by
  cases x <;> rfl

/-- A stretch that goes on inside the machine as it would on the coder alone. -/
theorem onCoder_bind {x : Run Coder Coder} {f : State → Run State State} {g : Coder → Run Coder Coder}
    (h : ∀ c, f (s.withCoder c) = onCoder s (g c)) : (onCoder s x >>= f) = onCoder s (x >>= g) := by
  cases x with
  | error e => rfl
  | ok c => exact h c

theorem encodeInterval_of_encoding (hmode : s.status.rcmode = .encoding) (lo hi den : Nat) :
    encodeInterval s lo hi den = onCoder s (encode64 s.cfgTmax.toNat lo hi den s.coder) := by
  rw [encodeInterval, checkMode_of_eq hmode, Run.ok_bind]

/-- `encode` and then a stage that is a list of `encode` calls. -/
theorem encodeInterval_bind (hmode : s.status.rcmode = .encoding) (lo hi den : Nat) {f : State → Run State State}
    (h : ∀ c, f (s.withCoder c) = onCoder s (encodeAll s.cfgTmax.toNat intervals c)) :
    (encodeInterval s lo hi den >>= f) = onCoder s (encodeAll s.cfgTmax.toNat ((lo, hi, den) :: intervals) s.coder) := by
  rw [encodeInterval_of_encoding hmode, onCoder_bind h]
  rfl

/-! ### `HDRE` and `SYME` as lists of `encode` calls -/

theorem encodeCounts_of_encoding (hmode : s.status.rcmode = .encoding) (remaining : Nat) (fs : List Nat) :
    encodeCounts s remaining fs = onCoder s (encodeAll s.cfgTmax.toNat (countIntervals remaining fs) s.coder) := by
  induction fs generalizing s remaining with
  | nil => rfl
  | cons f rest ih =>
    rw [encodeCounts, encodeValue, countIntervals]
    refine encodeInterval_bind hmode f (f + 1) remaining fun c => ?_
    rw [ih (s := s.withCoder c) hmode, onCoder_withCoder, State.withCoder_cfgTmax, State.withCoder_coder]

/-- The interval of a symbol in `CUM`, against the denominator `n` (R205, R207). -/
def State.symbolInterval (s : State) (n c : Nat) : Nat × Nat × Nat := (s.elem .cum c, s.elem .cum (c + 1), n)

theorem State.cumAt_eq (s : State) (c : Nat) : s.cumAt c = s.elem .cum c := (reg64_bitVec_toNat (by decide) _).symm

theorem State.symbolInterval_withCoder (s : State) (c : Coder) (n : Nat) :
    (s.withCoder c).symbolInterval n = s.symbolInterval n := rfl

theorem encodeSymbols_of_encoding (hmode : s.status.rcmode = .encoding) (n : Nat) (syms : List Nat) :
    encodeSymbols n s syms = onCoder s (encodeAll s.cfgTmax.toNat (syms.map (s.symbolInterval n)) s.coder) := by
  induction syms generalizing s with
  | nil => rfl
  | cons c rest ih =>
    rw [encodeSymbols, s.cumAt_eq, s.cumAt_eq, List.map_cons, State.symbolInterval]
    refine encodeInterval_bind hmode _ _ n fun d => ?_
    rw [ih (s := s.withCoder d) hmode, onCoder_withCoder, State.withCoder_cfgTmax, State.withCoder_coder,
      State.symbolInterval_withCoder]

/-- The counts `HDRE` codes. -/
def State.counts (s : State) : List Nat := s.elemsBelow .freq 256

/-- The counts `HDRE` and `build_cum` read. -/
theorem fetchPrefix_freq (s : State) (n : Nat) : fetchPrefix .freq s.powerUp s.bufs.freq n = s.elemsBelow .freq n :=
  List.map_congr_left fun _ _ => (reg64_bitVec_toNat (by decide) _).symm

theorem State.freqTable_eq (s : State) : s.freqTable = s.counts := by
  rw [State.freqTable, fetchPrefix_freq, State.counts, Config.nsym]

/-- `HDRE` is the header's list (R202). -/
theorem hdreBody_of_encoding (hmode : s.status.rcmode = .encoding) (hn : s.n.toNat ≤ s.cfgNmax.toNat) :
    hdreBody s = onCoder s
      (encodeAll s.cfgTmax.toNat (headerIntervals s.n.toNat s.bidx.toNat s.counts) s.coder) := by
  rw [hdreBody, checkMode_of_eq hmode, Run.ok_bind]
  dsimp only
  rw [(checkLength_ok_iff s _).mpr hn, Run.ok_bind, s.freqTable_eq, headerIntervals, encodeValue]
  refine encodeInterval_bind hmode _ _ _ fun c => ?_
  split
  · rw [Run.ok_bind, List.nil_append, encodeCounts_of_encoding (s := s.withCoder c) hmode, onCoder_withCoder,
      State.withCoder_cfgTmax, State.withCoder_coder]
  · rw [encodeValue, List.singleton_append]
    refine (encodeInterval_bind (s := s.withCoder c) (intervals := countIntervals (s.n.toNat + 1) s.counts) hmode _ _ _
      fun d => ?_).trans (onCoder_withCoder s c _)
    rw [encodeCounts_of_encoding (s := (s.withCoder c).withCoder d) hmode, onCoder_withCoder, State.withCoder_cfgTmax,
      State.withCoder_coder]

theorem symbolIntervals_eq (s : State) (n : Nat) : symbolIntervals s n = (s.elemsBelow .sym n).map (s.symbolInterval n) := by
  rw [symbolIntervals, State.elemsBelow, List.map_map]
  rfl

/-- `SYME` is the list of the symbols' intervals (R205). -/
theorem symeBody_of_encoding (hmode : s.status.rcmode = .encoding) (hn : s.n.toNat ≤ s.cfgNmax.toNat) :
    symeBody s = onCoder s (encodeAll s.cfgTmax.toNat (symbolIntervals s s.n.toNat) s.coder) := by
  rw [symeBody, checkMode_of_eq hmode, Run.ok_bind]
  dsimp only
  rw [(checkLength_ok_iff s _).mpr hn, Run.ok_bind, fetchPrefix_sym, encodeSymbols_of_encoding hmode, symbolIntervals_eq]

/-! ### A command that is a stretch of coder pseudocode -/

section OnCoder

variable {body : State → Run State State} {x : Run Coder Coder} (hg : s.good)
  (hbody : body s.startCommand = onCoder s.startCommand x)
include hg hbody

theorem runCommand_onCoder_of_ok (hx : x = .ok c) :
    runCommand body s = .next (s.startCommand.withCoder c).complete ∧ completedFrom s (s.startCommand.withCoder c).complete :=
  ⟨runCommand_of_ok body s _ hg (by rw [hbody, hx]; rfl), State.sameRecord.complete ⟨rfl, rfl, rfl, rfl⟩ hg⟩

theorem runCommand_onCoder_of_raised {code : FaultCode} {info : Reg64} (hx : x = .error (.raised code info c)) :
    runCommand body s = .next ((s.startCommand.withCoder c).takeFault code info) ∧
      faultedFrom s ((s.startCommand.withCoder c).takeFault code info) code info.toNat :=
  ⟨runCommand_of_raised body s _ code info hg (by rw [hbody, hx]; rfl), rfl, rfl, rfl, rfl, rfl, (reg64_of_toNat info).symm⟩

end OnCoder

end Sys2Proof.Machine

open Sys2Proof Sys2Proof.Machine

/-- Settles O46: either stage is its list of `encode` calls, run on the coder inside the machine. -/
theorem headerAndSymbolsAreEncodedInOrder : Obligations.HeaderAndSymbolsAreEncodedInOrder := by
  intro s hg hmode hn
  have hhdre := hdreBody_of_encoding (s := s.startCommand) hmode hn
  have hsyme := symeBody_of_encoding (s := s.startCommand) hmode hn
  exact ⟨fun c hc => ⟨_, (runCommand_onCoder_of_ok hg hhdre hc).1, (runCommand_onCoder_of_ok hg hhdre hc).2, rfl⟩,
    fun code info c hc =>
      ⟨_, (runCommand_onCoder_of_raised hg hhdre hc).1, (runCommand_onCoder_of_raised hg hhdre hc).2, rfl⟩,
    fun c hc => ⟨_, (runCommand_onCoder_of_ok hg hsyme hc).1, (runCommand_onCoder_of_ok hg hsyme hc).2, rfl⟩,
    fun code info c hc =>
      ⟨_, (runCommand_onCoder_of_raised hg hsyme hc).1, (runCommand_onCoder_of_raised hg hsyme hc).2, rfl⟩⟩
end

section
/-! PROOFS. A list of legal `encode` calls on a ready encoder (R152, R159, R202 to R205): only a full text ends it, and how much
text it can fill. Settles O47. -/

namespace Sys2Proof.Machine

variable {tmax lo hi den n : Nat} {intervals : List (Nat × Nat × Nat)} {port : TextPort} {s t : State} {c d f : Coder}

/-! ### One call -/

/-- `encode64_codesInterval` up to where a run count could wrap. -/
theorem encode64_codesInterval_of_room (port : TextPort) (htmax : tmax < 2 ^ 64) (h : c.sound .encoding) (hready : c.carryReady)
    (hpend : c.pend.length + 32 < 2 ^ 64) (hint : legalInterval lo hi den = true) :
    ∃ d k, c.normalised k d ∧
      (encode64 tmax lo hi den c).unlessFull (480 * tmax < c.fill + 82 * (c.pend.length + k))
        (d.codesInterval port lo hi den) := by
  obtain ⟨d, k, hd, hnorm⟩ := encNorm_normalised h hpend
  have hclen := h.window.2.2.2
  have hdpos := hnorm.encoder.ring.qpos
  have hdlen := hnorm.encoder.qlen
  obtain ⟨e, he, hnarrows⟩ := narrow_narrows hnorm.encoder.ring.wf (by omega) hnorm.encoder.low hnorm.high hnorm.encoder.range
    (hnorm.steps.carry hready) hint
  have hesame : d.windowOnly e := Run.leaves_of_ok id d.windowOnly _ _ (narrow_windowOnly lo hi den d) he
  have heserial := Coder.serialOk_of_windowOnly (Coder.serialOk_of_windowOnly h.serial hnorm.same) hesame
  have helen := hnarrows.qlen
  have hrun : encode64 tmax lo hi den c = drain tmax 2 e := by
    rw [encode64_of_legal hint (by omega), hd, Run.ok_bind, he, Run.ok_bind]
  have hends := encode64_ends tmax lo hi den c h
  refine ⟨d, k, hnorm, ?_⟩
  rw [hrun] at hends ⊢
  refine Run.unlessFull_mono (Run.unlessFull_and_ends (Run.unlessFull_and_leaves
    (drain_drains port htmax 2 (by omega) (hnarrows.qpos ▸ hdpos) heserial) (drain_outputOnly ..)) hends) ?_ ?_
  · rw [Coder.fill_of_windowOnly hesame, Coder.fill_of_windowOnly hnorm.same, hnarrows.length, hnorm.steps.pend_length]
    exact id
  · rintro f ⟨⟨⟨hdrains, hflen⟩, hout⟩, hsound⟩
    exact hnarrows.codesInterval hesame hdrains hout hflen hsound

/-- The text filled, the pending bits counted in (see `Coder.fill`). -/
def Coder.load (c : Coder) : Nat := c.fill + 82 * c.pend.length

/-- From `c` to `f` a ready encoder coded at most `n` intervals: each produces at most 32 bits, and of the bits produced the
serialiser may have kept at most five back from those pending. -/
structure Coder.codesUpTo (n : Nat) (c f : Coder) : Prop where
  sound : f.sound .encoding
  ready : f.carryReady
  load : f.load ≤ c.load + 2624 * n
  pend : f.pend.length ≤ c.pend.length + 37 * n

theorem Coder.codesUpTo.trans {m : Nat} (h : c.codesUpTo m d) (h' : d.codesUpTo n f) : c.codesUpTo (m + n) f where
  sound := h'.sound
  ready := h'.ready
  load := by
    have := h.load
    have := h'.load
    omega
  pend := by
    have := h.pend
    have := h'.pend
    omega

theorem Coder.codesInterval.codesUpTo {k : Nat} (h : d.codesInterval port lo hi den f) (hnorm : c.normalised k d)
    (hserial : c.serialOk) : c.codesUpTo 1 f := by
  have hk := hnorm.turns
  have hlength := hnorm.steps.pend_length
  have hfill := Coder.fill_of_windowOnly hnorm.same
  refine ⟨h.sound, h.ready, ?_, ?_⟩
  · have := h.fill
    unfold Coder.load
    omega
  · have hbits := h.length _ le_rfl
    have hheld := (Coder.serialOk_of_windowOnly hserial hnorm.same).1
    rw [Coder.produced, Coder.produced, Coder.output_self, List.length_append, List.length_append, Coder.partialBits,
      List.length_map, List.length_range] at hbits
    omega

theorem encode64_codesUpTo (htmax : tmax < 2 ^ 64) (h : c.sound .encoding) (hready : c.carryReady)
    (hpend : c.pend.length + 32 < 2 ^ 64) (hint : legalInterval lo hi den = true) :
    (encode64 tmax lo hi den c).unlessFull (480 * tmax < c.load + 2624) (c.codesUpTo 1) := by
  obtain ⟨d, k, hnorm, hrun⟩ := encode64_codesInterval_of_room { tmax := tmax, powerUp := 0 } htmax h hready hpend hint
  have hk := hnorm.turns
  refine Run.unlessFull_mono hrun (fun hfull => ?_) fun f hf => hf.codesUpTo hnorm h.serial
  unfold Coder.load
  omega

/-! ### A list of calls -/

/-- Every interval meets the precondition of R156. -/
def allLegal (intervals : List (Nat × Nat × Nat)) : Prop := ∀ i ∈ intervals, legalInterval i.1 i.2.1 i.2.2 = true

theorem encodeAll_codesUpTo (htmax : tmax < 2 ^ 64) (hlegal : allLegal intervals) (h : c.sound .encoding) (hready : c.carryReady)
    (hpend : c.pend.length + 37 * intervals.length < 2 ^ 64) :
    (encodeAll tmax intervals c).unlessFull (480 * tmax < c.load + 2624 * intervals.length)
      (c.codesUpTo intervals.length) := by
  induction intervals generalizing c with
  | nil => exact ⟨h, hready, le_rfl, le_rfl⟩
  | cons interval rest ih =>
    obtain ⟨lo, hi, den⟩ := interval
    obtain ⟨hhead, hrest⟩ := List.forall_mem_cons.mp hlegal
    rw [List.length_cons] at hpend ⊢
    rw [encodeAll_cons]
    refine Run.unlessFull_bind (Run.unlessFull_mono (encode64_codesUpTo htmax h hready (by omega) hhead) (by omega)
      fun _ hd => hd) fun d hd => ?_
    have hload := hd.load
    have hlength := hd.pend
    refine Run.unlessFull_mono (ih hrest hd.sound hd.ready (by omega)) (by omega) fun f hf => ?_
    rw [Nat.add_comm]
    exact hd.trans hf

/-! ### The intervals of the header and of the symbols are legal -/

theorem countIntervals_length (remaining : Nat) (fs : List Nat) : (countIntervals remaining fs).length = fs.length := by
  induction fs generalizing remaining with
  | nil => rfl
  | cons f rest ih => rw [countIntervals, List.length_cons, ih, List.length_cons]

/-- Counts that sum to less than the first denominator leave each count below its own (R204). -/
theorem countIntervals_legal {remaining : Nat} {fs : List Nat} (hsum : fs.sum < remaining) (hden : remaining ≤ 2 ^ 31 + 1) :
    allLegal (countIntervals remaining fs) := by
  induction fs generalizing remaining with
  | nil => exact fun _ hi => absurd hi List.not_mem_nil
  | cons f rest ih =>
    rw [List.sum_cons] at hsum
    exact List.forall_mem_cons.mpr
      ⟨(legalInterval_iff f (f + 1) remaining).mpr ⟨by omega, by omega, hden⟩, ih (by omega) (by omega)⟩

theorem headerIntervals_length_le (n bidx : Nat) (fs : List Nat) : (headerIntervals n bidx fs).length ≤ fs.length + 2 := by
  rw [headerIntervals, List.length_cons, List.length_append, countIntervals_length]
  split
  · simp
  · rw [List.length_singleton]
    omega

theorem headerIntervals_legal {bidx : Nat} {fs : List Nat} (hn : n ≤ Config.nmaxBound) (hbidx : 0 < n → bidx < n)
    (hsum : fs.sum ≤ n) : allLegal (headerIntervals n bidx fs) := by
  simp only [Config.nmaxBound] at hn
  refine List.forall_mem_cons.mpr ⟨(legalInterval_iff n (n + 1) 2147483647).mpr ⟨by omega, by omega, by omega⟩,
    List.forall_mem_append.mpr ⟨?_, countIntervals_legal (by omega) (by omega)⟩⟩
  split
  · exact fun _ hi => absurd hi List.not_mem_nil
  · have hlt := hbidx (by omega)
    exact List.forall_mem_singleton.mpr ((legalInterval_iff bidx (bidx + 1) n).mpr ⟨by omega, by omega, by omega⟩)

theorem symbolIntervals_length (s : State) (n : Nat) : (symbolIntervals s n).length = n := by
  rw [symbolIntervals, List.length_map, List.length_range]

theorem symbolIntervals_legal (hn : n ≤ Config.nmaxBound)
    (h : ∀ i < n, s.elem .cum (s.elem .sym i) < s.elem .cum (s.elem .sym i + 1) ∧ s.elem .cum (s.elem .sym i + 1) ≤ n) :
    allLegal (symbolIntervals s n) := by
  simp only [Config.nmaxBound] at hn
  refine List.forall_mem_map.mpr fun i hi => ?_
  obtain ⟨hlt, hle⟩ := h i (List.mem_range.mp hi)
  exact (legalInterval_iff _ _ n).mpr ⟨hlt, hle, by omega⟩

/-- A command that is such a list completes where there is room for it. -/
theorem exec_encodes_list {i : Instr} (hi : i ≠ .reset) (hg : s.good) (hmem : s.memWf = true) (hready : s.coder.encReady)
    (hbody : commandBody i s.startCommand = onCoder s.startCommand (encodeAll s.cfgTmax.toNat intervals s.coder))
    (hlegal : allLegal intervals) (hpend : s.coder.pend.length + 37 * intervals.length < 2 ^ 64)
    (hroom : s.coder.load + 2624 * intervals.length ≤ 480 * s.cfgTmax.toNat) :
    ∃ t, exec i s = .next t ∧ completedFrom s t ∧ t.coder.encReady ∧ t.memWf = true := by
  obtain ⟨-, -, -, -, -, -, -, -, -, -, -, hwf⟩ := (State.memWf_iff s).mp hmem
  obtain ⟨hsound, hcarry⟩ := (Coder.encReady_iff hwf).mp hready
  obtain ⟨f, hf, hcodes⟩ := Run.unlessFull_completes (encodeAll_codesUpTo s.cfgTmax.isLt hlegal hsound hcarry hpend) (by omega)
  obtain ⟨hrun, hdone⟩ := runCommand_onCoder_of_ok hg hbody hf
  rw [← exec_of_ne_reset i s hi] at hrun
  exact ⟨_, hrun, hdone, (Coder.encReady_iff hcodes.sound.ring.wf).mpr ⟨hcodes.sound, hcodes.ready⟩, exec_keeps_memWf hmem hrun⟩

theorem Coder.load_le (h : c.serialOk) : c.load ≤ 480 * c.tlen.toNat + 1268 + 82 * c.pend.length :=
  Nat.add_le_add_right (Coder.fill_le h) _

theorem Coder.encReady.load_le (h : c.encReady) : c.load ≤ 480 * c.tlen.toNat + 1268 + 82 * c.pend.length := by
  obtain ⟨⟨-, -, -, -, -, -, hcnt, hacc, -⟩, -⟩ := h
  exact Coder.load_le ⟨hcnt, hacc⟩

theorem State.counts_length (s : State) : s.counts.length = 256 := s.elemsBelow_length ..

end Sys2Proof.Machine

open Sys2Proof Sys2Proof.Machine

/-- Settles O47: at most 258 intervals, or one per symbol; at 32 bits each they need less than the room asked for. -/
theorem headerAndSymbolEncodingComplete : Obligations.HeaderAndSymbolEncodingComplete := by
  refine ⟨fun s hg hmem hparams hmode hn hbidx hsum hready hpend hroom => ?_,
    fun s hg hmem hparams hmode hn hcum hready hpend hroom => ?_⟩
  · have hlength := headerIntervals_length_le s.n.toNat s.bidx.toNat s.counts
    rw [s.counts_length] at hlength
    have hload := hready.load_le
    exact exec_encodes_list (i := .hdre) (intervals := headerIntervals s.n.toNat s.bidx.toNat s.counts) (by decide) hg hmem hready
      (hdreBody_of_encoding (s := s.startCommand) hmode hn)
      (headerIntervals_legal (hn.trans hparams.1) hbidx hsum) (by omega) (by omega)
  · have hlength := symbolIntervals_length s s.n.toNat
    have hload := hready.load_le
    have hbound : s.n.toNat ≤ 2147483646 := hn.trans hparams.1
    exact exec_encodes_list (i := .syme) (intervals := symbolIntervals s s.n.toNat) (by decide) hg hmem hready
      (symeBody_of_encoding (s := s.startCommand) hmode hn)
      (symbolIntervals_legal (hn.trans hparams.1) hcum) (by omega) (by omega)
end

section
/-! PROOFS. The frequency table and its cumulation (R201), and the search in it (R208). Settles O45 and O51. -/

namespace Sys2Proof.Machine

variable {n c k v : Nat} {fs syms : List Nat} {s t : State}

/-! ### Elements around a command -/

@[simp] theorem State.startCommand_elem (s : State) (sp : Space) (k : Nat) : s.startCommand.elem sp k = s.elem sp k := by
  cases sp <;> rfl

@[simp] theorem State.startCommand_elemsBelow (s : State) (sp : Space) (n : Nat) :
    s.startCommand.elemsBelow sp n = s.elemsBelow sp n := List.map_congr_left fun k _ => s.startCommand_elem sp k

@[simp] theorem State.complete_elem (s : State) (sp : Space) (k : Nat) : s.complete.elem sp k = s.elem sp k := by
  cases sp <;> rfl

@[simp] theorem State.takeFault_elem (s : State) (code : FaultCode) (info : Reg64) (sp : Space) (k : Nat) :
    (s.takeFault code info).elem sp k = s.elem sp k := by
  cases sp <;> rfl

/-! ### Prefix sums -/

/-- Entry `k` of the cumulation is the sum of the first `k` counts (R201). -/
theorem cumulate_getD (total : Nat) (hk : k ≤ fs.length) : (cumulate total fs).getD k 0 = total + (fs.take k).sum := by
  induction fs generalizing total k with
  | nil =>
    obtain rfl : k = 0 := Nat.le_zero.mp hk
    rfl
  | cons f rest ih =>
    cases k with
    | zero => rfl
    | succ k =>
      rw [cumulate, List.getD_cons_succ, ih _ (Nat.le_of_succ_le_succ hk), List.take_succ_cons, List.sum_cons, Nat.add_assoc]

theorem sum_take_succ (hk : k < fs.length) : (fs.take (k + 1)).sum = (fs.take k).sum + fs.getD k 0 := by
  rw [List.sum_take_succ fs k hk, List.getD_eq_getElem _ _ hk]

theorem sum_take_le (fs : List Nat) (k : Nat) : (fs.take k).sum ≤ fs.sum := by
  rw [← List.sum_take_add_sum_drop fs k]
  exact Nat.le_add_right _ _

theorem getD_le_sum (fs : List Nat) (k : Nat) : fs.getD k 0 ≤ fs.sum := by
  by_cases hk : k < fs.length
  · exact List.le_sum_of_mem (getD_mem hk)
  · rw [List.getD_eq_default _ _ (by omega)]
    exact Nat.zero_le _

/-! ### `build_cum` (R201) -/

theorem buildCum_elem_freq (s : State) (c : Nat) : (buildCum s).elem .freq c = s.elem .freq c := by
  simp only [State.elem, readElem, buildCum, State.withBufs_bufs, State.withBufs_powerUp]

theorem buildCum_cum (s : State) : (buildCum s).bufs.cum = storeFrom .cum 0 (cumulate 0 s.counts) s.bufs.cum := by
  simp only [buildCum, State.withBufs_bufs, s.freqTable_eq]

/-- `CUM` after `build_cum`, where the counts sum to a value that fits an element. -/
theorem buildCum_elem_cum (hsum : s.counts.sum < 2 ^ 32) (hk : k ≤ 256) :
    (buildCum s).elem .cum k = (s.counts.take k).sum := by
  have hlen := s.counts_length
  have hentry := cumulate_getD (fs := s.counts) 0 (hlen.symm ▸ hk)
  rw [Nat.zero_add] at hentry
  rw [← hentry]
  refine elem_of_holds ?_
  rw [State.holds, buildCum_cum]
  refine map_peek_storeFrom (by decide) _ _ (by rw [cumulate_length]; omega) ?_
  rw [hentry]
  exact (sum_take_le _ _).trans_lt hsum

/-- `CUM` is the cumulative table of `FREQ`, its last entry the sum of the counts. -/
theorem buildCum_cumOfFreq (hsum : s.counts.sum < 2 ^ 32) :
    (buildCum s).cumOfFreq ∧ (buildCum s).elem .cum 256 = s.counts.sum := by
  have hlen := s.counts_length
  refine ⟨⟨by rw [buildCum_elem_cum hsum (by omega)]; rfl, fun c hc => ?_⟩, ?_⟩
  · rw [buildCum_elem_cum hsum (by omega), buildCum_elem_cum hsum (by omega), sum_take_succ (by omega), buildCum_elem_freq,
      State.counts, s.elemsBelow_getD .freq hc]
  · rw [buildCum_elem_cum hsum le_rfl, ← hlen, List.take_length]

/-! ### `FREQ` (R201) -/

theorem countSymbols_getD (hc : c < 256) : (countSymbols syms).getD c 0 = syms.count c := by
  rw [countSymbols, getD_map_of_lt _ (by rwa [List.length_range, Config.nsym]), List.getD_eq_getElem _ _
    (by rwa [List.length_range, Config.nsym]), List.getElem_range]

theorem sum_map_count_range (h : ∀ x ∈ syms, x < n) : ((List.range n).map fun c => syms.count c).sum = syms.length := by
  have hcard := Multiset.sum_count_eq_card (s := Finset.range n) (m := (syms : Multiset Nat))
    fun x hx => Finset.mem_range.mpr (h x hx)
  rw [← Multiset.coe_card, ← hcard]
  simp only [Multiset.coe_count]
  rfl

/-- The machine with a table of counts stored. -/
def State.withCounts (s : State) (counts : List Nat) : State :=
  s.withBufs { s.bufs with freq := storeFrom .freq 0 counts s.bufs.freq }

/-- A stored table of counts is what the host reads. -/
theorem State.withCounts_elem (hlen : fs.length = 256) (hfit : fs.sum < 2 ^ 32) (hc : c < 256) :
    (s.withCounts fs).elem .freq c = fs.getD c 0 :=
  elem_of_holds (map_peek_storeFrom (by decide) fs s.bufs.freq (by omega) ((getD_le_sum fs c).trans_lt hfit))

theorem State.withCounts_counts (hlen : fs.length = 256) (hfit : fs.sum < 2 ^ 32) : (s.withCounts fs).counts = fs := by
  have hmap : (s.withCounts fs).counts = (List.range 256).map (fun c => fs.getD c 0) :=
    List.map_congr_left fun c hc => State.withCounts_elem hlen hfit (List.mem_range.mp hc)
  rw [hmap, ← hlen, map_getD_range]

/-- The counts of the symbols `SYM[0..N)`. -/
def State.symbolCounts (s : State) : List Nat := countSymbols (s.elemsBelow .sym s.n.toNat)

theorem State.symbolCounts_length (s : State) : s.symbolCounts.length = 256 := by
  rw [State.symbolCounts, countSymbols, List.length_map, List.length_range, Config.nsym]

theorem State.symbolCounts_sum (s : State) : s.symbolCounts.sum = s.n.toNat := by
  rw [State.symbolCounts, countSymbols, sum_map_count_range (s.elemsBelow_sym_lt _), State.elemsBelow_length]

theorem freqBody_of_length (hn : s.n.toNat ≤ s.cfgNmax.toNat) :
    freqBody s = .ok (buildCum (s.withCounts s.symbolCounts)) := by
  rw [freqBody]
  dsimp only
  rw [(checkLength_ok_iff s s.n.toNat).mpr hn, Run.ok_bind, fetchPrefix_sym, State.withCounts, State.symbolCounts]

theorem State.startCommand_symbolCounts (s : State) : s.startCommand.symbolCounts = s.symbolCounts := by
  rw [State.symbolCounts, State.startCommand_elemsBelow, State.startCommand_n, State.symbolCounts]

theorem exec_freq_completes (hg : s.good) (hn : s.n.toNat ≤ s.cfgNmax.toNat) :
    exec .freq s = .next (buildCum (s.startCommand.withCounts s.symbolCounts)).complete ∧
      completedFrom s (buildCum (s.startCommand.withCounts s.symbolCounts)).complete := by
  have hbody := freqBody_of_length (s := s.startCommand) hn
  rw [s.startCommand_symbolCounts] at hbody
  exact ⟨runCommand_of_ok freqBody s _ hg hbody, State.sameRecord.complete ⟨rfl, rfl, rfl, rfl⟩ hg⟩

theorem State.counts_buildCum (s : State) : (buildCum s).counts = s.counts :=
  List.map_congr_left fun k _ => buildCum_elem_freq s k

theorem State.counts_complete (s : State) : s.complete.counts = s.counts := List.map_congr_left fun k _ => s.complete_elem .freq k

/-- `FREQ` leaves the numbers of symbols and their cumulation. -/
theorem exec_freq_tabulates (hg : s.good) (hn : s.n.toNat ≤ s.cfgNmax.toNat) (hfit : s.n.toNat ≤ Config.nmaxBound) :
    ∃ t, exec .freq s = .next t ∧ completedFrom s t ∧ t.counts = s.symbolCounts ∧ t.cumOfFreq ∧
      t.elem .cum 256 = s.n.toNat := by
  obtain ⟨hexec, hdone⟩ := exec_freq_completes hg hn
  have hlen := s.symbolCounts_length
  have hsum := s.symbolCounts_sum
  have hbound : s.n.toNat ≤ 2147483646 := hfit
  have hcounts := State.withCounts_counts (s := s.startCommand) hlen (by omega)
  obtain ⟨hcum, hlast⟩ := buildCum_cumOfFreq (s := s.startCommand.withCounts s.symbolCounts) (by rw [hcounts]; omega)
  rw [hcounts, hsum] at hlast
  refine ⟨_, hexec, hdone, ?_, by simpa only [State.cumOfFreq, State.complete_elem] using hcum, by rwa [State.complete_elem]⟩
  rw [State.counts_complete, State.counts_buildCum, hcounts]

/-! ### The search (R208) -/

/-- Each turn halves `[lo, hi)`; the symbol it ends with has its count at or below the value and the next one above it, or is the
last of the interval. -/
theorem lookupTurns_finds (cum : Nat → Nat) (v turns lo hi : Nat) (hhi : hi = lo + 2 ^ turns) :
    lo ≤ lookupTurns cum v turns lo hi ∧ lookupTurns cum v turns lo hi < hi ∧
      (cum lo ≤ v → cum (lookupTurns cum v turns lo hi) ≤ v) ∧
      (lookupTurns cum v turns lo hi + 1 = hi ∨ v < cum (lookupTurns cum v turns lo hi + 1)) := by
  induction turns generalizing lo hi with
  | zero => exact ⟨le_rfl, by rw [lookupTurns]; omega, id, .inl (by rw [lookupTurns]; omega)⟩
  | succ turns ih =>
    have hpos := Nat.two_pow_pos turns
    have hmid : (lo + hi) / 2 = lo + 2 ^ turns := by omega
    rw [lookupTurns, hmid]
    split
    · rename_i hle
      obtain ⟨hlow, hlt, hcum, hnext⟩ := ih (lo + 2 ^ turns) hi (by omega)
      exact ⟨by omega, hlt, fun _ => hcum hle, hnext⟩
    · rename_i hgt
      obtain ⟨hlow, hlt, hcum, hnext⟩ := ih lo (lo + 2 ^ turns) rfl
      refine ⟨hlow, by omega, hcum, .inr ?_⟩
      rcases hnext with hlast | hnext
      · rw [hlast]
        omega
      · exact hnext

theorem State.lookup_lt (s : State) (v : Nat) : s.lookup v < 256 := (lookupTurns_finds s.cumAt v 8 0 256 rfl).2.1

/-- Entries of a non-decreasing table. -/
theorem elem_cum_mono (h : ∀ c < 256, s.elem .cum c ≤ s.elem .cum (c + 1)) {a b : Nat} (hab : a ≤ b) (hb : b ≤ 256) :
    s.elem .cum a ≤ s.elem .cum b := by
  induction b, hab using Nat.le_induction with
  | base => exact le_rfl
  | succ b _ ih => exact (ih (by omega)).trans (h b (by omega))

/-- With a table that starts at 0, the search finds the symbol whose interval holds the value, or the last one. -/
theorem State.lookup_finds (h0 : s.elem .cum 0 = 0) (v : Nat) :
    s.elem .cum (s.lookup v) ≤ v ∧ (s.lookup v + 1 = 256 ∨ v < s.elem .cum (s.lookup v + 1)) := by
  obtain ⟨-, -, hle, hnext⟩ := lookupTurns_finds s.cumAt v 8 0 256 rfl
  rw [← s.cumAt_eq, ← s.cumAt_eq]
  exact ⟨hle (by rw [s.cumAt_eq, h0]; exact Nat.zero_le v), hnext⟩

/-- The symbols' intervals do not overlap: the search finds the one that holds the value. -/
theorem State.lookup_eq (h0 : s.elem .cum 0 = 0) (hmono : ∀ c < 256, s.elem .cum c ≤ s.elem .cum (c + 1)) (hc : c < 256)
    (hle : s.elem .cum c ≤ v) (hlt : v < s.elem .cum (c + 1)) : s.lookup v = c := by
  obtain ⟨hfound, hnext⟩ := State.lookup_finds h0 v
  have hbound := s.lookup_lt v
  rcases Nat.lt_trichotomy (s.lookup v) c with hless | heq | hmore
  · have := elem_cum_mono hmono (show s.lookup v + 1 ≤ c by omega) (by omega)
    omega
  · exact heq
  · have := elem_cum_mono hmono (show c + 1 ≤ s.lookup v by omega) (by omega)
    omega

end Sys2Proof.Machine

open Sys2Proof Sys2Proof.Machine

/-- Settles O45: `CUM` holds the running sums of the counts, and every symbol is counted once. -/
theorem frequencyTableCountsAndCumulates : Obligations.FrequencyTableCountsAndCumulates := by
  intro s hg hparams hn
  obtain ⟨t, hexec, hdone, hcounts, hcum, hlast⟩ := exec_freq_tabulates hg hn (hn.trans hparams.1)
  refine ⟨t, hexec, hdone, fun c hc => ?_, hcum, hlast⟩
  rw [← State.elemsBelow_getD t .freq hc, ← State.counts, hcounts, State.symbolCounts, countSymbols_getD hc, State.elemsBelow,
    List.count, List.countP_map]
  exact List.countP_congr fun i _ => by rw [Function.comp_apply, beq_iff_eq, decide_eq_true_eq]

/-- Settles O51: the symbol after the one found is above the value, and so are all the later ones. -/
theorem lookupFindsTheLargestSymbol : Obligations.LookupFindsTheLargestSymbol := by
  intro s v h0 hmono
  have hlt := s.lookup_lt v
  obtain ⟨hle, hnext⟩ := State.lookup_finds h0 v
  refine ⟨hlt, hle, fun c hc hmore => ?_, fun hv => ?_⟩
  · have := elem_cum_mono hmono (show s.lookup v + 1 ≤ c by omega) (by omega)
    omega
  · rcases hnext with hlast | hnext
    · rwa [hlast]
    · exact hnext
end

section
/-! PROOFS. The header's decoder (R206): a header is a list of `decode`, `scale` pairs on values, and a live decoder finds a value
below every denominator. Settles O48 and O49. -/

namespace Sys2Proof.Machine

variable {port : TextPort} {lo hi den n r v b : Nat} {fs vs : List Nat} {intervals rest : List (Nat × Nat × Nat)} {s t : State}
  {c d e f : Coder}

/-! ### A live decoder (R168 to R172) -/

/-- A decoder between two reads, over a text within `TMAX`. -/
structure Coder.live (port : TextPort) (c : Coder) : Prop where
  decoder : c.decoderOk
  cursors : c.cursorsOk port.tmax

/-- What a stretch of decoding from `c` to `d` keeps: a decoder, and the whole encoder's side. -/
structure Coder.follows (c d : Coder) : Prop where
  decodes : c.decodesTo d
  same : c.sameEncoder d

theorem Coder.follows.refl (c : Coder) : c.follows c := ⟨.refl c, rfl, rfl, rfl, rfl, rfl, rfl, rfl, rfl⟩

theorem Coder.follows.trans (h : c.follows d) (h' : d.follows e) : c.follows e := by
  refine ⟨h.decodes.trans h'.decodes, ?_⟩
  obtain ⟨-, h1, h2, h3, h4, h5, h6, h7, h8⟩ := h
  obtain ⟨-, k1, k2, k3, k4, k5, k6, k7, k8⟩ := h'
  exact ⟨k1.trans h1, k2.trans h2, k3.trans h3, k4.trans h4, k5.trans h5, k6.trans h6, k7.trans h7, k8.trans h8⟩

theorem Coder.live.of_follows (h : c.live port) (hd : c.follows d) : d.live port :=
  ⟨hd.decodes.decoder h.decoder, hd.decodes.cursors _ h.cursors⟩

theorem Coder.live.ready (h : c.live port) : c.ready port := ⟨h.decoder.low, h.decoder.parser.2, h.cursors⟩

theorem State.coder_live (h : s.coder.legal .decoding) (hcursors : s.cursorsLegal) : s.coder.live s.port := by
  obtain ⟨-, hdec, -, -, -, -, -, -, hiacc, hicnt⟩ := h
  exact ⟨⟨(hdec rfl).1, (hdec rfl).2, hiacc, hicnt⟩, hcursors⟩

theorem decode64_follows (h : decode64 port den c = .ok (v, d)) : c.follows d :=
  ⟨(Run.ends_of_ok (decode64_ends port den c) h).1,
    Run.leaves_of_ok Prod.snd c.sameEncoder _ _ (decode64_sameEncoder port den c) h⟩

theorem scale64_follows (h : scale64 port lo hi den c = .ok d) : c.follows d :=
  ⟨Run.ends_of_ok (scale64_ends port lo hi den c) h,
    Run.leaves_of_ok id c.sameEncoder _ _ (scale64_sameEncoder port lo hi den c) h⟩

/-- `decode` finds a value below the denominator, and `scale` of every interval that holds the value completes. -/
theorem Coder.live.decodes (h : c.live port) (hden : legalDenom den = true) :
    ∃ v d, decode64 port den c = .ok (v, d) ∧ v < den ∧
      ∀ lo hi, lo ≤ v → v < hi → hi ≤ den → ∃ e, scale64 port lo hi den d = .ok e ∧ c.follows e := by
  obtain ⟨hpos, hbound⟩ := (legalDenom_iff den).mp hden
  obtain ⟨d, k, hd, -, hshift, hhigh, -⟩ := decNorm_shiftsIn h.decoder.range h.ready
  have hdecode := decode64_of_legal hden hd
  refine ⟨_, d, hdecode, codeValue_lt d den hpos hshift.ready.inside, fun lo hi hlo hlt hhi => ?_⟩
  have hinside : d.inSubWindow lo hi den :=
    ⟨(scaled_le_iff_le_codeValue d hpos (by omega)).mpr hlo, (lt_scaled_iff_codeValue_lt d hpos (by omega)).mpr hlt⟩
  have hscale : scale64 port lo hi den d = .ok (d.scaledTo lo hi den) := by
    rw [scale64_of_legal ((legalInterval_iff lo hi den).mpr ⟨by omega, hhi, hbound⟩) (decNorm_of_high hhigh),
      decScale_of_inside hinside]
  exact ⟨_, hscale, (decode64_follows hdecode).trans (scale64_follows hscale)⟩

/-! ### Lists of `decode`, `scale` pairs -/

theorem decodeAll_cons_iff : decodeAll port ((lo, hi, den) :: rest) c = .ok (vs, f) ↔
    ∃ v d e ws, decode64 port den c = .ok (v, d) ∧ scale64 port lo hi den d = .ok e ∧ decodeAll port rest e = .ok (ws, f) ∧
      vs = v :: ws := by
  constructor
  · intro h
    obtain ⟨⟨v, d⟩, hdecode, h⟩ := (Run.bind_ok_iff ..).mp h
    obtain ⟨e, hscale, h⟩ := (Run.bind_ok_iff ..).mp h
    obtain ⟨⟨ws, g⟩, hrest, h⟩ := (Run.bind_ok_iff ..).mp h
    cases h
    exact ⟨v, d, e, ws, hdecode, hscale, hrest, rfl⟩
  · rintro ⟨v, d, e, ws, hdecode, hscale, hrest, rfl⟩
    rw [decodeAll, hdecode, Run.ok_bind]
    dsimp only
    rw [hscale, Run.ok_bind, hrest]
    rfl

/-- The pairs of the intervals return the lower ends. -/
def Coder.readsBack (port : TextPort) (intervals : List (Nat × Nat × Nat)) (c d : Coder) : Prop :=
  decodeAll port intervals c = .ok (intervals.map Prod.fst, d)

theorem Coder.readsBack_nil : c.readsBack port [] d ↔ d = c := by
  rw [Coder.readsBack, decodeAll, List.map_nil, Except.ok.injEq, Prod.mk.injEq, eq_comm (a := c)]
  exact and_iff_right rfl

theorem Coder.readsBack_cons : c.readsBack port ((lo, hi, den) :: rest) f ↔
    ∃ d e, decode64 port den c = .ok (lo, d) ∧ scale64 port lo hi den d = .ok e ∧ e.readsBack port rest f := by
  rw [Coder.readsBack, decodeAll_cons_iff, List.map_cons]
  constructor
  · rintro ⟨v, d, e, ws, hdecode, hscale, hrest, heq⟩
    obtain ⟨rfl, rfl⟩ := List.cons.inj heq
    exact ⟨d, e, hdecode, hscale, hrest⟩
  · rintro ⟨d, e, hdecode, hscale, hrest⟩
    exact ⟨lo, d, e, _, hdecode, hscale, hrest, rfl⟩

theorem Coder.readsBack_append : c.readsBack port (intervals ++ rest) f ↔
    ∃ e, c.readsBack port intervals e ∧ e.readsBack port rest f := by
  induction intervals generalizing c with
  | nil =>
    rw [List.nil_append]
    exact ⟨fun h => ⟨c, readsBack_nil.mpr rfl, h⟩, fun ⟨e, he, h⟩ => readsBack_nil.mp he ▸ h⟩
  | cons interval intervals ih =>
    obtain ⟨lo, hi, den⟩ := interval
    rw [List.cons_append, readsBack_cons]
    constructor
    · rintro ⟨d, e, hdecode, hscale, hrest⟩
      obtain ⟨g, hg, hrest⟩ := ih.mp hrest
      exact ⟨g, readsBack_cons.mpr ⟨d, e, hdecode, hscale, hg⟩, hrest⟩
    · rintro ⟨g, hg, hrest⟩
      obtain ⟨d, e, hdecode, hscale, hg⟩ := readsBack_cons.mp hg
      exact ⟨d, e, hdecode, hscale, ih.mpr ⟨g, hg, hrest⟩⟩

theorem Coder.readsBack_pair : c.readsBack port [(lo, hi, den)] f ↔
    ∃ d, decode64 port den c = .ok (lo, d) ∧ scale64 port lo hi den d = .ok f := by
  rw [readsBack_cons]
  constructor
  · rintro ⟨d, e, hdecode, hscale, hnil⟩
    exact ⟨d, hdecode, readsBack_nil.mp hnil ▸ hscale⟩
  · rintro ⟨d, hdecode, hscale⟩
    exact ⟨d, f, hdecode, hscale, readsBack_nil.mpr rfl⟩

/-- A live decoder reads some value below any denominator. -/
theorem Coder.live.readsValue (h : c.live port) (hden : legalDenom den = true) :
    ∃ v e, v < den ∧ c.readsBack port [(v, v + 1, den)] e ∧ c.follows e := by
  obtain ⟨v, d, hdecode, hlt, hscales⟩ := h.decodes hden
  obtain ⟨e, hscale, he⟩ := hscales v (v + 1) le_rfl (Nat.lt_succ_self v) hlt
  exact ⟨v, e, hlt, Coder.readsBack_pair.mpr ⟨d, hdecode, hscale⟩, he⟩

/-- A live decoder reads some counts, whatever is to remain of the denominator (R206). -/
theorem Coder.live.readsCounts (h : c.live port) (hpos : 1 ≤ r) (hr : r ≤ 2 ^ 31) (todo : Nat) :
    ∃ fs e, fs.length = todo ∧ fs.sum < r ∧ c.readsBack port (countIntervals r fs) e ∧ c.follows e := by
  induction todo generalizing c r with
  | zero => exact ⟨[], c, rfl, hpos, Coder.readsBack_nil.mpr rfl, .refl c⟩
  | succ todo ih =>
    obtain ⟨v, d, hlt, hvalue, hd⟩ := h.readsValue ((legalDenom_iff r).mpr ⟨hpos, by omega⟩)
    obtain ⟨fs, e, hlen, hsum, hcounts, he⟩ := ih (h.of_follows hd) (show 1 ≤ r - v by omega) (by omega)
    refine ⟨v :: fs, e, congrArg (· + 1) hlen, by rw [List.sum_cons]; omega, ?_, hd.trans he⟩
    exact Coder.readsBack_append.mpr ⟨d, hvalue, hcounts⟩

/-! ### Values stored in ascending order -/

/-- `BUF[i + t] <- vs[t]` for `t` from 0 on. -/
def storeEach {w : Nat} (sp : Space) (i : Nat) (vs : List Nat) (m : Memory w) : Memory w :=
  match vs with
  | [] => m
  | v :: rest => storeEach sp (i + 1) rest (store sp i (BitVec.ofNat w v) m)

theorem peek_storeEach_of_lt {w : Nat} (sp : Space) (vs : List Nat) (m : Memory w) {i j : Nat} (hj : j < i) :
    (storeEach sp i vs m).peek (unlisted sp w) j = m.peek (unlisted sp w) j := by
  induction vs generalizing i m with
  | nil => rfl
  | cons v rest ih => rw [storeEach, ih _ (Nat.lt_succ_of_lt hj), store, Memory.peek_put_other _ _ _ _ _ (Nat.ne_of_lt hj)]

theorem peek_storeEach {w : Nat} {sp : Space} (hsp : unlisted sp w = none) (vs : List Nat) (m : Memory w) (i : Nat) {k : Nat}
    (hk : k < vs.length) : (storeEach sp i vs m).peek (unlisted sp w) (i + k) = some (BitVec.ofNat w (vs.getD k 0)) := by
  induction vs generalizing i k m with
  | nil => exact absurd hk (Nat.not_lt_zero k)
  | cons v rest ih =>
    rw [storeEach]
    cases k with
    | zero =>
      rw [Nat.add_zero, peek_storeEach_of_lt sp rest _ (Nat.lt_succ_self i), store, List.getD_cons_zero]
      exact Memory.peek_put_same_of_ne _ _ _ _ (by simp [hsp])
    | succ k =>
      rw [List.getD_cons_succ, show i + (k + 1) = i + 1 + k by omega]
      exact ih _ _ (Nat.lt_of_succ_lt_succ hk)

/-- The machine with counts stored from symbol `k` on. -/
def State.setFreqs (s : State) (k : Nat) (fs : List Nat) : State :=
  s.withBufs { s.bufs with freq := storeEach .freq k fs s.bufs.freq }

theorem State.setFreqs_elem (hfit : fs.sum < 2 ^ 32) {k : Nat} (hk : k < fs.length) :
    (s.setFreqs 0 fs).elem .freq k = fs.getD k 0 := by
  have hpeek := peek_storeEach (w := 32) (sp := .freq) rfl fs s.bufs.freq 0 hk
  rw [Nat.zero_add] at hpeek
  refine elem_of_holds ?_
  rw [State.holds, State.setFreqs, State.withBufs_bufs, hpeek, Option.map_some, BitVec.toNat_ofNat,
    Nat.mod_eq_of_lt ((getD_le_sum fs k).trans_lt hfit)]

theorem State.setFreqs_counts (hlen : fs.length = 256) (hfit : fs.sum < 2 ^ 32) : (s.setFreqs 0 fs).counts = fs := by
  have hmap : (s.setFreqs 0 fs).counts = (List.range 256).map (fun k => fs.getD k 0) :=
    List.map_congr_left fun k hk => State.setFreqs_elem hfit (hlen.symm ▸ List.mem_range.mp hk)
  rw [hmap, ← hlen, map_getD_range]

/-! ### `HDRD` (R206) -/

theorem decodeValue_of_readsBack (hmode : s.status.rcmode = .decoding) (h : s.coder.readsBack s.port [(v, v + 1, den)] e) :
    decodeValue s den = .ok (v, s.withCoder e) := by
  obtain ⟨d, hdecode, hscale⟩ := Coder.readsBack_pair.mp h
  have hvalue : decodeValueOf s den = .ok (v, s.withCoder d) := by
    rw [decodeValueOf, checkMode_of_eq hmode, Run.ok_bind]
    exact (onCoderValue_ok_iff ..).mpr ⟨d, hdecode, rfl⟩
  have hinterval : scaleInterval (s.withCoder d) v (v + 1) den = .ok (s.withCoder e) := by
    rw [scaleInterval, checkMode_of_eq (s := s.withCoder d) hmode, Run.ok_bind]
    exact (onCoder_ok_iff ..).mpr ⟨e, hscale, rfl⟩
  rw [decodeValue, hvalue, Run.ok_bind]
  dsimp only
  rw [hinterval]
  rfl

/-- The counts read are stored, and taken from the denominator. -/
theorem decodeCounts_of_readsBack (hmode : s.status.rcmode = .decoding)
    (h : s.coder.readsBack s.port (countIntervals r fs) e) (k : Nat) :
    decodeCounts s fs.length k r = .ok (r - fs.sum, (s.setFreqs k fs).withCoder e) := by
  induction fs generalizing s r k with
  | nil =>
    obtain rfl := Coder.readsBack_nil.mp h
    rfl
  | cons v fs ih =>
    obtain ⟨d, hvalue, hcounts⟩ := Coder.readsBack_append (intervals := [(v, v + 1, r)]).mp h
    rw [List.length_cons, decodeCounts, decodeValue_of_readsBack hmode hvalue, Run.ok_bind]
    dsimp only
    rw [ih (s := (s.withCoder d).setFreq k v) hmode hcounts (k + 1), List.sum_cons, ← Nat.sub_sub]
    rfl

/-- The index field of the header as an interval list (R202, R211). -/
def indexIntervals (n b : Nat) : List (Nat × Nat × Nat) := if n = 0 then [] else [(b, b + 1, n)]

theorem headerIntervals_eq (n b : Nat) (fs : List Nat) :
    headerIntervals n b fs = [(n, n + 1, Config.lenDenom)] ++ (indexIntervals n b ++ countIntervals (n + 1) fs) := rfl

theorem decodeIndex_of_readsBack (hmode : s.status.rcmode = .decoding) (hb : n = 0 → b = 0)
    (h : s.coder.readsBack s.port (indexIntervals n b) e) :
    decodeIndex s n = .ok { s.withCoder e with bidx := reg64 b } := by
  rw [decodeIndex]
  dsimp only
  rw [indexIntervals] at h
  split
  · rename_i hn
    rw [if_pos hn] at h
    rw [Coder.readsBack_nil.mp h, hb hn]
    rfl
  · rename_i hn
    rw [if_neg hn] at h
    rw [decodeValue_of_readsBack (s := { s with bidx := 0 }) hmode h]
    rfl

/-- The machine with a header read: length, index, counts and their cumulation, and the coder. -/
def State.withHeader (s : State) (n b : Nat) (fs : List Nat) (c : Coder) : State :=
  buildCum (({ s with n := reg64 n, bidx := reg64 b } : State).setFreqs 0 fs |>.withCoder c)

theorem hdrdBody_of_long (hmode : s.status.rcmode = .decoding) (hn : s.cfgNmax.toNat < n)
    (h : s.coder.readsBack s.port [(n, n + 1, Config.lenDenom)] e) : hdrdBody s = raise .badLength n (s.withCoder e) := by
  have hcheck : checkLength (s.withCoder e) n = raise .badLength n (s.withCoder e) := if_pos hn
  rw [hdrdBody, checkMode_of_eq hmode, Run.ok_bind, decodeValue_of_readsBack hmode h, Run.ok_bind]
  dsimp only
  rw [hcheck, raise, raise, Run.error_bind]

/-- `HDRD` of a header that the decoder reads back completes exactly where the counts sum to the length. -/
theorem hdrdBody_of_readsBack (hmode : s.status.rcmode = .decoding) (hn : n ≤ s.cfgNmax.toNat) (hb : n = 0 → b = 0)
    (hlen : fs.length = 256) (h : s.coder.readsBack s.port (headerIntervals n b fs) e) :
    hdrdBody s = if n + 1 - fs.sum = 1 then .ok (s.withHeader n b fs e)
      else raise .corruptStream (n + 1 - fs.sum) (s.withHeader n b fs e) := by
  rw [headerIntervals_eq] at h
  obtain ⟨c, hlength, h⟩ := Coder.readsBack_append.mp h
  obtain ⟨d, hindex, hcounts⟩ := Coder.readsBack_append.mp h
  have hcheck : checkLength (s.withCoder c) n = .ok () := (checkLength_ok_iff ..).mpr hn
  rw [hdrdBody, checkMode_of_eq hmode, Run.ok_bind, decodeValue_of_readsBack hmode hlength, Run.ok_bind]
  dsimp only
  rw [hcheck, Run.ok_bind, decodeIndex_of_readsBack (s := { s.withCoder c with n := reg64 n }) hmode hb hindex, Run.ok_bind,
    Config.nsym, ← hlen,
    decodeCounts_of_readsBack (s := { ({ s.withCoder c with n := reg64 n } : State).withCoder d with bidx := reg64 b }) hmode
      hcounts,
    Run.ok_bind]
  rfl

/-- The table a header leaves. -/
theorem State.withHeader_table (hlen : fs.length = 256) (hfit : fs.sum < 2 ^ 32) :
    (s.withHeader n b fs e).counts = fs ∧ (s.withHeader n b fs e).cumOfFreq ∧ (s.withHeader n b fs e).elem .cum 256 = fs.sum := by
  have hcounts : (({ s with n := reg64 n, bidx := reg64 b } : State).setFreqs 0 fs |>.withCoder e).counts = fs :=
    State.setFreqs_counts hlen hfit
  obtain ⟨hcum, hlast⟩ := buildCum_cumOfFreq (hcounts.symm ▸ hfit)
  rw [hcounts] at hlast
  exact ⟨(State.counts_buildCum _).trans hcounts, hcum, hlast⟩

/-- The index of a header fits `BIDX`. -/
theorem index_toNat (hn : n < 2 ^ 64) (hzero : n = 0 → b = 0) (hlt : 0 < n → b < n) : (reg64 b).toNat = b :=
  reg64_toNat b (by omega)

theorem buildCum_coder (s : State) : (buildCum s).coder = s.coder := by rw [buildCum, State.withBufs_coder]

/-- `HDRD` of a header that is read back leaves it and the coder that read it; it completes where the counts sum to the length. -/
theorem exec_hdrd_of_readsBack (hg : s.good) (hmode : s.status.rcmode = .decoding) (hn : n ≤ s.cfgNmax.toNat)
    (hb : n = 0 → b = 0) (hlen : fs.length = 256) (hsum : fs.sum ≤ n) (hfit : n < 2 ^ 32)
    (h : s.coder.readsBack s.port (headerIntervals n b fs) e) :
    ∃ t, exec .hdrd s = .next t ∧ t.n = reg64 n ∧ t.bidx = reg64 b ∧ t.coder = e ∧ t.counts = fs ∧ t.cumOfFreq ∧
      t.elem .cum 256 = fs.sum ∧ (fs.sum = n → completedFrom s t) ∧
      (fs.sum ≠ n → faultedFrom s t .corruptStream (n + 1 - fs.sum)) := by
  have hbody := hdrdBody_of_readsBack (s := s.startCommand) hmode hn hb hlen h
  obtain ⟨hcounts, hcum, hlast⟩ := State.withHeader_table (s := s.startCommand) (n := n) (b := b) (e := e) hlen (by omega)
  have hcoder : (s.startCommand.withHeader n b fs e).coder = e := by
    rw [State.withHeader, buildCum_coder, State.withCoder_coder]
  by_cases heq : fs.sum = n
  · rw [if_pos (by omega)] at hbody
    refine ⟨_, runCommand_of_ok hdrdBody s _ hg hbody, rfl, rfl, hcoder, (State.counts_complete _).trans hcounts,
      by simpa only [State.cumOfFreq, State.complete_elem] using hcum, by rw [State.complete_elem, hlast],
      fun _ => State.sameRecord.complete ⟨rfl, rfl, rfl, rfl⟩ hg, fun hne => absurd heq hne⟩
  · rw [if_neg (by omega)] at hbody
    refine ⟨_, runCommand_of_raised hdrdBody s _ _ _ hg hbody, rfl, rfl, hcoder,
      (List.map_congr_left fun k _ => State.takeFault_elem ..).trans hcounts,
      by simpa only [State.cumOfFreq, State.takeFault_elem] using hcum, by rw [State.takeFault_elem, hlast],
      fun h => absurd h heq, fun _ => ⟨rfl, rfl, rfl, rfl, rfl, rfl⟩⟩

/-- A live decoder reads a header: a length, and for one within `NMAX` an index below it and counts that sum to at most it. -/
theorem Coder.live.readsHeader (h : c.live port) (hn : n < Config.lenDenom)
    (hvalue : c.readsBack port [(n, n + 1, Config.lenDenom)] d)
    (hd : c.follows d) :
    ∃ b fs e, (n = 0 → b = 0) ∧ (0 < n → b < n) ∧ fs.length = 256 ∧ fs.sum ≤ n ∧
      c.readsBack port (headerIntervals n b fs) e ∧ c.follows e := by
  have hbound : n < 2147483647 := hn
  obtain ⟨b, f, hzero, hlt, hindex, hf⟩ : ∃ b f, (n = 0 → b = 0) ∧ (0 < n → b < n) ∧ d.readsBack port (indexIntervals n b) f ∧
      d.follows f := by
    by_cases h0 : n = 0
    · refine ⟨0, d, fun _ => rfl, fun hpos => absurd h0 (by omega), ?_, .refl d⟩
      rw [indexIntervals, if_pos h0]
      exact Coder.readsBack_nil.mpr rfl
    · obtain ⟨b, f, hlt, hindex, hf⟩ := (h.of_follows hd).readsValue ((legalDenom_iff n).mpr ⟨by omega, by omega⟩)
      refine ⟨b, f, fun h0' => absurd h0' h0, fun _ => hlt, ?_, hf⟩
      rw [indexIntervals, if_neg h0]
      exact hindex
  obtain ⟨fs, e, hlen, hsum, hcounts, he⟩ :=
    ((h.of_follows hd).of_follows hf).readsCounts (show 1 ≤ n + 1 by omega) (by omega) 256
  refine ⟨b, fs, e, hzero, hlt, hlen, by omega, ?_, (hd.trans hf).trans he⟩
  rw [headerIntervals_eq]
  exact Coder.readsBack_append.mpr ⟨d, hvalue, Coder.readsBack_append.mpr ⟨f, hindex, hcounts⟩⟩

/-- Values inside one-value intervals are those values. -/
theorem readsBack_of_decodeAll (hunit : ∀ i ∈ intervals, i.2.1 = i.1 + 1) (h : decodeAll port intervals c = .ok (vs, e))
    (hvs : List.Forall₂ (fun v (i : Nat × Nat × Nat) => i.1 ≤ v ∧ v < i.2.1) vs intervals) : c.readsBack port intervals e := by
  have heq : vs = intervals.map Prod.fst := by
    clear h
    induction hvs with
    | nil => rfl
    | cons hv _ ih =>
      have hone := hunit _ (List.mem_cons_self ..)
      rw [List.map_cons, ih fun i hi => hunit i (List.mem_cons_of_mem _ hi)]
      congr 1
      omega
  rw [Coder.readsBack, h, heq]

theorem countIntervals_unit (r : Nat) (fs : List Nat) : ∀ i ∈ countIntervals r fs, i.2.1 = i.1 + 1 := by
  induction fs generalizing r with
  | nil => exact fun i hi => absurd hi List.not_mem_nil
  | cons f fs ih =>
    rw [countIntervals]
    exact List.forall_mem_cons.mpr ⟨rfl, ih _⟩

theorem headerIntervals_unit (n b : Nat) (fs : List Nat) : ∀ i ∈ headerIntervals n b fs, i.2.1 = i.1 + 1 := by
  rw [headerIntervals_eq]
  refine List.forall_mem_append.mpr ⟨List.forall_mem_singleton.mpr rfl, List.forall_mem_append.mpr ⟨?_, countIntervals_unit _ _⟩⟩
  rw [indexIntervals]
  split
  · exact fun i hi => absurd hi List.not_mem_nil
  · exact List.forall_mem_singleton.mpr rfl

end Sys2Proof.Machine

open Sys2Proof Sys2Proof.Machine

/-- Settles O48: a live decoder reads some header back; what its counts leave of the denominator decides the end. -/
theorem headerDecodingOutcomes : Obligations.HeaderDecodingOutcomes := by
  intro s hg hparams hmode hlegal hcursors
  have hlive := State.coder_live hlegal hcursors
  obtain ⟨n, c, hn, hvalue, hc⟩ := hlive.readsValue (den := Config.lenDenom) (by decide)
  have hbound : n < 2147483647 := hn
  by_cases hlong : s.cfgNmax.toNat < n
  · have hbody := hdrdBody_of_long (s := s.startCommand) hmode hlong hvalue
    exact ⟨_, n, c, runCommand_of_raised hdrdBody s _ _ _ hg hbody, hn, hvalue,
      fun _ => ⟨⟨rfl, rfl, rfl, rfl, rfl, rfl⟩, reg64_toNat n (by omega), rfl, rfl, rfl, rfl⟩, fun hle => absurd hlong (by omega)⟩
  obtain ⟨b, fs, e, hzero, hlt, hlen, hsum, hheader, -⟩ := hlive.readsHeader hn hvalue hc
  obtain ⟨t, hexec, hnt, hbt, -, -, hcum, hlast, hdone, hfault⟩ :=
    exec_hdrd_of_readsBack hg hmode (by omega) hzero hlen hsum (by omega) hheader
  have hlength : t.n.toNat = n := by rw [hnt, reg64_toNat n (by omega)]
  have hbidx : t.bidx.toNat = b := by rw [hbt, index_toNat (by omega) hzero hlt]
  refine ⟨t, n, c, hexec, hn, hvalue, fun h => absurd h hlong, fun _ =>
    ⟨hlength, hcum, fun h0 => hbidx.trans (hzero h0), fun hpos => hbidx.trans_lt (hlt hpos), ?_⟩⟩
  by_cases heq : fs.sum = n
  · exact .inl ⟨hdone heq, hlast.trans heq⟩
  · obtain ⟨-, -, -, -, -, hinfo⟩ := hfault heq
    exact .inr ⟨n + 1 - fs.sum, by omega, hfault heq, by rw [hinfo, reg64_toNat _ (by omega)], by rw [hlast]; omega⟩

/-- Settles O49: the decoder that mirrors the encoder reads back the header's values, which fill their intervals. -/
theorem headerDecodingReadsWhatTheEncoderWrote : Obligations.HeaderDecodingReadsWhatTheEncoderWrote := by
  intro s n b fs more text c e extra hg hparams hmode hlow hrange hicnt htpos htlen hn hlen hsum hlt hzero hmore hencode hfinish
    hchars
  have hheader := headerIntervals_length_le n b fs
  have hlength : (headerIntervals n b fs ++ more).length = (headerIntervals n b fs).length + more.length := List.length_append
  obtain ⟨-, vs, d, -, hdecode, -, hvalues⟩ := decoderMirrorsTheEncoder s.port _ text c e s.coder extra (BitVec.isLt _) (by omega)
    hencode hfinish hlow hrange hicnt htpos htlen hchars (headerIntervals n b fs).length (by omega)
  rw [List.take_left] at hdecode hvalues
  have hback := readsBack_of_decodeAll (headerIntervals_unit n b fs) hdecode hvalues
  have hbound : n ≤ 2147483646 := hn.trans hparams.1
  obtain ⟨t, hexec, hnt, hbt, -, hcounts, hcum, -, hdone, -⟩ :=
    exec_hdrd_of_readsBack hg hmode hn hzero hlen hsum.le (by omega) hback
  exact ⟨t, hexec, hdone hsum, by rw [hnt, reg64_toNat n (by omega)], by rw [hbt, index_toNat (by omega) hzero hlt],
    hcounts, hcum⟩
end

section
/-! PROOFS. The symbols' decoder (R207): each symbol is the lookup of a decoded value. Settles O50. -/

namespace Sys2Proof.Machine

variable {port : TextPort} {n v i k : Nat} {vs cs : List Nat} {s t : State} {c d e : Coder}

/-! ### How a command ended (R82, R252) -/

section Ended

variable {instr : Instr} (hi : instr ≠ .reset) (hg : s.good) (h : exec instr s = .next t)
include hi hg h

/-- A command that leaves a fault raised it. -/
theorem exec_raised_of_faulted (ht : t.status.faulted = true) :
    ∃ code info u, commandBody instr s.startCommand = .error (.raised code info u) ∧ t = u.takeFault code info := by
  rw [exec_of_ne_reset instr s hi, runCommand_next_iff] at h
  rcases h with ⟨hf, -⟩ | ⟨-, ⟨u, hu, rfl⟩ | h⟩
  · exact absurd (hg.symm.trans hf) Bool.false_ne_true
  · have hrecord := Run.ends_of_ok ((sameRecord_keptByParts s).body instr hi s.startCommand ⟨rfl, rfl, rfl, rfl⟩) hu
    exact absurd ((hrecord.complete hg).2.2.1.symm.trans ht) Bool.false_ne_true
  · exact h

end Ended

/-! ### Symbols stored in ascending order -/

/-- The machine with symbols stored from index `i` on. -/
def State.setSyms (s : State) (i : Nat) (cs : List Nat) : State :=
  s.withBufs { s.bufs with sym := storeEach .sym i cs s.bufs.sym }

theorem State.setSyms_elem (hfit : ∀ c ∈ cs, c < 256) (hk : k < cs.length) : (s.setSyms 0 cs).elem .sym k = cs.getD k 0 := by
  have hpeek := peek_storeEach (w := 8) (sp := .sym) rfl cs s.bufs.sym 0 hk
  rw [Nat.zero_add] at hpeek
  refine elem_of_holds ?_
  rw [State.holds, State.setSyms, State.withBufs_bufs, hpeek, Option.map_some, BitVec.toNat_ofNat,
    Nat.mod_eq_of_lt (hfit _ (getD_mem hk))]

theorem State.setSyms_elemsBelow (hfit : ∀ c ∈ cs, c < 256) : (s.setSyms 0 cs).elemsBelow .sym cs.length = cs := by
  have hmap : (s.setSyms 0 cs).elemsBelow .sym cs.length = (List.range cs.length).map (fun k => cs.getD k 0) :=
    List.map_congr_left fun k hk => State.setSyms_elem hfit (List.mem_range.mp hk)
  rw [hmap, map_getD_range]

/-! ### The pairs of `SYMD` (R207) -/

/-- The interval of the symbol found for a value (R207). -/
def State.foundInterval (s : State) (n v : Nat) : Nat × Nat × Nat := s.symbolInterval n (s.lookup v)

/-- The symbols found for a list of values fit an element. -/
theorem State.lookups_lt (s : State) (vs : List Nat) : ∀ c ∈ vs.map s.lookup, c < 256 :=
  List.forall_mem_map.mpr fun v _ => s.lookup_lt v

theorem decodeValueOf_of_decoding (hmode : s.status.rcmode = .decoding) (n : Nat) :
    decodeValueOf s n = onCoderValue s (decode64 s.port n s.coder) := by
  rw [decodeValueOf, checkMode_of_eq hmode, Run.ok_bind]

theorem scaleInterval_of_decoding (hmode : s.status.rcmode = .decoding) (lo hi den : Nat) :
    scaleInterval s lo hi den = onCoder s (scale64 s.port lo hi den s.coder) := by
  rw [scaleInterval, checkMode_of_eq hmode, Run.ok_bind]

/-- `SYMD` from one symbol on, once its value is decoded. -/
theorem decodeSymbols_succ (hmode : s.status.rcmode = .decoding) (hdecode : decode64 s.port n s.coder = .ok (v, d)) (todo : Nat) :
    decodeSymbols n s (todo + 1) i =
      (onCoder s (scale64 s.port (s.elem .cum (s.lookup v)) (s.elem .cum (s.lookup v + 1)) n d) >>= fun u =>
        decodeSymbols n (u.setSym i (s.lookup v)) todo (i + 1)) := by
  rw [decodeSymbols, decodeValueOf_of_decoding hmode, (onCoderValue_ok_iff ..).mpr ⟨d, hdecode, rfl⟩, Run.ok_bind]
  dsimp only
  rw [scaleInterval_of_decoding (s := s.withCoder d) hmode, State.cumAt_eq, State.cumAt_eq, onCoder_withCoder]
  rfl

/-- The machine after one more symbol. -/
def State.afterSymbol (s : State) (i v : Nat) (c : Coder) : State := (s.withCoder c).setSym i (s.lookup v)

/-- A list of pairs that succeeds writes the symbols found. -/
theorem decodeSymbols_of_pairs (hmode : s.status.rcmode = .decoding)
    (h : decodeAll s.port (vs.map (s.foundInterval n)) s.coder = .ok (vs, e)) (i : Nat) :
    decodeSymbols n s vs.length i = .ok ((s.setSyms i (vs.map s.lookup)).withCoder e) := by
  induction vs generalizing s i with
  | nil =>
    cases h
    rfl
  | cons v vs ih =>
    obtain ⟨w, d, f, ws, hdecode, hscale, hrest, heq⟩ := decodeAll_cons_iff.mp h
    obtain ⟨rfl, rfl⟩ := List.cons.inj heq
    rw [List.length_cons, decodeSymbols_succ hmode hdecode, (onCoder_ok_iff ..).mpr ⟨f, hscale, rfl⟩, Run.ok_bind]
    exact ih (s := s.afterSymbol i v f) hmode hrest (i + 1)

theorem decode64_not_raised {code : FaultCode} {info : Reg64} (hden : legalDenom n = true) :
    decode64 port n c ≠ .error (.raised code info d) := by
  intro h
  rw [decode64, if_pos hden] at h
  rcases (Run.bind_error_iff ..).mp h with hnorm | ⟨f, -, hvalue⟩
  · have hends := decNorm_ends port c
    rw [hnorm] at hends
    exact hends
  · cases hvalue

/-- A fault is that of the first `scale` that fails: the symbols before it are written. -/
theorem decodeSymbols_raised {code : FaultCode} {info : Reg64} {todo : Nat} (hmode : s.status.rcmode = .decoding)
    (hden : legalDenom n = true) (h : decodeSymbols n s todo i = .error (.raised code info t)) :
    ∃ vs c v d, vs.length < todo ∧ decodeAll s.port (vs.map (s.foundInterval n)) s.coder = .ok (vs, c) ∧
      decode64 s.port n c = .ok (v, d) ∧
      scale64 s.port (s.elem .cum (s.lookup v)) (s.elem .cum (s.lookup v + 1)) n d = .error (.raised code info t.coder) ∧
      t = (s.setSyms i (vs.map s.lookup)).withCoder t.coder := by
  induction todo generalizing s i with
  | zero => cases h
  | succ todo ih =>
    cases hdecode : decode64 s.port n s.coder with
    | error stop =>
      rw [decodeSymbols, decodeValueOf_of_decoding hmode, hdecode] at h
      cases stop with
      | raised code' info' d => exact absurd hdecode (decode64_not_raised hden)
      | stuck => cases h
      | refused => cases h
    | ok pair =>
      obtain ⟨v, d⟩ := pair
      rw [decodeSymbols_succ hmode hdecode] at h
      rcases (Run.bind_error_iff ..).mp h with hscale | ⟨u, hscale, h⟩
      · obtain ⟨f, hf, rfl⟩ := (onCoder_raised_iff ..).mp hscale
        exact ⟨[], s.coder, v, d, Nat.succ_pos _, rfl, hdecode, hf, rfl⟩
      · obtain ⟨e, he, rfl⟩ := (onCoder_ok_iff ..).mp hscale
        obtain ⟨vs, c, w, f, hlen, hall, hdecode', hraise, ht⟩ := ih (s := s.afterSymbol i v e) hmode h
        exact ⟨v :: vs, c, w, f, Nat.succ_lt_succ hlen, decodeAll_cons_iff.mpr ⟨v, d, e, vs, hdecode, he, hall, rfl⟩, hdecode',
          hraise, ht⟩

/-! ### A consistent table (R208) -/

/-- A value below the number of symbols lies in the interval found for it, which ends at most there. -/
theorem State.cumConsistent.found (h : s.cumConsistent n) (hv : v < n) :
    s.elem .cum (s.lookup v) ≤ v ∧ v < s.elem .cum (s.lookup v + 1) ∧ s.elem .cum (s.lookup v + 1) ≤ n := by
  obtain ⟨h0, hlast, hmono⟩ := h
  obtain ⟨hle, hnext⟩ := State.lookup_finds h0 v
  have htop := elem_cum_mono hmono (show s.lookup v + 1 ≤ 256 from s.lookup_lt v) le_rfl
  refine ⟨hle, hnext.elim (fun heq => ?_) id, htop.trans_eq hlast⟩
  rw [heq, hlast]
  exact hv

/-- With a consistent table a live decoder finds as many symbols as are asked for. -/
theorem Coder.live.findsSymbols (h : c.live port) (hcum : s.cumConsistent n) (hden : legalDenom n = true) (todo : Nat) :
    ∃ vs e, vs.length = todo ∧ (∀ v ∈ vs, v < n) ∧ decodeAll port (vs.map (s.foundInterval n)) c = .ok (vs, e) ∧ c.follows e := by
  induction todo generalizing c with
  | zero => exact ⟨[], c, rfl, fun v hv => absurd hv List.not_mem_nil, rfl, .refl c⟩
  | succ todo ih =>
    obtain ⟨v, d, hdecode, hlt, hscales⟩ := h.decodes hden
    obtain ⟨hle, hgt, htop⟩ := hcum.found hlt
    obtain ⟨e, hscale, he⟩ := hscales _ _ hle hgt htop
    obtain ⟨vs, f, hlen, hvs, hall, hf⟩ := ih (h.of_follows he)
    exact ⟨v :: vs, f, congrArg (· + 1) hlen, List.forall_mem_cons.mpr ⟨hlt, hvs⟩,
      decodeAll_cons_iff.mpr ⟨v, d, e, vs, hdecode, hscale, hall, rfl⟩, he.trans hf⟩

/-! ### `SYMD` (R207) -/

theorem symdBody_of_decoding (hmode : s.status.rcmode = .decoding) (hn : s.n.toNat ≤ s.cfgNmax.toNat) :
    symdBody s = decodeSymbols s.n.toNat s s.n.toNat 0 := by
  rw [symdBody, checkMode_of_eq hmode, Run.ok_bind]
  dsimp only
  rw [(checkLength_ok_iff s _).mpr hn, Run.ok_bind]

/-- The machine with the symbols found and the coder that is left. -/
def State.withSymbols (s : State) (vs : List Nat) (c : Coder) : State := (s.setSyms 0 (vs.map s.lookup)).withCoder c

theorem State.withSymbols_elemsBelow (s : State) (vs : List Nat) (c : Coder) :
    (s.withSymbols vs c).elemsBelow .sym vs.length = vs.map s.lookup := by
  have hstored := State.setSyms_elemsBelow (s := s) (s.lookups_lt vs)
  rwa [List.length_map] at hstored

theorem State.withSymbols_elem (s : State) (vs : List Nat) (c : Coder) (hk : k < vs.length) :
    (s.withSymbols vs c).elem .sym k = s.lookup (vs.getD k 0) := by
  rw [← State.elemsBelow_getD _ .sym hk, State.withSymbols_elemsBelow, getD_map_of_lt _ hk]

/-- The first intervals of the symbols written are those of the symbols found. -/
theorem take_symbolIntervals (hlen : vs.length ≤ n) (hsym : t.elemsBelow .sym vs.length = vs.map s.lookup)
    (hcum : t.symbolInterval n = s.symbolInterval n) :
    (symbolIntervals t n).take vs.length = vs.map (s.foundInterval n) := by
  have hprefix : (t.elemsBelow .sym n).take vs.length = t.elemsBelow .sym vs.length := by
    rw [State.elemsBelow, State.elemsBelow, ← List.map_take, List.take_range, Nat.min_eq_left hlen]
  rw [symbolIntervals_eq, ← List.map_take, hprefix, hsym, hcum, List.map_map]
  rfl

theorem State.symbolInterval_takeFault (s : State) (code : FaultCode) (info : Reg64) (n : Nat) :
    (s.takeFault code info).symbolInterval n = s.symbolInterval n := rfl

/-- `SYMD` completes where its pairs succeed. -/
theorem exec_symd_completes (hg : s.good) (hmode : s.status.rcmode = .decoding) (hn : s.n.toNat ≤ s.cfgNmax.toNat)
    (hlen : vs.length = s.n.toNat) (h : decodeAll s.port (vs.map (s.foundInterval s.n.toNat)) s.coder = .ok (vs, e)) :
    exec .symd s = .next (s.startCommand.withSymbols vs e).complete ∧
      completedFrom s (s.startCommand.withSymbols vs e).complete := by
  have hbody := symdBody_of_decoding (s := s.startCommand) hmode hn
  rw [State.startCommand_n, ← hlen] at hbody
  rw [← hlen] at h
  rw [decodeSymbols_of_pairs (s := s.startCommand) hmode h] at hbody
  exact ⟨runCommand_of_ok symdBody s _ hg hbody, State.sameRecord.complete ⟨rfl, rfl, rfl, rfl⟩ hg⟩

/-- A live decoder stays legal, its encoder's side being as it was. -/
theorem Coder.legal.of_follows (h : c.legal .decoding) (hc : c.decoderOk) (hd : c.follows d) : d.legal .decoding := by
  obtain ⟨-, -, hempty, -, hqpos, hclear, hocnt, hoacc, -, -⟩ := h
  obtain ⟨hlow, hrange, hiacc, hicnt⟩ := hd.decodes.decoder hc
  obtain ⟨hpos', hlen', hcount', hoacc', hocnt', -, -, -⟩ := hd.same
  refine ⟨nofun, fun _ => ⟨hlow, hrange⟩, fun h => ?_, nofun, by rwa [hpos'], ?_, by rwa [hocnt'], by rwa [hoacc', hocnt'], hiacc,
    hicnt⟩
  · rw [hlen', hocnt']
    exact hempty h
  · simp only [Coder.slotsClear, Coder.count, hpos', hlen', hcount'] at hclear ⊢
    exact hclear

end Sys2Proof.Machine

open Sys2Proof Sys2Proof.Machine

/-- Settles O50: with a consistent table every decoded value lies in the interval of the symbol found for it. -/
theorem symbolDecodingCompletes : Obligations.SymbolDecodingCompletes := by
  refine ⟨fun s hg hparams hmode hlegal hcursors hn hcum => ?_, fun s t hg hparams hmode hn hexec hfaulted => ?_⟩
  · have hlive := State.coder_live hlegal hcursors
    have hbound : s.n.toNat ≤ 2147483646 := hn.trans hparams.1
    obtain ⟨vs, e, hlen, hvs, hall, he⟩ : ∃ vs e, vs.length = s.n.toNat ∧ (∀ v ∈ vs, v < s.n.toNat) ∧
        decodeAll s.port (vs.map (s.foundInterval s.n.toNat)) s.coder = .ok (vs, e) ∧ s.coder.follows e := by
      rcases Nat.eq_zero_or_pos s.n.toNat with h0 | hpos
      · exact ⟨[], s.coder, h0.symm, fun v hv => absurd hv List.not_mem_nil, rfl, .refl _⟩
      · exact hlive.findsSymbols hcum ((legalDenom_iff _).mpr ⟨hpos, by omega⟩) _
    obtain ⟨hexec, hdone⟩ := exec_symd_completes hg hmode hn hlen hall
    have helems := s.startCommand.withSymbols_elemsBelow vs e
    have helem (i : Nat) (hi : i < s.n.toNat) :
        (s.startCommand.withSymbols vs e).complete.elem .sym i = s.lookup (vs.getD i 0) := by
      rw [State.complete_elem, State.withSymbols_elem _ _ _ (hlen ▸ hi)]
      rfl
    refine ⟨_, vs, hexec, hdone, hlegal.of_follows hlive.decoder he, ?_, hlen, fun i hi => ⟨helem i hi, ?_, ?_⟩⟩
    · have htake := take_symbolIntervals (t := (s.startCommand.withSymbols vs e).complete) (s := s) (n := s.n.toNat) hlen.le
        ((List.map_congr_left fun k _ => State.complete_elem _ _ k).trans helems) rfl
      rw [hlen, List.take_of_length_le (symbolIntervals_length _ _).le] at htake
      rw [htake]
      exact hall
    · rw [helem i hi]
      exact s.lookup_lt _
    · rw [helem i hi]
      obtain ⟨hle, hgt, -⟩ := hcum.found (hvs _ (getD_mem (hlen ▸ hi)))
      omega
  · obtain ⟨code, info, u, hu, rfl⟩ := exec_raised_of_faulted (by decide) hg hexec hfaulted
    have hbound : s.n.toNat ≤ 2147483646 := hn.trans hparams.1
    have hbody : decodeSymbols s.n.toNat s.startCommand s.n.toNat 0 = .error (.raised code info u) :=
      (symdBody_of_decoding (s := s.startCommand) hmode hn).symm.trans hu
    have hpos : 0 < s.n.toNat := by
      by_contra hnot
      rw [Nat.eq_zero_of_not_pos hnot] at hbody
      cases hbody
    obtain ⟨vs, c, v, d, hlen, hall, hdecode, hscale, heq⟩ :=
      decodeSymbols_raised (s := s.startCommand) hmode ((legalDenom_iff _).mpr ⟨hpos, by omega⟩) hbody
    have hsyms : u.elemsBelow .sym vs.length = vs.map s.lookup := heq ▸ s.startCommand.withSymbols_elemsBelow vs u.coder
    have hcmdcnt : u.cmdcnt = s.cmdcnt := (congrArg State.cmdcnt heq).trans rfl
    refine ⟨vs.length, vs, c, v, d, code, info, hlen, rfl, ?_, fun i hi => ?_, hdecode, hscale, rfl, rfl, rfl,
      hcmdcnt, rfl, (reg64_of_toNat info).symm⟩
    · rw [take_symbolIntervals (s := s) hlen.le ((List.map_congr_left fun k _ => State.takeFault_elem ..).trans hsyms)
        (by rw [State.symbolInterval_takeFault, heq]; rfl)]
      exact hall
    · rw [State.takeFault_elem, ← State.elemsBelow_getD u .sym hi, hsyms, getD_map_of_lt _ hi]
end

section
/-! PROOFS. The composites (R209, R210): no stage looks at `BUSY`, `DONE` or `CMDCNT`, so the stages in one command and the same
stages issued one after another leave the same state but for `CMDCNT`. Settles O52. -/

namespace Sys2Proof.Machine

variable {σ α β γ : Type} {s t u : State}

/-! ### Another record of what is running and how much is done -/

/-- What the acceptance sequence writes at the two ends of a command (R82): `BUSY`, `DONE` and `CMDCNT`. -/
structure Tag where
  busy : Bool
  done : Bool
  count : Reg64

/-- The machine with another tag. -/
def State.retagged (g : Tag) (s : State) : State :=
  { s with status := { s.status with busy := g.busy, done := g.done }, cmdcnt := g.count }

/-- A run with its ends in machines of another tag. -/
def Run.retagged (g : Tag) (f : α → β) : Run State α → Run State β
  | .ok a => .ok (f a)
  | .error e => .error (e.map (State.retagged g))

variable (g : Tag)

/-- Two parts that do not see the tag. -/
theorem Run.bind_retagged {x : Run State α} {x' : Run State γ} {F : α → Run State β} {F' : γ → Run State β} {f : α → γ}
    {f' : β → β}
    (hx : x' = x.retagged g f) (hF : ∀ a, F' (f a) = (F a).retagged g f') : (x' >>= F') = (x >>= F).retagged g f' := by
  subst hx
  cases x with
  | error e => rfl
  | ok a => exact hF a

/-- A case split on what does not see the tag. -/
theorem Run.ite_retagged {p : Prop} [Decidable p] {x y : Run State α} {x' y' : Run State β} {f : α → β} (hx : x' = x.retagged g f)
    (hy : y' = y.retagged g f) : (if p then x' else y') = (if p then x else y).retagged g f := by
  rw [hx, hy, apply_ite (Run.retagged g f)]

theorem checkLength_retagged (s : State) (n : Nat) : checkLength (s.retagged g) n = (checkLength s n).retagged g id :=
  Run.ite_retagged g rfl rfl

theorem checkMode_retagged (s : State) (m : RcMode) : checkMode (s.retagged g) m = (checkMode s m).retagged g id :=
  Run.ite_retagged g rfl rfl

theorem onCoder_retagged (s : State) (x : Run Coder Coder) :
    onCoder (s.retagged g) x = (onCoder s x).retagged g (State.retagged g) := by
  rcases x with e | c
  · cases e <;> rfl
  · rfl

/-- A value beside the machine. -/
def retagSecond (g : Tag) (p : α × State) : α × State := (p.1, p.2.retagged g)

theorem onCoderValue_retagged (s : State) (x : Run Coder (α × Coder)) :
    onCoderValue (s.retagged g) x = (onCoderValue s x).retagged g (retagSecond g) := by
  rcases x with e | c
  · cases e <;> rfl
  · rfl

/-! ### The parts of the stages -/

theorem encodeInterval_retagged (s : State) (lo hi den : Nat) :
    encodeInterval (s.retagged g) lo hi den = (encodeInterval s lo hi den).retagged g (State.retagged g) :=
  Run.bind_retagged g (checkMode_retagged g s _) fun _ => onCoder_retagged g s _

theorem decodeValueOf_retagged (s : State) (den : Nat) :
    decodeValueOf (s.retagged g) den = (decodeValueOf s den).retagged g (retagSecond g) :=
  Run.bind_retagged g (checkMode_retagged g s _) fun _ => onCoderValue_retagged g s _

theorem scaleInterval_retagged (s : State) (lo hi den : Nat) :
    scaleInterval (s.retagged g) lo hi den = (scaleInterval s lo hi den).retagged g (State.retagged g) :=
  Run.bind_retagged g (checkMode_retagged g s _) fun _ => onCoder_retagged g s _

theorem decodeValue_retagged (s : State) (den : Nat) :
    decodeValue (s.retagged g) den = (decodeValue s den).retagged g (retagSecond g) :=
  Run.bind_retagged g (decodeValueOf_retagged g s den) fun p =>
    Run.bind_retagged g (scaleInterval_retagged g p.2 p.1 (p.1 + 1) den) fun _ => rfl

theorem encodeCounts_retagged (s : State) (remaining : Nat) (fs : List Nat) :
    encodeCounts (s.retagged g) remaining fs = (encodeCounts s remaining fs).retagged g (State.retagged g) := by
  induction fs generalizing s remaining with
  | nil => rfl
  | cons f fs ih => exact Run.bind_retagged g (encodeInterval_retagged g s f (f + 1) remaining) fun t => ih t _

theorem encodeSymbols_retagged (n : Nat) (s : State) (syms : List Nat) :
    encodeSymbols n (s.retagged g) syms = (encodeSymbols n s syms).retagged g (State.retagged g) := by
  induction syms generalizing s with
  | nil => rfl
  | cons c syms ih => exact Run.bind_retagged g (encodeInterval_retagged g s _ _ n) ih

theorem decodeCounts_retagged (s : State) (todo c remaining : Nat) :
    decodeCounts (s.retagged g) todo c remaining = (decodeCounts s todo c remaining).retagged g (retagSecond g) := by
  induction todo generalizing s c remaining with
  | zero => rfl
  | succ todo ih => exact Run.bind_retagged g (decodeValue_retagged g s remaining) fun p => ih (p.2.setFreq c p.1) _ _

theorem decodeIndex_retagged (s : State) (n : Nat) :
    decodeIndex (s.retagged g) n = (decodeIndex s n).retagged g (State.retagged g) :=
  Run.ite_retagged g rfl (Run.bind_retagged g (decodeValue_retagged g { s with bidx := 0 } n) fun _ => rfl)

theorem decodeSymbols_retagged (n : Nat) (s : State) (todo i : Nat) :
    decodeSymbols n (s.retagged g) todo i = (decodeSymbols n s todo i).retagged g (State.retagged g) := by
  induction todo generalizing s i with
  | zero => rfl
  | succ todo ih =>
    exact Run.bind_retagged g (decodeValueOf_retagged g s n) fun p =>
      Run.bind_retagged g (scaleInterval_retagged g p.2 _ _ n) fun t => ih (t.setSym i (p.2.lookup p.1)) _

/-! ### The stages -/

/-- A stage does not see the tag. -/
def untagged (body : State → Run State State) : Prop :=
  ∀ g s, body (s.retagged g) = (body s).retagged g (State.retagged g)

theorem sortBody_untagged : untagged sortBody := fun g s =>
  Run.bind_retagged g (checkLength_retagged g s _) fun _ => Run.ite_retagged g rfl rfl

theorem bwtfBody_untagged : untagged bwtfBody := fun g s =>
  Run.bind_retagged g (checkLength_retagged g s _) fun _ => Run.bind_retagged g (sortBody_untagged g s) fun _ => rfl

theorem bwtiBody_untagged : untagged bwtiBody := fun g s =>
  Run.bind_retagged g (checkLength_retagged g s _) fun _ => Run.ite_retagged g rfl (Run.ite_retagged g rfl rfl)

theorem mtfeBody_untagged : untagged mtfeBody := fun g s => Run.bind_retagged g (checkLength_retagged g s _) fun _ => rfl

theorem mtfdBody_untagged : untagged mtfdBody := fun g s => Run.bind_retagged g (checkLength_retagged g s _) fun _ => rfl

theorem freqBody_untagged : untagged freqBody := fun g s => Run.bind_retagged g (checkLength_retagged g s _) fun _ => rfl

theorem rceiBody_untagged : untagged rceiBody := fun _ _ => rfl

theorem rcdiBody_untagged : untagged rcdiBody := fun g _ => Run.ite_retagged g rfl rfl

theorem rcfinBody_untagged : untagged rcfinBody := by
  intro g s
  have hmode : (s.retagged g).status.rcmode = s.status.rcmode := rfl
  rw [rcfinBody, rcfinBody, hmode]
  cases s.status.rcmode with
  | idle => rfl
  | finished => rfl
  | decoding => rfl
  | encoding => exact Run.bind_retagged g (onCoder_retagged g s _) fun _ => rfl

theorem hdreBody_untagged : untagged hdreBody := by
  intro g s
  have htable : (s.retagged g).freqTable = s.freqTable := rfl
  have hn : (s.retagged g).n = s.n := rfl
  have hbidx : (s.retagged g).bidx = s.bidx := rfl
  simp only [hdreBody, htable, hn, hbidx]
  refine Run.bind_retagged g (checkMode_retagged g s _) fun _ => ?_
  refine Run.bind_retagged g (checkLength_retagged g s _) fun _ => ?_
  refine Run.bind_retagged g (encodeInterval_retagged g s _ _ _) fun t => ?_
  rw [Run.ok_bind, Run.ok_bind]
  exact Run.ite_retagged g (encodeCounts_retagged g t _ _)
    (Run.bind_retagged g (encodeInterval_retagged g t _ _ _) fun u => encodeCounts_retagged g u _ _)

theorem symeBody_untagged : untagged symeBody := fun g s =>
  Run.bind_retagged g (checkMode_retagged g s _) fun _ => Run.bind_retagged g (checkLength_retagged g s _) fun _ =>
    encodeSymbols_retagged g _ s _

theorem hdrdBody_untagged : untagged hdrdBody := fun g s =>
  Run.bind_retagged g (checkMode_retagged g s _) fun _ => Run.bind_retagged g (decodeValue_retagged g s _) fun p =>
    Run.bind_retagged g (checkLength_retagged g p.2 p.1) fun _ =>
      Run.bind_retagged g (decodeIndex_retagged g { p.2 with n := reg64 p.1 } p.1) fun t =>
        Run.bind_retagged g (decodeCounts_retagged g t _ _ _) fun _ => Run.ite_retagged g rfl rfl

theorem symdBody_untagged : untagged symdBody := fun g s =>
  Run.bind_retagged g (checkMode_retagged g s _) fun _ => Run.bind_retagged g (checkLength_retagged g s _) fun _ =>
    decodeSymbols_retagged g _ s _ _

/-- The stages of either composite (R209, R210). -/
def isStage (i : Instr) : Prop := i ∈ compStages ∨ i ∈ decompStages

theorem commandBody_untagged {i : Instr} (h : isStage i) : untagged (commandBody i) := by
  rcases h with h | h <;> simp only [compStages, decompStages, List.mem_cons, List.not_mem_nil, or_false] at h
  · rcases h with rfl | rfl | rfl | rfl | rfl | rfl | rfl
    exacts [bwtfBody_untagged, mtfeBody_untagged, freqBody_untagged, rceiBody_untagged, hdreBody_untagged, symeBody_untagged,
      rcfinBody_untagged]
  · rcases h with rfl | rfl | rfl | rfl | rfl | rfl
    exacts [rcdiBody_untagged, hdrdBody_untagged, symdBody_untagged, rcfinBody_untagged, mtfdBody_untagged, bwtiBody_untagged]

theorem isStage.ne_reset {i : Instr} (h : isStage i) : i ≠ .reset := by
  rintro rfl
  exact absurd h (by simp [isStage, compStages, decompStages])

/-! ### Stages in one command -/

/-- The stages' pseudocode, one after another. -/
def stagesBody : List Instr → State → Run State State
  | [], s => .ok s
  | i :: rest, s => commandBody i s >>= stagesBody rest

theorem Run.bind_ok (x : Run σ α) : (x >>= fun a => .ok a) = x := by cases x <;> rfl

theorem compBody_eq_stagesBody (s : State) : compBody s = stagesBody compStages s := by
  simp only [compBody, compStages, stagesBody, Run.bind_ok, commandBody]

theorem decompBody_eq_stagesBody (s : State) : decompBody s = stagesBody decompStages s := by
  simp only [decompBody, decompStages, stagesBody, Run.bind_ok, commandBody]

theorem stagesBody_untagged {stages : List Instr} (h : ∀ i ∈ stages, isStage i) : untagged (stagesBody stages) := by
  induction stages with
  | nil => exact fun _ _ => rfl
  | cons i rest ih =>
    exact fun g s => Run.bind_retagged g (commandBody_untagged (h i (List.mem_cons_self ..)) g s)
      (ih (fun j hj => h j (List.mem_cons_of_mem _ hj)) g)

/-- An outcome but for `CMDCNT`. -/
def uncounted : Host.Outcome State Fault Refusal → Host.Outcome State Fault Refusal
  | .next t => .next { t with cmdcnt := 0 }
  | .fault f => .fault f
  | .refused r => .refused r

/-- The end of a command overwrites the tag but for the count. -/
theorem uncounted_settle_retagged (x : Run State State) :
    uncounted (settle (x.retagged g (State.retagged g))) = uncounted (settle x) := by
  rcases x with e | t
  · cases e <;> rfl
  · rfl

theorem issued_of_faulted {stages : List Instr} (h : ∀ i ∈ stages, isStage i) (hf : s.status.faulted = true) :
    issued stages s = .next s := by
  induction stages with
  | nil => rfl
  | cons i rest ih =>
    refine (issued_cons_next_iff ..).mpr ⟨s, ?_, ih fun j hj => h j (List.mem_cons_of_mem _ hj)⟩
    rw [exec_of_ne_reset i s (h i (List.mem_cons_self ..)).ne_reset, runCommand_of_faulted _ s hf]

/-- Stages issued one after another end as their pseudocode in one command does, but for `CMDCNT`. -/
theorem uncounted_issued {i : Instr} {rest : List Instr} (h : ∀ j ∈ i :: rest, isStage j) (hg : s.good) :
    uncounted (issued (i :: rest) s) = uncounted (settle (stagesBody (i :: rest) s.startCommand)) := by
  induction rest generalizing i s with
  | nil =>
    have hi := h i (List.mem_cons_self ..)
    have hlast : issued [i] s = exec i s := by rw [issued]; cases exec i s <;> rfl
    rw [hlast, exec_of_ne_reset i s hi.ne_reset, runCommand, if_neg (by rw [hg]; exact Bool.false_ne_true), stagesBody]
    exact congrArg (uncounted ∘ settle) (Run.bind_ok _).symm
  | cons j rest ih =>
    have hi := h i (List.mem_cons_self ..)
    have hrest : ∀ k ∈ j :: rest, isStage k := fun k hk => h k (List.mem_cons_of_mem _ hk)
    rw [issued, exec_of_ne_reset i s hi.ne_reset, runCommand, if_neg (by rw [hg]; exact Bool.false_ne_true), stagesBody]
    cases hbody : commandBody i s.startCommand with
    | error e =>
      cases e with
      | raised code info u => exact congrArg uncounted (issued_of_faulted hrest rfl)
      | stuck => rfl
      | refused => rfl
    | ok u =>
      have hrecord := Run.ends_of_ok ((sameRecord_keptByParts s).body i hi.ne_reset s.startCommand ⟨rfl, rfl, rfl, rfl⟩) hbody
      have hgood : u.complete.good := (hrecord.complete hg).2.2.1
      refine (ih hrest hgood).trans ?_
      have htag : u.complete.startCommand = u.retagged ⟨true, false, u.cmdcnt + 1⟩ := rfl
      rw [htag, stagesBody_untagged hrest, uncounted_settle_retagged, Run.ok_bind]

/-- Outcomes that differ in `CMDCNT` only. -/
theorem uncounted_next_iff {x : Host.Outcome State Fault Refusal} : uncounted x = uncounted (.next t) ↔
    ∃ u, x = .next u ∧ t = { u with cmdcnt := t.cmdcnt } := by
  cases x with
  | next u =>
    simp only [uncounted, Host.Outcome.next.injEq, exists_eq_left']
    constructor
    · intro h
      obtain ⟨_⟩ := t
      cases h
      rfl
    · intro h
      rw [h]
  | fault f => simp [uncounted]
  | refused r => simp [uncounted]

theorem uncounted_fault_iff {x : Host.Outcome State Fault Refusal} {f : Fault} : uncounted x = .fault f ↔ x = .fault f := by
  cases x <;> simp [uncounted]

theorem uncounted_refused_iff {x : Host.Outcome State Fault Refusal} {r : Refusal} :
    uncounted x = .refused r ↔ x = .refused r := by
  cases x <;> simp [uncounted]

/-- The count a command leaves (R24). -/
theorem exec_cmdcnt {i : Instr} (hi : i ≠ .reset) (hg : s.good) (h : exec i s = .next t) :
    t.cmdcnt = if t.status.faulted then s.cmdcnt else s.cmdcnt + 1 := by
  rcases commandCompletesOrTakesOneFault i s t hi hg h with ⟨-, -, hf, hcount, -⟩ | ⟨code, info, -, -, -, hf, hcount, -⟩
  · rw [hf, hcount]
    rfl
  · rw [hf, hcount]
    rfl

/-- A composite answers what its stages leave, but for `CMDCNT`. -/
theorem exec_next_iff_issued {i : Instr} {stages : List Instr} (hi : i ≠ .reset) (hg : s.good)
    (h : uncounted (exec i s) = uncounted (issued stages s)) :
    exec i s = .next t ↔ ∃ u, issued stages s = .next u ∧
      t = { u with cmdcnt := if u.status.faulted then s.cmdcnt else s.cmdcnt + 1 } := by
  constructor
  · intro ht
    have hcount := exec_cmdcnt hi hg ht
    rw [ht] at h
    obtain ⟨u, hu, heq⟩ := uncounted_next_iff.mp h.symm
    have hstatus : t.status = u.status := (congrArg State.status heq).trans rfl
    rw [hcount, hstatus] at heq
    exact ⟨u, hu, heq⟩
  · rintro ⟨u, hu, rfl⟩
    rw [hu] at h
    obtain ⟨t, ht, heq⟩ := uncounted_next_iff.mp h
    have hcount := exec_cmdcnt hi hg ht
    have hstatus : u.status = t.status := (congrArg State.status heq).trans rfl
    rw [ht, hstatus, ← hcount, heq]

/-- `COMP` and `DECOMP` end as their stages do. -/
theorem exec_composite {i : Instr} {stages : List Instr}
    (hi : i = .comp ∧ stages = compStages ∨ i = .decomp ∧ stages = decompStages) (hg : s.good) :
    i ≠ .reset ∧ (∀ j ∈ stages, isStage j) ∧ uncounted (exec i s) = uncounted (issued stages s) := by
  have hnot : ¬ s.status.faulted = true := by rw [hg]; exact Bool.false_ne_true
  rcases hi with ⟨rfl, rfl⟩ | ⟨rfl, rfl⟩
  · have hstages : ∀ j ∈ compStages, isStage j := fun j => .inl
    refine ⟨nofun, hstages, ?_⟩
    rw [compStages, uncounted_issued hstages hg, exec_of_ne_reset .comp s nofun, runCommand, if_neg hnot]
    exact congrArg (uncounted ∘ settle) (compBody_eq_stagesBody s.startCommand)
  · have hstages : ∀ j ∈ decompStages, isStage j := fun j => .inr
    refine ⟨nofun, hstages, ?_⟩
    rw [decompStages, uncounted_issued hstages hg, exec_of_ne_reset .decomp s nofun, runCommand, if_neg hnot]
    exact congrArg (uncounted ∘ settle) (decompBody_eq_stagesBody s.startCommand)

end Sys2Proof.Machine

open Sys2Proof Sys2Proof.Machine

/-- Settles O52: the stages see neither `BUSY` nor `DONE` nor `CMDCNT`, and ignore their word once a fault is recorded. -/
theorem compositesAreTheirStages : Obligations.CompositesAreTheirStages := by
  intro i stages s hi hg
  obtain ⟨hreset, hstages, heq⟩ := exec_composite hi hg
  refine ⟨fun t => exec_next_iff_issued hreset hg heq, fun f => ?_, fun r => ?_, fun k u hu hf => ?_⟩
  · rw [← uncounted_fault_iff, heq, uncounted_fault_iff]
  · rw [← uncounted_refused_iff, heq, uncounted_refused_iff]
  · rw [← List.take_append_drop k stages, issued_append_of_next _ _ _ _ hu]
    exact issued_of_faulted (fun j hj => hstages j (List.mem_of_mem_drop hj)) hf
end

section
/-! PROOFS. How far an encoder fills `TEXT` (R166): `TLEN` never passes `TMAX`, every byte below it is written, and the fault of a
full text is `TEXT_OVERFLOW` with `TMAX`. -/

namespace Sys2Proof.Machine

variable {tmax lo hi den : Nat} {intervals : List (Nat × Nat × Nat)} {c d : Coder} {p q : TextPort}

/-- `TLEN` is within `TMAX` and `TEXT[0..TLEN)` is written. -/
def Coder.filled (tmax : Nat) (c : Coder) : Prop :=
  c.tlen.toNat ≤ tmax ∧ ∀ k < c.tlen.toNat, (c.text.peek (unlisted .text 8) k).isSome = true

theorem Coder.filled.congr (h : c.filled tmax) (htlen : d.tlen = c.tlen) (htext : d.text = c.text) : d.filled tmax := by
  rwa [Coder.filled, htlen, htext]

/-- Written bytes do not depend on the power-up. -/
theorem Coder.filled.textChars (h : c.filled tmax) : textChars p c 0 c.tlen.toNat = textChars q c 0 c.tlen.toNat := by
  refine List.filterMap_congr fun k hk => ?_
  have hbyte := h.2 (0 + k) (by rw [Nat.zero_add]; exact List.mem_range.mp hk)
  obtain ⟨v, hv⟩ := Option.isSome_iff_exists.mp hbyte
  rw [fetch, fetch, hv, Option.getD_some, Option.getD_some]

/-- A run of the encoder fills the text: where it ends, by its last line or by `TEXT_OVERFLOW`. -/
def Run.fills (tmax : Nat) : Run Coder Coder → Prop
  | .ok d => d.filled tmax
  | .error (.raised code info _) => code = .textOverflow → info.toNat = tmax
  | .error (.stuck _) => True
  | .error (.refused _) => True

theorem Run.fills_bind {x : Run Coder Coder} {f : Coder → Run Coder Coder} (hx : x.fills tmax)
    (hf : ∀ d, d.filled tmax → (f d).fills tmax) : (x >>= f).fills tmax := by
  rcases x with e | d
  · cases e <;> exact hx
  · exact hf d hx

theorem raise_fills {code : FaultCode} (hcode : code ≠ .textOverflow) (info : Nat) (c : Coder) :
    Run.fills tmax (raise code info c) := fun h => absurd h hcode

/-! ### The queue and the window do not touch the text -/

theorem pushBit_fills (h : c.filled tmax) (b : Bool) : (pushBit b c).fills tmax := by
  unfold pushBit
  dsimp only
  split
  · exact h
  split
  · exact h
  split
  · exact raise_fills (by decide) _ c
  · exact h

theorem carry_fills (h : c.filled tmax) : (carry c).fills tmax := by
  unfold carry
  dsimp only
  split
  · exact raise_fills (by decide) _ c
  split
  · split
    · exact raise_fills (by decide) _ c
    · exact h
  · split
    · exact raise_fills (by decide) _ c
    · exact h

theorem encNormTurns_fills (fuel : Nat) (h : c.filled tmax) : (encNormTurns fuel c).fills tmax := by
  induction fuel generalizing c with
  | zero => exact h
  | succ fuel ih =>
    rw [encNormTurns]
    split
    · exact Run.fills_bind (pushBit_fills h _) fun d hd => ih hd
    · exact h

theorem encNorm_fills (h : c.filled tmax) : (encNorm c).fills tmax := by
  unfold encNorm
  split
  · exact trivial
  · exact encNormTurns_fills _ h

theorem narrow_fills (h : c.filled tmax) : (narrow lo hi den c).fills tmax := by
  unfold narrow
  dsimp only
  split
  · exact carry_fills (h.congr rfl rfl)
  · exact h.congr rfl rfl

/-! ### The serialiser -/

section Serialiser

variable (htmax : tmax < 2 ^ 64)
include htmax

theorem putByte_fills (h : c.filled tmax) (v : Byte) : (putByte tmax v c).fills tmax := by
  obtain ⟨hlen, hbytes⟩ := h
  unfold putByte
  split
  · intro _
    rw [reg64_of_toNat]
    omega
  · have hnext : (c.tlen + 1).toNat = c.tlen.toNat + 1 := by bv_omega
    refine ⟨hnext.trans_le (by omega), fun k hk => ?_⟩
    rw [hnext] at hk
    show (Memory.peek _ k (store .text c.tlen.toNat v c.text)).isSome = true
    by_cases heq : k = c.tlen.toNat
    · rw [heq, store, Memory.peek_put_same_of_ne _ _ _ _ (by simp [unlisted]), Option.isSome_some]
    · rw [store, Memory.peek_put_other _ _ _ _ _ heq]
      exact hbytes k (by omega)

theorem putChar_fills (h : c.filled tmax) : (putChar tmax c).fills tmax := by
  refine Run.fills_bind (putByte_fills htmax h _) fun d hd => ?_
  dsimp only
  split
  · exact putByte_fills htmax (c := { d with ochars := d.ochars + 1, oacc := 0, ocnt := 0 }) (hd.congr rfl rfl) _
  · exact hd.congr rfl rfl

theorem outBit_fills (h : c.filled tmax) (b : Bool) : (outBit tmax b c).fills tmax := by
  unfold outBit
  dsimp only
  split
  · exact putChar_fills htmax h
  · exact h

theorem outBits_fills (h : c.filled tmax) (b : Bool) (k : Nat) : (outBits tmax b k c).fills tmax := by
  induction k generalizing c with
  | zero => exact h
  | succ k ih => exact Run.fills_bind (outBit_fills htmax h b) fun d hd => ih hd

theorem drainRuns_fills (h : c.filled tmax) (k : Nat) : (drainRuns tmax k c).fills tmax := by
  induction k generalizing c with
  | zero => exact h
  | succ k ih =>
    exact Run.fills_bind (Run.fills_bind (outBits_fills htmax h _ _) fun d hd => hd) fun d hd => ih hd

theorem padTurns_fills (h : c.filled tmax) (fuel : Nat) : (padTurns tmax fuel c).fills tmax := by
  induction fuel generalizing c with
  | zero =>
    unfold padTurns
    split
    · exact h
    · exact trivial
  | succ fuel ih =>
    unfold padTurns
    split
    · exact h
    · exact Run.fills_bind (outBit_fills htmax h true) fun d hd => ih hd

/-! ### `encode` and `finish` -/

theorem encode64_fills (h : c.filled tmax) : (encode64 tmax lo hi den c).fills tmax := by
  unfold encode64
  split
  · split
    · exact raise_fills (by decide) _ c
    · exact Run.fills_bind (encNorm_fills h) fun d hd => Run.fills_bind (narrow_fills hd) fun e he => drainRuns_fills htmax he _
  · exact raise_fills (by decide) _ c

theorem encodeAll_fills (h : c.filled tmax) : (encodeAll tmax intervals c).fills tmax := by
  induction intervals generalizing c with
  | nil => exact h
  | cons interval rest ih =>
    rw [encodeAll_cons]
    exact Run.fills_bind (encode64_fills htmax h) fun d hd => ih hd

theorem flushBits_fills (h : c.filled tmax) (b1 b0 : Bool) : (flushBits tmax b1 b0 c).fills tmax :=
  Run.fills_bind (pushBit_fills h b1) fun _ hd => Run.fills_bind (pushBit_fills hd b0) fun _ he =>
    Run.fills_bind (drainRuns_fills htmax he _) fun _ hf => padTurns_fills htmax hf 5

theorem finish64_fills (h : c.filled tmax) : (finish64 tmax c).fills tmax := by
  refine Run.fills_bind (encNorm_fills h) fun d hd => ?_
  rw [flush_eq]
  split
  · exact Run.fills_bind (carry_fills hd) fun e he => flushBits_fills htmax he false false
  · exact flushBits_fills htmax hd _ _

end Serialiser

/-! ### A whole text -/

/-- The runs of `encode` and `finish` from `RCEI` to `RCFIN` (R165, R212). -/
def encodeText (tmax : Nat) (intervals : List (Nat × Nat × Nat)) (c : Coder) : Run Coder Coder :=
  encodeAll tmax intervals c >>= finish64 tmax

theorem encodeText_fills (htmax : tmax < 2 ^ 64) (text : Memory 8) :
    (encodeText tmax intervals (Coder.encoderStart text)).fills tmax :=
  Run.fills_bind (encodeAll_fills htmax ⟨Nat.zero_le _, fun k hk => absurd hk (Nat.not_lt_zero k)⟩)
    fun _ hd => finish64_fills htmax hd

theorem Coder.encoderStart_pend (text : Memory 8) : (Coder.encoderStart text).pend = [] := by
  have hproduced := Coder.encoderStart_produced (port := { tmax := 0, powerUp := 0 }) text
  rw [Coder.produced, List.append_eq_nil_iff] at hproduced
  exact hproduced.2

theorem Coder.encoderStart_load (text : Memory 8) : (Coder.encoderStart text).load ≤ 1268 := by
  have hload := Coder.load_le (c := Coder.encoderStart text) (Coder.sound_encoderStart text).serial
  rwa [Coder.encoderStart_pend] at hload

/-- Legal intervals go wrong only where the text is full; six bytes for each and for two more are room enough. -/
theorem encodeText_unlessFull (htmax : tmax < 2 ^ 64) (hlegal : allLegal intervals) (hlen : intervals.length < 2 ^ 50)
    (text : Memory 8) :
    (encodeText tmax intervals (Coder.encoderStart text)).unlessFull (tmax < 6 * (intervals.length + 2)) fun _ => True := by
  have hload := Coder.encoderStart_load text
  have hstart : (Coder.encoderStart text).pend.length = 0 := congrArg List.length (Coder.encoderStart_pend text)
  obtain ⟨hsound, hready, -⟩ : (Coder.encoderStart text).canCode { tmax := 0, powerUp := 0 } 0 :=
    Coder.encoderStart_canCode (by omega)
  have hall := encodeAll_codesUpTo htmax hlegal hsound hready (by omega)
  refine Run.unlessFull_bind (Run.unlessFull_mono hall (fun h => by omega) fun _ h => h) fun d hd => ?_
  have hpend := hd.pend
  have hdload := hd.load
  obtain ⟨e, k, b, f, -, hnorm, -, hrun⟩ := finish64_flushed { tmax := 0, powerUp := 0 } htmax hd.sound hd.ready (by omega)
  have hk := hnorm.turns
  refine Run.unlessFull_mono hrun (fun hfull => ?_) fun _ _ => trivial
  rw [Coder.load] at hdload
  omega

end Sys2Proof.Machine
end

section
/-! PROOFS. Compression (R209): the state `COMP` reaches before it encodes, and how the encoding from there ends. Settles O53. -/

namespace Sys2Proof.Machine

variable {i : Instr} {n k : Nat} {stages rest : List Instr} {s t u : State} {c e : Coder} {code : FaultCode} {info : Reg64}

/-! ### A composite from its stages (R209, R210) -/

/-- A composite and its stages. -/
def isComposite (i : Instr) (stages : List Instr) : Prop := i = .comp ∧ stages = compStages ∨ i = .decomp ∧ stages = decompStages

/-- The stages completed, so the composite did. -/
theorem exec_completes_of_issued (hi : isComposite i stages) (hg : s.good) (h : issued stages s = .next u) (hu : u.good) :
    exec i s = .next { u with cmdcnt := s.cmdcnt + 1 } ∧ completedFrom s { u with cmdcnt := s.cmdcnt + 1 } := by
  obtain ⟨hreset, -, heq⟩ := exec_composite hi hg
  have hexec := (exec_next_iff_issued hreset hg heq).mpr ⟨u, h, rfl⟩
  rw [hu, if_neg Bool.false_ne_true] at hexec
  refine ⟨hexec, (commandCompletesOrTakesOneFault i s _ hreset hg hexec).resolve_right ?_⟩
  rintro ⟨code, info, -, -, -, hf, -⟩
  exact absurd (hu.symm.trans hf) Bool.false_ne_true

/-- A stage took a fault, so the composite did. -/
theorem exec_faults_of_issued (hi : isComposite i stages) (hg : s.good) (h : issued stages s = .next u)
    (hf : u.status.faulted = true) :
    exec i s = .next { u with cmdcnt := s.cmdcnt } ∧ faultedFrom s { u with cmdcnt := s.cmdcnt } u.fault u.finfo.toNat := by
  obtain ⟨hreset, -, heq⟩ := exec_composite hi hg
  have hexec := (exec_next_iff_issued hreset hg heq).mpr ⟨u, h, rfl⟩
  rw [hf, if_pos rfl] at hexec
  refine ⟨hexec, ?_⟩
  rcases commandCompletesOrTakesOneFault i s _ hreset hg hexec with
    ⟨-, -, hgood, -⟩ | ⟨code, info, -, hbusy, hdone, hfault, hcount, -⟩
  · exact absurd (hgood.symm.trans hf) Bool.false_ne_true
  · exact ⟨hbusy, hdone, hfault, hcount, rfl, (reg64_of_toNat _).symm⟩

theorem issued_cons_of_faulted (hrest : ∀ j ∈ rest, isStage j) (h : exec i s = .next t) (hf : t.status.faulted = true) :
    issued (i :: rest) s = .next t :=
  (issued_cons_next_iff ..).mpr ⟨t, h, issued_of_faulted hrest hf⟩

theorem issued_cons_of_next (h : exec i s = .next t) (hrest : issued rest t = .next u) : issued (i :: rest) s = .next u :=
  (issued_cons_next_iff ..).mpr ⟨t, h, hrest⟩

/-! ### What the stages keep -/

/-- `N`, the parameters and the power-up are as they were. -/
structure State.sameInput (s t : State) : Prop where
  n : t.n = s.n
  nmax : t.cfgNmax = s.cfgNmax
  tmax : t.cfgTmax = s.cfgTmax
  powerUp : t.powerUp = s.powerUp

theorem State.sameInput.trans (h : s.sameInput t) (h' : t.sameInput u) : s.sameInput u :=
  ⟨h'.n.trans h.n, h'.nmax.trans h.nmax, h'.tmax.trans h.tmax, h'.powerUp.trans h.powerUp⟩

theorem State.sameInput.n_le (h : s.sameInput t) (hn : s.n.toNat ≤ s.cfgNmax.toNat) : t.n.toNat ≤ t.cfgNmax.toNat := by
  rwa [h.n, h.nmax]

theorem exec_nmax (hi : mayWriteReg i .cfgNmax = false) (h : exec i s = .next t) : t.cfgNmax = s.cfgNmax :=
  (commandsChangeOnlyTheirResultRegisters i s t h).1 .cfgNmax hi rfl

theorem exec_sameInput (hi : mayWriteReg i .n = false) (hnmax : mayWriteReg i .cfgNmax = false)
    (htmax : mayWriteReg i .cfgTmax = false)
    (h : exec i s = .next t) : s.sameInput t := by
  obtain ⟨hregs, -, -, hpower⟩ := commandsChangeOnlyTheirResultRegisters i s t h
  exact ⟨hregs .n hi rfl, hregs .cfgNmax hnmax rfl, hregs .cfgTmax htmax rfl, hpower⟩

theorem exec_bidx (hi : mayWriteReg i .bidx = false) (h : exec i s = .next t) : t.bidx = s.bidx :=
  (commandsChangeOnlyTheirResultRegisters i s t h).1 .bidx hi rfl

theorem exec_elem {sp : Space} (hi : mayWrite i sp = false) (h : exec i s = .next t) (k : Nat) : t.elem sp k = s.elem sp k :=
  (commandsWriteOnlyTheirSpaces i s t sp k h hi).1

/-! ### The stages before the encoder -/

/-- What `BWTF` leaves for the decoder: an index, and a transform that `BWTI` inverts (R120, R125). -/
structure State.transformsTo (s t : State) : Prop where
  index : 0 < s.n.toNat → t.bidx.toNat < s.n.toNat
  index_zero : s.n.toNat = 0 → t.bidx = 0
  restores : ∀ u : State, u.good → u.cfgNmax = s.cfgNmax → u.n = s.n → u.bidx = t.bidx →
    (∀ k < s.n.toNat, u.elem .xf k = t.elem .xf k) →
    ∃ v, exec .bwti u = .next v ∧ completedFrom u v ∧ ∀ k < s.n.toNat, v.elem .data k = s.elem .data k

theorem exec_bwtf_transformsTo (hg : s.good) (hparams : s.paramsLegal) (hn : s.n.toNat ≤ s.cfgNmax.toNat) :
    ∃ t, exec .bwtf s = .next t ∧ completedFrom s t ∧ s.transformsTo t := by
  obtain ⟨t, -, hexec, hdone, -, -, -, -, hzero, hpos⟩ := bwtForwardTransforms s hg hparams hn
  obtain ⟨t', hexec', -, hrestores⟩ := bwtInverseRestoresTheInput s hg hparams hn
  cases hexec.symm.trans hexec'
  exact ⟨t, hexec, hdone, fun h => (hpos h).1, hzero, hrestores⟩

/-- A state ready to encode: the tables are those of the symbols, and what `MTFD` and `BWTI` make of the symbols is the input. -/
structure State.codable (s t : State) : Prop where
  good : t.good
  mode : t.status.rcmode = .encoding
  input : s.sameInput t
  coder : ∃ text, t.coder = Coder.encoderStart text
  index : 0 < s.n.toNat → t.bidx.toNat < s.n.toNat
  index_zero : s.n.toNat = 0 → t.bidx = 0
  sum : t.counts.sum = s.n.toNat
  table : t.cumOfFreq
  last : t.elem .cum 256 = s.n.toNat
  symbols : ∀ k < s.n.toNat, t.elem .cum (t.elem .sym k) < t.elem .cum (t.elem .sym k + 1)
  restores : ∀ u : State, u.good → u.cfgNmax = s.cfgNmax → u.n = s.n → u.bidx = t.bidx →
    (∀ k < s.n.toNat, u.elem .sym k = t.elem .sym k) →
    ∃ v, issued [.mtfd, .bwti] u = .next v ∧ v.good ∧ v.n = s.n ∧ ∀ k < s.n.toNat, v.elem .data k = s.elem .data k

theorem State.elem_sym_lt (s : State) (k : Nat) : s.elem .sym k < 256 := by
  refine s.elemsBelow_sym_lt (k + 1) _ ?_
  rw [← s.elemsBelow_getD .sym (Nat.lt_succ_self k)]
  exact getD_mem (by rw [State.elemsBelow_length]; exact Nat.lt_succ_self k)

/-- A symbol that occurs is counted. -/
theorem State.symbolCounts_pos (hk : k < s.n.toNat) : 0 < s.symbolCounts.getD (s.elem .sym k) 0 := by
  rw [State.symbolCounts, countSymbols_getD (s.elem_sym_lt k), List.count_pos_iff, ← s.elemsBelow_getD .sym hk]
  exact getD_mem (by rwa [State.elemsBelow_length])

theorem exec_rcei (hg : s.good) :
    ∃ t, exec .rcei s = .next t ∧ t.good ∧ t.status.rcmode = .encoding ∧ t.coder = Coder.encoderStart s.coder.text :=
  ⟨_, runCommand_of_ok rceiBody s _ hg rfl, hg, rfl, rfl⟩

/-- What `MTFE` leaves for the decoder: codes that `MTFD` turns back (R138). -/
def State.recodesTo (s t : State) : Prop :=
  ∀ u : State, u.good → u.cfgNmax = s.cfgNmax → u.n = s.n → (∀ k < s.n.toNat, u.elem .sym k = t.elem .sym k) →
    ∃ v, exec .mtfd u = .next v ∧ completedFrom u v ∧ ∀ k < s.n.toNat, v.elem .xf k = s.elem .xf k

/-- `MTFD` and `BWTI` undo `BWTF` and `MTFE`, with the codes and the index in between (R125, R138). -/
theorem State.transformsTo.undone (htrans : s.transformsTo t) (hin : s.sameInput t) (hback : t.recodesTo u) {v : State}
    (hg : v.good) (hnmax : v.cfgNmax = s.cfgNmax) (hn : v.n = s.n) (hbidx : v.bidx = t.bidx)
    (hsyms : ∀ k < s.n.toNat, v.elem .sym k = u.elem .sym k) :
    ∃ w, issued [.mtfd, .bwti] v = .next w ∧ w.good ∧ w.n = s.n ∧ ∀ k < s.n.toNat, w.elem .data k = s.elem .data k := by
  obtain ⟨w, hmtfd, ⟨-, -, hgw, -⟩, hxf⟩ := hback v hg (hnmax.trans hin.nmax.symm) (hn.trans hin.n.symm)
    fun k hk => hsyms k (hin.n ▸ hk)
  have hinw := exec_sameInput rfl rfl rfl hmtfd
  obtain ⟨x, hbwti, ⟨-, -, hgx, -⟩, hdata⟩ := htrans.restores w hgw (hinw.nmax.trans hnmax) (hinw.n.trans hn)
    ((exec_bidx rfl hmtfd).trans hbidx) fun k hk => hxf k (hin.n.symm ▸ hk)
  exact ⟨x, issued_cons_of_next hmtfd (issued_cons_of_next hbwti rfl), hgx,
    ((exec_sameInput rfl rfl rfl hbwti).n.trans hinw.n).trans hn, hdata⟩

/-- The stages of `COMP` before its encoder's. -/
theorem codable_of_bwtf (hn : s.n.toNat ≤ s.cfgNmax.toNat) (hfit : s.n.toNat ≤ Config.nmaxBound)
    (hbwtf : exec .bwtf s = .next t) (hdone : completedFrom s t) (htrans : s.transformsTo t) :
    ∃ u, issued [.bwtf, .mtfe, .freq, .rcei] s = .next u ∧ s.codable u := by
  obtain ⟨-, -, hgt, -⟩ := hdone
  have hin1 := exec_sameInput rfl rfl rfl hbwtf
  obtain ⟨⟨t2, hmtfe, ⟨-, -, hg2, -⟩, hback⟩, -⟩ := mtfIsInvertibleBothWays t hgt (hin1.n_le hn)
  have hin2 := hin1.trans (exec_sameInput rfl rfl rfl hmtfe)
  obtain ⟨t3, hfreq, ⟨-, -, hg3, -⟩, hcounts, htable, hlast⟩ := exec_freq_tabulates hg2 (hin2.n_le hn) (by rwa [hin2.n])
  have hin3 := hin2.trans (exec_sameInput rfl rfl rfl hfreq)
  obtain ⟨u, hrcei, hgu, hmode, hcoder⟩ := exec_rcei hg3
  have hsym (k : Nat) : u.elem .sym k = t2.elem .sym k := (exec_elem rfl hrcei k).trans (exec_elem rfl hfreq k)
  have hcum (k : Nat) : u.elem .cum k = t3.elem .cum k := exec_elem rfl hrcei k
  have hfreqs (k : Nat) : u.elem .freq k = t3.elem .freq k := exec_elem rfl hrcei k
  have hcounts' : u.counts = t2.symbolCounts := (List.map_congr_left fun k _ => hfreqs k).trans hcounts
  have hbidx : u.bidx = t.bidx := ((exec_bidx rfl hrcei).trans (exec_bidx rfl hfreq)).trans (exec_bidx rfl hmtfe)
  have hn2 : t2.n = s.n := hin2.n
  refine ⟨u, issued_cons_of_next hbwtf (issued_cons_of_next hmtfe (issued_cons_of_next hfreq
    (issued_cons_of_next hrcei rfl))), ?_⟩
  refine ⟨hgu, hmode, hin3.trans (exec_sameInput rfl rfl rfl hrcei), ⟨_, hcoder⟩, by rw [hbidx]; exact htrans.index,
    by rw [hbidx]; exact htrans.index_zero, ?_, ?_, ?_, fun k hk => ?_, fun v hgv hnmax hnv hbv hsyms =>
    htrans.undone hin1 hback hgv hnmax hnv (hbv.trans hbidx) fun k hk => (hsyms k hk).trans (hsym k)⟩
  · rw [hcounts', State.symbolCounts_sum, hn2]
  · obtain ⟨hzero, hstep⟩ := htable
    exact ⟨(hcum 0).trans hzero, fun c hc => by rw [hcum, hcum, hfreqs, hstep c hc]⟩
  · rw [hcum, hlast, hn2]
  · have hpos := State.symbolCounts_pos (s := t2) (k := k) (by rwa [hn2])
    rw [← hcounts, State.counts, State.elemsBelow_getD _ _ (t2.elem_sym_lt k)] at hpos
    rw [hsym, hcum, hcum, htable.2 _ (t2.elem_sym_lt k)]
    omega

/-! ### The encoder's stages -/

/-- The intervals `COMP` codes (R202, R205). -/
def State.codedIntervals (t : State) : List (Nat × Nat × Nat) :=
  headerIntervals t.n.toNat t.bidx.toNat t.counts ++ symbolIntervals t t.n.toNat

theorem State.codedIntervals_length_le (t : State) : t.codedIntervals.length ≤ t.n.toNat + 258 := by
  have hheader := headerIntervals_length_le t.n.toNat t.bidx.toNat t.counts
  rw [State.codedIntervals, List.length_append, symbolIntervals_length]
  rw [t.counts_length] at hheader
  omega

theorem State.codable.cumConsistent (h : s.codable t) : t.cumConsistent s.n.toNat := by
  obtain ⟨hzero, hstep⟩ := h.table
  exact ⟨hzero, h.last, fun c hc => by rw [hstep c hc]; exact Nat.le_add_right _ _⟩

theorem State.codable.legal (h : s.codable t) (hfit : s.n.toNat ≤ Config.nmaxBound) : allLegal t.codedIntervals := by
  obtain ⟨-, hlast, hmono⟩ := h.cumConsistent
  rw [State.codedIntervals, h.input.n]
  refine List.forall_mem_append.mpr ⟨headerIntervals_legal hfit h.index h.sum.le, symbolIntervals_legal hfit fun k hk =>
    ⟨h.symbols k hk, (elem_cum_mono hmono ?_ le_rfl).trans hlast.le⟩⟩
  exact t.elem_sym_lt k

theorem symbolIntervals_withCoder (s : State) (c : Coder) (n : Nat) :
    symbolIntervals (s.startCommand.withCoder c).complete n = symbolIntervals s n :=
  List.map_congr_left fun _ _ => rfl

theorem exec_hdre_of_ok (hg : s.good) (hmode : s.status.rcmode = .encoding) (hn : s.n.toNat ≤ s.cfgNmax.toNat)
    (h : encodeAll s.cfgTmax.toNat (headerIntervals s.n.toNat s.bidx.toNat s.counts) s.coder = .ok c) :
    exec .hdre s = .next (s.startCommand.withCoder c).complete :=
  (runCommand_onCoder_of_ok hg (hdreBody_of_encoding (s := s.startCommand) hmode hn) h).1

theorem exec_hdre_of_raised (hg : s.good) (hmode : s.status.rcmode = .encoding) (hn : s.n.toNat ≤ s.cfgNmax.toNat)
    (h : encodeAll s.cfgTmax.toNat (headerIntervals s.n.toNat s.bidx.toNat s.counts) s.coder = .error (.raised code info c)) :
    exec .hdre s = .next ((s.startCommand.withCoder c).takeFault code info) :=
  (runCommand_onCoder_of_raised hg (hdreBody_of_encoding (s := s.startCommand) hmode hn) h).1

theorem exec_syme_of_ok (hg : s.good) (hmode : s.status.rcmode = .encoding) (hn : s.n.toNat ≤ s.cfgNmax.toNat)
    (h : encodeAll s.cfgTmax.toNat (symbolIntervals s s.n.toNat) s.coder = .ok c) :
    exec .syme s = .next (s.startCommand.withCoder c).complete :=
  (runCommand_onCoder_of_ok hg (symeBody_of_encoding (s := s.startCommand) hmode hn) h).1

theorem exec_syme_of_raised (hg : s.good) (hmode : s.status.rcmode = .encoding) (hn : s.n.toNat ≤ s.cfgNmax.toNat)
    (h : encodeAll s.cfgTmax.toNat (symbolIntervals s s.n.toNat) s.coder = .error (.raised code info c)) :
    exec .syme s = .next ((s.startCommand.withCoder c).takeFault code info) :=
  (runCommand_onCoder_of_raised hg (symeBody_of_encoding (s := s.startCommand) hmode hn) h).1

theorem exec_rcfin_of_raised (hg : s.good) (hmode : s.status.rcmode = .encoding)
    (h : finish64 s.cfgTmax.toNat s.coder = .error (.raised code info c)) :
    exec .rcfin s = .next ((s.startCommand.withCoder c).takeFault code info) := by
  refine runCommand_of_raised rcfinBody s _ code info hg ?_
  have hbody : rcfinBody s.startCommand =
      (onCoder s.startCommand (finish64 s.cfgTmax.toNat s.coder) >>= fun t => .ok (t.withMode .finished)) := by
    rw [rcfinBody, State.startCommand_status, hmode]
    rfl
  rw [hbody, h]
  rfl

section Encoder

variable (hg : t.good) (hmode : t.status.rcmode = .encoding) (hn : t.n.toNat ≤ t.cfgNmax.toNat)
include hg hmode hn

/-- The encoder's stages where the text holds everything. -/
theorem issued_encoder_of_ok (h : encodeText t.cfgTmax.toNat t.codedIntervals t.coder = .ok e) :
    ∃ u, issued [.hdre, .syme, .rcfin] t = .next u ∧ u.good ∧ u.status.rcmode = .finished ∧ u.coder = e ∧ u.bidx = t.bidx := by
  obtain ⟨c2, hcodes, hfinish⟩ := (Run.bind_ok_iff ..).mp h
  rw [State.codedIntervals, encodeAll_append] at hcodes
  obtain ⟨c1, hheader, hsymbols⟩ := (Run.bind_ok_iff ..).mp hcodes
  have hhdre := exec_hdre_of_ok hg hmode hn hheader
  have hsyme := exec_syme_of_ok (s := (t.startCommand.withCoder c1).complete) (c := c2) hg hmode hn
    (by rw [symbolIntervals_withCoder]; exact hsymbols)
  have hrcfin := exec_rcfin_of_ok (s := ((t.startCommand.withCoder c1).complete.startCommand.withCoder c2).complete) hg hmode
    hfinish
  exact ⟨_, issued_cons_of_next hhdre (issued_cons_of_next hsyme (issued_cons_of_next hrcfin rfl)), hg, rfl, rfl, rfl⟩

/-- The encoder's stages where one of them faults. -/
theorem issued_encoder_of_raised (h : encodeText t.cfgTmax.toNat t.codedIntervals t.coder = .error (.raised code info c)) :
    ∃ u, issued [.hdre, .syme, .rcfin] t = .next u ∧ u.status.faulted = true ∧ u.fault = code ∧ u.finfo = info := by
  have hstage : ∀ j ∈ [Instr.hdre, .syme, .rcfin], isStage j := fun j hj => .inl (List.mem_of_mem_drop (i := 4) hj)
  have hstage' : ∀ j ∈ [Instr.syme, .rcfin], isStage j := fun j hj => hstage j (List.mem_cons_of_mem _ hj)
  have hstage'' : ∀ j ∈ [Instr.rcfin], isStage j := fun j hj => hstage' j (List.mem_cons_of_mem _ hj)
  rcases (Run.bind_error_iff ..).mp h with hcodes | ⟨c2, hcodes, hfinish⟩ <;>
    rw [State.codedIntervals, encodeAll_append] at hcodes
  · rcases (Run.bind_error_iff ..).mp hcodes with hheader | ⟨c1, hheader, hsymbols⟩
    · exact ⟨_, issued_cons_of_faulted hstage' (exec_hdre_of_raised hg hmode hn hheader) rfl, rfl, rfl, rfl⟩
    · have hsyme := exec_syme_of_raised (s := (t.startCommand.withCoder c1).complete) (c := c) (code := code) (info := info) hg hmode
        hn (by rw [symbolIntervals_withCoder]; exact hsymbols)
      exact ⟨_, issued_cons_of_next (exec_hdre_of_ok hg hmode hn hheader) (issued_cons_of_faulted hstage'' hsyme rfl),
        rfl, rfl, rfl⟩
  · obtain ⟨c1, hheader, hsymbols⟩ := (Run.bind_ok_iff ..).mp hcodes
    have hsyme := exec_syme_of_ok (s := (t.startCommand.withCoder c1).complete) (c := c2) hg hmode hn
      (by rw [symbolIntervals_withCoder]; exact hsymbols)
    have hrcfin := exec_rcfin_of_raised (s := ((t.startCommand.withCoder c1).complete.startCommand.withCoder c2).complete)
      (c := c) (code := code) (info := info) hg hmode hfinish
    exact ⟨_, issued_cons_of_next (exec_hdre_of_ok hg hmode hn hheader)
      (issued_cons_of_next hsyme (issued_cons_of_next hrcfin rfl)), rfl, rfl, rfl⟩

end Encoder

/-! ### `COMP` (R209) -/

/-- A length above `NMAX` is refused before anything else (R251). -/
theorem exec_bwtf_of_long (hg : s.good) (hlong : s.cfgNmax.toNat < s.n.toNat) :
    exec .bwtf s = .next (s.startCommand.takeFault .badLength s.n) := by
  refine runCommand_of_raised bwtfBody s _ _ _ hg ?_
  have hcheck : checkLength s.startCommand s.n.toNat = raise .badLength s.n.toNat s.startCommand := if_pos hlong
  rw [bwtfBody]
  dsimp only [State.startCommand_n]
  rw [hcheck, raise, Run.error_bind, reg64_of_toNat]

section Composite

variable (hg : s.good) (h : issued [.bwtf, .mtfe, .freq, .rcei] s = .next t) (hc : s.codable t) (hn : s.n.toNat ≤ s.cfgNmax.toNat)
include hg h hc hn

theorem exec_comp_of_ok (hrun : encodeText s.cfgTmax.toNat t.codedIntervals t.coder = .ok e) :
    ∃ u, exec .comp s = .next u ∧ completedFrom s u ∧ u.status.rcmode = .finished ∧ u.coder = e ∧ u.bidx = t.bidx := by
  rw [← hc.input.tmax] at hrun
  obtain ⟨u, hu, hgood, hmode, hcoder, hbidx⟩ := issued_encoder_of_ok hc.good hc.mode (hc.input.n_le hn) hrun
  have hissued : issued compStages s = .next u := (issued_append_of_next _ _ _ _ h).trans hu
  obtain ⟨hexec, hdone⟩ := exec_completes_of_issued (.inl ⟨rfl, rfl⟩) hg hissued hgood
  exact ⟨_, hexec, hdone, hmode, hcoder, hbidx⟩

theorem exec_comp_of_raised (hrun : encodeText s.cfgTmax.toNat t.codedIntervals t.coder = .error (.raised code info c)) :
    ∃ u, exec .comp s = .next u ∧ faultedFrom s u code info.toNat := by
  rw [← hc.input.tmax] at hrun
  obtain ⟨u, hu, hf, rfl, rfl⟩ := issued_encoder_of_raised hc.good hc.mode (hc.input.n_le hn) hrun
  have hissued : issued compStages s = .next u := (issued_append_of_next _ _ _ _ h).trans hu
  exact ⟨_, exec_faults_of_issued (.inl ⟨rfl, rfl⟩) hg hissued hf⟩

end Composite

/-- How the encoding of `COMP` ends: by its last line, or by `TEXT_OVERFLOW` with `TMAX` where the text was not long enough. -/
theorem State.codable.run (hc : s.codable t) (hfit : s.n.toNat ≤ Config.nmaxBound) :
    (∃ e, encodeText s.cfgTmax.toNat t.codedIntervals t.coder = .ok e ∧ e.filled s.cfgTmax.toNat) ∨
      s.cfgTmax.toNat < 6 * (s.n.toNat + 260) ∧ ∃ info c, info.toNat = s.cfgTmax.toNat ∧
        encodeText s.cfgTmax.toNat t.codedIntervals t.coder = .error (.raised .textOverflow info c) := by
  obtain ⟨text, htext⟩ := hc.coder
  have hlen := t.codedIntervals_length_le
  rw [hc.input.n] at hlen
  have hbound : s.n.toNat ≤ 2147483646 := hfit
  have hfills := encodeText_fills (intervals := t.codedIntervals) s.cfgTmax.isLt text
  have hfull := encodeText_unlessFull (intervals := t.codedIntervals) s.cfgTmax.isLt (hc.legal hfit) (by omega) text
  rw [← htext] at hfills hfull
  by_cases hroom : 6 * (s.n.toNat + 260) ≤ s.cfgTmax.toNat
  · obtain ⟨e, he, -⟩ := Run.unlessFull_completes hfull (by omega)
    rw [he] at hfills
    exact .inl ⟨e, he, hfills⟩
  · rcases Run.unlessFull_cases hfull with ⟨e, he, -⟩ | ⟨info, c, hraise⟩
    · rw [he] at hfills
      exact .inl ⟨e, he, hfills⟩
    · rw [hraise] at hfills
      exact .inr ⟨by omega, info, c, hfills rfl, hraise⟩

end Sys2Proof.Machine

open Sys2Proof Sys2Proof.Machine

/-- Settles O53: the stages before the encoder's complete, and only a full text ends those. -/
theorem compressOutcomes : Obligations.CompressOutcomes := by
  intro s hg hparams
  have hkept {t : State} (h : exec .comp s = .next t) : t.n = s.n ∧ ∀ k, sameElem s t .data k :=
    ⟨(exec_sameInput rfl rfl rfl h).n, fun k => commandsWriteOnlyTheirSpaces .comp s t .data k h rfl⟩
  by_cases hlong : s.cfgNmax.toNat < s.n.toNat
  · have hbwtf := exec_bwtf_of_long hg hlong
    have hissued : issued compStages s = .next _ :=
      issued_cons_of_faulted (fun j hj => .inl (List.mem_cons_of_mem _ hj)) hbwtf rfl
    obtain ⟨hexec, hfault⟩ := exec_faults_of_issued (.inl ⟨rfl, rfl⟩) hg hissued rfl
    exact ⟨_, hexec, (hkept hexec).1, (hkept hexec).2, fun _ => hfault, fun h => absurd hlong (by omega),
      fun h => absurd hlong (by omega)⟩
  · have hn : s.n.toNat ≤ s.cfgNmax.toNat := by omega
    have hfit := hn.trans hparams.1
    obtain ⟨t1, hbwtf, hdone, htrans⟩ := exec_bwtf_transformsTo hg hparams hn
    obtain ⟨t, hissued, hc⟩ := codable_of_bwtf hn hfit hbwtf hdone htrans
    rcases hc.run hfit with ⟨e, he, -⟩ | ⟨hroom, info, c, hinfo, hraise⟩
    · obtain ⟨u, hexec, hdone, hmode, -⟩ := exec_comp_of_ok hg hissued hc hn he
      exact ⟨u, hexec, (hkept hexec).1, (hkept hexec).2, fun h => absurd h hlong, fun _ => .inl ⟨hdone, hmode⟩,
        fun _ _ => ⟨hdone, hmode⟩⟩
    · obtain ⟨u, hexec, hfault⟩ := exec_comp_of_raised hg hissued hc hn hraise
      rw [hinfo] at hfault
      exact ⟨u, hexec, (hkept hexec).1, (hkept hexec).2, fun h => absurd h hlong, fun _ => .inr hfault,
        fun _ h => absurd hroom (by omega)⟩
end

section
/-! PROOFS. Decompression (R210): what each stage leaves for the next. Settles O55. -/

namespace Sys2Proof.Machine

variable {i : Instr} {n k : Nat} {s t u : State} {c d e : Coder} {code : FaultCode} {info : Reg64}

/-! ### What the stages keep -/

theorem exec_text (hi : mayWrite i .text = false) (h : exec i s = .next t) : t.coder.text = s.coder.text :=
  ((exec_reaches i s t h).mem .text).eq_of_none fun _ hk => absurd (hi.symm.trans hk.1) (by decide)

theorem exec_tlen (hi : mayWriteReg i .tlen = false) (h : exec i s = .next t) : t.coder.tlen = s.coder.tlen :=
  (commandsChangeOnlyTheirResultRegisters i s t h).1 .tlen hi rfl

/-- The decoder's parts follow the coder they start from. -/
theorem follows_keptByDecode (c : Coder) : KeptByDecode (fun u => c.follows u.coder) fun _ u => c.follows u.coder where
  fault _ _ _ h := h
  decode t den h := by
    refine Run.ends_bind (checkMode_ends t _ (fun _ => trivial) h) fun _ _ => onCoderValue_ends ?_
    exact Run.ends_mono (Run.ends_and (decode64_ends t.port den t.coder) ((Run.leaves_iff_ends ..).mp (decode64_sameEncoder ..)))
      (fun _ hr => h.trans ⟨hr.1.1, hr.2⟩) fun _ _ hd => h.trans ⟨hd.1.2, hd.2⟩
  scale t lo hi den h := by
    refine Run.ends_bind (checkMode_ends t _ (fun _ => trivial) h) fun _ _ => onCoder_ends ?_
    exact Run.ends_mono (Run.ends_and (scale64_ends t.port lo hi den t.coder)
      ((Run.leaves_iff_ends ..).mp (scale64_sameEncoder ..)))
      (fun _ hr => h.trans ⟨hr.1, hr.2⟩) fun _ _ hd => h.trans ⟨hd.1.2, hd.2⟩

theorem exec_hdrd_follows (h : exec .hdrd s = .next t) : s.coder.follows t.coder := by
  rcases exec_next_cases (by decide) h fun _ => (follows_keptByDecode s.coder).hdrdBody
      ⟨fun _ _ h => h, fun _ _ h => h, fun _ _ _ _ h => h, fun u h => (buildCum_coder u).symm ▸ h⟩ s.startCommand (.refl _) with
    ⟨-, rfl⟩ | ⟨-, u, hu, -, rfl⟩ | ⟨-, code, info, u, hu, rfl⟩
  · exact .refl _
  · exact hu
  · exact hu

/-! ### The first stage and the last ones -/

/-- The machine after `RCDI` (R168). -/
def State.decoderStart (s : State) : State :=
  ((s.startCommand.withCoder { Coder.atReset s.coder.text with range := 1, tlen := s.coder.tlen }).withMode .decoding).complete

theorem exec_rcdi_of_room (hg : s.good) (hroom : s.coder.tlen.toNat ≤ s.cfgTmax.toNat) : exec .rcdi s = .next s.decoderStart :=
  runCommand_of_ok rcdiBody s _ hg (rcdiBody_of_room (s := s.startCommand) hroom)

theorem exec_rcdi_of_tlen (hg : s.good) (hlong : s.cfgTmax.toNat < s.coder.tlen.toNat) :
    exec .rcdi s = .next (s.startCommand.takeFault .badLength s.coder.tlen) := by
  have hbody := rcdiBody_of_tlen (s := s.startCommand) hlong
  rw [raise, State.startCommand_coder, reg64_of_toNat] at hbody
  exact runCommand_of_raised rcdiBody s _ _ _ hg hbody

theorem State.decoderStart_legal (s : State) : s.decoderStart.coder.legal .decoding :=
  ((Coder.sound_iff .decoding _).mp (Coder.sound_decoderStart s.coder.text s.coder.tlen)).2

theorem State.decoderStart_cursorsLegal (hroom : s.coder.tlen.toNat ≤ s.cfgTmax.toNat) : s.decoderStart.cursorsLegal :=
  ⟨Nat.zero_le _, hroom⟩

theorem exec_bwti_of_index (hg : s.good) (hn : s.n.toNat ≤ s.cfgNmax.toNat) (hindex : 0 < s.n.toNat → s.bidx.toNat < s.n.toNat) :
    ∃ t, exec .bwti s = .next t ∧ completedFrom s t := by
  rcases Nat.eq_zero_or_pos s.n.toNat with hzero | hpos
  · exact ⟨_, runCommand_of_ok bwtiBody s _ hg (bwtiBody_of_zero hzero), State.sameRecord.complete ⟨rfl, rfl, rfl, rfl⟩ hg⟩
  · exact ⟨_, runCommand_of_ok bwtiBody s _ hg (bwtiBody_of_index (s := s.startCommand) (hindex hpos) hn),
      State.sameRecord.complete ⟨rfl, rfl, rfl, rfl⟩ hg⟩

/-- The stages of `DECOMP` after the decoder's complete for every length within `NMAX` and index below it. -/
theorem issued_inverses (hg : s.good) (hmode : s.status.rcmode = .decoding) (hn : s.n.toNat ≤ s.cfgNmax.toNat)
    (hindex : 0 < s.n.toNat → s.bidx.toNat < s.n.toNat) :
    ∃ u, issued [.rcfin, .mtfd, .bwti] s = .next u ∧ u.good ∧ u.n = s.n ∧ u.bidx = s.bidx := by
  have hrcfin := exec_rcfin_of_decoding_or_finished hg (.inl hmode)
  have hin1 := exec_sameInput rfl rfl rfl hrcfin
  obtain ⟨t, hmtfd, ⟨-, -, hgt, -⟩, -⟩ := exec_mtfd_completes (s := (s.startCommand.withMode .finished).complete) hg hn
  have hin2 := hin1.trans (exec_sameInput rfl rfl rfl hmtfd)
  have hbidx : t.bidx = s.bidx := exec_bidx (s := (s.startCommand.withMode .finished).complete) rfl hmtfd
  obtain ⟨u, hbwti, ⟨-, -, hgu, -⟩⟩ := exec_bwti_of_index hgt (hin2.n_le hn) (by rwa [hin2.n, hbidx])
  exact ⟨u, issued_cons_of_next hrcfin (issued_cons_of_next hmtfd (issued_cons_of_next hbwti rfl)), hgu,
    (exec_sameInput rfl rfl rfl hbwti).n.trans hin2.n, (exec_bidx rfl hbwti).trans hbidx⟩

theorem State.cumOfFreq.cumConsistent (h : s.cumOfFreq) (hlast : s.elem .cum 256 = n) : s.cumConsistent n :=
  ⟨h.1, hlast, fun c hc => by rw [h.2 c hc]; exact Nat.le_add_right _ _⟩

end Sys2Proof.Machine

open Sys2Proof Sys2Proof.Machine

/-- Settles O55: every stage's outcomes are the next one's premises, `HDRD` alone can fault where the text fits. -/
theorem decompressOutcomes : Obligations.DecompressOutcomes := by
  intro s hg hparams
  have hkept {t : State} (h : exec .decomp s = .next t) : t.coder.tlen = s.coder.tlen ∧ t.coder.text = s.coder.text :=
    ⟨exec_tlen rfl h, exec_text rfl h⟩
  have hstage : ∀ j ∈ [Instr.hdrd, .symd, .rcfin, .mtfd, .bwti], isStage j := fun j hj => .inr (List.mem_cons_of_mem _ hj)
  by_cases hlong : s.cfgTmax.toNat < s.coder.tlen.toNat
  · have hissued : issued decompStages s = .next _ := issued_cons_of_faulted hstage (exec_rcdi_of_tlen hg hlong) rfl
    obtain ⟨hexec, hfault⟩ := exec_faults_of_issued (.inr ⟨rfl, rfl⟩) hg hissued rfl
    exact ⟨_, hexec, (hkept hexec).1, (hkept hexec).2, fun _ => hfault, fun h => absurd hlong (by omega)⟩
  have hroom : s.coder.tlen.toNat ≤ s.cfgTmax.toNat := by omega
  have hrcdi := exec_rcdi_of_room hg hroom
  have hlegal := s.decoderStart_legal
  have hcursors := State.decoderStart_cursorsLegal hroom
  obtain ⟨t, n, c, hhdrd, hn, -, hbad, hheader⟩ := headerDecodingOutcomes s.decoderStart hg hparams rfl hlegal hcursors
  have hfollows := exec_hdrd_follows hhdrd
  -- a fault of `HDRD` is the composite's
  have hfaults (hf : t.status.faulted = true) : ∃ v, exec .decomp s = .next v ∧ faultedFrom s v t.fault t.finfo.toNat ∧
      v.n = t.n ∧ v.finfo = t.finfo ∧ v.elem .cum 256 = t.elem .cum 256 := by
    have hissued : issued decompStages s = .next t := issued_cons_of_next hrcdi
      (issued_cons_of_faulted (fun j hj => hstage j (List.mem_cons_of_mem _ hj)) hhdrd hf)
    obtain ⟨hexec, hfault⟩ := exec_faults_of_issued (.inr ⟨rfl, rfl⟩) hg hissued hf
    exact ⟨_, hexec, hfault, rfl, rfl, rfl⟩
  by_cases hnmax : s.cfgNmax.toNat < n
  · obtain ⟨⟨-, -, hf, -, hcode, -⟩, hinfo, -⟩ := hbad hnmax
    obtain ⟨v, hexec, hfault, -, hinfo', -⟩ := hfaults hf
    rw [hcode, ← hinfo'] at hfault
    rw [← hinfo, ← hinfo'] at hn hnmax
    exact ⟨v, hexec, (hkept hexec).1, (hkept hexec).2, fun h => absurd h hlong, fun _ => .inr (.inl ⟨hnmax, hn, hfault⟩)⟩
  have hle : n ≤ s.cfgNmax.toNat := by omega
  obtain ⟨hlen, htable, -, hindex, ⟨⟨-, -, hgt, -⟩, hlast⟩ | ⟨r, hr, ⟨-, -, hf, -, hcode, -⟩, hinfo, hsum⟩⟩ := hheader hle
  · have hmode : t.status.rcmode = .decoding := exec_keeps_mode .hdrd s.decoderStart t rfl hhdrd
    have hnmax' : t.cfgNmax = s.cfgNmax := exec_nmax (s := s.decoderStart) rfl hhdrd
    have htmax' : t.cfgTmax = s.cfgTmax := (commandsChangeOnlyTheirResultRegisters .hdrd _ t hhdrd).1 .cfgTmax rfl rfl
    have hcursors' : t.cursorsLegal := exec_keeps_cursorsLegal .hdrd s.decoderStart t hcursors hhdrd
    have hlive := State.coder_live hlegal hcursors
    rw [← hlen] at hlast hindex hle
    obtain ⟨u, -, hsymd, ⟨-, -, hgu, -⟩, -⟩ := symbolDecodingCompletes.1 t hgt (by rwa [State.paramsLegal, hnmax', htmax']) hmode
      (hlegal.of_follows hlive.decoder hfollows) hcursors' (by rwa [hnmax']) (htable.cumConsistent hlast)
    have hin := exec_sameInput rfl rfl rfl hsymd
    obtain ⟨v, hrest, hgv, hnv, -⟩ := issued_inverses hgu ((exec_keeps_mode .symd t u rfl hsymd).trans hmode)
      (by rwa [hin.n, hin.nmax, hnmax']) (by rwa [hin.n, exec_bidx rfl hsymd])
    have hissued : issued decompStages s = .next v :=
      issued_cons_of_next hrcdi (issued_cons_of_next hhdrd (issued_cons_of_next hsymd hrest))
    obtain ⟨hexec, hdone⟩ := exec_completes_of_issued (.inr ⟨rfl, rfl⟩) hg hissued hgv
    refine ⟨_, hexec, (hkept hexec).1, (hkept hexec).2, fun h => absurd h hlong, fun _ => .inl ⟨hdone, ?_, ?_⟩⟩
    · obtain ⟨-, -, -, hfinished⟩ := (modeChangesOnlyAsR25Lists.1 .decomp s _ hexec).2.1 hgv
      exact hfinished (.inr rfl)
    · show v.n.toNat ≤ _
      rwa [hnv, hin.n]
  · obtain ⟨v, hexec, hfault, hnv, hinfo', hcum⟩ := hfaults hf
    rw [hcode, ← hinfo'] at hfault
    rw [← hinfo, ← hinfo'] at hr hsum
    rw [← hcum, ← hlen, ← hnv] at hsum
    exact ⟨v, hexec, (hkept hexec).1, (hkept hexec).2, fun h => absurd h hlong,
      fun _ => .inr (.inr ⟨hr, hfault, by rwa [hnv, hlen], hsum⟩)⟩
end

section
/-! PROOFS. The round trip (R213): the decoder that mirrors the encoder finds the header and then the symbols. Settles O56. -/

namespace Sys2Proof.Machine

variable {port : TextPort} {n b v k : Nat} {fs vs cs : List Nat} {intervals rest : List (Nat × Nat × Nat)} {s t u : State}
  {c d e : Coder}

/-! ### A list of pairs in two parts -/

theorem decodeAll_append (h : decodeAll port (intervals ++ rest) c = .ok (vs, e)) :
    ∃ ws us d, decodeAll port intervals c = .ok (ws, d) ∧ decodeAll port rest d = .ok (us, e) ∧ vs = ws ++ us ∧
      ws.length = intervals.length := by
  induction intervals generalizing c vs with
  | nil => exact ⟨[], vs, c, rfl, h, rfl, rfl⟩
  | cons interval intervals ih =>
    obtain ⟨lo, hi, den⟩ := interval
    obtain ⟨v, f, g, ts, hdecode, hscale, hrest, rfl⟩ := decodeAll_cons_iff.mp h
    obtain ⟨ws, us, d, hfront, hback, rfl, hlen⟩ := ih hrest
    exact ⟨v :: ws, us, d, decodeAll_cons_iff.mpr ⟨v, f, g, ws, hdecode, hscale, hfront, rfl⟩, hback, rfl,
      congrArg (· + 1) hlen⟩

/-- A decoder that mirrors a list in two parts, the first of one-value intervals, reads the first back; the values of the second
lie in their intervals. -/
theorem readsBack_then (hunit : ∀ i ∈ intervals, i.2.1 = i.1 + 1) (h : decodeAll port (intervals ++ rest) c = .ok (vs, e))
    (hvs : List.Forall₂ (fun v (i : Nat × Nat × Nat) => i.1 ≤ v ∧ v < i.2.1) vs (intervals ++ rest)) :
    ∃ us d, c.readsBack port intervals d ∧ decodeAll port rest d = .ok (us, e) ∧
      List.Forall₂ (fun v (i : Nat × Nat × Nat) => i.1 ≤ v ∧ v < i.2.1) us rest := by
  obtain ⟨ws, us, d, hfront, hback, rfl, hlen⟩ := decodeAll_append h
  have hws := List.forall₂_take_append _ _ _ hvs
  have hus := List.forall₂_drop_append _ _ _ hvs
  rw [← hlen, List.take_left] at hws
  rw [← hlen, List.drop_left] at hus
  exact ⟨us, d, readsBack_of_decodeAll hunit hfront hws, hback, hus⟩

/-! ### `HDRD` and `SYMD` of what an encoder wrote -/

/-- `SYMD` writes the symbols found for the values. -/
theorem exec_symd_finds (hg : s.good) (hmode : s.status.rcmode = .decoding) (hn : s.n.toNat ≤ s.cfgNmax.toNat)
    (hlen : vs.length = s.n.toNat) (h : decodeAll s.port (vs.map (s.foundInterval s.n.toNat)) s.coder = .ok (vs, e)) :
    ∃ t, exec .symd s = .next t ∧ completedFrom s t ∧ t.elemsBelow .sym s.n.toNat = vs.map s.lookup := by
  obtain ⟨hexec, hdone⟩ := exec_symd_completes hg hmode hn hlen h
  refine ⟨_, hexec, hdone, ?_⟩
  rw [← hlen]
  exact (List.map_congr_left fun k _ => State.complete_elem _ _ k).trans (s.startCommand.withSymbols_elemsBelow vs e)

/-- Two tables of the same counts. -/
theorem State.cumOfFreq.ext (hs : s.cumOfFreq) (ht : t.cumOfFreq) (h : s.counts = t.counts) (hk : k ≤ 256) :
    s.elem .cum k = t.elem .cum k := by
  induction k with
  | zero => rw [hs.1, ht.1]
  | succ k ih => rw [hs.2 k hk, ht.2 k hk, ih (Nat.le_of_succ_le hk), State.elemsBelow_eq_iff.mp h k hk]

/-- Values in the intervals of symbols are looked up to those symbols. -/
theorem State.cumConsistent.lookups (h : s.cumConsistent n) (hcs : ∀ c ∈ cs, c < 256)
    (hvs : List.Forall₂ (fun v (i : Nat × Nat × Nat) => i.1 ≤ v ∧ v < i.2.1) vs (cs.map (s.symbolInterval n))) :
    vs.map s.lookup = cs := by
  induction cs generalizing vs with
  | nil =>
    rw [List.map_nil, List.forall₂_nil_right_iff] at hvs
    rw [hvs, List.map_nil]
  | cons c cs ih =>
    obtain ⟨v, vs, ⟨hle, hlt⟩, hrest, rfl⟩ := List.forall₂_cons_right_iff.mp hvs
    obtain ⟨hc, hcs⟩ := List.forall_mem_cons.mp hcs
    rw [List.map_cons, State.lookup_eq h.1 h.2.2 hc hle hlt, ih hcs hrest]

/-- With the encoder's table the values found in the symbols' intervals are the symbols. -/
theorem State.codable.lookups (hc : s.codable t) (hcum : u.cumOfFreq) (hcounts : u.counts = t.counts)
    (hvs : List.Forall₂ (fun v (i : Nat × Nat × Nat) => i.1 ≤ v ∧ v < i.2.1) vs (symbolIntervals t s.n.toNat)) :
    vs.map u.lookup = t.elemsBelow .sym s.n.toNat ∧ vs.map (u.foundInterval s.n.toNat) = symbolIntervals t s.n.toNat := by
  have hsame {k : Nat} (hk : k ≤ 256) : u.elem .cum k = t.elem .cum k := hcum.ext hc.table hcounts hk
  have hsyms := t.elemsBelow_sym_lt s.n.toNat
  have hintervals : symbolIntervals t s.n.toNat = (t.elemsBelow .sym s.n.toNat).map (u.symbolInterval s.n.toNat) := by
    rw [symbolIntervals_eq]
    refine List.map_congr_left fun c hc => ?_
    have hlt : c < 256 := hsyms c hc
    rw [State.symbolInterval, State.symbolInterval, hsame hlt.le, hsame hlt]
  have hlookups : vs.map u.lookup = t.elemsBelow .sym s.n.toNat :=
    (hcum.cumConsistent ((hsame le_rfl).trans hc.last)).lookups hsyms (hintervals ▸ hvs)
  refine ⟨hlookups, ?_⟩
  rw [hintervals, ← hlookups, List.map_map]
  rfl

theorem textChars_decoderStart (s : State) (port : TextPort) (i len : Nat) :
    textChars port s.decoderStart.coder i len = textChars port s.coder i len := textChars_congr fun _ _ _ => rfl

/-- The stages of `DECOMP` on a text that starts with what the encoder wrote. -/
theorem State.codable.decompresses (hc : s.codable t) (hfit : s.n.toNat ≤ Config.nmaxBound)
    (hn : s.n.toNat ≤ s.cfgNmax.toNat) (hrun : encodeText s.cfgTmax.toNat t.codedIntervals t.coder = .ok e) (hg : u.good)
    (hnmax : u.cfgNmax = s.cfgNmax) (htmax : u.cfgTmax = s.cfgTmax) (hroom : u.coder.tlen.toNat ≤ u.cfgTmax.toNat)
    {extra : List (BitVec 6)}
    (hchars : textChars u.port u.coder 0 u.coder.tlen.toNat = textChars u.port e 0 e.tlen.toNat ++ extra) :
    ∃ v, issued decompStages u = .next v ∧ v.good ∧ v.n = s.n ∧ ∀ k < s.n.toNat, v.elem .data k = s.elem .data k := by
  have hbound : s.n.toNat ≤ 2147483646 := hfit
  have htn := hc.input.n
  obtain ⟨text, htext⟩ := hc.coder
  have hcount := t.codedIntervals_length_le
  rw [htn] at hcount
  rw [htext, ← htmax] at hrun
  obtain ⟨c, hencode, hfinish⟩ := (Run.bind_ok_iff ..).mp hrun
  have hrcdi := exec_rcdi_of_room hg hroom
  obtain ⟨-, vs, d, -, hdecode, -, hvs⟩ := decoderMirrorsTheEncoder u.decoderStart.port t.codedIntervals text c e
    u.decoderStart.coder extra (BitVec.isLt _) (by omega) hencode hfinish rfl rfl rfl rfl hroom
    ((textChars_decoderStart u u.port 0 _).trans hchars) _ le_rfl
  rw [List.take_length, State.codedIntervals, htn] at hdecode hvs
  obtain ⟨us, c1, hheader, hsymbols, hus⟩ := readsBack_then (headerIntervals_unit _ _ _) hdecode hvs
  -- the header
  obtain ⟨u2, hhdrd, hn2, hb2, hc2, hcounts2, hcum2, -, hdone2, -⟩ := exec_hdrd_of_readsBack (s := u.decoderStart) hg rfl
    (by rw [← hnmax] at hn; exact hn) (fun h0 => by rw [hc.index_zero h0]; rfl) t.counts_length hc.sum.le (by omega) hheader
  obtain ⟨-, -, hg2, -⟩ := hdone2 hc.sum
  rw [reg64_of_toNat] at hn2 hb2
  have hnmax2 : u2.cfgNmax = u.cfgNmax := exec_nmax (s := u.decoderStart) rfl hhdrd
  have hport2 : u2.port = u.decoderStart.port := by
    obtain ⟨hregs, -, -, hpower⟩ := commandsChangeOnlyTheirResultRegisters .hdrd _ u2 hhdrd
    have htmax2 : u2.cfgTmax = u.decoderStart.cfgTmax := hregs .cfgTmax rfl rfl
    rw [State.port, State.port, hpower, htmax2]
  -- the symbols
  obtain ⟨hlookups, hfound⟩ := hc.lookups hcum2 hcounts2 hus
  have hlen : us.length = u2.n.toNat := by rw [hus.length_eq, symbolIntervals_length, hn2]
  obtain ⟨u3, hsymd, ⟨-, -, hg3, -⟩, hsyms3⟩ := exec_symd_finds (s := u2) (vs := us) (e := d) hg2
    (exec_keeps_mode .hdrd u.decoderStart u2 rfl hhdrd) (by rwa [hn2, hnmax2, hnmax]) hlen
    (by rw [hn2, hfound, hport2, hc2]; exact hsymbols)
  rw [hlookups, hn2] at hsyms3
  -- back to the input
  have hmode3 : u3.status.rcmode = .decoding :=
    (exec_keeps_mode .symd u2 u3 rfl hsymd).trans (exec_keeps_mode .hdrd u.decoderStart u2 rfl hhdrd)
  have hrcfin := exec_rcfin_of_decoding_or_finished hg3 (.inl hmode3)
  obtain ⟨v, hrest, hgv, hnv, hdata⟩ := hc.restores (u3.startCommand.withMode .finished).complete hg3
    (((exec_nmax rfl hsymd).trans hnmax2).trans hnmax) ((exec_sameInput rfl rfl rfl hsymd).n.trans hn2)
    ((exec_bidx rfl hsymd).trans hb2) fun k hk =>
      (exec_elem rfl hrcfin k).trans (State.elemsBelow_eq_iff.mp hsyms3 k hk)
  exact ⟨v, issued_cons_of_next hrcdi (issued_cons_of_next hhdrd (issued_cons_of_next hsymd (issued_cons_of_next hrcfin hrest))),
    hgv, hnv, hdata⟩

end Sys2Proof.Machine

open Sys2Proof Sys2Proof.Machine

/-- Settles O56: `COMP` completed, so its intervals were all encoded, and its text is written and so the same in every machine. -/
theorem decompressRestoresWhatCompressRead : Obligations.DecompressRestoresWhatCompressRead := by
  intro s t u extra hg hparams hexec hgt hgu hnmax htmax hroom hchars
  have hnot {code : FaultCode} {info : Nat} : ¬ faultedFrom s t code info := fun ⟨_, _, hf, _⟩ =>
    absurd (hgt.symm.trans hf) Bool.false_ne_true
  have hn : s.n.toNat ≤ s.cfgNmax.toNat := by
    obtain ⟨t', hexec', -, -, hlong, -⟩ := compressOutcomes s hg hparams
    cases hexec.symm.trans hexec'
    by_contra hgt
    exact hnot (hlong (by omega))
  have hfit := hn.trans hparams.1
  obtain ⟨t1, hbwtf, hdone, htrans⟩ := exec_bwtf_transformsTo hg hparams hn
  obtain ⟨t0, hissued, hc⟩ := codable_of_bwtf hn hfit hbwtf hdone htrans
  obtain ⟨e, he, hfilled⟩ | ⟨-, info, c, -, hraise⟩ := hc.run hfit
  · obtain ⟨t', hexec', -, -, hcoder, -⟩ := exec_comp_of_ok hg hissued hc hn he
    cases hexec.symm.trans hexec'
    rw [hcoder, hfilled.textChars (q := u.port)] at hchars
    obtain ⟨v, hissued', hgv, hnv, hdata⟩ := hc.decompresses hfit hn he hgu hnmax htmax hroom hchars
    obtain ⟨hdecomp, hdone'⟩ := exec_completes_of_issued (.inr ⟨rfl, rfl⟩) hgu hissued' hgv
    exact ⟨_, hdecomp, hdone', hnv, hdata⟩
  · obtain ⟨t', hexec', hfault⟩ := exec_comp_of_raised hg hissued hc hn hraise
    cases hexec.symm.trans hexec'
    exact absurd hfault hnot
end

section
/-! PROOFS. The text of the empty input (R211): one interval leaves `RANGE = 2`, and the 256 empty counts push 0-bits only. -/

namespace Sys2Proof.Machine

variable {tmax den fuel m r j k : Nat} {text : Memory 8} {c d : Coder}

/-! ### Intervals at the window's low end -/

/-- The lowest sub-interval of a window at 0 (R157). -/
theorem narrow_lowest (hlow : c.low = 0) : narrow 0 1 den c = .ok { c with range := reg64 (c.range.toNat / den) } := by
  have hoff : scaled c.range.toNat 0 den = 0 := Nat.zero_div den
  have htop : scaled c.range.toNat 1 den = c.range.toNat / den := by rw [scaled, Nat.mul_one]
  have hzero : c.low.toNat + 0 = 0 := by rw [hlow]; rfl
  rw [narrow]
  dsimp only
  rw [hoff, htop, hzero, if_neg (by decide), Nat.sub_zero, show reg64 0 = c.low from hlow.symm]

theorem drain_of_short (hlen : c.qlen.toNat ≤ k) : drain tmax k c = .ok c := by
  rw [drain, Nat.sub_eq_zero_of_le hlen]
  rfl

theorem encNorm_of_high (h : 2 ^ 31 < c.range.toNat) : encNorm c = .ok c := by
  have h0 : c.range ≠ 0 := by
    rintro h0
    rw [h0] at h
    cases h
  rw [encNorm, if_neg h0, encNormTurns_of_high _ h]

/-- `encode` of the lowest value, once the window is normalised (R157). -/
theorem encode64_lowest (hint : legalInterval 0 1 den = true) (hlen : c.qlen.toNat ≤ 2) (hd : encNorm c = .ok d)
    (hlow : d.low = 0) (hdlen : d.qlen.toNat ≤ 2) :
    encode64 tmax 0 1 den c = .ok { d with range := reg64 (d.range.toNat / den) } := by
  rw [encode64_of_legal hint (by omega), hd, Run.ok_bind, narrow_lowest hlow, Run.ok_bind]
  exact drain_of_short hdlen

/-! ### A queue of 0-bits -/

/-- The coder with `j` 0-bits pending and the window `[0, r)`. -/
def Coder.zeros (text : Memory 8) (r j : Nat) : Coder :=
  { Coder.encoderStart text with range := reg64 r, qlen := 1, qcount := [(0, reg64 j)] }

theorem Coder.zeros_range (hr : r < 2 ^ 64) : (Coder.zeros text r j).range.toNat = r := reg64_toNat r hr

theorem Coder.zeros_qlen : (Coder.zeros text r j).qlen.toNat ≤ 2 := (by decide : (1 : Reg64).toNat ≤ 2)

theorem encNorm_zeros : encNorm (Coder.zeros text (2 ^ 32) j) = .ok (Coder.zeros text (2 ^ 32) j) :=
  encNorm_of_high (by rw [Coder.zeros_range (by decide)]; decide)

theorem Coder.zeros_count (hj : j < 2 ^ 64) : (Coder.zeros text r j).count 0 = j := reg64_toNat j hj

theorem Coder.zeros_setCount (hj : j + 1 < 2 ^ 64) : (Coder.zeros text r j).setCount 0 (j + 1) = Coder.zeros text r (j + 1) := by
  have hne : (0 : Reg64) ≠ reg64 (j + 1) := fun h => by
    have := congrArg BitVec.toNat h
    rw [reg64_toNat _ hj] at this
    exact absurd this.symm (Nat.succ_ne_zero j)
  have hstore : store .qcount 0 (reg64 (j + 1)) [(0, reg64 j)] = [(0, reg64 (j + 1))] := by
    show (if some (0 : Reg64) = some (reg64 (j + 1)) then [] else [(0, reg64 (j + 1))]) = _
    exact if_neg fun h => hne (Option.some.inj h)
  rw [Coder.setCount, Coder.zeros, hstore]
  rfl

theorem pushBit_zeros (hj : j + 1 < 2 ^ 64) : pushBit false (Coder.zeros text r j) = .ok (Coder.zeros text r (j + 1)) := by
  have hpush : pushBit false (Coder.zeros text r j) =
      .ok ((Coder.zeros text r j).setCount 0 ((Coder.zeros text r j).count 0 + 1)) := rfl
  rw [hpush, Coder.zeros_count (by omega), Coder.zeros_setCount hj]

/-- A turn of `enc_norm` (R154). -/
theorem encNormTurns_zeros_succ (hr : r ≤ 2 ^ 31) (hj : j + 1 < 2 ^ 64) :
    encNormTurns (fuel + 1) (Coder.zeros text r j) = encNormTurns fuel (Coder.zeros text (2 * r) (j + 1)) := by
  have hbit : (Coder.zeros text r j).low.getLsbD 31 = false := (by decide : (0 : Reg64).getLsbD 31 = false)
  rw [encNormTurns_of_low fuel (by rwa [Coder.zeros_range (by omega)]), hbit, pushBit_zeros hj, Run.ok_bind, Coder.doubled,
    Coder.zeros_range (by omega)]
  rfl

theorem encNormTurns_zeros (hr : r * 2 ^ m = 2 ^ 32) (hfuel : m ≤ fuel) (hj : j + m < 2 ^ 64) :
    encNormTurns fuel (Coder.zeros text r j) = .ok (Coder.zeros text (2 ^ 32) (j + m)) := by
  induction m generalizing fuel r j with
  | zero =>
    obtain rfl : r = 2 ^ 32 := by rwa [Nat.pow_zero, Nat.mul_one] at hr
    exact encNormTurns_of_high _ (by rw [Coder.zeros_range (by decide)]; decide)
  | succ m ih =>
    obtain ⟨fuel, rfl⟩ : ∃ f, fuel = f + 1 := ⟨fuel - 1, by omega⟩
    have hpow : 2 * r * 2 ^ m = 2 ^ 32 := by rw [← hr, Nat.pow_succ]; ring
    have hle : 2 * r ≤ 2 ^ 32 := hpow ▸ Nat.le_mul_of_pos_right _ (Nat.two_pow_pos m)
    rw [encNormTurns_zeros_succ (by omega) (by omega), ih hpow (by omega) (by omega), Nat.add_assoc, Nat.add_comm 1]

/-! ### The header of the empty input -/

theorem encode64_length : encode64 tmax 0 1 Config.lenDenom (Coder.encoderStart text) =
    .ok { Coder.encoderStart text with range := reg64 2 } := by
  have hrange : (Coder.encoderStart text).range.toNat = 2 ^ 32 := rfl
  have hrun := encode64_lowest (tmax := tmax) (den := Config.lenDenom) (c := Coder.encoderStart text) (by decide)
    (Nat.zero_le _) (encNorm_of_high (by rw [hrange]; decide)) rfl (Nat.zero_le _)
  rw [hrun, hrange]
  rfl

/-- The first 0-bit goes into slot 0 (R153). -/
theorem pushBit_first : pushBit false { Coder.encoderStart text with range := reg64 r } = .ok (Coder.zeros text r 1) := rfl

theorem encNorm_first : encNorm { Coder.encoderStart text with range := reg64 2 } = .ok (Coder.zeros text (2 ^ 32) 31) := by
  have h0 : ({ Coder.encoderStart text with range := reg64 2 } : Coder).range ≠ 0 := (by decide : reg64 2 ≠ 0)
  have hlow : ({ Coder.encoderStart text with range := reg64 2 } : Coder).range.toNat ≤ 2 ^ 31 :=
    (by decide : (reg64 2).toNat ≤ 2 ^ 31)
  have hbit : ({ Coder.encoderStart text with range := reg64 2 } : Coder).low.getLsbD 31 = false :=
    (by decide : (0 : Reg64).getLsbD 31 = false)
  have hdoubled : (Coder.zeros text 2 1).doubled (2 * (Coder.zeros text 2 1).low.toNat % 2 ^ 32) = Coder.zeros text 4 1 := rfl
  rw [encNorm, if_neg h0, Config.rcBits, encNormTurns_of_low 31 hlow, hbit, pushBit_first, Run.ok_bind, hdoubled]
  exact encNormTurns_zeros (m := 30) (by decide) (by omega) (by omega)

theorem encode64_firstCount :
    encode64 tmax 0 1 1 { Coder.encoderStart text with range := reg64 2 } = .ok (Coder.zeros text (2 ^ 32) 31) := by
  rw [encode64_lowest (by decide) (Nat.zero_le _) encNorm_first rfl Coder.zeros_qlen, Coder.zeros_range (by decide), Nat.div_one]
  rfl

/-- An empty count against what is left of the denominator changes nothing (R204). -/
theorem encode64_count : encode64 tmax 0 1 1 (Coder.zeros text (2 ^ 32) j) = .ok (Coder.zeros text (2 ^ 32) j) := by
  rw [encode64_lowest (by decide) Coder.zeros_qlen encNorm_zeros rfl Coder.zeros_qlen, Coder.zeros_range (by decide), Nat.div_one]
  rfl

theorem encodeAll_counts : encodeAll tmax (countIntervals 1 (List.replicate m 0)) (Coder.zeros text (2 ^ 32) j) =
    .ok (Coder.zeros text (2 ^ 32) j) := by
  induction m with
  | zero => rfl
  | succ m ih => rw [List.replicate_succ, countIntervals, encodeAll_cons, encode64_count, Run.ok_bind, Nat.sub_zero, ih]

theorem encodeAll_emptyHeader : encodeAll tmax (headerIntervals 0 0 (List.replicate 256 0)) (Coder.encoderStart text) =
    .ok (Coder.zeros text (2 ^ 32) 31) := by
  have hheader : headerIntervals 0 0 (List.replicate 256 0) =
      (0, 1, Config.lenDenom) :: (0, 1, 1) :: countIntervals 1 (List.replicate 255 0) := rfl
  rw [hheader, encodeAll_cons, encode64_length, Run.ok_bind, encodeAll_cons, encode64_firstCount, Run.ok_bind, encodeAll_counts]

/-! ### The characters (R166) -/

/-- `k` characters of value 0 stored from index 0 on. -/
def zeroText (text : Memory 8) : Nat → Memory 8
  | 0 => text
  | k + 1 => store .text k 0x30 (zeroText text k)

/-- The serialiser after `k` characters of value 0. -/
def Coder.zeroChars (c : Coder) (k : Nat) : Coder :=
  { c with text := zeroText c.text k, tlen := reg64 k, ochars := reg64 k, oacc := 0, ocnt := 0 }

/-- Six 0-bits from a character boundary are the character of value 0. -/
theorem outBits_six : outBits tmax false 6 { c with oacc := 0, ocnt := 0 } = putChar tmax { c with oacc := 0, ocnt := 6 } := by
  show (putChar tmax { c with oacc := 0, ocnt := 6 } >>= fun d => .ok d) = _
  exact Run.bind_ok _

theorem reg64_succ (k : Nat) : reg64 k + 1 = reg64 (k + 1) := (BitVec.ofNat_add ..).symm

theorem outBits_zeroChar (hk : k < tmax) (h80 : k + 1 < 80) :
    outBits tmax false 6 (c.zeroChars k) = .ok (c.zeroChars (k + 1)) := by
  have htlen : (reg64 k).toNat = k := reg64_toNat k (by omega)
  have hochars : (reg64 k + 1).toNat = k + 1 := by rw [reg64_succ, reg64_toNat _ (by omega)]
  have hnext : ({ c.zeroChars k with oacc := 0, ocnt := 6 } : Coder).withChar = c.zeroChars (k + 1) := by
    have hchar : ({ c.zeroChars k with oacc := 0, ocnt := 6 } : Coder).withChar =
        { c.zeroChars k with
          text := store .text (reg64 k).toNat 0x30 (zeroText c.text k)
          tlen := reg64 k + 1
          ochars := reg64 k + 1 } := rfl
    rw [hchar, htlen, reg64_succ]
    rfl
  have hwrap : ¬ ({ c.zeroChars k with oacc := 0, ocnt := 6 } : Coder).withChar.ochars.toNat % 80 = 0 := by
    show ¬ (reg64 k + 1).toNat % 80 = 0
    omega
  have hroom : ({ c.zeroChars k with oacc := 0, ocnt := 6 } : Coder).tlen.toNat < tmax := htlen.trans_lt hk
  refine (outBits_six (c := c.zeroChars k)).trans ?_
  rw [putChar_of_room hroom, if_neg hwrap, hnext]

theorem outBits_add (b : Bool) (k m : Nat) (c : Coder) :
    outBits tmax b (k + m) c = (outBits tmax b k c >>= outBits tmax b m) := by
  induction k generalizing c with
  | zero => rw [Nat.zero_add]; rfl
  | succ k ih =>
    rw [Nat.succ_add, outBits, outBits]
    cases outBit tmax b c with
    | error e => rfl
    | ok d => exact ih d

theorem outBits_zeroChars (hk : k ≤ tmax) (h80 : k < 80) : outBits tmax false (6 * k) (c.zeroChars 0) = .ok (c.zeroChars k) := by
  induction k with
  | zero => rfl
  | succ k ih => rw [Nat.mul_succ, outBits_add, ih (by omega) (by omega), Run.ok_bind, outBits_zeroChar hk (by omega)]

/-- The text of the empty input (R211), stored. -/
def emptyStored (text : Memory 8) : Memory 8 := store .text 5 0x37 (zeroText text 5)

/-- Half a character of 0-bits is padded to the character of value 7 (R165). -/
theorem pad_of_three (hroom : c.tlen.toNat < tmax) (hwrap : (c.ochars + 1).toNat % 80 ≠ 0) (hacc : c.oacc = 0)
    (hcnt : c.ocnt = 3) : pad tmax c = .ok ({ c with oacc := 7, ocnt := 6 } : Coder).withChar := by
  have hthree : pad tmax { c with oacc := 0, ocnt := 3 } =
      (putChar tmax { c with oacc := 7, ocnt := 6 } >>= padTurns tmax 2) := rfl
  have hself : ({ c with oacc := 0, ocnt := 3 } : Coder) = c := by rw [← hacc, ← hcnt]
  have hwrap' : ¬ ({ c with oacc := 7, ocnt := 6 } : Coder).withChar.ochars.toNat % 80 = 0 := hwrap
  rw [hself] at hthree
  rw [hthree, putChar_of_room (c := { c with oacc := 7, ocnt := 6 }) hroom, if_neg hwrap']
  rfl

/-- 33 pending 0-bits and three 1-bits of padding are the six characters (R211). -/
theorem flushed_zeros (h6 : 6 ≤ tmax) :
    ∃ e, (drain tmax 0 (Coder.zeros text r 33) >>= pad tmax) = .ok e ∧ e.tlen = 6 ∧ e.text = emptyStored text := by
  have hstart : (Coder.zeros text r 33).zeroChars 0 = Coder.zeros text r 33 := rfl
  have hbits : outBits tmax false 33 (Coder.zeros text r 33) =
      .ok { (Coder.zeros text r 33).zeroChars 5 with ocnt := 3 } := by
    have hfirst := outBits_zeroChars (tmax := tmax) (c := Coder.zeros text r 33) (k := 5) (by omega) (by omega)
    rw [hstart] at hfirst
    rw [outBits_add false (6 * 5) 3, hfirst]
    rfl
  have hdrain : drain tmax 0 (Coder.zeros text r 33) = (outBits tmax false 33 (Coder.zeros text r 33) >>= fun d =>
      .ok (({ d with qpos := 1, qlen := d.qlen - 1 } : Coder).setCount 0 0)) := by
    show (drainRun tmax (Coder.zeros text r 33) >>= fun d => .ok d) = _
    exact Run.bind_ok _
  rw [hdrain, hbits, Run.ok_bind, Run.ok_bind]
  refine ⟨_, pad_of_three (show (reg64 5).toNat < tmax from by rw [reg64_toNat] <;> omega)
    (by decide : (reg64 5 + 1).toNat % 80 ≠ 0) rfl rfl, rfl, rfl⟩

theorem finish64_zeros (h6 : 6 ≤ tmax) :
    ∃ e, finish64 tmax (Coder.zeros text (2 ^ 32) 31) = .ok e ∧ e.tlen = 6 ∧ e.text = emptyStored text := by
  obtain ⟨e, he, htlen, htext⟩ := flushed_zeros (text := text) (r := 2 ^ 32) h6
  refine ⟨e, ?_, htlen, htext⟩
  have hp : ((Coder.zeros text (2 ^ 32) 31).low.toNat + Config.norm / 4 - 1) / (Config.norm / 4) = 0 :=
    (by decide : ((0 : Reg64).toNat + Config.norm / 4 - 1) / (Config.norm / 4) = 0)
  rw [finish64, encNorm_zeros, Run.ok_bind, flush_eq, hp, if_neg (by decide), Nat.zero_testBit,
    Nat.zero_testBit, flushBits, pushBit_zeros (by omega), Run.ok_bind, pushBit_zeros (by omega), Run.ok_bind]
  exact he

/-- The empty input encoded (R211). -/
theorem encodeText_empty (h6 : 6 ≤ tmax) (text : Memory 8) :
    ∃ e, encodeText tmax (headerIntervals 0 0 (List.replicate 256 0)) (Coder.encoderStart text) = .ok e ∧ e.tlen = 6 ∧
      e.text = emptyStored text := by
  rw [encodeText, encodeAll_emptyHeader, Run.ok_bind]
  exact finish64_zeros h6

end Sys2Proof.Machine
end

section
/-! PROOFS. The empty input (R211): its text, what `HDRD` reads in it, and `DECOMP` of it. Settles O54. -/

namespace Sys2Proof.Machine

variable {k m : Nat} {text : Memory 8} {port : TextPort} {s t : State} {c e : Coder}

/-- The counts of the empty input. -/
def emptyCounts : List Nat := List.replicate 256 0

theorem emptyCounts_length : emptyCounts.length = 256 := List.length_replicate

theorem emptyCounts_sum : emptyCounts.sum = 0 := by rw [emptyCounts, List.sum_replicate, smul_zero]

/-! ### Its text -/

/-- The bytes of the text of the empty input. -/
def emptyByte (k : Nat) : Byte := if k < 5 then 0x30 else 0x37

theorem fetch_zeroText (powerUp : Nat) (hk : k < m) : fetch .text powerUp (zeroText text m) k = 0x30 := by
  induction m with
  | zero => exact absurd hk (Nat.not_lt_zero k)
  | succ m ih =>
    rw [zeroText]
    by_cases heq : k = m
    · rw [heq, fetch_store_text_same]
    · rw [fetch_store_other _ _ _ _ _ _ heq, ih (by omega)]

theorem fetch_emptyStored (powerUp : Nat) (hk : k < 6) : fetch .text powerUp (emptyStored text) k = emptyByte k := by
  rw [emptyStored, emptyByte]
  by_cases heq : k = 5
  · rw [heq, fetch_store_text_same, if_neg (Nat.lt_irrefl 5)]
  · rw [fetch_store_other _ _ _ _ _ _ heq, fetch_zeroText powerUp (by omega), if_pos (by omega)]

theorem State.elem_text (s : State) (k : Nat) : s.elem .text k = (fetch .text s.powerUp s.coder.text k).toNat :=
  reg64_bitVec_toNat (by decide) _

/-- A text that reads as that of the empty input. -/
theorem map_elem_text_iff : (List.range 6).map (s.elem .text) = emptyText ↔
    ∀ k < 6, fetch .text s.powerUp s.coder.text k = emptyByte k := by
  have hempty : emptyText = (List.range 6).map fun k => (emptyByte k).toNat := by decide
  rw [hempty, List.map_inj_left]
  simp only [List.mem_range, s.elem_text]
  exact forall₂_congr fun k _ => ⟨BitVec.eq_of_toNat_eq, congrArg BitVec.toNat⟩

/-! ### Compression -/

theorem exec_bwtf_of_zero (hg : s.good) (hzero : s.n.toNat = 0) :
    ∃ t, exec .bwtf s = .next t ∧ completedFrom s t ∧ s.transformsTo t := by
  have hsort := sortBody_of_zero (s := s.startCommand) hzero
  have hbody := bwtfBody_of_sort (s := s.startCommand) (by rw [State.startCommand_n, hzero]; exact Nat.zero_le _) hsort rfl
  have hslots : ({ s.startCommand with sortStep := 1 } : State).slots = [] := by
    show (List.range s.n.toNat).map _ = _
    rw [hzero]
    rfl
  rw [hslots] at hbody
  refine ⟨_, runCommand_of_ok bwtfBody s _ hg hbody, State.sameRecord.complete ⟨rfl, rfl, rfl, rfl⟩ hg,
    fun hpos => absurd hzero (by omega), fun _ => rfl, fun u hgu hnmax hnu hbu _ => ?_⟩
  obtain ⟨v, hv, hdone⟩ := exec_bwti_of_index hgu (by rw [hnu, hzero]; exact Nat.zero_le _)
    fun hpos => absurd hzero (by rw [hnu] at hpos; omega)
  exact ⟨v, hv, hdone, fun k hk => absurd hk (by omega)⟩

/-- The empty input has no counts and no symbols to code. -/
theorem State.codable.codedIntervals_of_zero (hc : s.codable t) (hzero : s.n.toNat = 0) :
    t.codedIntervals = headerIntervals 0 0 emptyCounts := by
  have hcounts : t.counts = emptyCounts := by
    refine List.eq_replicate_iff.mpr ⟨t.counts_length, fun x hx => ?_⟩
    have hle := List.le_sum_of_mem hx
    rw [hc.sum, hzero] at hle
    exact Nat.le_zero.mp hle
  have hbidx : t.bidx.toNat = 0 := by rw [hc.index_zero hzero]; rfl
  rw [State.codedIntervals, hc.input.n, hzero, hbidx, hcounts]
  exact List.append_nil _

/-! ### Decompression -/

/-- A decoder just constructed reads the empty header in that text. -/
theorem readsBack_empty (hlow : c.low = 0) (hrange : c.range = 1) (hicnt : c.icnt = 0) (htpos : c.tpos = 0) (htlen : c.tlen = 6)
    (h6 : 6 ≤ port.tmax) (htmax : port.tmax < 2 ^ 64) (htext : ∀ k < 6, fetch .text port.powerUp c.text k = emptyByte k) :
    ∃ e, c.readsBack port (headerIntervals 0 0 emptyCounts) e := by
  obtain ⟨e, hrun, hetlen, hetext⟩ := encodeText_empty h6 []
  obtain ⟨d, hencode, hfinish⟩ := (Run.bind_ok_iff ..).mp hrun
  have hchars : textChars port c 0 c.tlen.toNat = textChars port e 0 e.tlen.toNat ++ [] := by
    rw [htlen, hetlen, List.append_nil]
    refine textChars_congr fun k _ hk => ?_
    rw [htext k (by simpa using hk), hetext, fetch_emptyStored _ (by simpa using hk)]
  have hlength := headerIntervals_length_le 0 0 emptyCounts
  rw [emptyCounts_length] at hlength
  obtain ⟨-, vs, f, -, hdecode, -, hvs⟩ := decoderMirrorsTheEncoder port (headerIntervals 0 0 emptyCounts) [] d e c [] htmax
    (by omega) hencode hfinish hlow hrange hicnt htpos (by rw [htlen]; exact h6) hchars _ le_rfl
  rw [List.take_length] at hdecode hvs
  exact ⟨f, readsBack_of_decodeAll (headerIntervals_unit _ _ _) hdecode hvs⟩

theorem exec_hdrd_of_empty (hg : s.good) (hmode : s.status.rcmode = .decoding) (hlow : s.coder.low = 0)
    (hrange : s.coder.range = 1) (hicnt : s.coder.icnt = 0) (htpos : s.coder.tpos = 0) (htlen : s.coder.tlen = 6) (h6 : 6 ≤ s.cfgTmax.toNat)
    (htext : ∀ k < 6, fetch .text s.powerUp s.coder.text k = emptyByte k) :
    ∃ t, exec .hdrd s = .next t ∧ completedFrom s t ∧ t.n = 0 ∧ t.bidx = 0 ∧ t.counts = emptyCounts ∧ t.cumOfFreq ∧
      t.elem .cum 256 = 0 := by
  obtain ⟨e, he⟩ := readsBack_empty (port := s.port) hlow hrange hicnt htpos htlen h6 s.cfgTmax.isLt htext
  obtain ⟨t, hexec, hn, hb, -, hcounts, hcum, hlast, hdone, -⟩ := exec_hdrd_of_readsBack hg hmode (Nat.zero_le _) (fun _ => rfl)
    emptyCounts_length emptyCounts_sum.le (by omega) he
  exact ⟨t, hexec, hdone emptyCounts_sum, hn, hb, hcounts, hcum, hlast.trans emptyCounts_sum⟩

/-- The stages of `DECOMP` on that text. -/
theorem issued_decomp_of_empty (hg : s.good) (htlen : s.coder.tlen = 6) (h6 : 6 ≤ s.cfgTmax.toNat)
    (htext : ∀ k < 6, fetch .text s.powerUp s.coder.text k = emptyByte k) :
    ∃ v, issued decompStages s = .next v ∧ v.good ∧ v.n = 0 ∧ v.bidx = 0 := by
  have hrcdi := exec_rcdi_of_room hg (by rw [htlen]; exact h6)
  obtain ⟨t, hhdrd, ⟨-, -, hgt, -⟩, hn, hb, -⟩ := exec_hdrd_of_empty (s := s.decoderStart) hg rfl rfl rfl rfl rfl htlen h6 htext
  have hmode := exec_keeps_mode .hdrd s.decoderStart t rfl hhdrd
  have hzero : t.n.toNat = 0 := by rw [hn]; rfl
  obtain ⟨u, hsymd, ⟨-, -, hgu, -⟩, -⟩ := exec_symd_finds (s := t) (vs := []) (e := t.coder) hgt hmode (by omega) hzero.symm rfl
  have hin := exec_sameInput rfl rfl rfl hsymd
  have hzero' : u.n.toNat = 0 := by rw [hin.n, hzero]
  obtain ⟨v, hrest, hgv, hnv, hbv⟩ := issued_inverses hgu ((exec_keeps_mode .symd t u rfl hsymd).trans hmode) (by omega)
    fun hpos => absurd hzero' (by omega)
  exact ⟨v, issued_cons_of_next hrcdi (issued_cons_of_next hhdrd (issued_cons_of_next hsymd hrest)), hgv,
    (hnv.trans hin.n).trans hn, (hbv.trans (exec_bidx rfl hsymd)).trans hb⟩

end Sys2Proof.Machine

open Sys2Proof Sys2Proof.Machine

/-- Settles O54: the header of the empty input is 33 0-bits, padded with three 1-bits; its decoder reads them back. -/
theorem emptyInputHasTheSixByteText : Obligations.EmptyInputHasTheSixByteText := by
  refine ⟨fun s hg hn h6 => ?_, fun s hg hmode hlow hrange hicnt htpos htlen h6 htext => ?_, fun s hg htlen h6 htext => ?_⟩
  · have hzero : s.n.toNat = 0 := by rw [hn]; rfl
    obtain ⟨t1, hbwtf, hdone, htrans⟩ := exec_bwtf_of_zero hg hzero
    obtain ⟨t, hissued, hc⟩ := codable_of_bwtf (by omega) (by rw [hzero]; exact Nat.zero_le _) hbwtf hdone htrans
    obtain ⟨text, hcoder⟩ := hc.coder
    obtain ⟨e, he, htlen, htext⟩ := encodeText_empty h6 text
    have hrun : encodeText s.cfgTmax.toNat t.codedIntervals t.coder = .ok e := by
      rw [hc.codedIntervals_of_zero hzero, hcoder]
      exact he
    obtain ⟨u, hexec, hdone', hmode, hcoder', hbidx⟩ := exec_comp_of_ok hg hissued hc (by omega) hrun
    refine ⟨u, hexec, hdone', hmode, by rw [hcoder', htlen], map_elem_text_iff.mpr fun k hk => ?_,
      hbidx.trans (hc.index_zero hzero)⟩
    rw [hcoder', htext, fetch_emptyStored _ hk]
  · obtain ⟨t, hexec, hdone, hn, hb, hcounts, hcum, hlast⟩ :=
      exec_hdrd_of_empty hg hmode hlow hrange hicnt htpos htlen h6 (map_elem_text_iff.mp htext)
    obtain ⟨-, -, hmono⟩ := hcum.cumConsistent hlast
    refine ⟨t, hexec, hdone, hn, hb, fun c hc => ?_, fun c hc => Nat.le_zero.mp ((elem_cum_mono hmono hc le_rfl).trans hlast.le)⟩
    rw [← State.elemsBelow_getD t .freq hc, ← State.counts, hcounts]
    exact Nat.le_zero.mp ((getD_le_sum _ c).trans emptyCounts_sum.le)
  · obtain ⟨v, hissued, hgv, hn, hb⟩ := issued_decomp_of_empty hg htlen h6 (map_elem_text_iff.mp htext)
    obtain ⟨hexec, hdone⟩ := exec_completes_of_issued (.inr ⟨rfl, rfl⟩) hg hissued hgv
    refine ⟨_, hexec, hdone, hn, hb, fun k =>
      commandsKeepElementsBeyondTheirRange .decomp s _ .data k hexec (by decide) (by decide) (by decide) ?_⟩
    show v.n.toNat ≤ k
    rw [hn]
    exact Nat.zero_le k
end

section
/-! PROOFS. `NOP` (R230): its word, and what it leaves. Settles O7. -/

open Sys2Proof Sys2Proof.Machine

/-- Settles O7: the encoding of `NOP` is the zero word, and its pseudocode assigns nothing. -/
theorem nopOnlyCompletes : Obligations.NopOnlyCompletes := by
  refine ⟨fun w => (decode_eq_ok_iff w .nop).trans (eq_encode_iff w .nop).symm, fun s => ⟨fun hg => ?_, fun hf => ?_⟩⟩
  · have hexec : exec .nop s = .next s.startCommand.complete := runCommand_of_ok .ok s _ hg rfl
    have hfaulted : s.status.faulted = false := hg
    simp only [hexec, State.complete, State.startCommand, hfaulted]
  · exact runCommand_of_faulted .ok s hf
end

section
/-! PROOFS. Runs that answer (R232, R252): each reaches its last line or a fault of R250. The commands outside the range coder
answer from every state. -/

namespace Sys2Proof.Machine

variable {σ α β : Type}

/-- A run answers: it reaches its last line, with `P` of what it yields, or raises a fault; it neither loops for ever nor asks for
something that has no result (R232). -/
def Run.answers (P : α → Prop) : Run σ α → Prop
  | .ok a => P a
  | .error (.raised _ _ _) => True
  | .error (.stuck _) => False
  | .error (.refused _) => False

section Ends

variable {P Q : α → Prop} {x : Run σ α}

theorem Run.answers_mono (hx : x.answers P) (hPQ : ∀ a, P a → Q a) : x.answers Q := by
  rcases x with e | a
  · cases e <;> exact hx
  · exact hPQ a hx

theorem Run.answers_bind {f : α → Run σ β} {R : β → Prop} (hx : x.answers P) (hf : ∀ a, P a → (f a).answers R) :
    (x >>= f).answers R := by
  rcases x with e | a
  · cases e <;> exact hx
  · exact hf a hx

/-- A run that answers, together with a frame that holds wherever it ends. -/
theorem Run.answers_and_leaves {P R : σ → Prop} {x : Run σ σ} (hx : x.answers P) (hR : Run.leaves id R x) :
    x.answers fun a => P a ∧ R a := by
  rcases x with e | a
  · cases e <;> exact hx
  · exact ⟨hx, hR⟩

theorem Run.answers_of_unlessFull {full : Prop} (hx : x.unlessFull full P) : x.answers P := by
  rcases x with e | a
  · cases e with
    | raised => exact trivial
    | stuck => exact hx
    | refused => exact hx
  · exact hx

theorem Run.answers_cases (hx : x.answers P) : (∃ a, x = .ok a) ∨ ∃ code info s, x = .error (.raised code info s) := by
  rcases x with e | a
  · cases e with
    | raised code info s => exact .inr ⟨code, info, s, rfl⟩
    | stuck => exact hx.elim
    | refused => exact hx.elim
  · exact .inl ⟨a, rfl⟩

end Ends

theorem checkLength_answers (s : State) (n : Nat) : (checkLength s n).answers fun _ => True := by
  unfold checkLength
  split <;> exact trivial

theorem checkMode_answers (s : State) (m : RcMode) : (checkMode s m).answers fun _ => s.status.rcmode = m := by
  unfold checkMode
  split
  · assumption
  · exact trivial

/-- A stretch of coder pseudocode inside the machine answers where it answers on the coder. -/
theorem onCoder_answers {P : State → Prop} {s : State} {x : Run Coder Coder} (hx : x.answers fun c => P (s.withCoder c)) :
    (onCoder s x).answers P := by
  rcases x with e | c
  · cases e <;> exact hx
  · exact hx

theorem onCoderValue_answers {P : α × State → Prop} {s : State} {x : Run Coder (α × Coder)}
    (hx : x.answers fun r => P (r.1, s.withCoder r.2)) : (onCoderValue s x).answers P := by
  rcases x with e | ⟨a, c⟩
  · cases e <;> exact hx
  · exact hx

/-- A command answers a next state where its pseudocode answers (R82, R252). -/
theorem exec_answers {i : Instr} {s : State} {P : State → Prop} (hi : i ≠ .reset)
    (h : (commandBody i s.startCommand).answers P) : ∃ t, exec i s = .next t := by
  rw [exec_of_ne_reset i s hi]
  refine runCommand_answers _ s ?_
  rintro _ rfl
  exact Run.answers_cases h

/-! ### The commands outside the range coder -/

theorem sortBody_answers (s : State) : (sortBody s).answers fun _ => True := by
  refine Run.answers_bind (checkLength_answers s _) fun _ _ => ?_
  dsimp only
  split <;> exact trivial

theorem bwtfBody_answers (s : State) : (bwtfBody s).answers fun _ => True :=
  Run.answers_bind (checkLength_answers s _) fun _ _ => Run.answers_bind (sortBody_answers s) fun _ _ => trivial

theorem bwtiBody_answers (s : State) : (bwtiBody s).answers fun _ => True := by
  refine Run.answers_bind (checkLength_answers s _) fun _ _ => ?_
  dsimp only
  split
  · exact trivial
  · split <;> exact trivial

theorem mtfeBody_answers (s : State) : (mtfeBody s).answers fun _ => True :=
  Run.answers_bind (checkLength_answers s _) fun _ _ => trivial

theorem mtfdBody_answers (s : State) : (mtfdBody s).answers fun _ => True :=
  Run.answers_bind (checkLength_answers s _) fun _ _ => trivial

theorem freqBody_answers (s : State) : (freqBody s).answers fun _ => True :=
  Run.answers_bind (checkLength_answers s _) fun _ _ => trivial

theorem rcdiBody_answers (s : State) : (rcdiBody s).answers fun _ => True := by
  unfold rcdiBody
  split <;> exact trivial

end Sys2Proof.Machine
end

section
/-! PROOFS. The encoder answers (R154, R157, R165, R202, R205): while its window is not empty and the serialiser holds fewer than
six bits every loop ends, whatever the queue holds. -/

namespace Sys2Proof.Machine

variable {tmax lo hi den : Nat} {s : State} {c : Coder}

/-- What the loops of the encoder need to end: a window that doubling can bring above `HALF`, and an unfinished character that
padding can fill (R26, R27). -/
structure Coder.encodable (c : Coder) : Prop where
  pos : 1 ≤ c.range.toNat
  range : c.range.toNat ≤ 2 ^ 32
  serial : c.serialOk

theorem Coder.encodable.congr {d : Coder} (h : c.encodable) (hrange : d.range = c.range) (hserial : d.serialOk) :
    d.encodable := ⟨hrange ▸ h.pos, hrange ▸ h.range, hserial⟩

/-! ### Normalising and narrowing (R154, R157) -/

theorem pushBit_answers (b : Bool) (c : Coder) : (pushBit b c).answers c.queueOnly := by
  refine Run.answers_mono (Run.answers_and_leaves (P := fun _ => True) ?_ (pushBit_queueOnly b c)) fun _ h => h.2
  unfold pushBit
  split
  · exact trivial
  · split
    · exact trivial
    · split <;> exact trivial

theorem carry_answers (c : Coder) : (carry c).answers c.queueOnly := by
  refine Run.answers_mono (Run.answers_and_leaves (P := fun _ => True) ?_ (carry_queueOnly c)) fun _ h => h.2
  rw [carry_eq]
  split
  · split <;> exact trivial
  · exact trivial

theorem encNormTurns_answers (fuel : Nat) (hrange : c.range.toNat ≤ 2 ^ 32) (hreach : 2 ^ 31 < 2 ^ fuel * c.range.toNat) :
    (encNormTurns fuel c).answers fun d => 2 ^ 31 < d.range.toNat ∧ d.range.toNat ≤ 2 ^ 32 := by
  induction fuel generalizing c with
  | zero => exact ⟨by omega, hrange⟩
  | succ fuel ih =>
    by_cases hhigh : 2 ^ 31 < c.range.toNat
    · rw [encNormTurns_of_high _ hhigh]
      exact ⟨hhigh, hrange⟩
    · rw [encNormTurns_of_low fuel (by omega)]
      refine Run.answers_bind (pushBit_answers _ c) fun d hd => ?_
      have hwidth : (d.doubled (2 * d.low.toNat % 2 ^ 32)).range.toNat = 2 * c.range.toNat := by
        rw [← hd.2.1]
        exact reg64_toNat _ (by rw [hd.2.1]; omega)
      refine ih (by omega) ?_
      rwa [hwidth, ← Nat.mul_assoc, ← Nat.pow_succ]

/-- `enc_norm` of a window that is not empty ends, above `HALF` (R154). -/
theorem Coder.encodable.encNorm_answers (h : c.encodable) :
    (encNorm c).answers fun d => d.encodable ∧ 2 ^ 31 < d.range.toNat := by
  have hpos := h.pos
  have h0 : c.range ≠ 0 := by
    rintro h0
    rw [h0] at hpos
    cases hpos
  have hturns : (encNorm c).answers fun d => 2 ^ 31 < d.range.toNat ∧ d.range.toNat ≤ 2 ^ 32 := by
    rw [encNorm, if_neg h0]
    exact encNormTurns_answers 32 h.range (by omega)
  refine Run.answers_mono (Run.answers_and_leaves hturns (encNorm_windowOnly c)) ?_
  rintro d ⟨⟨hhigh, hrange⟩, hsame⟩
  exact ⟨⟨by omega, hrange, Coder.serialOk_of_windowOnly h.serial hsame⟩, hhigh⟩

/-- Narrowing a normalised window to a legal interval leaves some of it (R157, R161). -/
theorem Coder.encodable.narrow_answers (h : c.encodable) (hhigh : 2 ^ 31 < c.range.toNat)
    (hint : legalInterval lo hi den = true) : (narrow lo hi den c).answers Coder.encodable := by
  obtain ⟨-, hrange, hserial⟩ := h
  obtain ⟨hlo, hhi, hden⟩ := (legalInterval_iff ..).mp hint
  obtain ⟨hlt, hle⟩ := scaled_lt_scaled c.range.toNat lo hi den hlo hhi (by omega)
  rw [narrow_eq]
  generalize scaled c.range.toNat lo den = off at *
  generalize scaled c.range.toNat hi den = top at *
  have hwindow (low : Nat) : (c.withWindow low (top - off)).encodable := by
    have hwidth : (c.withWindow low (top - off)).range.toNat = top - off := reg64_toNat _ (by omega)
    exact ⟨by omega, by omega, hserial⟩
  split
  · refine Run.answers_mono (carry_answers _) fun d hd => ?_
    have hlow := hwindow (c.low.toNat + off - Config.norm)
    exact hlow.congr hd.2.1 (hlow.serial.queueOnly hd)
  · exact hwindow (c.low.toNat + off)

/-! ### Draining and padding (R164, R165) -/

theorem Coder.encodable.drainRuns_answers (htmax : tmax < 2 ^ 64) (k : Nat) (h : c.encodable) :
    (drainRuns tmax k c).answers Coder.encodable := by
  induction k generalizing c with
  | zero => exact h
  | succ k ih =>
    have hrun : (drainRun tmax c).answers Coder.serialOk :=
      Run.answers_bind (Run.answers_of_unlessFull (outBits_emits { tmax := tmax, powerUp := 0 } htmax _ _ h.serial))
        fun d hd => hd.serialOk
    refine Run.answers_bind (Run.answers_and_leaves hrun (drainRun_outputOnly tmax c)) ?_
    rintro d ⟨hserial, -, hrange, -⟩
    exact ih (h.congr hrange hserial)

/-! ### `encode` and `finish` -/

/-- `encode` answers, and what follows it may encode again (R157). -/
theorem Coder.encodable.encode64_answers (htmax : tmax < 2 ^ 64) (lo hi den : Nat) (h : c.encodable) :
    (encode64 tmax lo hi den c).answers Coder.encodable := by
  unfold encode64
  split
  · rename_i hint
    split
    · exact trivial
    · refine Run.answers_bind h.encNorm_answers fun d hd => ?_
      exact Run.answers_bind (hd.1.narrow_answers hd.2 hint) fun e he => he.drainRuns_answers htmax _
  · exact trivial

theorem Coder.encodable.pushBit_answers (h : c.encodable) (b : Bool) : (pushBit b c).answers Coder.encodable :=
  Run.answers_mono (Machine.pushBit_answers b c) fun _ hd => h.congr hd.2.1 (h.serial.queueOnly hd)

theorem Coder.encodable.flushBits_answers (htmax : tmax < 2 ^ 64) (b1 b0 : Bool) (h : c.encodable) :
    (flushBits tmax b1 b0 c).answers fun _ => True := by
  refine Run.answers_bind (h.pushBit_answers b1) fun d hd => Run.answers_bind (hd.pushBit_answers b0) fun e he => ?_
  refine Run.answers_bind (he.drainRuns_answers htmax _) fun f hf => ?_
  exact Run.answers_mono (Run.answers_of_unlessFull (pad_emits { tmax := tmax, powerUp := 0 } htmax hf.serial)) fun _ _ => trivial

/-- `finish` answers (R165). -/
theorem Coder.encodable.finish64_answers (htmax : tmax < 2 ^ 64) (h : c.encodable) :
    (finish64 tmax c).answers fun _ => True := by
  refine Run.answers_bind h.encNorm_answers fun d hd => ?_
  rw [flush_eq]
  split
  · refine Run.answers_bind (carry_answers d) fun e he => ?_
    exact (hd.1.congr he.2.1 (hd.1.serial.queueOnly he)).flushBits_answers htmax _ _
  · exact hd.1.flushBits_answers htmax _ _

/-! ### The commands of Encoding mode -/

/-- In Encoding mode the loops of the encoder end. -/
def State.encodable (s : State) : Prop := s.status.rcmode = .encoding → s.coder.encodable

theorem State.encodable.encodeInterval_answers (h : s.encodable) (lo hi den : Nat) :
    (encodeInterval s lo hi den).answers State.encodable := by
  refine Run.answers_bind (checkMode_answers s _) fun _ hmode => onCoder_answers ?_
  exact Run.answers_mono ((h hmode).encode64_answers s.cfgTmax.isLt lo hi den) fun _ hc _ => hc

theorem State.encodable.encodeCounts_answers (fs : List Nat) (remaining : Nat) (h : s.encodable) :
    (encodeCounts s remaining fs).answers State.encodable := by
  induction fs generalizing s remaining with
  | nil => exact h
  | cons f rest ih => exact Run.answers_bind (h.encodeInterval_answers ..) fun t ht => ih _ ht

theorem State.encodable.encodeSymbols_answers (n : Nat) (syms : List Nat) (h : s.encodable) :
    (encodeSymbols n s syms).answers State.encodable := by
  induction syms generalizing s with
  | nil => exact h
  | cons c rest ih => exact Run.answers_bind (h.encodeInterval_answers ..) fun t ht => ih ht

theorem State.encodable.hdreBody_answers (h : s.encodable) : (hdreBody s).answers State.encodable := by
  refine Run.answers_bind (checkMode_answers s _) fun _ _ => Run.answers_bind (checkLength_answers s _) fun _ _ => ?_
  refine Run.answers_bind (h.encodeInterval_answers ..) fun t ht => ?_
  dsimp only
  split
  · exact Run.answers_bind (P := State.encodable) ht fun u hu => hu.encodeCounts_answers ..
  · exact Run.answers_bind (ht.encodeInterval_answers ..) fun u hu => hu.encodeCounts_answers ..

theorem State.encodable.symeBody_answers (h : s.encodable) : (symeBody s).answers State.encodable :=
  Run.answers_bind (checkMode_answers s _) fun _ _ => Run.answers_bind (checkLength_answers s _) fun _ _ =>
    h.encodeSymbols_answers ..

theorem State.encodable.rcfinBody_answers (h : s.encodable) : (rcfinBody s).answers fun _ => True := by
  unfold rcfinBody
  split
  · exact trivial
  · exact trivial
  · exact trivial
  · rename_i hmode
    exact Run.answers_bind (onCoder_answers (P := fun _ => True) ((h hmode).finish64_answers s.cfgTmax.isLt)) fun _ _ => trivial

end Sys2Proof.Machine
end

section
/-! PROOFS. The decoder answers (R170 to R172, R206, R207), and with it every command. Settles O60. -/

namespace Sys2Proof.Machine

variable {port : TextPort} {s : State} {c : Coder}

/-! ### `decode` and `scale` -/

theorem Coder.live.decode64_answers (h : c.live port) (den : Nat) :
    (decode64 port den c).answers fun r => r.2.live port := by
  cases hden : legalDenom den with
  | false =>
    rw [decode64_of_illegal hden]
    exact trivial
  | true =>
    obtain ⟨v, d, hd, -⟩ := h.decodes hden
    rw [hd]
    exact h.of_follows (decode64_follows hd)

theorem Coder.live.scale64_answers (h : c.live port) (lo hi den : Nat) :
    (scale64 port lo hi den c).answers fun d => d.live port := by
  cases hint : legalInterval lo hi den with
  | false =>
    rw [scale64_of_illegal hint]
    exact trivial
  | true =>
    obtain ⟨d, -, hd, -⟩ := decNorm_shiftsIn h.decoder.range h.ready
    have hscale := scale64_of_legal hint hd
    by_cases hin : d.inSubWindow lo hi den
    · rw [decScale_of_inside hin] at hscale
      rw [hscale]
      exact h.of_follows (scale64_follows hscale)
    · rw [hscale, decScale_of_outside hin]
      exact trivial

/-! ### The commands of Decoding mode -/

/-- In Decoding mode the decoder is live. -/
def State.decodable (s : State) : Prop := s.status.rcmode = .decoding → s.coder.live s.port

theorem State.decodable.decodeValueOf_answers (h : s.decodable) (den : Nat) :
    (decodeValueOf s den).answers fun r => r.2.decodable := by
  refine Run.answers_bind (checkMode_answers s _) fun _ hmode => onCoderValue_answers ?_
  exact Run.answers_mono ((h hmode).decode64_answers den) fun _ hr _ => hr

theorem State.decodable.scaleInterval_answers (h : s.decodable) (lo hi den : Nat) :
    (scaleInterval s lo hi den).answers State.decodable := by
  refine Run.answers_bind (checkMode_answers s _) fun _ hmode => onCoder_answers ?_
  exact Run.answers_mono ((h hmode).scale64_answers lo hi den) fun _ hc _ => hc

theorem State.decodable.rcdecBody_answers (h : s.decodable) : (rcdecBody s).answers fun _ => True :=
  Run.answers_bind (h.decodeValueOf_answers _) fun _ _ => trivial

theorem State.decodable.decodeSymbols_answers (n todo i : Nat) (h : s.decodable) :
    (decodeSymbols n s todo i).answers State.decodable := by
  induction todo generalizing s i with
  | zero => exact h
  | succ todo ih =>
    refine Run.answers_bind (h.decodeValueOf_answers n) fun r hr => ?_
    exact Run.answers_bind (hr.scaleInterval_answers ..) fun t ht => ih (s := t.setSym i _) (i + 1) ht

theorem State.decodable.symdBody_answers (h : s.decodable) : (symdBody s).answers State.decodable :=
  Run.answers_bind (checkMode_answers s _) fun _ _ => Run.answers_bind (checkLength_answers s _) fun _ _ =>
    h.decodeSymbols_answers ..

/-! ### A legal state -/

theorem State.encodable_of_legal (h : s.coder.legal s.status.rcmode) : s.encodable := by
  intro hmode
  obtain ⟨henc, -, -, -, -, -, hocnt, hoacc, -⟩ := h
  obtain ⟨-, hpos, hrange, -⟩ := henc hmode
  exact ⟨hpos, hrange, hocnt, hoacc⟩

theorem State.decodable_of_legal (h : s.coder.legal s.status.rcmode) (hcursors : s.status.rcmode = .decoding → s.cursorsLegal) :
    s.decodable := fun hmode => State.coder_live (hmode ▸ h) (hcursors hmode)

/-- `HDRD` answers: outside Decoding mode by its entry check, inside it as R206 says. -/
theorem exec_hdrd_answers (hg : s.good) (hparams : s.paramsLegal) (hlegal : s.coder.legal s.status.rcmode)
    (hcursors : s.status.rcmode = .decoding → s.cursorsLegal) : ∃ t, exec .hdrd s = .next t := by
  by_cases hmode : s.status.rcmode = .decoding
  · obtain ⟨t, -, -, h, -⟩ := headerDecodingOutcomes s hg hparams hmode (hmode ▸ hlegal) (hcursors hmode)
    exact ⟨t, h⟩
  · exact ⟨_, exec_of_raise_at_entry nofun hg (decoder_body_of_wrong_mode (s := s.startCommand) (by simp) hmode)⟩

end Sys2Proof.Machine

open Sys2Proof Sys2Proof.Machine

/-- Settles O60: under a recorded fault a command is ignored; from a legal state every loop of its pseudocode ends and the parser
stays below `TMAX`. -/
theorem everyCommandAnswers : Obligations.EveryCommandAnswers := by
  rintro i s ⟨hparams, -, -, -, -, hgood⟩ hcursors
  by_cases hi : i = .reset
  · subst hi
    exact ⟨_, rfl⟩
  by_cases hf : s.status.faulted = true
  · exact ⟨s, (exec_of_ne_reset i s hi).trans (runCommand_of_faulted _ s hf)⟩
  have hg : s.good := Bool.eq_false_iff.mpr hf
  obtain ⟨hlegal, -, -⟩ := hgood hg
  have henc : s.startCommand.encodable := State.encodable_of_legal (s := s.startCommand) hlegal
  have hdec : s.startCommand.decodable := State.decodable_of_legal (s := s.startCommand) hlegal hcursors
  cases i with
  | reset => exact absurd rfl hi
  | nop => exact exec_answers (P := fun _ => True) hi trivial
  | sort => exact exec_answers hi (sortBody_answers _)
  | bwtf => exact exec_answers hi (bwtfBody_answers _)
  | bwti => exact exec_answers hi (bwtiBody_answers _)
  | mtfe => exact exec_answers hi (mtfeBody_answers _)
  | mtfd => exact exec_answers hi (mtfdBody_answers _)
  | rcei => exact exec_answers (P := fun _ => True) hi trivial
  | rcdi => exact exec_answers hi (rcdiBody_answers _)
  | rcenc => exact exec_answers hi (henc.encodeInterval_answers ..)
  | rcdec => exact exec_answers hi hdec.rcdecBody_answers
  | rcscl => exact exec_answers hi (hdec.scaleInterval_answers ..)
  | rcfin => exact exec_answers hi henc.rcfinBody_answers
  | freq => exact exec_answers hi (freqBody_answers _)
  | hdre => exact exec_answers hi henc.hdreBody_answers
  | syme => exact exec_answers hi henc.symeBody_answers
  | hdrd => exact exec_hdrd_answers hg hparams hlegal hcursors
  | symd => exact exec_answers hi hdec.symdBody_answers
  | comp =>
    obtain ⟨t, h, -⟩ := compressOutcomes s hg hparams
    exact ⟨t, h⟩
  | decomp =>
    obtain ⟨t, h, -⟩ := decompressOutcomes s hg hparams
    exact ⟨t, h⟩
end

section
/-! PROOFS. A recorded fault stays until `RESET` (R82, R256): every other word is ignored, and no other action of the host touches
the fault record. Settles O5. -/

namespace Sys2Proof.Machine

variable {s t : State}

/-! ### Other actions of the host -/

theorem writeReg_sameRecord (s : State) (v : Reg64) (r : Reg) : s.sameRecord (writeReg s v r) := by
  cases r <;> exact ⟨rfl, rfl, rfl, rfl⟩

theorem writeElems_sameRecord (s : State) (sp : Space) (i : Nat) (vs : List Nat) : s.sameRecord (writeElems s sp i vs) := by
  cases sp <;> exact ⟨rfl, rfl, rfl, rfl⟩

theorem answer_sameRecord (s : State) (vs : List Reg64) : s.sameRecord (s.answer vs) := ⟨rfl, rfl, rfl, rfl⟩

/-- Only a write to `CMD` can touch the fault record and the command count. -/
theorem performAction_sameRecord {a : HostAction} (hcmd : ∀ v, a ≠ .wr 0x00 v) (h : performAction a s = .next t) :
    s.sameRecord t := by
  cases a with
  | wr reg v =>
    cases hreg : regOfNumber reg with
    | none => simp [performAction, hreg] at h
    | some r =>
      have hr : r ≠ .cmd := fun he => hcmd v (by rw [(regOfNumber_eq_cmd_iff reg).mp (he ▸ hreg)])
      simp only [performAction, hreg, if_neg hr] at h
      split at h
      · cases h
        exact writeReg_sameRecord s v r
      · cases h
  | rd reg =>
    simp only [performAction] at h
    split at h
    · cases h
    · cases h
      exact answer_sameRecord s _
  | wrb space i vs =>
    simp only [performAction] at h
    split at h
    · cases h
    · split_ifs at h
      cases h
      exact writeElems_sameRecord s _ i _
  | rdb space i count =>
    simp only [performAction] at h
    split at h
    · cases h
    · split_ifs at h
      cases h
      exact answer_sameRecord s _

/-! ### Command words under a fault -/

theorem toNat_of_decode_reset {v : Reg64} (h : decode (BitVec.ofNat 32 v.toNat) = .ok .reset) : v.toNat % 2 ^ 32 = 1 := by
  have hword := (eq_encode_iff _ .reset).mpr ((decode_eq_ok_iff _ .reset).mp h)
  rw [← BitVec.toNat_ofNat, hword, encode_toNat]
  rfl

/-- R82 step 2: under a fault every word but that of `RESET` is ignored. -/
theorem acceptCommand_of_faulted {v : Reg64} (hf : s.status.faulted = true) (hv : v.toNat % 2 ^ 32 ≠ 1) :
    acceptCommand v s = .next { s with cmd := reg64 (v.toNat % 2 ^ 32) } := by
  cases hdecode : decode (BitVec.ofNat 32 v.toNat) with
  | error e => rw [acceptCommand_of_decode_error s hdecode, if_pos hf]
  | ok i =>
    have hi : i ≠ .reset := fun he => hv (toNat_of_decode_reset (he ▸ hdecode))
    rw [acceptCommand_of_decode_ok s hdecode, exec_of_ne_reset i _ hi]
    exact runCommand_of_faulted _ _ hf

/-! ### One step -/

/-- A step that answers is idle or performs the host's next action. -/
theorem step_next_cases (h : step s = .next t) :
    t = s ∨ ∃ a rest, s.queue = a :: rest ∧ performAction a { s with queue := rest } = .next t := by
  unfold step at h
  split at h
  · cases h
    exact .inl rfl
  · rename_i a rest hqueue
    unfold hostStep at h
    split at h
    · cases h
    · exact .inr ⟨a, rest, hqueue, h⟩

/-- Under a fault a step leaves the fault record and the command count as they were, or the host has written `RESET`. -/
theorem step_sameRecord_or_reset (hf : s.status.faulted = true) (h : step s = .next t) :
    s.sameRecord t ∨ ∃ v rest, s.queue = .wr 0x00 v :: rest ∧ v.toNat % 2 ^ 32 = 1 := by
  rcases step_next_cases h with rfl | ⟨a, rest, hqueue, haction⟩
  · exact .inl ⟨rfl, rfl, rfl, rfl⟩
  by_cases hcmd : ∃ v, a = .wr 0x00 v
  · obtain ⟨v, rfl⟩ := hcmd
    by_cases hv : v.toNat % 2 ^ 32 = 1
    · exact .inr ⟨v, rest, hqueue, hv⟩
    · have haccept : acceptCommand v { s with queue := rest } = .next t := haction
      cases (acceptCommand_of_faulted (s := { s with queue := rest }) hf hv).symm.trans haccept
      exact .inl ⟨rfl, rfl, rfl, rfl⟩
  · exact .inl (performAction_sameRecord (s := { s with queue := rest }) (not_exists.mp hcmd) haction)

end Sys2Proof.Machine

open Sys2Proof Sys2Proof.Machine

/-- Settles O5: only a write to `CMD` could touch the fault record, and R82 step 2 ignores every word but that of `RESET`. -/
theorem faultIsStickyUntilReset : Obligations.FaultIsStickyUntilReset := by
  refine ⟨fun s t hf h => ?_, fun s v rest hbusy hf hqueue hv => ?_⟩
  · refine (step_sameRecord_or_reset hf h).imp_left fun ⟨hfaulted, hfault, hfinfo, hcount⟩ => ?_
    exact ⟨hfaulted.trans hf, hfault, hfinfo, hcount⟩
  · rw [step_command_write hbusy hqueue]
    exact acceptCommand_of_faulted (s := { s with queue := rest }) hf hv
end

section
/-! PROOFS. The length and index checks at a command's entry (R250, R251). Settles O18. -/

namespace Sys2Proof.Machine

variable {s : State} {i : Instr} {n : Nat}

/-- A run that checks a length first goes no further when the length is above `NMAX` (R250). -/
theorem checkLength_bind_of_long {α : Type} (h : s.cfgNmax.toNat < n) (f : Unit → Run State α) :
    (checkLength s n >>= f) = raise .badLength n s := by
  rw [(checkLength_error_iff s n _).mpr ⟨h, rfl⟩]
  rfl

theorem checkMode_bind_of_eq {m : RcMode} {α : Type} (h : s.status.rcmode = m) (f : Unit → Run State α) :
    (checkMode s m >>= f) = f () := by
  rw [checkMode_of_eq h, Run.ok_bind]

theorem bwtfBody_of_long (h : s.cfgNmax.toNat < s.n.toNat) : bwtfBody s = raise .badLength s.n.toNat s :=
  checkLength_bind_of_long h _

theorem compBody_of_long (h : s.cfgNmax.toNat < s.n.toNat) : compBody s = raise .badLength s.n.toNat s := by
  rw [compBody, bwtfBody_of_long h, raise, Run.error_bind]

/-- The buffer commands, `FREQ` and `COMP` check the length first. -/
theorem buffer_body_of_long (hi : i = .sort ∨ i = .bwtf ∨ i = .bwti ∨ i = .mtfe ∨ i = .mtfd ∨ i = .freq ∨ i = .comp)
    (h : s.cfgNmax.toNat < s.n.toNat) : commandBody i s = raise .badLength s.n.toNat s := by
  rcases hi with rfl | rfl | rfl | rfl | rfl | rfl | rfl
  case inr.inr.inr.inr.inr.inr => exact compBody_of_long h
  all_goals exact checkLength_bind_of_long h _

/-- `HDRE` and `SYME` check the mode first and the length next. -/
theorem encoder_body_of_long (hi : i = .hdre ∨ i = .syme) (hmode : s.status.rcmode = .encoding)
    (h : s.cfgNmax.toNat < s.n.toNat) : commandBody i s = raise .badLength s.n.toNat s := by
  rcases hi with rfl | rfl <;> exact (checkMode_bind_of_eq hmode _).trans (checkLength_bind_of_long h _)

/-- `SYMD` checks the mode first and the length next. -/
theorem symdBody_of_long (hmode : s.status.rcmode = .decoding) (h : s.cfgNmax.toNat < s.n.toNat) :
    symdBody s = raise .badLength s.n.toNat s :=
  (checkMode_bind_of_eq hmode _).trans (checkLength_bind_of_long h _)

theorem decompBody_of_tlen (h : s.cfgTmax.toNat < s.coder.tlen.toNat) :
    decompBody s = raise .badLength s.coder.tlen.toNat s := by
  rw [decompBody, rcdiBody_of_tlen h, raise, Run.error_bind]

/-- `BWTI` of a block that is not empty checks the index next after the length (R122). -/
theorem bwtiBody_of_index_outside (hpos : 0 < s.n.toNat) (hn : s.n.toNat ≤ s.cfgNmax.toNat)
    (hindex : s.n.toNat ≤ s.bidx.toNat) : bwtiBody s = raise .badIndex s.bidx.toNat s := by
  rw [bwtiBody, (checkLength_ok_iff s _).mpr hn, Run.ok_bind, if_neg hpos.ne', if_pos hindex]

/-- A check of a register before a command's first assignment reports the register itself. -/
theorem exec_of_register_at_entry {code : FaultCode} {r : Reg64} (hi : i ≠ .reset) (hg : s.good)
    (h : commandBody i s.startCommand = raise code r.toNat s.startCommand) :
    exec i s = .next { s with
      fault := code, finfo := r,
      status := { busy := false, done := false, faulted := true, rcmode := s.status.rcmode } } := by
  rw [exec_of_raise_at_entry hi hg h, reg64_of_toNat]

end Sys2Proof.Machine

open Sys2Proof Sys2Proof.Machine

/-- Settles O18: each command's pseudocode raises the fault before its first assignment. -/
theorem lengthOrIndexOutsideFaultsAtEntry : Obligations.LengthOrIndexOutsideFaultsAtEntry := by
  refine ⟨fun i s hg hlong hi => ?_, fun i s hg hi hlong => ?_, fun s hg hpos hn hindex => ?_⟩
  · refine exec_of_register_at_entry (by rintro rfl; simp at hi) hg ?_
    have hlong : s.startCommand.cfgNmax.toNat < s.startCommand.n.toNat := hlong
    simp only [← or_assoc] at hi
    rcases hi with (hi | ⟨hi, hmode⟩) | ⟨rfl, hmode⟩
    · exact buffer_body_of_long (by simpa only [or_assoc] using hi) hlong
    · exact encoder_body_of_long hi hmode hlong
    · exact symdBody_of_long hmode hlong
  · refine exec_of_register_at_entry (by rcases hi with rfl | rfl <;> decide) hg ?_
    rcases hi with rfl | rfl
    · exact rcdiBody_of_tlen (s := s.startCommand) hlong
    · exact decompBody_of_tlen (s := s.startCommand) hlong
  · exact exec_of_register_at_entry (by decide) hg (bwtiBody_of_index_outside (s := s.startCommand) hpos hn hindex)
end

section
/-! PROOFS. The state after a reset (R231, R280, R281): a soft reset gives every register its reset value and touches no space
but `QCOUNT`, and a hardware reset leaves a state that a soft reset does not change. Settles O8, O9 and O59. -/

namespace Sys2Proof.Machine

/-! ### The soft reset (R231, R281) -/

theorem exec_reset (s : State) : exec .reset s = .next s.softReset := rfl

/-- Every register reads its reset value, the two parameters the state carries among them (R231, R280). -/
theorem readReg_softReset_toNat (s : State) (r : Reg) :
    (readReg s.softReset r).toNat = resetValue s.cfgNmax.toNat s.cfgTmax.toNat r := by cases r <;> rfl

theorem holds_softReset_qcount (s : State) (slot : Nat) : s.softReset.holds .qcount slot = some 0 := rfl

theorem holds_softReset_other (s : State) {sp : Space} (k : Nat) (h : sp ≠ .qcount) :
    s.softReset.holds sp k = s.holds sp k := by
  cases sp
  case qcount => exact absurd rfl h
  all_goals rfl

/-! ### The state after a hardware reset (R280) -/

section HardwareReset

variable (nmax tmax powerUp : Nat) (program : List HostAction)

theorem softReset_resetWith :
    (State.resetWith nmax tmax powerUp program).softReset = State.resetWith nmax tmax powerUp program := rfl

theorem mem_resetWith (sp : Space) : (State.resetWith nmax tmax powerUp program).mem sp = [] := by cases sp <;> rfl

/-- Every element holds what an unlisted one does: 0 in `QCOUNT`, and no value elsewhere. -/
theorem holds_resetWith (sp : Space) (k : Nat) :
    (State.resetWith nmax tmax powerUp program).holds sp k = if sp = .qcount then some 0 else none := by
  rw [State.holds_eq_peek, mem_resetWith, Memory.peek]
  split
  · subst sp
    rfl
  · rename_i hsp
    rw [unlisted_of_ne_qcount _ hsp, Option.map_none]

theorem memWf_resetWith : (State.resetWith nmax tmax powerUp program).memWf = true :=
  (State.memWf_iff_forall _).mpr fun sp => by rw [mem_resetWith, Memory.wf_nil]

theorem memWithin_resetWith : (State.resetWith nmax tmax powerUp program).memWithin = true :=
  (State.memWithin_iff_forall _).mpr fun sp => by rw [mem_resetWith]; rfl

theorem cursorsLegal_resetWith : (State.resetWith nmax tmax powerUp program).cursorsLegal :=
  ⟨Nat.le_refl 0, Nat.zero_le _⟩

variable {nmax tmax}

theorem cfgNmax_resetWith_toNat (hnmax : nmax < 2 ^ 64) :
    (State.resetWith nmax tmax powerUp program).cfgNmax.toNat = nmax := reg64_toNat nmax hnmax

theorem cfgTmax_resetWith_toNat (htmax : tmax < 2 ^ 64) :
    (State.resetWith nmax tmax powerUp program).cfgTmax.toNat = tmax := reg64_toNat tmax htmax

theorem readReg_resetWith_toNat (hnmax : nmax < 2 ^ 64) (htmax : tmax < 2 ^ 64) (r : Reg) :
    (readReg (State.resetWith nmax tmax powerUp program) r).toNat = resetValue nmax tmax r := by
  rw [← softReset_resetWith, readReg_softReset_toNat, cfgNmax_resetWith_toNat _ _ hnmax, cfgTmax_resetWith_toNat _ _ htmax]

/-- The register invariant that a soft reset establishes, at the state a soft reset does not change. -/
theorem regsLegal_resetWith (hnmax : nmax ≤ Config.nmaxBound) (hpos : 1 ≤ tmax) (htmax : tmax < 2 ^ 64) :
    (State.resetWith nmax tmax powerUp program).regsLegal := by
  have hnmax64 : nmax < 2 ^ 64 := hnmax.trans_lt (by decide)
  have hparams : (State.resetWith nmax tmax powerUp program).paramsLegal :=
    ⟨(cfgNmax_resetWith_toNat _ _ hnmax64).trans_le hnmax, hpos.trans_eq (cfgTmax_resetWith_toNat _ _ htmax).symm⟩
  exact softReset_resetWith nmax tmax powerUp program ▸ State.softReset_regsLegal _ hparams

end HardwareReset

end Sys2Proof.Machine

open Sys2Proof Sys2Proof.Machine

/-- Settles O8: `RESET` is the soft reset, which replaces the registers and the coder, its text excepted. -/
theorem resetRestoresRegistersAndKeepsBuffers : Obligations.ResetRestoresRegistersAndKeepsBuffers := fun s =>
  ⟨s.softReset, exec_reset s, readReg_softReset_toNat s, rfl, rfl, rfl, rfl,
    fun slot => elem_of_holds (holds_softReset_qcount s slot),
    fun _ k hsp => sameElem_of_holds s.softReset_powerUp (holds_softReset_other s k hsp)⟩

/-- Settles O9: the reset state lists no element, and with an empty queue the engine is idle. -/
theorem hardwareResetState : Obligations.HardwareResetState := fun nmax tmax powerUp program hnmax htmax =>
  ⟨readReg_resetWith_toNat powerUp program hnmax htmax, holds_resetWith nmax tmax powerUp program, rfl⟩

/-- Settles O59: the registers are those of a soft reset, and every space is empty. -/
theorem resetMeetsTheInvariants : Obligations.ResetMeetsTheInvariants := by
  refine ⟨fun nmax tmax powerUp program hnmax hpos htmax => ?_, ?_, ?_⟩
  · exact ⟨regsLegal_resetWith powerUp program hnmax hpos htmax, cursorsLegal_resetWith nmax tmax powerUp program,
      memWf_resetWith nmax tmax powerUp program, memWithin_resetWith nmax tmax powerUp program⟩
  · exact regsLegal_resetWith 0 [] (by decide) (by decide) (by decide)
  · exact memWf_resetWith _ _ 0 []
end
